-- ==== Sys2Proof/Word.lean ====
section
/-!
DEFINITION. The word types of the dsPIC33E CPU (00_scope.md R8, R10, R11) and their plainest arithmetic.
-/

namespace Sys2Proof

/-- A byte of data space. -/
abbrev Byte := BitVec 8

/-- A 16-bit data word: a working register, a special function register, a word of data space. -/
abbrev Word := BitVec 16

/-- A 24-bit program word (R91). -/
abbrev PWord := BitVec 24

/-- A program address: the 23 bits of the PC, of which bit 0 is always 0 (R33). -/
abbrev PAddr := BitVec 23

/-- An accumulator, 40 bits (R31). -/
abbrev Acc40 := BitVec 40

/-- Bits 7:0 of a word (the LSB, R10). -/
def loByte (v : Word) : Byte := v.extractLsb' 0 8

/-- Bits 15:8 of a word (the MSB, R10). -/
def hiByte (v : Word) : Byte := v.extractLsb' 8 8

/-- The word with most significant byte `hi` and least significant byte `lo`. -/
def mkWord (hi lo : Byte) : Word := hi ++ lo

/-- A byte read as an unsigned 16-bit value. -/
def zext16 (b : Byte) : Word := b.setWidth 16

/-- Bit 0 cleared: the form of every register whose bit 0 is fixed 0 (R27, R55, R65). -/
def clearBit0 (v : Word) : Word := v &&& 0xFFFE#16

/-- A program address with bit 0 cleared: "PC<0> is always forced to '0'" (R33). -/
def evenPc (a : PAddr) : PAddr := a &&& 0x7FFFFE#23

end Sys2Proof
end

