-- ==== Sys2Proof/Syntax.lean ====
section
/-!
DEFINITION. The instructions: one constructor for every row of spec/opcode_table.json (118 rows), over the operand forms
of 30_encoding.md (R138 to R142). A field of a row is an argument of its constructor; where a row fixes a field by another
one (the high dividend register of the divides) the argument stands once.
-/

namespace Sys2Proof

/-- A working register number, 0 to 15 (R20). -/
abbrev Reg := Fin 16

/-- `B`: word or byte mode (R135, R139). -/
inductive Size where
  | word
  | byte
  deriving DecidableEq, Repr

/-- `D`: the destination of a file register instruction (R139). -/
inductive FDest where
  | wreg
  | file
  deriving DecidableEq, Repr

/-- `A`: an accumulator (R139). -/
inductive Acc where
  | acca
  | accb
  deriving DecidableEq, Repr

/-- The addressing modes of the `ggg`, `hhh` fields (R140): register direct, indirect, post-modified, pre-modified, and
register offset (codes 110 and 111). -/
inductive Mode where
  | direct
  | ind
  | postDec
  | postInc
  | preDec
  | preInc
  | offset
  deriving DecidableEq, Repr

/-- The addressing modes of the `ppp`, `qqq` fields: `Mode` without register offset (R140). -/
inductive Mode6 where
  | direct
  | ind
  | postDec
  | postInc
  | preDec
  | preInc
  deriving DecidableEq, Repr

/-- The source modes 000 to 011, of the rows whose bit 6 is 0. -/
inductive PostMode where
  | direct
  | ind
  | postDec
  | postInc
  deriving DecidableEq, Repr

/-- The source modes 100 and 101, of the "pre-modify source" rows. -/
inductive PreMode where
  | preDec
  | preInc
  deriving DecidableEq, Repr

/-- The operand form a `ppp` or `qqq` code names. -/
def Mode6.toMode : Mode6 → Mode
  | .direct => .direct
  | .ind => .ind
  | .postDec => .postDec
  | .postInc => .postInc
  | .preDec => .preDec
  | .preInc => .preInc

def PostMode.toMode : PostMode → Mode
  | .direct => .direct
  | .ind => .ind
  | .postDec => .postDec
  | .postInc => .postInc

def PreMode.toMode : PreMode → Mode
  | .preDec => .preDec
  | .preInc => .preInc

/-- `xx`, `yy`, `mm`: one of W4 to W7 (R141). -/
inductive DReg where
  | w4
  | w5
  | w6
  | w7
  deriving DecidableEq, Repr

def DReg.toReg : DReg → Reg
  | .w4 => 4
  | .w5 => 5
  | .w6 => 6
  | .w7 => 7

/-- `mmm`: the multiplier operand pair (R141; 011 and 111 not valid). -/
inductive MulPair where
  | w4w5
  | w4w6
  | w4w7
  | w5w6
  | w5w7
  | w6w7
  deriving DecidableEq, Repr

def MulPair.left : MulPair → DReg
  | .w4w5 | .w4w6 | .w4w7 => .w4
  | .w5w6 | .w5w7 => .w5
  | .w6w7 => .w6

def MulPair.right : MulPair → DReg
  | .w4w5 => .w5
  | .w4w6 | .w5w6 => .w6
  | .w4w7 | .w5w7 | .w6w7 => .w7

/-- The pointer modification of a DSP prefetch (R141). -/
inductive PStep where
  | zero
  | plus2
  | plus4
  | plus6
  | minus6
  | minus4
  | minus2
  deriving DecidableEq, Repr

/-- `iiii`, `jjjj`: a DSP prefetch (R141). `ptr second k` goes through the first (W8 or W10) or the second (W9 or W11)
pointer; `offset` is `[W9+W12]` or `[W11+W12]`. -/
inductive Prefetch where
  | none
  | ptr (second : Bool) (k : PStep)
  | offset
  deriving DecidableEq, Repr

/-- `aa`: the accumulator write-back destination (R141, R264). -/
inductive WriteBack where
  | w13
  | w13Inc
  deriving DecidableEq, Repr

/-- The second operand of `MULW.UU` and `MULW.SU`: a form of the register `Ws`, or a literal in its stead (R226, R228). -/
inductive MulSrc where
  | ws (p : Mode6)
  | lit (k : BitVec 5)
  deriving DecidableEq, Repr

/-- The signedness letters of an MCU multiply, first operand first (R135). -/
inductive MulSign where
  | uu
  | us
  | su
  | ss
  deriving DecidableEq, Repr

/-- One constructor per row of spec/opcode_table.json, in the table's order. -/
inductive Instr where
  /-- `NOP` -/
  | nop
  /-- `CALL Wn` -/
  | callWn (n : Reg)
  /-- `CALL lit23`, the target's bits 22:1 -/
  | call (t : BitVec 22)
  /-- `GOTO lit23`, the target's bits 22:1 -/
  | goto (t : BitVec 22)
  /-- `RETLW{.b} #lit10, Wn` -/
  | retlw (b : Size) (k : BitVec 10) (d : Reg)
  /-- `RETURN` -/
  | ret
  /-- `RETFIE` -/
  | retfie
  /-- `RCALL Expr` -/
  | rcall (n : BitVec 16)
  /-- `DO #lit15, Expr` -/
  | doLit (k : BitVec 15) (n : BitVec 16)
  /-- `DO Wn, Expr` -/
  | doWn (r : Reg) (n : BitVec 16)
  /-- `REPEAT #lit15` -/
  | repeatLit (k : BitVec 15)
  /-- `REPEAT Wn` -/
  | repeatWn (r : Reg)
  /-- `BRA OA, Expr` -/
  | braOA (n : BitVec 16)
  /-- `BRA OB, Expr` -/
  | braOB (n : BitVec 16)
  /-- `BRA SA, Expr` -/
  | braSA (n : BitVec 16)
  /-- `BRA SB, Expr` -/
  | braSB (n : BitVec 16)
  /-- `MOV #lit16, Wnd` -/
  | movLit16 (k : BitVec 16) (d : Reg)
  /-- `BRA OV, Expr` -/
  | braOV (n : BitVec 16)
  /-- `BRA C, Expr` -/
  | braC (n : BitVec 16)
  /-- `BRA Z, Expr` -/
  | braZ (n : BitVec 16)
  /-- `BRA N, Expr` -/
  | braN (n : BitVec 16)
  /-- `BRA LE, Expr` -/
  | braLE (n : BitVec 16)
  /-- `BRA LT, Expr` -/
  | braLT (n : BitVec 16)
  /-- `BRA LEU, Expr` -/
  | braLEU (n : BitVec 16)
  /-- `BRA Expr` -/
  | bra (n : BitVec 16)
  /-- `BRA NOV, Expr` -/
  | braNOV (n : BitVec 16)
  /-- `BRA NC, Expr` -/
  | braNC (n : BitVec 16)
  /-- `BRA NZ, Expr` -/
  | braNZ (n : BitVec 16)
  /-- `BRA NN, Expr` -/
  | braNN (n : BitVec 16)
  /-- `BRA GT, Expr` -/
  | braGT (n : BitVec 16)
  /-- `BRA GE, Expr` -/
  | braGE (n : BitVec 16)
  /-- `BRA GTU, Expr` -/
  | braGTU (n : BitVec 16)
  /-- `ADD{.b} Wb, Ws, Wd`, source mode 000 to 011 -/
  | addWbWsWd (w : Reg) (b : Size) (q : Mode6) (d : Reg) (p : PostMode) (r : Reg)
  /-- `ADD{.b} Wb, Ws, Wd`, source mode 100 or 101 -/
  | addWbWsWdPre (w : Reg) (b : Size) (q : Mode6) (d : Reg) (p : PreMode) (r : Reg)
  /-- `ADD{.b} Wb, #lit5, Wd` -/
  | addWbLit5 (w : Reg) (b : Size) (q : Mode6) (d : Reg) (k : BitVec 5)
  /-- `MOV{.b} Ws, Wd`; `w` is the offset register of the modes that have one -/
  | movWsWd (w : Reg) (b : Size) (h : Mode) (d : Reg) (g : Mode) (r : Reg)
  /-- `MOV f, Wnd`, the file register's bits 15:1 -/
  | movFWnd (f : BitVec 15) (d : Reg)
  /-- `MOV Wns, f`, the file register's bits 15:1 -/
  | movWnsF (f : BitVec 15) (r : Reg)
  /-- `BSET{.b} Ws, #bit4` -/
  | bsetWs (k : BitVec 4) (b : Size) (p : Mode6) (r : Reg)
  /-- `BTSC Ws, #bit4` -/
  | btscWs (k : BitVec 4) (p : Mode6) (r : Reg)
  /-- `BSET f, #bit4`, the file register's bits 12:1 -/
  | bsetF (k : BitVec 4) (f : BitVec 12)
  /-- `BTSC f, #bit4`, the file register's bits 12:1 -/
  | btscF (k : BitVec 4) (f : BitVec 12)
  /-- `ADD{.b} #lit10, Wn` -/
  | addLit10 (b : Size) (k : BitVec 10) (d : Reg)
  /-- `MOV.b #lit8, Wnd` -/
  | movbLit8 (k : BitVec 8) (d : Reg)
  /-- `ADD{.b} f {,WREG}` -/
  | addF (b : Size) (t : FDest) (f : BitVec 13)
  /-- `MOV{.b} WREG, f` -/
  | movWregF (b : Size) (f : BitVec 13)
  /-- `MUL.UU Wb, Ws, Wnd`, source mode 000 to 011 -/
  | mulUU (w : Reg) (d : Reg) (p : PostMode) (r : Reg)
  /-- `MUL.UU Wb, Ws, Wnd`, source mode 100 or 101 -/
  | mulUUPre (w : Reg) (d : Reg) (p : PreMode) (r : Reg)
  /-- `MUL.UU Wb, #lit5, Wnd` -/
  | mulUULit5 (w : Reg) (d : Reg) (k : BitVec 5)
  /-- `MUL.US Wb, Ws, Wnd` -/
  | mulUS (w : Reg) (d : Reg) (p : Mode6) (r : Reg)
  /-- `MUL.SU Wb, Ws, Wnd`, source mode 000 to 011 -/
  | mulSU (w : Reg) (d : Reg) (p : PostMode) (r : Reg)
  /-- `MUL.SU Wb, Ws, Wnd`, source mode 100 or 101 -/
  | mulSUPre (w : Reg) (d : Reg) (p : PreMode) (r : Reg)
  /-- `MUL.SU Wb, #lit5, Wnd` -/
  | mulSULit5 (w : Reg) (d : Reg) (k : BitVec 5)
  /-- `MUL.SS Wb, Ws, Wnd` -/
  | mulSS (w : Reg) (d : Reg) (p : Mode6) (r : Reg)
  /-- `TBLRDL{.b} [Ws], Wd` -/
  | tblrdl (b : Size) (q : Mode6) (d : Reg) (p : Mode6) (r : Reg)
  /-- `TBLRDH{.b} [Ws], Wd` -/
  | tblrdh (b : Size) (q : Mode6) (d : Reg) (p : Mode6) (r : Reg)
  /-- `TBLWTL{.b} Ws, [Wd]` -/
  | tblwtl (b : Size) (q : Mode6) (d : Reg) (p : Mode6) (r : Reg)
  /-- `TBLWTH{.b} Ws, [Wd]` -/
  | tblwth (b : Size) (q : Mode6) (d : Reg) (p : Mode6) (r : Reg)
  /-- `MUL{.b} f` -/
  | mulF (b : Size) (f : BitVec 13)
  /-- `MOV.D Ws, Wnd` with `Wnd` = 2 * `d` -/
  | movDLoad (d : Fin 8) (p : Mode6) (r : Reg)
  /-- `MOV.D Wns, Wd` with `Wns` = 2 * `r` -/
  | movDStore (q : Mode6) (d : Reg) (r : Fin 8)
  /-- `MOV{.b} f {,WREG}` -/
  | movF (b : Size) (t : FDest) (f : BitVec 13)
  /-- `MAC Wm*Wn, Acc, X prefetch, Y prefetch, AWB` -/
  | mac (m : MulPair) (a : Acc) (x y : DReg) (i j : Prefetch) (wb : WriteBack)
  /-- `MAC Wm*Wn, Acc, X prefetch, Y prefetch` -/
  | macNoWb (m : MulPair) (a : Acc) (x y : DReg) (i j : Prefetch)
  /-- `MPY Wm*Wn, Acc, X prefetch, Y prefetch` -/
  | mpy (m : MulPair) (a : Acc) (x y : DReg) (i j : Prefetch)
  /-- `MSC Wm*Wn, Acc, X prefetch, Y prefetch, AWB` -/
  | msc (m : MulPair) (a : Acc) (x y : DReg) (i j : Prefetch) (wb : WriteBack)
  /-- `MSC Wm*Wn, Acc, X prefetch, Y prefetch` -/
  | mscNoWb (m : MulPair) (a : Acc) (x y : DReg) (i j : Prefetch)
  /-- `MPY.N Wm*Wn, Acc, X prefetch, Y prefetch` -/
  | mpyN (m : MulPair) (a : Acc) (x y : DReg) (i j : Prefetch)
  /-- `SFTAC Acc, Wb` -/
  | sftacWb (a : Acc) (r : Reg)
  /-- `SFTAC Acc, #Slit6` -/
  | sftacLit (a : Acc) (k : BitVec 6)
  /-- `ADD Wso, #Slit4, Acc` -/
  | addWsoAcc (a : Acc) (w : Reg) (k : BitVec 4) (g : Mode) (r : Reg)
  /-- `LAC Wso, #Slit4, Acc` -/
  | lac (a : Acc) (w : Reg) (k : BitVec 4) (g : Mode) (r : Reg)
  /-- `ADD Acc` -/
  | addAcc (a : Acc)
  /-- `SAC Acc, #Slit4, Wdo` -/
  | sac (a : Acc) (w : Reg) (k : BitVec 4) (h : Mode) (d : Reg)
  /-- `SAC.R Acc, #Slit4, Wdo` -/
  | sacR (a : Acc) (w : Reg) (k : BitVec 4) (h : Mode) (d : Reg)
  /-- `SL{.b} Ws, Wd` -/
  | slWsWd (b : Size) (q : Mode6) (d : Reg) (p : Mode6) (r : Reg)
  /-- `LSR{.b} Ws, Wd` -/
  | lsrWsWd (b : Size) (q : Mode6) (d : Reg) (p : Mode6) (r : Reg)
  /-- `ASR{.b} Ws, Wd` -/
  | asrWsWd (b : Size) (q : Mode6) (d : Reg) (p : Mode6) (r : Reg)
  /-- `SL{.b} f {,WREG}` -/
  | slF (b : Size) (t : FDest) (f : BitVec 13)
  /-- `LSR{.b} f {,WREG}` -/
  | lsrF (b : Size) (t : FDest) (f : BitVec 13)
  /-- `ASR{.b} f {,WREG}` -/
  | asrF (b : Size) (t : FDest) (f : BitVec 13)
  /-- `DIV.SW Wm, Wn` or, `dbl`, `DIV.SD Wm, Wn` -/
  | divS (dbl : Bool) (m : Reg) (n : Reg)
  /-- `DIV.UW Wm, Wn` or, `dbl`, `DIV.UD Wm, Wn` -/
  | divU (dbl : Bool) (m : Reg) (n : Reg)
  /-- `DIVF Wm, Wn` -/
  | divF (m : Reg) (n : Reg)
  /-- `SL Wb, Wns, Wnd` -/
  | slWns (w : Reg) (d : Reg) (r : Reg)
  /-- `SL Wb, #lit4, Wnd` -/
  | slLit4 (w : Reg) (d : Reg) (k : BitVec 4)
  /-- `LSR Wb, Wns, Wnd` -/
  | lsrWns (w : Reg) (d : Reg) (r : Reg)
  /-- `LSR Wb, #lit4, Wnd` -/
  | lsrLit4 (w : Reg) (d : Reg) (k : BitVec 4)
  /-- `ASR Wb, Wns, Wnd` -/
  | asrWns (w : Reg) (d : Reg) (r : Reg)
  /-- `ASR Wb, #lit4, Wnd` -/
  | asrLit4 (w : Reg) (d : Reg) (k : BitVec 4)
  /-- `MAC Wm*Wm, Acc, X prefetch, Y prefetch` -/
  | macSq (m : DReg) (a : Acc) (x y : DReg) (i j : Prefetch)
  /-- `MPY Wm*Wm, Acc, X prefetch, Y prefetch` -/
  | mpySq (m : DReg) (a : Acc) (x y : DReg) (i j : Prefetch)
  /-- `EDAC Wm*Wm, Acc, [Wx], [Wy], Wxd` -/
  | edac (m : DReg) (a : Acc) (x : DReg) (i j : Prefetch)
  /-- `ED Wm*Wm, Acc, [Wx], [Wy], Wxd` -/
  | ed (m : DReg) (a : Acc) (x : DReg) (i j : Prefetch)
  /-- `LNK #lit14`, the literal's bits 13:1 -/
  | lnk (k : BitVec 13)
  /-- `ULNK` -/
  | ulnk
  /-- `SE Ws, Wnd` -/
  | se (d : Reg) (p : Mode6) (r : Reg)
  /-- `ZE Ws, Wnd` -/
  | ze (d : Reg) (p : Mode6) (r : Reg)
  /-- `DISI #lit14` -/
  | disi (k : BitVec 14)
  /-- `RESET` -/
  | reset
  /-- `PWRSAV #lit1` -/
  | pwrsav (k : BitVec 1)
  /-- `POP.S` -/
  | popS
  /-- `PUSH.S` -/
  | pushS
  /-- `CTXTSWP #lit3` (no encoding in the spec) -/
  | ctxtswpLit (k : BitVec 3)
  /-- `CTXTSWP Wn` (no encoding) -/
  | ctxtswpWn (r : Reg)
  /-- `BOOTSWP` (no encoding) -/
  | bootswp
  /-- `CALL.L Wn` (no encoding) -/
  | callLWn (n : Reg)
  /-- `RCALL Wn` (no encoding) -/
  | rcallWn (n : Reg)
  /-- `MULW.UU Wb, Ws, Wnd` and `MULW.UU Wb, #lit5, Wnd` (no encoding); beside a literal `r` is W0 -/
  | mulwUU (w : Reg) (d : Reg) (y : MulSrc) (r : Reg)
  /-- `MULW.US Wb, Ws, Wnd` (no encoding) -/
  | mulwUS (w : Reg) (d : Reg) (p : Mode6) (r : Reg)
  /-- `MULW.SU Wb, Ws, Wnd` and `MULW.SU Wb, #lit5, Wnd` (no encoding); beside a literal `r` is W0 -/
  | mulwSU (w : Reg) (d : Reg) (y : MulSrc) (r : Reg)
  /-- `MULW.SS Wb, Ws, Wnd` (no encoding) -/
  | mulwSS (w : Reg) (d : Reg) (p : Mode6) (r : Reg)
  /-- `MUL.xx Wb, Ws, Acc` (no encoding) -/
  | mulAcc (x : MulSign) (w : Reg) (p : Mode6) (r : Reg) (a : Acc)
  /-- `TRAP` (no encoding, no operand in the spec) -/
  | trap
  /-- `FEX` (no encoding) -/
  | fex
  /-- `SSTEP` (no encoding) -/
  | sstep
  /-- `URUN` (no encoding) -/
  | urun
  /-- the compare and skip class (no encoding, no operand in the spec) -/
  | compareSkip
  deriving DecidableEq, Repr

/-- Program words an instruction takes: two for `CALL`, `GOTO` and `DO`, one for every other (R131). -/
def Instr.words : Instr → Nat
  | .call _ | .goto _ | .doLit _ _ | .doWn _ _ => 2
  | _ => 1

end Sys2Proof
end

