-- ==== Sys2Proof/WellFormed.lean ====
section
/-!
DEFINITION. Which instructions the operand rules allow, beyond what the argument types already say.
-/

namespace Sys2Proof

/-- A literal of a byte instruction has 8 bits: "byte mode allows 0 to 255" (R138). -/
def byteLitOk (b : Size) (k : BitVec 10) : Bool :=
  match b with
  | .word => true
  | .byte => decide (k.toNat < 256)

/-- "`Wnd` an even register W0 to W12" (R226). -/
def mulDestOk (d : Reg) : Bool := decide (d.val % 2 = 0 ∧ d.val ≤ 12)

/-- A bit number of a byte operand is 0 to 7 (R220). -/
def bitOk (b : Size) (k : BitVec 4) : Bool :=
  match b with
  | .word => true
  | .byte => decide (k.toNat < 8)

/-- The 32-bit dividend of the `D` forms is an even register and the next one (R300). -/
def dividendOk (dbl : Bool) (m : Reg) : Bool := !dbl || decide (m.val % 2 = 0)

/-- `ED` and `EDAC` have both prefetches (R250). -/
def prefetchGiven (i : Prefetch) : Bool := decide (i ≠ .none)

/-- A `MULW` with a literal names no register (R228). -/
def mulSrcOk (y : MulSrc) (r : Reg) : Bool :=
  match y with
  | .ws _ => true
  | .lit _ => decide (r = 0)

/-- The operand restrictions of the instruction rules. R327 gives `CALL.L` its target in `W[n+1]`, and there is no W16: that n = 15
is no instruction is the model's choice (DESIGN CHOICE, log 30). -/
def Instr.wellFormed : Instr → Bool
  | .retlw b k _ => byteLitOk b k
  | .addLit10 b k _ => byteLitOk b k
  | .bsetWs k b _ _ => bitOk b k
  | .mulUU _ d _ _ | .mulUUPre _ d _ _ | .mulUULit5 _ d _ | .mulUS _ d _ _ => mulDestOk d
  | .mulSU _ d _ _ | .mulSUPre _ d _ _ | .mulSULit5 _ d _ | .mulSS _ d _ _ => mulDestOk d
  | .mulwUU _ _ y r | .mulwSU _ _ y r => mulSrcOk y r
  | .movDLoad _ p r => decide (p = .direct → r.val % 2 = 0)
  | .movDStore q d _ => decide (q = .direct → d.val ≠ 15)
  | .divS dbl m _ | .divU dbl m _ => dividendOk dbl m
  | .edac _ _ _ i j | .ed _ _ _ i j => prefetchGiven i && prefetchGiven j
  | .callLWn n => decide (n.val ≠ 15)
  | _ => true

end Sys2Proof
end

