-- ==== Sys2Proof/Decode.lean ====
section
/-!
DEFINITION. The decoder (30_encoding.md R131 to R147 and the patterns of spec/opcode_table.json), total on any two program
words and rejecting by name, and after it the encoder. Every pattern is general knowledge of the spec's writer (R130; log
30). Fields are read and written by division and remainder on the word's number, so that both sides read like the table.
-/

namespace Sys2Proof

/-- Why a program word is not an instruction of this spec. -/
inductive Reject where
  /-- No row of the table matches: most likely an instruction outside the spec (R144). -/
  | noRow
  /-- A row matches but a field holds a value the spec calls not valid (R138, R140, R141) or the operand rules exclude. -/
  | reservedField
  /-- The second word of a two-word instruction does not have its fixed zero bits (R132, the rows' `word2`). -/
  | secondWord
  deriving DecidableEq, Repr

/-- Bits `lo + n - 1 : lo` of a word's number. -/
def field (w lo n : Nat) : Nat := w / 2 ^ lo % 2 ^ n

/-- The register a 4-bit field names. -/
def regAt (w lo : Nat) : Reg := Fin.ofNat 16 (w / 2 ^ lo)

/-- The literal an n-bit field holds. -/
def litAt (n w lo : Nat) : BitVec n := BitVec.ofNat n (w / 2 ^ lo)

def Size.code : Size → Nat
  | .word => 0
  | .byte => 1

def Size.ofCode : Nat → Size
  | 0 => .word
  | _ => .byte

def FDest.code : FDest → Nat
  | .wreg => 0
  | .file => 1

def FDest.ofCode : Nat → FDest
  | 0 => .wreg
  | _ => .file

def Acc.code : Acc → Nat
  | .acca => 0
  | .accb => 1

def Acc.ofCode : Nat → Acc
  | 0 => .acca
  | _ => .accb

def WriteBack.code : WriteBack → Nat
  | .w13 => 0
  | .w13Inc => 1

def WriteBack.ofCode : Nat → WriteBack
  | 0 => .w13
  | _ => .w13Inc

/-- The codes of R140. -/
def Mode.code : Mode → Nat
  | .direct => 0
  | .ind => 1
  | .postDec => 2
  | .postInc => 3
  | .preDec => 4
  | .preInc => 5
  | .offset => 6

/-- Codes 110 and 111 are both the register offset form (R140). -/
def Mode.ofCode : Nat → Mode
  | 0 => .direct
  | 1 => .ind
  | 2 => .postDec
  | 3 => .postInc
  | 4 => .preDec
  | 5 => .preInc
  | _ => .offset

def Mode6.code : Mode6 → Nat
  | .direct => 0
  | .ind => 1
  | .postDec => 2
  | .postInc => 3
  | .preDec => 4
  | .preInc => 5

/-- Codes 110 and 111 are not valid in `ppp` and `qqq` (R140). -/
def Mode6.ofCode : Nat → Option Mode6
  | 0 => some .direct
  | 1 => some .ind
  | 2 => some .postDec
  | 3 => some .postInc
  | 4 => some .preDec
  | 5 => some .preInc
  | _ => none

def PostMode.code : PostMode → Nat
  | .direct => 0
  | .ind => 1
  | .postDec => 2
  | .postInc => 3

def PostMode.ofCode : Nat → PostMode
  | 0 => .direct
  | 1 => .ind
  | 2 => .postDec
  | _ => .postInc

def PreMode.code : PreMode → Nat
  | .preDec => 0
  | .preInc => 1

def PreMode.ofCode : Nat → PreMode
  | 0 => .preDec
  | _ => .preInc

def DReg.code : DReg → Nat
  | .w4 => 0
  | .w5 => 1
  | .w6 => 2
  | .w7 => 3

def DReg.ofCode : Nat → DReg
  | 0 => .w4
  | 1 => .w5
  | 2 => .w6
  | _ => .w7

def MulPair.code : MulPair → Nat
  | .w4w5 => 0
  | .w4w6 => 1
  | .w4w7 => 2
  | .w5w6 => 4
  | .w5w7 => 5
  | .w6w7 => 6

/-- Codes 011 and 111 are not valid (R141). -/
def MulPair.ofCode : Nat → Option MulPair
  | 0 => some .w4w5
  | 1 => some .w4w6
  | 2 => some .w4w7
  | 4 => some .w5w6
  | 5 => some .w5w7
  | 6 => some .w6w7
  | _ => none

def PStep.code : PStep → Nat
  | .zero => 0
  | .plus2 => 1
  | .plus4 => 2
  | .plus6 => 3
  | .minus6 => 5
  | .minus4 => 6
  | .minus2 => 7

/-- The prefetch codes of R141. -/
def Prefetch.code : Prefetch → Nat
  | .none => 4
  | .ptr false k => k.code
  | .ptr true k => 8 + k.code
  | .offset => 12

def Prefetch.ofCode : Nat → Prefetch
  | 0 => .ptr false .zero
  | 1 => .ptr false .plus2
  | 2 => .ptr false .plus4
  | 3 => .ptr false .plus6
  | 5 => .ptr false .minus6
  | 6 => .ptr false .minus4
  | 7 => .ptr false .minus2
  | 8 => .ptr true .zero
  | 9 => .ptr true .plus2
  | 10 => .ptr true .plus4
  | 11 => .ptr true .plus6
  | 12 => .offset
  | 13 => .ptr true .minus6
  | 14 => .ptr true .minus4
  | 15 => .ptr true .minus2
  | _ => .none

/-- An instruction whose operands the rules allow; otherwise its encoding is reserved. -/
def checked (i : Instr) : Except Reject Instr :=
  if i.wellFormed then .ok i else .error .reservedField

/-- An instruction with one `ppp` or `qqq` field of code `c`. -/
def withMode (c : Nat) (f : Mode6 → Instr) : Except Reject Instr :=
  match Mode6.ofCode c with
  | some p => checked (f p)
  | none => .error .reservedField

/-- An instruction with a `qqq` field of code `c` and a `ppp` field of code `c'`. -/
def withModes (c c' : Nat) (f : Mode6 → Mode6 → Instr) : Except Reject Instr :=
  match Mode6.ofCode c, Mode6.ofCode c' with
  | some q, some p => checked (f q p)
  | _, _ => .error .reservedField

/-- An instruction with an `mmm` field of code `c`. -/
def withPair (c : Nat) (f : MulPair → Instr) : Except Reject Instr :=
  match MulPair.ofCode c with
  | some m => checked (f m)
  | none => .error .reservedField

/-- An instruction the word has only with this value of its remaining fixed bits. -/
def fixedBits (c : Bool) (i : Except Reject Instr) : Except Reject Instr :=
  if c then i else .error .noRow

/-- `CALL` and `GOTO`: bits 15:1 of the first word and bits 6:0 of the second are the target's bits 22:1 (R138). -/
def decodeTarget (w v : Nat) (f : BitVec 22 → Instr) : Except Reject Instr :=
  if w % 2 = 0 then
    if v < 128 then checked (f (BitVec.ofNat 22 (v * 32768 + field w 1 15))) else .error .secondWord
  else .error .noRow

/-- Words 0x0xxxxx. `w` is the first word's number, `v` the second's. -/
def decode0 (w v : Nat) : Except Reject Instr :=
  match w / 65536 with
  | 0x00 => checked .nop
  | 0x01 => fixedBits (decide (w % 65536 < 16)) (checked (.callWn (regAt w 0)))
  | 0x02 => decodeTarget w v .call
  | 0x04 => decodeTarget w v .goto
  | 0x05 =>
    fixedBits (decide (field w 15 1 = 0)) (checked (.retlw (Size.ofCode (field w 14 1)) (litAt 10 w 4) (regAt w 0)))
  | 0x06 =>
    if w % 65536 = 0 then checked .ret
    else if w % 65536 = 0x4000 then checked .retfie else .error .noRow
  | 0x07 => checked (.rcall (litAt 16 w 0))
  | 0x08 =>
    if w % 65536 < 32768 then
      if v < 65536 then checked (.doLit (litAt 15 w 0) (BitVec.ofNat 16 v)) else .error .secondWord
    else if field w 4 12 = 0x800 then
      if v < 65536 then checked (.doWn (regAt w 0) (BitVec.ofNat 16 v)) else .error .secondWord
    else .error .noRow
  | 0x09 =>
    if w % 65536 < 32768 then checked (.repeatLit (litAt 15 w 0))
    else fixedBits (decide (field w 4 12 = 0x800)) (checked (.repeatWn (regAt w 0)))
  | 0x0C => checked (.braOA (litAt 16 w 0))
  | 0x0D => checked (.braOB (litAt 16 w 0))
  | 0x0E => checked (.braSA (litAt 16 w 0))
  | 0x0F => checked (.braSB (litAt 16 w 0))
  | _ => .error .noRow

/-- Words 0x3xxxxx: the branches on MCU conditions (R322). -/
def decode3 (w : Nat) : Except Reject Instr :=
  match field w 16 4 with
  | 0 => checked (.braOV (litAt 16 w 0))
  | 1 => checked (.braC (litAt 16 w 0))
  | 2 => checked (.braZ (litAt 16 w 0))
  | 3 => checked (.braN (litAt 16 w 0))
  | 4 => checked (.braLE (litAt 16 w 0))
  | 5 => checked (.braLT (litAt 16 w 0))
  | 6 => checked (.braLEU (litAt 16 w 0))
  | 7 => checked (.bra (litAt 16 w 0))
  | 8 => checked (.braNOV (litAt 16 w 0))
  | 9 => checked (.braNC (litAt 16 w 0))
  | 10 => checked (.braNZ (litAt 16 w 0))
  | 11 => checked (.braNN (litAt 16 w 0))
  | 12 => checked (.braGT (litAt 16 w 0))
  | 13 => checked (.braGE (litAt 16 w 0))
  | 14 => checked (.braGTU (litAt 16 w 0))
  | _ => .error .noRow

/-- Words 0x4xxxxx: `ADD Wb, Ws, Wd` and `ADD Wb, #lit5, Wd`, told apart by bits 6:5. -/
def decode4 (w : Nat) : Except Reject Instr :=
  if field w 19 1 = 0 then
    withMode (field w 11 3) fun q =>
      if field w 6 1 = 0 then
        .addWbWsWd (regAt w 15) (Size.ofCode (field w 14 1)) q (regAt w 7) (PostMode.ofCode (field w 4 2)) (regAt w 0)
      else if field w 5 1 = 0 then
        .addWbWsWdPre (regAt w 15) (Size.ofCode (field w 14 1)) q (regAt w 7) (PreMode.ofCode (field w 4 1)) (regAt w 0)
      else .addWbLit5 (regAt w 15) (Size.ofCode (field w 14 1)) q (regAt w 7) (litAt 5 w 0)
  else .error .noRow

/-- Words 0x7xxxxx: `MOV Ws, Wd`. -/
def decode7 (w : Nat) : Except Reject Instr :=
  fixedBits (decide (field w 19 1 = 1)) (checked (.movWsWd (regAt w 15) (Size.ofCode (field w 14 1))
    (Mode.ofCode (field w 11 3)) (regAt w 7) (Mode.ofCode (field w 4 3)) (regAt w 0)))

/-- Words 0x8xxxxx: the word moves between a register and a file register. -/
def decode8 (w : Nat) : Except Reject Instr :=
  if field w 19 1 = 0 then checked (.movFWnd (litAt 15 w 4) (regAt w 0))
  else checked (.movWnsF (litAt 15 w 4) (regAt w 0))

/-- The bit number of `BSET f` and `BTSC f`: bits 15:13 are bit4[2:0], bit 0 is bit4[3] (the rows' note). -/
def fileBit (w : Nat) : BitVec 4 := BitVec.ofNat 4 (field w 0 1 * 8 + field w 13 3)

/-- Words 0xAxxxxx: the bit instructions. -/
def decodeA (w : Nat) : Except Reject Instr :=
  match field w 16 4 with
  | 0x0 =>
    fixedBits (decide (field w 11 1 = 0 ∧ field w 7 3 = 0)) (withMode (field w 4 3) fun p =>
      .bsetWs (litAt 4 w 12) (Size.ofCode (field w 10 1)) p (regAt w 0))
  | 0x7 =>
    fixedBits (decide (field w 7 5 = 0)) (withMode (field w 4 3) fun p => .btscWs (litAt 4 w 12) p (regAt w 0))
  | 0x8 => checked (.bsetF (fileBit w) (litAt 12 w 1))
  | 0xF => checked (.btscF (fileBit w) (litAt 12 w 1))
  | _ => .error .noRow

/-- A word of the 0xBxxxxx group whose top 9 bits select a row with `B`, `D` and `f`. -/
def decodeFile (w : Nat) (f : Size → FDest → BitVec 13 → Instr) : Except Reject Instr :=
  checked (f (Size.ofCode (field w 14 1)) (FDest.ofCode (field w 13 1)) (litAt 13 w 0))

/-- `B`, `qqq`, `dddd`, `ppp`, `ssss` of the two-operand rows. -/
def decodeTwo (w : Nat) (f : Size → Mode6 → Reg → Mode6 → Reg → Instr) : Except Reject Instr :=
  withModes (field w 11 3) (field w 4 3) fun q p => f (Size.ofCode (field w 14 1)) q (regAt w 7) p (regAt w 0)

/-- Words 0xBxxxxx, by bits 19:15. -/
def decodeB (w : Nat) : Except Reject Instr :=
  match field w 15 5 with
  | 0x00 => checked (.addLit10 (Size.ofCode (field w 14 1)) (litAt 10 w 4) (regAt w 0))
  | 0x07 => fixedBits (decide (field w 12 3 = 4)) (checked (.movbLit8 (litAt 8 w 4) (regAt w 0)))
  | 0x08 => decodeFile w .addF
  | 0x0F =>
    fixedBits (decide (field w 13 1 = 1)) (checked (.movWregF (Size.ofCode (field w 14 1)) (litAt 13 w 0)))
  | 0x10 =>
    if field w 6 1 = 0 then checked (.mulUU (regAt w 11) (regAt w 7) (PostMode.ofCode (field w 4 2)) (regAt w 0))
    else if field w 5 1 = 0 then
      checked (.mulUUPre (regAt w 11) (regAt w 7) (PreMode.ofCode (field w 4 1)) (regAt w 0))
    else checked (.mulUULit5 (regAt w 11) (regAt w 7) (litAt 5 w 0))
  | 0x11 => withMode (field w 4 3) fun p => .mulUS (regAt w 11) (regAt w 7) p (regAt w 0)
  | 0x12 =>
    if field w 6 1 = 0 then checked (.mulSU (regAt w 11) (regAt w 7) (PostMode.ofCode (field w 4 2)) (regAt w 0))
    else if field w 5 1 = 0 then
      checked (.mulSUPre (regAt w 11) (regAt w 7) (PreMode.ofCode (field w 4 1)) (regAt w 0))
    else checked (.mulSULit5 (regAt w 11) (regAt w 7) (litAt 5 w 0))
  | 0x13 => withMode (field w 4 3) fun p => .mulSS (regAt w 11) (regAt w 7) p (regAt w 0)
  | 0x14 => decodeTwo w .tblrdl
  | 0x15 => decodeTwo w .tblrdh
  | 0x16 => decodeTwo w .tblwtl
  | 0x17 => decodeTwo w .tblwth
  | 0x18 =>
    fixedBits (decide (field w 13 1 = 0)) (checked (.mulF (Size.ofCode (field w 14 1)) (litAt 13 w 0)))
  | 0x1C =>
    fixedBits (decide (field w 11 4 = 0 ∧ field w 7 1 = 0)) (withMode (field w 4 3) fun p =>
      .movDLoad (Fin.ofNat 8 (w / 2 ^ 8)) p (regAt w 0))
  | 0x1D =>
    fixedBits (decide (field w 14 1 = 0 ∧ field w 4 3 = 0 ∧ field w 0 1 = 0)) (withMode (field w 11 3) fun q =>
      .movDStore q (regAt w 7) (Fin.ofNat 8 (w / 2 ^ 1)))
  | 0x1F => decodeFile w .movF
  | _ => .error .noRow

/-- The fields of a multiply row: `A`, `xx`, `yy`, `iiii`, `jjjj` (R141). -/
def dspFields (w : Nat) (f : Acc → DReg → DReg → Prefetch → Prefetch → Instr) : Instr :=
  f (Acc.ofCode (field w 15 1)) (DReg.ofCode (field w 12 2)) (DReg.ofCode (field w 10 2))
    (Prefetch.ofCode (field w 6 4)) (Prefetch.ofCode (field w 2 4))

/-- Words 0xCxxxxx: the multiply class (bit 19 = 0) and the accumulator instructions. -/
def decodeC (w : Nat) : Except Reject Instr :=
  if field w 19 1 = 0 then
    withPair (field w 16 3) fun m =>
      if field w 14 1 = 0 then
        if field w 1 1 = 0 then
          dspFields w fun a x y i j => .mac m a x y i j (WriteBack.ofCode (field w 0 1))
        else if field w 0 1 = 0 then dspFields w (.macNoWb m)
        else dspFields w (.mpy m)
      else
        if field w 1 1 = 0 then
          dspFields w fun a x y i j => .msc m a x y i j (WriteBack.ofCode (field w 0 1))
        else if field w 0 1 = 0 then dspFields w (.mscNoWb m)
        else dspFields w (.mpyN m)
  else
    match field w 16 3 with
    | 0 =>
      if field w 4 11 = 0 then checked (.sftacWb (Acc.ofCode (field w 15 1)) (regAt w 0))
      else fixedBits (decide (field w 6 9 = 1)) (checked (.sftacLit (Acc.ofCode (field w 15 1)) (litAt 6 w 0)))
    | 1 =>
      checked (.addWsoAcc (Acc.ofCode (field w 15 1)) (regAt w 11) (litAt 4 w 7) (Mode.ofCode (field w 4 3)) (regAt w 0))
    | 2 => checked (.lac (Acc.ofCode (field w 15 1)) (regAt w 11) (litAt 4 w 7) (Mode.ofCode (field w 4 3)) (regAt w 0))
    | 3 => fixedBits (decide (field w 0 15 = 0)) (checked (.addAcc (Acc.ofCode (field w 15 1))))
    | 4 => checked (.sac (Acc.ofCode (field w 15 1)) (regAt w 11) (litAt 4 w 7) (Mode.ofCode (field w 4 3)) (regAt w 0))
    | 5 => checked (.sacR (Acc.ofCode (field w 15 1)) (regAt w 11) (litAt 4 w 7) (Mode.ofCode (field w 4 3)) (regAt w 0))
    | _ => .error .noRow

/-- `DIV.S` and `DIV.U`: `vvvv` is Wm; `tttt` is 0 in the 16-bit form and Wm + 1 in the 32-bit form (the rows' notes). -/
def decodeDiv (w : Nat) (f : Bool → Reg → Reg → Instr) : Except Reject Instr :=
  if field w 4 2 = 0 then
    if field w 6 1 = 0 then
      if field w 11 4 = 0 then checked (f false (regAt w 7) (regAt w 0)) else .error .reservedField
    else if field w 11 4 = field w 7 4 + 1 then checked (f true (regAt w 7) (regAt w 0)) else .error .reservedField
  else .error .noRow

/-- The multi-bit shifts: bits 6:4 are 000 for a register count, 100 for a literal. -/
def decodeShift (w : Nat) (f : Reg → Reg → Reg → Instr) (g : Reg → Reg → BitVec 4 → Instr) : Except Reject Instr :=
  if field w 4 3 = 0 then checked (f (regAt w 11) (regAt w 7) (regAt w 0))
  else fixedBits (decide (field w 4 3 = 4)) (checked (g (regAt w 11) (regAt w 7) (litAt 4 w 0)))

/-- Words 0xDxxxxx, by bits 19:15. -/
def decodeD (w : Nat) : Except Reject Instr :=
  match field w 15 5 with
  | 0x00 => decodeTwo w .slWsWd
  | 0x02 => decodeTwo w .lsrWsWd
  | 0x03 => decodeTwo w .asrWsWd
  | 0x08 => decodeFile w .slF
  | 0x0A => decodeFile w .lsrF
  | 0x0B => decodeFile w .asrF
  | 0x10 => decodeDiv w .divS
  | 0x11 => decodeDiv w .divU
  | 0x12 => fixedBits (decide (field w 4 7 = 0)) (checked (.divF (regAt w 11) (regAt w 0)))
  | 0x1A => decodeShift w .slWns .slLit4
  | 0x1C => decodeShift w .lsrWns .lsrLit4
  | 0x1D => decodeShift w .asrWns .asrLit4
  | _ => .error .noRow

/-- Words 0xFxxxxx: the square forms, `ED`, `EDAC` (bits 19:18 = 00), frames, extensions and system instructions. -/
def decodeF (w : Nat) : Except Reject Instr :=
  if field w 18 2 = 0 then
    if field w 14 1 = 0 then
      match field w 0 2 with
      | 0 => checked (dspFields w (.macSq (DReg.ofCode (field w 16 2))))
      | 1 => checked (dspFields w (.mpySq (DReg.ofCode (field w 16 2))))
      | _ => .error .noRow
    else if field w 10 2 = 0 then
      match field w 0 2 with
      | 2 => checked (dspFields w fun a x _ i j => .edac (DReg.ofCode (field w 16 2)) a x i j)
      | 3 => checked (dspFields w fun a x _ i j => .ed (DReg.ofCode (field w 16 2)) a x i j)
      | _ => .error .noRow
    else .error .noRow
  else
    match field w 16 4 with
    | 0xA =>
      if field w 14 2 = 0 then fixedBits (decide (field w 0 1 = 0)) (checked (.lnk (litAt 13 w 1)))
      else fixedBits (decide (field w 0 16 = 0x8000)) (checked .ulnk)
    | 0xB =>
      if field w 11 5 = 0 then withMode (field w 4 3) fun p => .se (regAt w 7) p (regAt w 0)
      else fixedBits (decide (field w 11 5 = 16)) (withMode (field w 4 3) fun p => .ze (regAt w 7) p (regAt w 0))
    | 0xC => fixedBits (decide (field w 14 2 = 0)) (checked (.disi (litAt 14 w 0)))
    | 0xE =>
      if field w 0 16 = 0 then checked .reset
      else if field w 1 15 = 0x2000 then checked (.pwrsav (litAt 1 w 0))
      else if field w 0 16 = 0x8000 then checked .popS
      else fixedBits (decide (field w 0 16 = 0xA000)) (checked .pushS)
    | _ => .error .noRow

/-- R147: the instruction two consecutive program words hold; the second word is read only by the two-word instructions. -/
def decodeNat (w v : Nat) : Except Reject Instr :=
  match w / 1048576 with
  | 0x0 => decode0 w v
  | 0x2 => checked (.movLit16 (litAt 16 w 4) (regAt w 0))
  | 0x3 => decode3 w
  | 0x4 => decode4 w
  | 0x7 => decode7 w
  | 0x8 => decode8 w
  | 0xA => decodeA w
  | 0xB => decodeB w
  | 0xC => decodeC w
  | 0xD => decodeD w
  | 0xF => decodeF w
  | _ => .error .noRow

/-- The decoder on program words. -/
def decode (w1 w2 : PWord) : Except Reject Instr := decodeNat w1.toNat w2.toNat

/-- "it is two words exactly when the first word decodes as" `GOTO`, `CALL` or `DO` (R131). -/
def twoWord (w1 : PWord) : Bool :=
  let w := w1.toNat
  match w / 65536 with
  | 0x02 => decide (w % 2 = 0)
  | 0x04 => decide (w % 2 = 0)
  | 0x08 => decide (w % 65536 < 32768 ∨ field w 4 12 = 0x800)
  | _ => false

/-- The instruction a table row's word stands for: the first program word is bits 23:0 of `w`, the second bits 47:24. -/
def decodeTableWord (nbits w : Nat) : Option Instr :=
  match decode (BitVec.ofNat 24 (w % 2 ^ nbits)) (BitVec.ofNat 24 (w % 2 ^ nbits / 16777216)) with
  | .ok i => some i
  | .error _ => none

/-! ## The encoder -/

/-- `B`, `qqq`, `dddd`, `ppp`, `ssss`. -/
def encTwo (op : Nat) (b : Size) (q : Mode6) (d : Reg) (p : Mode6) (r : Reg) : List Nat :=
  [op + b.code * 2 ^ 14 + q.code * 2 ^ 11 + d.val * 2 ^ 7 + p.code * 2 ^ 4 + r.val]

/-- `B`, `D`, `f`. -/
def encFile (op : Nat) (b : Size) (t : FDest) (f : BitVec 13) : List Nat :=
  [op + b.code * 2 ^ 14 + t.code * 2 ^ 13 + f.toNat]

/-- `wwww`, `dddd` and the low seven bits of an MCU multiply or a multi-bit shift. -/
def encWD (op : Nat) (w d : Reg) (low : Nat) : List Nat := [op + w.val * 2 ^ 11 + d.val * 2 ^ 7 + low]

/-- `A`, `wwww`, `rrrr`, mode, register of the accumulator moves. -/
def encAccMove (op : Nat) (a : Acc) (w : Reg) (k : BitVec 4) (g : Mode) (r : Reg) : List Nat :=
  [op + a.code * 2 ^ 15 + w.val * 2 ^ 11 + k.toNat * 2 ^ 7 + g.code * 2 ^ 4 + r.val]

/-- The fields of a multiply row above its low bits. -/
def encDsp (op m : Nat) (a : Acc) (x y : Nat) (i j : Prefetch) : List Nat :=
  [op + m * 2 ^ 16 + a.code * 2 ^ 15 + x * 2 ^ 12 + y * 2 ^ 10 + i.code * 2 ^ 6 + j.code * 2 ^ 2]

/-- The divides' `tttt`, `vvvv`, `W`, `ssss`. -/
def encDiv (op : Nat) (dbl : Bool) (m n : Reg) : List Nat :=
  match dbl with
  | false => [op + m.val * 2 ^ 7 + n.val]
  | true => [op + (m.val + 1) * 2 ^ 11 + m.val * 2 ^ 7 + 2 ^ 6 + n.val]

/-- The numbers of an instruction's words, empty where the table gives no encoding. -/
def encodeNat : Instr → List Nat
  | .nop => [0x000000]
  | .callWn n => [0x010000 + n.val]
  | .call t => [0x020000 + t.toNat % 32768 * 2, t.toNat / 32768]
  | .goto t => [0x040000 + t.toNat % 32768 * 2, t.toNat / 32768]
  | .retlw b k d => [0x050000 + b.code * 2 ^ 14 + k.toNat * 2 ^ 4 + d.val]
  | .ret => [0x060000]
  | .retfie => [0x064000]
  | .rcall n => [0x070000 + n.toNat]
  | .doLit k n => [0x080000 + k.toNat, n.toNat]
  | .doWn r n => [0x088000 + r.val, n.toNat]
  | .repeatLit k => [0x090000 + k.toNat]
  | .repeatWn r => [0x098000 + r.val]
  | .braOA n => [0x0C0000 + n.toNat]
  | .braOB n => [0x0D0000 + n.toNat]
  | .braSA n => [0x0E0000 + n.toNat]
  | .braSB n => [0x0F0000 + n.toNat]
  | .movLit16 k d => [0x200000 + k.toNat * 2 ^ 4 + d.val]
  | .braOV n => [0x300000 + n.toNat]
  | .braC n => [0x310000 + n.toNat]
  | .braZ n => [0x320000 + n.toNat]
  | .braN n => [0x330000 + n.toNat]
  | .braLE n => [0x340000 + n.toNat]
  | .braLT n => [0x350000 + n.toNat]
  | .braLEU n => [0x360000 + n.toNat]
  | .bra n => [0x370000 + n.toNat]
  | .braNOV n => [0x380000 + n.toNat]
  | .braNC n => [0x390000 + n.toNat]
  | .braNZ n => [0x3A0000 + n.toNat]
  | .braNN n => [0x3B0000 + n.toNat]
  | .braGT n => [0x3C0000 + n.toNat]
  | .braGE n => [0x3D0000 + n.toNat]
  | .braGTU n => [0x3E0000 + n.toNat]
  | .addWbWsWd w b q d p r =>
    [0x400000 + w.val * 2 ^ 15 + b.code * 2 ^ 14 + q.code * 2 ^ 11 + d.val * 2 ^ 7 + p.code * 2 ^ 4 + r.val]
  | .addWbWsWdPre w b q d p r =>
    [0x400040 + w.val * 2 ^ 15 + b.code * 2 ^ 14 + q.code * 2 ^ 11 + d.val * 2 ^ 7 + p.code * 2 ^ 4 + r.val]
  | .addWbLit5 w b q d k =>
    [0x400060 + w.val * 2 ^ 15 + b.code * 2 ^ 14 + q.code * 2 ^ 11 + d.val * 2 ^ 7 + k.toNat]
  | .movWsWd w b h d g r =>
    [0x780000 + w.val * 2 ^ 15 + b.code * 2 ^ 14 + h.code * 2 ^ 11 + d.val * 2 ^ 7 + g.code * 2 ^ 4 + r.val]
  | .movFWnd f d => [0x800000 + f.toNat * 2 ^ 4 + d.val]
  | .movWnsF f r => [0x880000 + f.toNat * 2 ^ 4 + r.val]
  | .bsetWs k b p r => [0xA00000 + k.toNat * 2 ^ 12 + b.code * 2 ^ 10 + p.code * 2 ^ 4 + r.val]
  | .btscWs k p r => [0xA70000 + k.toNat * 2 ^ 12 + p.code * 2 ^ 4 + r.val]
  | .bsetF k f => [0xA80000 + k.toNat % 8 * 2 ^ 13 + f.toNat * 2 + k.toNat / 8]
  | .btscF k f => [0xAF0000 + k.toNat % 8 * 2 ^ 13 + f.toNat * 2 + k.toNat / 8]
  | .addLit10 b k d => [0xB00000 + b.code * 2 ^ 14 + k.toNat * 2 ^ 4 + d.val]
  | .movbLit8 k d => [0xB3C000 + k.toNat * 2 ^ 4 + d.val]
  | .addF b t f => encFile 0xB40000 b t f
  | .movWregF b f => [0xB7A000 + b.code * 2 ^ 14 + f.toNat]
  | .mulUU w d p r => encWD 0xB80000 w d (p.code * 2 ^ 4 + r.val)
  | .mulUUPre w d p r => encWD 0xB80040 w d (p.code * 2 ^ 4 + r.val)
  | .mulUULit5 w d k => encWD 0xB80060 w d k.toNat
  | .mulUS w d p r => encWD 0xB88000 w d (p.code * 2 ^ 4 + r.val)
  | .mulSU w d p r => encWD 0xB90000 w d (p.code * 2 ^ 4 + r.val)
  | .mulSUPre w d p r => encWD 0xB90040 w d (p.code * 2 ^ 4 + r.val)
  | .mulSULit5 w d k => encWD 0xB90060 w d k.toNat
  | .mulSS w d p r => encWD 0xB98000 w d (p.code * 2 ^ 4 + r.val)
  | .tblrdl b q d p r => encTwo 0xBA0000 b q d p r
  | .tblrdh b q d p r => encTwo 0xBA8000 b q d p r
  | .tblwtl b q d p r => encTwo 0xBB0000 b q d p r
  | .tblwth b q d p r => encTwo 0xBB8000 b q d p r
  | .mulF b f => [0xBC0000 + b.code * 2 ^ 14 + f.toNat]
  | .movDLoad d p r => [0xBE0000 + d.val * 2 ^ 8 + p.code * 2 ^ 4 + r.val]
  | .movDStore q d r => [0xBE8000 + q.code * 2 ^ 11 + d.val * 2 ^ 7 + r.val * 2]
  | .movF b t f => encFile 0xBF8000 b t f
  | .mac m a x y i j wb => encDsp (0xC00000 + wb.code) m.code a x.code y.code i j
  | .macNoWb m a x y i j => encDsp 0xC00002 m.code a x.code y.code i j
  | .mpy m a x y i j => encDsp 0xC00003 m.code a x.code y.code i j
  | .msc m a x y i j wb => encDsp (0xC04000 + wb.code) m.code a x.code y.code i j
  | .mscNoWb m a x y i j => encDsp 0xC04002 m.code a x.code y.code i j
  | .mpyN m a x y i j => encDsp 0xC04003 m.code a x.code y.code i j
  | .sftacWb a r => [0xC80000 + a.code * 2 ^ 15 + r.val]
  | .sftacLit a k => [0xC80040 + a.code * 2 ^ 15 + k.toNat]
  | .addWsoAcc a w k g r => encAccMove 0xC90000 a w k g r
  | .lac a w k g r => encAccMove 0xCA0000 a w k g r
  | .addAcc a => [0xCB0000 + a.code * 2 ^ 15]
  | .sac a w k h d => encAccMove 0xCC0000 a w k h d
  | .sacR a w k h d => encAccMove 0xCD0000 a w k h d
  | .slWsWd b q d p r => encTwo 0xD00000 b q d p r
  | .lsrWsWd b q d p r => encTwo 0xD10000 b q d p r
  | .asrWsWd b q d p r => encTwo 0xD18000 b q d p r
  | .slF b t f => encFile 0xD40000 b t f
  | .lsrF b t f => encFile 0xD50000 b t f
  | .asrF b t f => encFile 0xD58000 b t f
  | .divS dbl m n => encDiv 0xD80000 dbl m n
  | .divU dbl m n => encDiv 0xD88000 dbl m n
  | .divF m n => [0xD90000 + m.val * 2 ^ 11 + n.val]
  | .slWns w d r => encWD 0xDD0000 w d r.val
  | .slLit4 w d k => encWD 0xDD0040 w d k.toNat
  | .lsrWns w d r => encWD 0xDE0000 w d r.val
  | .lsrLit4 w d k => encWD 0xDE0040 w d k.toNat
  | .asrWns w d r => encWD 0xDE8000 w d r.val
  | .asrLit4 w d k => encWD 0xDE8040 w d k.toNat
  | .macSq m a x y i j => encDsp 0xF00000 m.code a x.code y.code i j
  | .mpySq m a x y i j => encDsp 0xF00001 m.code a x.code y.code i j
  | .edac m a x i j => encDsp 0xF04002 m.code a x.code 0 i j
  | .ed m a x i j => encDsp 0xF04003 m.code a x.code 0 i j
  | .lnk k => [0xFA0000 + k.toNat * 2]
  | .ulnk => [0xFA8000]
  | .se d p r => [0xFB0000 + d.val * 2 ^ 7 + p.code * 2 ^ 4 + r.val]
  | .ze d p r => [0xFB8000 + d.val * 2 ^ 7 + p.code * 2 ^ 4 + r.val]
  | .disi k => [0xFC0000 + k.toNat]
  | .reset => [0xFE0000]
  | .pwrsav k => [0xFE4000 + k.toNat]
  | .popS => [0xFE8000]
  | .pushS => [0xFEA000]
  | .ctxtswpLit _ | .ctxtswpWn _ | .bootswp | .callLWn _ | .rcallWn _ => []
  | .mulwUU _ _ _ _ | .mulwUS _ _ _ _ | .mulwSU _ _ _ _ | .mulwSS _ _ _ _ | .mulAcc _ _ _ _ _ => []
  | .trap | .fex | .sstep | .urun | .compareSkip => []

/-- The words of a well-formed instruction, first word first; empty where the spec gives no encoding (log 30). -/
def encode (i : Instr) : List PWord := (encodeNat i).map (BitVec.ofNat 24)

end Sys2Proof
end

