-- ==== Sys2Proof/Config.lean ====
section
/-!
DEFINITION. What an implementation fixes (the parameters of 00_scope.md R9, as one plain record that State carries), and
the free values: constants with no body, for every `any(N)` of the spec (R12).
-/

namespace Sys2Proof

/-- The register context taken by an exception whose level no context is assigned (R443). -/
inductive CtxNoMatch where
  | keepCurrent
  | switchToDefault
  deriving DecidableEq, Repr

/-- The registers of Table 11-1, and the two of the interrupt controller the CPU rules name. -/
inductive Sfr where
  | w (n : Reg)
  | splim
  | accL (x : Acc)
  | accH (x : Acc)
  | accU (x : Acc)
  | pcl
  | pch
  | dsrpag
  | dswpag
  | rcount
  | dcount
  | dostartl
  | dostarth
  | doendl
  | doendh
  | sr
  | corcon
  | modcon
  | xmodsrt
  | xmodend
  | ymodsrt
  | ymodend
  | xbrev
  | disicnt
  | tblpag
  | mstrpr
  | ctxtstat
  | intcon1
  | intcon3
  deriving DecidableEq, Repr

/-- The device parameters of R9. A device whose fields break a stated range is outside the sources; `Device.wf`
(Machine/Device.lean) says which ones are inside. -/
structure Device where
  /-- `N_ALT_CTX`, 0 to 4 (R9, R21). -/
  nAlt : Fin 5
  /-- `CTXT_IPL`: pairs of a context and the interrupt level FALTREG assigns to it (R9, R69). -/
  ctxtIpl : List (Fin 5 × BitVec 3)
  /-- `CTX_NOMATCH` (R443). -/
  noMatch : CtxNoMatch
  /-- `XY_BOUNDARY`: the first address of Y data space (R262). -/
  xyBoundary : Word
  /-- `RAM_END`: the last base data space address that holds memory (R94). -/
  ramEnd : Word
  /-- The last extended data space address the integrator supplies memory for; below 0x010000 there is none (R104). -/
  edsEnd : BitVec 24
  /-- `PROG_WORDS`: program words present (R91). -/
  progWords : Nat
  /-- `RESET_PC` (R484). -/
  resetPc : PAddr
  /-- `VECTOR[source]` where the data sheet gives it directly, keyed by the source's entry address in the default table;
  a source without a pair here takes its vector from program memory (R452). -/
  vectors : List (Nat × PAddr)
  /-- `TRAP_LEVEL` of the seven traps of R421, 8 to 15 (R441). -/
  levelOscillator : BitVec 4
  levelAddress : BitVec 4
  levelHard : BitVec 4
  levelStack : BitVec 4
  levelMath : BitVec 4
  levelDma : BitVec 4
  levelSoft : BitVec 4
  /-- `SFR_ADDR`: the even data address of each special register the device maps, INTCON1 and INTCON3 among them if the
  integrator maps them (R74, R427). W0 to W15 stand at 0x0000 to 0x001F on every device (R24). -/
  sfrAddr : List (Word × Sfr)
  /-- `DO_WN_MASK`: 0xFFFF or 0x3FFF (R372). -/
  doWnMask : Word
  /-- `PFU_3CYCLE` (R500). -/
  pfu3Cycle : Bool
  deriving DecidableEq, Repr

/-- The free 16-bit values: the n-th one drawn (R12 `any(16)`). No body: nothing can be proved about which it is. -/
opaque Config.freeWord : Nat → Word

/-- The free bits: the n-th one drawn (R12 `any(1)`). No body. -/
opaque Config.freeBit : Nat → Bool

end Sys2Proof
end

