-- ==== Sys2Proof/Machine/Device.lean ====
section
/-!
DEFINITION. The device parameters of R9: their ranges, and the device of `State.reset` with the register map of R74.
-/

namespace Sys2Proof

/-- Whether a special register is one of W0 to W15, whose addresses are no parameter (R24). -/
def Sfr.isW : Sfr → Bool
  | .w _ => true
  | _ => false

/-- The default of `SFR_ADDR`: the map of R74, with INTCON1 and INTCON3 where R427 has them (log 5, log 6). -/
def sfrDefault : List (Word × Sfr) :=
  [(0x20#16, .splim), (0x22#16, .accL .acca), (0x24#16, .accH .acca), (0x26#16, .accU .acca), (0x28#16, .accL .accb),
    (0x2A#16, .accH .accb), (0x2C#16, .accU .accb), (0x2E#16, .pcl), (0x30#16, .pch), (0x32#16, .dsrpag), (0x34#16, .dswpag),
    (0x36#16, .rcount), (0x38#16, .dcount), (0x3A#16, .dostartl), (0x3C#16, .dostarth), (0x3E#16, .doendl),
    (0x40#16, .doendh), (0x42#16, .sr), (0x44#16, .corcon), (0x46#16, .modcon), (0x48#16, .xmodsrt), (0x4A#16, .xmodend),
    (0x4C#16, .ymodsrt), (0x4E#16, .ymodend), (0x50#16, .xbrev), (0x52#16, .disicnt), (0x54#16, .tblpag), (0x58#16, .mstrpr),
    (0x5A#16, .ctxtstat), (0x8C0#16, .intcon1), (0x8C4#16, .intcon3)]

/-- The levels of the seven traps, in the default order of R441. -/
def Device.trapLevels (d : Device) : List (BitVec 4) :=
  [d.levelOscillator, d.levelAddress, d.levelHard, d.levelStack, d.levelMath, d.levelDma, d.levelSoft]

/-- Whether the device gives an address to every register of Table 11-1; INTCON1 and INTCON3 alone may have none (R9, R74). -/
def Device.mapsAll (d : Device) : Bool :=
  sfrDefault.all fun p => p.2 == .intcon1 || p.2 == .intcon3 || d.sfrAddr.any fun q => q.2 == p.2

/-- The ranges R9 and R441 state: assigned levels 1 to 7 and unique, the seven traps at distinct levels 8 to 15, RAM_END above
0x1000, at most 4M program words, every special register at one even address from 0x0020 to below 0x1000 (the interrupt
controller's two may be absent), one of the two masks of R372. -/
def Device.wf (d : Device) : Bool :=
  d.ctxtIpl.all (fun p => p.1 != 0 && p.1 ≤ d.nAlt && p.2 != 0)
    && decide ((d.ctxtIpl.map Prod.snd).Nodup) && decide ((d.ctxtIpl.map Prod.fst).Nodup)
    && d.trapLevels.all (fun l => 8#4 ≤ l) && decide d.trapLevels.Nodup
    && decide (0x1000#16 < d.ramEnd)
    && d.sfrAddr.all (fun p => decide (0x20#16 ≤ p.1) && decide (p.1 < 0x1000#16) && !p.1.getLsbD 0 && !p.2.isW)
    && decide ((d.sfrAddr.map Prod.fst).Nodup) && decide ((d.sfrAddr.map Prod.snd).Nodup) && d.mapsAll
    && decide (d.progWords ≤ 0x400000) && (d.doWnMask == 0xFFFF#16 || d.doWnMask == 0x3FFF#16)

/-- The device of `State.reset`. Every value is the default of R9, R441, R452 or R484 where one is given; the others are
named in log 1 (DESIGN CHOICE, PRESUMED for the INTCON addresses and the Y boundary). No statement about all states
rests on them. -/
def Device.default : Device where
  nAlt := 4
  ctxtIpl := []
  noMatch := .keepCurrent
  xyBoundary := 0x2000#16
  ramEnd := 0xFFFF#16
  edsEnd := 0x00FFFF#24
  progWords := 0x400000
  resetPc := 0#23
  vectors := []
  levelOscillator := 15#4
  levelAddress := 14#4
  levelHard := 13#4
  levelStack := 12#4
  levelMath := 11#4
  levelDma := 10#4
  levelSoft := 9#4
  sfrAddr := sfrDefault
  doWnMask := 0xFFFF#16
  pfu3Cycle := false

end Sys2Proof
end

