-- ==== Sys2Proof/Machine/State.lean ====
section
/-!
DEFINITION. The state of the machine (10_state.md), its value at reset (R72, R480), and the reasons a step can stop.
INVENTORY.md lists every field with the rule that names it; reset values marked DESIGN CHOICE are in log 2.
-/

namespace Sys2Proof.Machine

/-- One of W0 to W14 of one context: its value and the hidden initialisation flag `Winit` (R20, R21, R29). -/
structure WReg where
  val : Word
  init : Bool
  deriving DecidableEq, Repr

/-- The stored bits of SR (R35). OAB, SAB and DA are derived at every read (R38, R39). -/
structure Status where
  oa : Bool
  ob : Bool
  sa : Bool
  sb : Bool
  dc : Bool
  ipl : BitVec 3
  ra : Bool
  n : Bool
  ov : Bool
  z : Bool
  c : Bool
  deriving DecidableEq, Repr

/-- The stored bits of CORCON (R45); EDT is not storage (R47). `ifm` is the bit named IF. -/
structure Corcon where
  us : BitVec 2
  dl : BitVec 3
  sata : Bool
  satb : Bool
  satdw : Bool
  accsat : Bool
  ipl3 : Bool
  sfa : Bool
  rnd : Bool
  ifm : Bool
  deriving DecidableEq, Repr

/-- An entry of the hidden DO stack; the addresses are bits 22:1 (R63). -/
structure DoEntry where
  start : BitVec 22
  fin : BitVec 22
  count : Word
  deriving DecidableEq, Repr

/-- The shadows written by `PUSH.S` (R30). -/
structure Shadow where
  w0 : Word
  w1 : Word
  w2 : Word
  w3 : Word
  dc : Bool
  n : Bool
  ov : Bool
  z : Bool
  c : Bool
  deriving DecidableEq, Repr

/-- The bits of INTCON1 and INTCON3 that the CPU rules name (R69). -/
structure IntCon where
  nstdis : Bool
  ovaerr : Bool
  ovberr : Bool
  covaerr : Bool
  covberr : Bool
  ovate : Bool
  ovbte : Bool
  covte : Bool
  sftacerr : Bool
  div0err : Bool
  doOvr : Bool
  deriving DecidableEq, Repr

/-- The pending requests of the CPU's own traps (R421, R428). -/
structure Pending where
  address : Bool
  stack : Bool
  math : Bool
  soft : Bool
  deriving DecidableEq, Repr

/-- The sources of R452's default table. -/
inductive Source where
  | oscillator
  | address
  | hard
  | stack
  | math
  | dma
  | soft
  | irq (n : Fin 246)
  deriving DecidableEq, Repr

/-- A request the CPU can take, with its level (R428, R440). -/
structure Request where
  source : Source
  level : BitVec 4
  deriving DecidableEq, Repr

/-- What the interrupt controller presents (R428): a trap of another module, which has the device's level (R441), or an interrupt
with its level, 1 to 7. R421 lists oscillator, hard and DMA; `soft` is a cause of SoftTrap outside the CPU, of which R426 speaks
(DESIGN CHOICE, log 26). -/
inductive External where
  | oscillator
  | hard
  | dma
  | soft
  | irq (n : Fin 246) (level : BitVec 3)
  deriving DecidableEq, Repr

/-- The five divides (R300). -/
inductive DivKind where
  | sw
  | sd
  | uw
  | ud
  | f
  deriving DecidableEq, Repr

/-- The hidden record of a divide in progress (R302): `m` and `n` are the operand registers, `born` and `last` the counts of free
values drawn when it was latched and right after its last execution, which tell what came first. The registers as the last
execution left them, in the context `ctx`, are what R302's validity condition compares; `intact` is false once a handler has broken
its duty (log 19). -/
structure DivRec where
  kind : DivKind
  m : Reg
  n : Reg
  born : Nat
  dividend : BitVec 32
  divisor : Word
  done : Nat
  intact : Bool
  last : Nat
  ctx : Fin 5
  w0 : Word
  w1 : Word
  wm : Word
  wm1 : Word
  wn : Word
  deriving DecidableEq, Repr

/-- What an exception has interrupted (R365, R445): where its two stacked words lie, which is W15 as the handler found it, the
stacked address, RCOUNT, the other working registers as the handler found them, the count of free values drawn by then, whether a
`REPEAT` loop ran, with its target at that address, and the loop's divide record (R302; log 19). -/
structure Interrupted where
  frame : Word
  target : PAddr
  rcount : Word
  bank : Vector WReg 75
  since : Nat
  loop : Bool
  div : Option DivRec
  deriving DecidableEq, Repr

/-- What the rules about the instructions before look at (R496, R497, R500; log 29). The running instruction sets `…Wr` when
it writes SPLIM, is a `DO`, or writes DOEND by its file address, and `psvRd` when it reads through PSV or a table; `splimPrev`
and `doPrev` say what the one before it did, and `doendOpen` that a read of DOEND is open now. -/
structure StepInfo where
  splimPrev : Bool
  doPrev : Bool
  doendOpen : Bool
  splimWr : Bool
  doWr : Bool
  doendWr : Bool
  psvRd : Bool
  deriving DecidableEq, Repr

/-- Bytes of data space by address: base addresses below 0x010000, extended ones above (R93, R104). Canonical form:
strictly rising addresses and no byte equal to what an unlisted address reads as (0x00, log 3). -/
abbrev Memory := List Host.Cell

/-- Program words by word index `a / 2` (R91), in the same canonical form; an unlisted word reads 0xFFFFFF (log 4). -/
abbrev ProgImage := List (Nat × PWord)

/-- The whole state. -/
structure State where
  /-- The device parameters (R9); the model's own field, no step changes it. -/
  dev : Device
  /-- `Wbank[c][n]` at index `15 * c + n` (R21). -/
  w : Vector WReg 75
  /-- The stack pointer, bit 0 fixed 0 (R27). -/
  w15 : Word
  acca : Acc40
  accb : Acc40
  /-- R33; bit 0 always 0. -/
  pc : PAddr
  sr : Status
  cor : Corcon
  /-- CTXTSTAT.CCTXI and CTXTSTAT.MCTXI (R54). -/
  cctxi : Fin 5
  mctxi : Fin 5
  splim : Word
  splimEn : Bool
  tblpag : BitVec 8
  dsrpag : BitVec 10
  dswpag : BitVec 9
  rcount : Word
  dcount : Word
  /-- Bits 22:1 of the addresses (R61, R62). -/
  dostart : BitVec 22
  doend : BitVec 22
  /-- `DoStack[1..3]` at indices 0 to 2 (R63). -/
  doStack : Vector DoEntry 3
  edtPending : Bool
  edtLate : Bool
  modcon : Word
  xmodsrt : Word
  xmodend : Word
  ymodsrt : Word
  ymodend : Word
  xbrev : Word
  mstrpr : Word
  disicnt : BitVec 14
  shadow : Shadow
  intc : IntCon
  pend : Pending
  /-- What the interrupt controller presents (R428); the model's own field for an input, no step changes it (log 26). -/
  ext : List External
  /-- The exceptions whose handlers have not returned, newest first (R448); the model's own field (log 27). -/
  active : List Source
  /-- The divide record of the running `REPEAT` loop (R302). -/
  div : Option DivRec
  /-- What exceptions have interrupted and no `RETFIE` has gone on with, newest first (R302, R365); the model's own field (log 19). -/
  held : List Interrupted
  mem : Memory
  prog : ProgImage
  /-- How many free values have been drawn (the model's own field, log 7). -/
  fresh : Nat
  /-- The model's own field (log 29). -/
  trk : StepInfo
  deriving DecidableEq, Repr

/-- The machine right after reset (R72, R480, R482, R484). -/
def State.reset : State where
  dev := Device.default
  w := Vector.replicate 75 ⟨0#16, false⟩
  w15 := 0x1000#16
  acca := 0#40
  accb := 0#40
  pc := Device.default.resetPc
  sr := ⟨false, false, false, false, false, 0#3, false, false, false, false, false⟩
  cor := ⟨0#2, 0#3, false, false, true, false, false, false, false, false⟩
  cctxi := 0
  mctxi := 0
  splim := 0#16
  splimEn := false
  tblpag := 0#8
  dsrpag := 1#10
  dswpag := 1#9
  rcount := 0#16
  dcount := 0#16
  dostart := 0#22
  doend := 0#22
  doStack := Vector.replicate 3 ⟨0#22, 0#22, 0#16⟩
  edtPending := false
  edtLate := false
  modcon := 0#16
  xmodsrt := 0#16
  xmodend := 1#16
  ymodsrt := 0#16
  ymodend := 1#16
  xbrev := 0x8000#16
  mstrpr := 0#16
  disicnt := 0#14
  shadow := ⟨0#16, 0#16, 0#16, 0#16, false, false, false, false, false⟩
  intc := ⟨false, false, false, false, false, false, false, false, false, false, false⟩
  pend := ⟨false, false, false, false⟩
  ext := []
  active := []
  div := none
  held := []
  mem := []
  prog := []
  fresh := 0
  trk := ⟨false, false, false, false, false, false, false⟩

/-- Addresses that do not exist. Each stop is safe: the spec gives the machine nothing there to go on with. -/
inductive Fault where
  /-- Instruction fetch at or above 2 * PROG_WORDS (R33, D12). Raised by `step`. Safe. -/
  | fetchOutside
  /-- A PSV read, table read or vector entry above the program words present (R91). Raised by those reads. Safe. -/
  | programOutside
  /-- A data access to a base address above RAM_END: unimplemented (R96, D5). Raised by every data access. Safe. -/
  | noData
  deriving DecidableEq, Repr

/-- Behaviour the spec does not give. Each stop is safe: nothing is claimed of the hardware there. -/
inductive Refusal where
  /-- An instruction without a meaning yet, by its mnemonic. Raised by `exec`'s refused arms. Safe. -/
  | notModelled (mnemonic : String)
  /-- The fetched word is no instruction of the table (R144, R147). Raised by `step`. Safe. -/
  | undecoded (why : Reject)
  /-- A data access to a peripheral's SFR address (R96, D5). Safe. -/
  | peripheralSfr
  /-- A paged access to extended data memory the integrator does not supply (R104). Safe. -/
  | extendedData
  /-- A data write to PCL or PCH (R34). Safe. -/
  | pcWrite
  /-- A data write to DISICNT (R67, R405). Safe. -/
  | disicntWrite
  /-- A DSP multiply with CORCON.US = 11 (R46, R244). Safe. -/
  | reservedUs
  /-- A Y prefetch outside Y data space (R262). Safe. -/
  | outsideYSpace
  /-- A register indirect operand with modulo addressing enabled (R64, R109). Safe. -/
  | moduloAddressing
  /-- A word access through `[Wn++]` or `[++Wn]` to which bit-reversed addressing applies (R109). Safe. -/
  | bitReversed
  /-- A table read with TBLPAG[7] = 1 (R188). Safe. -/
  | configSpace
  /-- A table read whose source is not an indirect form (R188 gives it no address). Safe. -/
  | tableSourceDirect
  /-- `TBLWTL`, `TBLWTH` (R189). Safe. -/
  | tableWrite
  /-- `PWRSAV` (R406). Safe. -/
  | powerSave
  /-- `BOOTSWP` (R409). Safe. -/
  | dualBoot
  /-- `TRAP` (R341). Safe. -/
  | trapInstr
  /-- `FEX` (R408). Safe. -/
  | debugFex
  /-- `SSTEP` (R408). Safe. -/
  | debugSstep
  /-- `URUN` (R408). Safe. -/
  | debugUrun
  /-- `CTXTSWP` to a context above N_ALT_CTX (R402). Safe. -/
  | contextAbsent
  /-- Two contexts assigned the level looked for (R442). Raised by exception entry and `RETFIE`. Safe. -/
  | contextConfig
  /-- A forbidden target of `REPEAT` (R367). Raised by `step`, at the `REPEAT` or at the target. Safe. -/
  | repeatTarget
  /-- A forbidden instruction among the last two of a `DO` loop (R383). Raised by `step`. Safe. -/
  | doLastTwo
  /-- A `DO` with a forbidden loop length (R384). Safe. -/
  | doLength
  /-- The instruction before the penultimate one of a `DO` loop changed the IPL (R381). Raised by `step`. Safe. -/
  | doIplChange
  /-- A PSV or table read as first instruction of a `DO` loop on a PFU_3CYCLE device (R382, R500). Raised by `step`. Safe. -/
  | doFirstPfu
  /-- A read through W15 by the instruction after a write of SPLIM (R496). Safe. -/
  | splimHazard
  deriving DecidableEq, Repr

/-- What `exec` and `step` answer. -/
abbrev Out := Host.Outcome State Fault Refusal

/-! The named updates, one for each group of fields a rule writes. -/

/-- `pc <- a` (R33). -/
def State.setPc (s : State) (a : PAddr) : State := { s with pc := a }
/-- SR replaced as a whole. -/
def State.setSr (s : State) (v : Status) : State := { s with sr := v }
/-- CORCON replaced as a whole. -/
def State.setCor (s : State) (v : Corcon) : State := { s with cor := v }
/-- The working register arrays replaced as a whole. -/
def State.setBank (s : State) (v : Vector WReg 75) : State := { s with w := v }
/-- W15 replaced; the caller clears bit 0. -/
def State.setW15 (s : State) (v : Word) : State := { s with w15 := v }
/-- Data memory replaced as a whole. -/
def State.setMem (s : State) (m : Memory) : State := { s with mem := m }
/-- ACCA replaced. -/
def State.setAcca (s : State) (v : Acc40) : State := { s with acca := v }
/-- ACCB replaced. -/
def State.setAccb (s : State) (v : Acc40) : State := { s with accb := v }
/-- The pending CPU traps replaced. -/
def State.setPend (s : State) (v : Pending) : State := { s with pend := v }
/-- The INTCON bits replaced. -/
def State.setIntc (s : State) (v : IntCon) : State := { s with intc := v }
/-- The tracking bits replaced. -/
def State.setTrk (s : State) (v : StepInfo) : State := { s with trk := v }
/-- One free value drawn (R12 `any`). -/
def State.drawn (s : State) : State := { s with fresh := s.fresh + 1 }
/-- RCOUNT replaced (R59). -/
def State.setRcount (s : State) (v : Word) : State := { s with rcount := v }
/-- DISICNT replaced (R67). -/
def State.setDisicnt (s : State) (v : BitVec 14) : State := { s with disicnt := v }
/-- CTXTSTAT.CCTXI replaced (R54). -/
def State.setCctxi (s : State) (k : Fin 5) : State := { s with cctxi := k }
/-- The running loop's divide record replaced (R302). -/
def State.setDiv (s : State) (d : Option DivRec) : State := { s with div := d }
/-- What exceptions have interrupted replaced (R302). -/
def State.setHeld (s : State) (l : List Interrupted) : State := { s with held := l }
/-- The running handlers replaced (R448). -/
def State.setActive (s : State) (l : List Source) : State := { s with active := l }
/-- The DO registers replaced together (R371, R376): count, start, end. -/
def State.setDo (s : State) (count : Word) (start fin : BitVec 22) : State :=
  { s with dcount := count, dostart := start, doend := fin }

end Sys2Proof.Machine
end

