-- ==== Sys2Proof/Machine/Memory.lean ====
section
/-!
DEFINITION. Sparse memory in one canonical form: data bytes (R93, R96; log 3) and program words (R91, R92; log 4).
-/

namespace Sys2Proof.Machine

/-- What a key holds; `d` is what an unlisted key reads as. -/
def lookupAt {α : Type} (d : α) : List (Nat × α) → Nat → α
  | [], _ => d
  | (a, v) :: t, k => if k = a then v else lookupAt d t k

/-- Put a value at its place in a rising list. -/
def insertAt {α : Type} (k : Nat) (v : α) : List (Nat × α) → List (Nat × α)
  | [] => [(k, v)]
  | (a, u) :: t => if k < a then (k, v) :: (a, u) :: t else if k = a then (k, v) :: t else (a, u) :: insertAt k v t

/-- Take a key out of a list. -/
def removeAt {α : Type} (k : Nat) : List (Nat × α) → List (Nat × α)
  | [] => []
  | (a, u) :: t => if k = a then removeAt k t else (a, u) :: removeAt k t

/-- Strictly rising keys, each at least `lo`, and no value equal to the default. -/
def canonicalFrom {α : Type} [DecidableEq α] (d : α) : Nat → List (Nat × α) → Bool
  | _, [] => true
  | lo, (a, v) :: t => decide (lo ≤ a) && !decide (v = d) && canonicalFrom d (a + 1) t

/-- What a data byte that nothing has written reads as (DESIGN CHOICE, unsafe: log 3). -/
def unlistedByte : Byte := 0x00#8

/-- What a program word outside the image reads as (PRESUMED, unsafe: log 4). -/
def unlistedWord : PWord := 0xFFFFFF#24

/-- The byte of data memory at an address. -/
def Memory.read (m : Memory) (a : Nat) : Byte := lookupAt unlistedByte m a

/-- One byte of data memory written; the unlisted value removes the entry. -/
def Memory.write (m : Memory) (a : Nat) (b : Byte) : Memory :=
  if b = unlistedByte then removeAt a m else insertAt a b m

/-- The canonical form of data memory, and every address in the 24-bit data space. -/
def Memory.wf (m : Memory) : Bool := canonicalFrom unlistedByte 0 m && m.all fun c => decide (c.1 < 2 ^ 24)

/-- The program word at a word index. -/
def ProgImage.read (p : ProgImage) (k : Nat) : PWord := lookupAt unlistedWord p k

/-- A program word placed in the image; no instruction does this (R92), only loading a program. -/
def ProgImage.write (p : ProgImage) (k : Nat) (v : PWord) : ProgImage :=
  if v = unlistedWord then removeAt k p else insertAt k v p

/-- The canonical form of the program image. -/
def ProgImage.wf (p : ProgImage) : Bool := canonicalFrom unlistedWord 0 p

end Sys2Proof.Machine
end

