-- ==== Sys2Proof/Machine/Regs.lean ====
section
/-!
DEFINITION. How a meaning is put together (`Res`), the working registers (R20 to R29), trap requests (R421 to R426),
device reset (R480), and advancing the pc (R33).
-/

namespace Sys2Proof.Machine

/-- A partial result of a meaning: a value and the state so far, or the outcome the whole instruction ends with. -/
inductive Res (α : Type) where
  | val (v : α) (s : State)
  | stop (o : Out)

/-- Go on with the value, unless the instruction has ended. -/
def Res.bind {α β : Type} (r : Res α) (f : α → State → Res β) : Res β :=
  match r with
  | .val v s => f v s
  | .stop o => .stop o

/-- The end of a meaning: the last update gives the next state. -/
def Res.next {α : Type} (r : Res α) (f : α → State → State) : Out :=
  match r with
  | .val v s => .next (f v s)
  | .stop o => o

/-- A stop with a refusal. -/
def refuse {α : Type} (r : Refusal) : Res α := .stop (.refused r)

/-- A stop with a fault. -/
def fault {α : Type} (r : Fault) : Res α := .stop (.fault r)

/-- The next free 16-bit value (R12 `any(16)`); the caller goes on with `s.drawn`. -/
def State.freeWord (s : State) : Word := Config.freeWord s.fresh

/-- The next free bit (R12 `any(1)`); the caller goes on with `s.drawn`. -/
def State.freeBit (s : State) : Bool := Config.freeBit s.fresh

/-- The place of `Wbank[c][n]`. -/
def bankIndex (c : Fin 5) (n : Reg) (h : n.val < 15) : Fin 75 := ⟨15 * c.val + n.val, by omega⟩

/-- `Wbank[c][n]`, n = 0 to 14 (R21). -/
def State.bankReg (s : State) (c : Fin 5) (n : Reg) (h : n.val < 15) : WReg := s.w[bankIndex c n h]

/-- `W[n]` as the context `c` has it: W15 is the same in all (R21, R22). -/
def State.regIn (s : State) (c : Fin 5) (n : Reg) : Word :=
  if h : n.val < 15 then (s.bankReg c n h).val else s.w15

/-- `W[n]` (R22). -/
def State.getW (s : State) (n : Reg) : Word :=
  if h : n.val < 15 then (s.bankReg s.cctxi n h).val else s.w15

/-- Whether `W[n]` may be used as a pointer (R29); W15 always. -/
def State.isInit (s : State) (n : Reg) : Bool :=
  if h : n.val < 15 then (s.bankReg s.cctxi n h).init else true

/-- A register of the current context replaced, with its flag. -/
def State.putReg (s : State) (n : Reg) (h : n.val < 15) (r : WReg) : State :=
  s.setBank (s.w.set (bankIndex s.cctxi n h) r)

/-- `W[n] <- v`, a word write: it initialises the register (R29); bit 0 of W15 stays 0 (R27). -/
def State.setW (s : State) (n : Reg) (v : Word) : State :=
  if h : n.val < 15 then s.putReg n h ⟨v, true⟩ else s.setW15 (clearBit0 v)

/-- A write of one byte of `W[n]` leaves the initialisation flag (R26, R29). -/
def State.setWKeep (s : State) (n : Reg) (v : Word) : State :=
  if h : n.val < 15 then s.putReg n h ⟨v, s.isInit n⟩ else s.setW15 (clearBit0 v)

/-- `W[n][7:0] <- b` (R26). -/
def State.setWLow (s : State) (n : Reg) (b : Byte) : State := s.setWKeep n (mkWord (hiByte (s.getW n)) b)

/-- `W[n][15:8] <- b`, reached by the odd byte address only (R26). -/
def State.setWHigh (s : State) (n : Reg) (b : Byte) : State := s.setWKeep n (mkWord b (loByte (s.getW n)))

/-- A register direct source: the word, or the low byte (R142). -/
def State.regRead (s : State) (z : Size) (n : Reg) : Word :=
  match z with
  | .word => s.getW n
  | .byte => zext16 (loByte (s.getW n))

/-- A register direct destination (R142, R26). -/
def State.regWrite (s : State) (z : Size) (n : Reg) (v : Word) : State :=
  match z with
  | .word => s.setW n v
  | .byte => s.setWLow n (loByte v)

/-- `raise AddressError` (R423): the request is added; it is taken before the next instruction. -/
def State.raiseAddress (s : State) : State := s.setPend { s.pend with address := true }

/-- `raise StackError` (R424). -/
def State.raiseStack (s : State) : State := s.setPend { s.pend with stack := true }

/-- `raise MathError`; the cause's status bit is written by the rule that raises it (R425). -/
def State.raiseMath (s : State) : State := s.setPend { s.pend with math := true }

/-- `raise SoftTrap` (R426). -/
def State.raiseSoft (s : State) : State := s.setPend { s.pend with soft := true }

/-- `DeviceReset(cause)` (R480, R481): the state of `State.reset` for this device; the program image and what the
interrupt controller presents are inputs, not state of the CPU, and stay (log 34). -/
def State.deviceReset (s : State) : State :=
  { State.reset with dev := s.dev, pc := evenPc s.dev.resetPc, ext := s.ext, prog := s.prog, fresh := s.fresh }

/-- `pc <- trunc_23(pc + 2 * words)` (R33, D12). -/
def State.advance (s : State) (words : Nat) : State := s.setPc (s.pc + BitVec.ofNat 23 (2 * words))

/-- The end of a meaning whose instruction does not write the pc (R33). -/
def Res.done (r : Res Unit) : Out := r.next fun _ s => s.advance 1

end Sys2Proof.Machine
end

