-- ==== Sys2Proof/Machine/Flags.lean ====
section
/-!
DEFINITION. The MCU ALU's results and flags (41_alu.md R201, R202, R210 to R217), computed at the width of the operation.
-/

namespace Sys2Proof.Machine

/-- A result as the 16-bit bus carries it, with the five flags; each rule says which of them it writes. -/
structure AluOut where
  val : Word
  n : Bool
  z : Bool
  c : Bool
  dc : Bool
  ov : Bool
  deriving DecidableEq, Repr

/-- Addition at width `k` with R202's flags: C the carry out of the top bit, DC that of bit k/2 - 1, OV the change of sign
both operands share. -/
def addBits {k : Nat} (a b : BitVec k) : AluOut where
  val := (a + b).setWidth 16
  n := (a + b).msb
  z := a + b == 0#k
  c := decide (2 ^ k ≤ a.toNat + b.toNat)
  dc := decide (2 ^ (k / 2) ≤ a.toNat % 2 ^ (k / 2) + b.toNat % 2 ^ (k / 2))
  ov := (a.msb == b.msb) && ((a + b).msb != a.msb)

/-- Addition in word or byte mode (R201, R203). -/
def aluAdd (z : Size) (a b : Word) : AluOut :=
  match z with
  | .word => addBits a b
  | .byte => addBits (loByte a) (loByte b)

/-- A result of width `k` with N and Z of it and a given C; DC and OV play no part. -/
def plainOut {k : Nat} (r : BitVec k) (c : Bool) : AluOut where
  val := r.setWidth 16
  n := r.msb
  z := r == 0#k
  c := c
  dc := false
  ov := false

/-- `SL` by one bit (R217): C is the bit shifted out. -/
def slBits {k : Nat} (x : BitVec k) : AluOut := plainOut (x <<< 1) x.msb

/-- `LSR` by one bit (R216). -/
def lsrBits {k : Nat} (x : BitVec k) : AluOut := plainOut (x >>> 1) (x.getLsbD 0)

/-- `ASR` by one bit (R215). -/
def asrBits {k : Nat} (x : BitVec k) : AluOut := plainOut (x.sshiftRight 1) (x.getLsbD 0)

/-- The one-bit shifts in word or byte mode. -/
def aluSl (z : Size) (x : Word) : AluOut :=
  match z with
  | .word => slBits x
  | .byte => slBits (loByte x)

def aluLsr (z : Size) (x : Word) : AluOut :=
  match z with
  | .word => lsrBits x
  | .byte => lsrBits (loByte x)

def aluAsr (z : Size) (x : Word) : AluOut :=
  match z with
  | .word => asrBits x
  | .byte => asrBits (loByte x)

/-- A value moved: N and Z at the width of the move (R163). -/
def aluPass (z : Size) (x : Word) : AluOut :=
  match z with
  | .word => plainOut x false
  | .byte => plainOut (loByte x) false

/-- `SE` (R210): N and Z of the byte, C the complement of N. -/
def aluSe (x : Word) : AluOut where
  val := (loByte x).signExtend 16
  n := (loByte x).msb
  z := loByte x == 0#8
  c := !(loByte x).msb
  dc := false
  ov := false

/-- `ZE` (R211): N 0, C 1. -/
def aluZe (x : Word) : AluOut where
  val := zext16 (loByte x)
  n := false
  z := loByte x == 0#8
  c := true
  dc := false
  ov := false

/-- C, Z, N, OV and DC written (R203). -/
def State.setFlags (s : State) (o : AluOut) : State :=
  s.setSr { s.sr with n := o.n, z := o.z, c := o.c, dc := o.dc, ov := o.ov }

/-- N, Z and C written (R210, R211, R215 to R217, one-bit forms). -/
def State.setNZC (s : State) (o : AluOut) : State := s.setSr { s.sr with n := o.n, z := o.z, c := o.c }

/-- N and Z written (R163, R215 to R217, multi-bit forms). -/
def State.setNZ (s : State) (o : AluOut) : State := s.setSr { s.sr with n := o.n, z := o.z }

end Sys2Proof.Machine
end

