-- ==== Sys2Proof/Machine/Sfr.lean ====
section
/-!
DEFINITION. The CPU's special function registers as data space shows them: the map (R74; log 5), what a read returns and
what a write does (R32 to R71).
-/

namespace Sys2Proof.Machine

/-- The register at an even address below 0x1000: the working registers (R24), else `SFR_ADDR` of the device (R74, R427);
none is a peripheral's. -/
def sfrAt (d : Device) (a : Nat) : Option Sfr :=
  if a < 0x20 then some (.w (Fin.ofNat 16 (a / 2))) else (d.sfrAddr.find? fun p => p.1.toNat == a).map Prod.snd

/-- A word from its sixteen bits, most significant first. -/
def word16 (b15 b14 b13 b12 b11 b10 b9 b8 b7 b6 b5 b4 b3 b2 b1 b0 : Bool) : Word :=
  BitVec.ofBool b15 ++ BitVec.ofBool b14 ++ BitVec.ofBool b13 ++ BitVec.ofBool b12 ++ BitVec.ofBool b11
    ++ BitVec.ofBool b10 ++ BitVec.ofBool b9 ++ BitVec.ofBool b8 ++ BitVec.ofBool b7 ++ BitVec.ofBool b6
    ++ BitVec.ofBool b5 ++ BitVec.ofBool b4 ++ BitVec.ofBool b3 ++ BitVec.ofBool b2 ++ BitVec.ofBool b1
    ++ BitVec.ofBool b0

/-- SR.DA (R39). -/
def State.da (s : State) : Bool := decide (s.cor.dl ≠ 0#3)

/-- SR as it reads (R35, R38, R39). -/
def State.srWord (s : State) : Word :=
  word16 s.sr.oa s.sr.ob s.sr.sa s.sr.sb (s.sr.oa || s.sr.ob) (s.sr.sa || s.sr.sb) s.da s.sr.dc
    s.sr.ipl[2] s.sr.ipl[1] s.sr.ipl[0] s.sr.ra s.sr.n s.sr.ov s.sr.z s.sr.c

/-- CORCON as it reads (R45, R47). -/
def State.corconWord (s : State) : Word :=
  word16 false false s.cor.us[1] s.cor.us[0] false s.cor.dl[2] s.cor.dl[1] s.cor.dl[0] s.cor.sata s.cor.satb s.cor.satdw
    s.cor.accsat s.cor.ipl3 s.cor.sfa s.cor.rnd s.cor.ifm

/-- CTXTSTAT as it reads (R54). -/
def State.ctxtstatWord (s : State) : Word := BitVec.ofNat 16 (s.cctxi.val * 256 + s.mctxi.val)

/-- The accumulator (R31). -/
def State.acc (s : State) (x : Acc) : Acc40 :=
  match x with
  | .acca => s.acca
  | .accb => s.accb

/-- The accumulator replaced. -/
def State.setAcc (s : State) (x : Acc) (v : Acc40) : State :=
  match x with
  | .acca => s.setAcca v
  | .accb => s.setAccb v

/-- The bits of INTCON1 that have a name; `f` gives the others (R427). -/
def intcon1Word (i : IntCon) (f : Word) : Word :=
  word16 i.nstdis i.ovaerr i.ovberr i.covaerr i.covberr i.ovate i.ovbte i.covte i.sftacerr i.div0err
    f[5] f[4] f[3] f[2] f[1] f[0]

/-- INTCON3 with its one named bit; `f` gives the others (R427). -/
def intcon3Word (i : IntCon) (f : Word) : Word :=
  word16 f[15] f[14] f[13] f[12] f[11] f[10] f[9] f[8] f[7] f[6] f[5] i.doOvr f[3] f[2] f[1] f[0]

/-- The low word of a program address whose bits 22:1 are given (R61). -/
def addrLow (a : BitVec 22) : Word := (a.setWidth 15 : BitVec 15) ++ 0#1

/-- The high word of such an address: bits 6:0 are address bits 22:16 (R61). -/
def addrHigh (a : BitVec 22) : Word := (a.extractLsb' 15 7).setWidth 16

/-- The program address whose bits 22:1 are given. -/
def addrOf (a : BitVec 22) : PAddr := a ++ 0#1

/-- Bits 22:1 of a program address. -/
def bitsOf (a : PAddr) : BitVec 22 := a.extractLsb' 1 22

/-- A data read of a register, and the state with the free values it drew: PCL is open but for bit 0 (R34; log 28), unnamed
interrupt controller bits are open (R427), and so is DOEND in the two instructions after a `DO` and the one after a file register
write to it (R497, log 29). No read changes anything else (R101). -/
def sfrRead (r : Sfr) (s : State) : Word × State :=
  match r with
  | .w n => (s.getW n, s)
  | .splim => (s.splim, s)
  | .accL x => ((s.acc x).setWidth 16, s)
  | .accH x => ((s.acc x).extractLsb' 16 16, s)
  | .accU x => (((s.acc x).extractLsb' 32 8).signExtend 16, s)
  | .pcl => (clearBit0 s.freeWord, s.drawn)
  | .pch => ((s.pc.extractLsb' 16 7).setWidth 16, s)
  | .dsrpag => (s.dsrpag.setWidth 16, s)
  | .dswpag => (s.dswpag.setWidth 16, s)
  | .rcount => (s.rcount, s)
  | .dcount => (s.dcount, s)
  | .dostartl => (addrLow s.dostart, s)
  | .dostarth => (addrHigh s.dostart, s)
  | .doendl => if s.trk.doendOpen then (s.freeWord, s.drawn) else (addrLow s.doend, s)
  | .doendh => if s.trk.doendOpen then (s.freeWord, s.drawn) else (addrHigh s.doend, s)
  | .sr => (s.srWord, s)
  | .corcon => (s.corconWord, s)
  | .modcon => (s.modcon, s)
  | .xmodsrt => (s.xmodsrt, s)
  | .xmodend => (s.xmodend, s)
  | .ymodsrt => (s.ymodsrt, s)
  | .ymodend => (s.ymodend, s)
  | .xbrev => (s.xbrev, s)
  | .disicnt => (s.disicnt.setWidth 16, s)
  | .tblpag => (s.tblpag.setWidth 16, s)
  | .mstrpr => (s.mstrpr, s)
  | .ctxtstat => (s.ctxtstatWord, s)
  | .intcon1 => (intcon1Word s.intc s.freeWord, s.drawn)
  | .intcon3 => (intcon3Word s.intc s.freeWord, s.drawn)

/-- Which bytes of a register a write reaches: a word write both at once, a byte write one (R96). -/
inductive Lanes where
  | both
  | low
  | high
  deriving DecidableEq, Repr

/-- The register's value after a write of `v` to these bytes; a byte stands in both halves of `v`. -/
def mergeLanes (l : Lanes) (old v : Word) : Word :=
  match l with
  | .both => v
  | .low => mkWord (hiByte old) (loByte v)
  | .high => mkWord (hiByte v) (loByte old)

/-- SRH written with bits 15:8 of `v` (R44). A write that sets SA or SB while clearing SAB, or OA or OB while clearing
OAB, leaves them open (D9). -/
def writeSrHigh (v : Word) (s : State) : State :=
  let s1 :=
    if v[10] || (!v[13] && !v[12]) then s.setSr { s.sr with sa := v[13], sb := v[12], dc := v[8] }
    else (s.setSr { s.sr with sa := s.freeBit, sb := s.drawn.freeBit, dc := v[8] }).drawn.drawn
  if v[11] || (!v[15] && !v[14]) then s1.setSr { s1.sr with oa := v[15], ob := v[14] }
  else (s1.setSr { s1.sr with oa := s1.freeBit, ob := s1.drawn.freeBit }).drawn.drawn

/-- SRL written with bits 7:0 of `v` (R44): IPL only while NSTDIS = 0, RA never. -/
def writeSrLow (v : Word) (s : State) : State :=
  s.setSr { s.sr with
    ipl := if s.intc.nstdis then s.sr.ipl else v.extractLsb' 5 3
    n := v[3], ov := v[2], z := v[1], c := v[0] }

/-- A write of 1 to CORCON.EDT by the instruction at the pc (R380). A push of an exception entry that lands on CORCON is written by no
instruction, and R380 says nothing of it: the address compared is then the pc that entry stacks (DESIGN CHOICE, log 45). -/
def writeEdt (s : State) : State :=
  if s.cor.dl = 0#3 then s
  else if s.pc = addrOf s.doend ∨ s.pc = addrOf s.doend - 2#23 then { s with edtLate := true }
  else { s with edtPending := true }

/-- The high byte of CORCON written with bits 15:8 of `v` (R53). -/
def writeCorHigh (v : Word) (s : State) : State :=
  let s1 := s.setCor { s.cor with us := v.extractLsb' 12 2 }
  if v[11] then writeEdt s1 else s1

/-- The low byte of CORCON written with bits 7:0 of `v` (R53): IPL3 can only be cleared, SFA is read-only. -/
def writeCorLow (v : Word) (s : State) : State :=
  s.setCor { s.cor with
    sata := v[7], satb := v[6], satdw := v[5], accsat := v[4], ipl3 := s.cor.ipl3 && v[3], rnd := v[1], ifm := v[0] }

/-- INTCON1 bits 15:8 (R427). -/
def writeIntcon1High (v : Word) (s : State) : State :=
  s.setIntc { s.intc with
    nstdis := v[15], ovaerr := v[14], ovberr := v[13], covaerr := v[12], covberr := v[11], ovate := v[10], ovbte := v[9],
    covte := v[8] }

/-- INTCON1 bits 7:0 (R427). -/
def writeIntcon1Low (v : Word) (s : State) : State :=
  s.setIntc { s.intc with sftacerr := v[7], div0err := v[6] }

/-- A write by its bytes, each under its own rule. -/
def byLanes (l : Lanes) (hi lo : State → State) (s : State) : State :=
  match l with
  | .both => lo (hi s)
  | .low => lo s
  | .high => hi s

/-- A data write of `v` to these bytes of a register, under the register's rule. -/
def sfrWrite (r : Sfr) (l : Lanes) (v : Word) (s : State) : Res Unit :=
  match r with
  | .w n =>
    match l with
    | .both => .val () (s.setW n v)
    | .low => .val () (s.setWLow n (loByte v))
    | .high => .val () (s.setWHigh n (hiByte v))
  | .splim =>
    .val () { s with
      splim := clearBit0 (mergeLanes l s.splim v)
      splimEn := s.splimEn || decide (l = .both)
      trk := { s.trk with splimWr := true } }
  | .accL x =>
    .val () (s.setAcc x ((s.acc x).extractLsb' 16 24 ++ mergeLanes l ((s.acc x).setWidth 16) v))
  | .accH x =>
    .val () (s.setAcc x (((s.acc x).extractLsb' 32 8 ++ mergeLanes l ((s.acc x).extractLsb' 16 16) v)
      ++ ((s.acc x).setWidth 16 : Word)))
  | .accU x =>
    .val () (s.setAcc x ((mergeLanes l ((s.acc x).extractLsb' 32 8 |>.signExtend 16) v).extractLsb' 0 8
      ++ ((s.acc x).setWidth 32 : BitVec 32)))
  | .pcl => refuse .pcWrite
  | .pch => refuse .pcWrite
  | .dsrpag => .val () { s with dsrpag := (mergeLanes l (s.dsrpag.setWidth 16) v).setWidth 10 }
  | .dswpag => .val () { s with dswpag := (mergeLanes l (s.dswpag.setWidth 16) v).setWidth 9 }
  | .rcount => .val () (s.setRcount (mergeLanes l s.rcount v))
  | .dcount => .val () { s with dcount := mergeLanes l s.dcount v }
  | .dostartl => .val () s
  | .dostarth => .val () s
  | .doendl =>
    .val () { s with doend := s.doend.extractLsb' 15 7 ++ (mergeLanes l (addrLow s.doend) v).extractLsb' 1 15 }
  | .doendh =>
    .val () { s with
      doend := (mergeLanes l (addrHigh s.doend) v).extractLsb' 0 7 ++ (s.doend.setWidth 15 : BitVec 15) }
  | .sr => .val () (byLanes l (writeSrHigh v) (writeSrLow v) s)
  | .corcon => .val () (byLanes l (writeCorHigh v) (writeCorLow v) s)
  | .modcon => .val () { s with modcon := mergeLanes l s.modcon v &&& 0xCFFF#16 }
  | .xmodsrt => .val () { s with xmodsrt := clearBit0 (mergeLanes l s.xmodsrt v) }
  | .xmodend => .val () { s with xmodend := mergeLanes l s.xmodend v ||| 1#16 }
  | .ymodsrt => .val () { s with ymodsrt := clearBit0 (mergeLanes l s.ymodsrt v) }
  | .ymodend => .val () { s with ymodend := mergeLanes l s.ymodend v ||| 1#16 }
  | .xbrev => .val () { s with xbrev := mergeLanes l s.xbrev v }
  | .disicnt => refuse .disicntWrite
  | .tblpag => .val () { s with tblpag := (mergeLanes l (s.tblpag.setWidth 16) v).setWidth 8 }
  | .mstrpr => .val () { s with mstrpr := mergeLanes l s.mstrpr v &&& 0x0029#16 }
  | .ctxtstat => .val () s
  | .intcon1 => .val () (byLanes l (writeIntcon1High v) (writeIntcon1Low v) s)
  | .intcon3 =>
    match l with
    | .high => .val () s
    | _ => .val () (s.setIntc { s.intc with doOvr := v[4] })

end Sys2Proof.Machine
end

