-- ==== Sys2Proof/Machine/Access.lean ====
section
/-!
DEFINITION. Data accesses: paging (R102 to R107), alignment (R98), the stack checks (R176), the address map (R94, R96),
program reads (R91).
-/

namespace Sys2Proof.Machine

/-- What an effective address was formed from: it decides paging and the stack checks (R103, R176). -/
inductive Base where
  /-- An address in the instruction; never paged (D4; log 10). -/
  | file
  /-- From the base register `n` and, in the register offset form, the offset register `o`; `o` is `n` in the other forms. -/
  | reg (n o : Reg)
  deriving DecidableEq, Repr

/-- Whether an address was formed from `W[r]`, as base or as offset register (R103, R424; log 12). -/
def Base.formedFrom (b : Base) (r : Reg) : Bool :=
  match b with
  | .file => false
  | .reg n o => decide (n = r) || decide (o = r)

/-- Whether `W[r]` is the base register of the access. -/
def Base.isThrough (b : Base) (r : Reg) : Bool :=
  match b with
  | .file => false
  | .reg n _ => decide (n = r)

/-- The step of a pointer modification (R142). -/
def stepOf (z : Size) : Word :=
  match z with
  | .word => 2#16
  | .byte => 1#16

/-- Where an access goes after paging. -/
inductive Target where
  /-- Data space, base below 0x010000, extended above (R102, R104). -/
  | data (a : Nat)
  /-- A word index of program space and the view, upper byte or low word (R107). -/
  | psv (k : Nat) (upper : Bool)
  /-- A page register holding 0 (R105). -/
  | pageZero
  deriving DecidableEq, Repr

/-- Whether an access is paged: EA[15] = 1 and not exempt (R102, R103); the offset register exempts like the base register
(DESIGN CHOICE, log 10). -/
def isPaged (s : State) (b : Base) (ea : Word) : Bool :=
  ea.msb && decide (b ≠ .file) && !b.formedFrom 15 && !(b.formedFrom 14 && s.cor.sfa)

/-- The 24-bit address of a page and the low 15 bits of an effective address (R104). -/
def pageAddr (p : Nat) (ea : Word) : Nat := p % 512 * 32768 + ea.toNat % 32768

/-- Where a read goes (R102 to R107). -/
def readTarget (s : State) (b : Base) (ea : Word) : Target :=
  if isPaged s b ea then
    let p := s.dsrpag.toNat
    if p = 0 then .pageZero
    else if p < 0x200 then .data (pageAddr p ea)
    else .psv (p % 256 * 16384 + ea.toNat % 32768 / 2) (decide (0x300 ≤ p))
  else .data ea.toNat

/-- The data address a write goes to; none with a page register holding 0 (R106, R105). -/
def writeTarget (s : State) (b : Base) (ea : Word) : Option Nat :=
  if isPaged s b ea then
    let p := s.dswpag.toNat
    if p = 0 then none else some (pageAddr p ea)
  else some ea.toNat

/-- What stands at a data address (R94, R96, R104). -/
inductive Place where
  | sfr (r : Sfr)
  | ram
  | peripheral
  | absent
  | extended
  deriving DecidableEq, Repr

/-- The address map: registers below 0x1000, memory up to RAM_END, extended memory as far as the integrator supplies it. -/
def placeOf (d : Device) (a : Nat) : Place :=
  if a < 0x1000 then
    match sfrAt d (a / 2 * 2) with
    | some r => .sfr r
    | none => .peripheral
  else if a < 0x10000 then if a ≤ d.ramEnd.toNat then .ram else .absent
  else if a ≤ d.edsEnd.toNat then .ram else .extended

/-- The stop an access to a place with nothing behind it ends in. -/
def noPlace {α : Type} (p : Place) : Res α :=
  match p with
  | .absent => fault .noData
  | .extended => refuse .extendedData
  | _ => refuse .peripheralSfr

/-- `ProgRead(a)` by word index (R91); above the words present there is nothing. -/
def progWord (s : State) (k : Nat) : Res PWord :=
  if k < s.dev.progWords then .val (s.prog.read k) s else fault .programOutside

/-- The word of memory at an even address, little-endian (R96, R97). -/
def Memory.readWord (m : Memory) (a : Nat) : Word := mkWord (m.read (a + 1)) (m.read a)

/-- A word of memory written (R96, R97). -/
def Memory.writeWord (m : Memory) (a : Nat) (v : Word) : Memory := (m.write a (loByte v)).write (a + 1) (hiByte v)

/-- A word read at an even data address. -/
def readDataWord (a : Nat) (s : State) : Res Word :=
  match placeOf s.dev a, placeOf s.dev (a + 1) with
  | .sfr r, _ => let (v, s') := sfrRead r s; .val v s'
  | .ram, .ram => .val (s.mem.readWord a) s
  | .ram, p => noPlace p
  | p, _ => noPlace p

/-- A byte read at a data address; a register gives the byte of its word (R96). -/
def readDataByte (a : Nat) (s : State) : Res Word :=
  match placeOf s.dev a with
  | .sfr r => let (v, s') := sfrRead r s; .val (zext16 (if a % 2 = 0 then loByte v else hiByte v)) s'
  | .ram => .val (zext16 (s.mem.read a)) s
  | p => noPlace p

/-- A word written at an even data address; a register gets it whole (R96). -/
def writeDataWord (a : Nat) (v : Word) (s : State) : Res Unit :=
  match placeOf s.dev a, placeOf s.dev (a + 1) with
  | .sfr r, _ => sfrWrite r .both v s
  | .ram, .ram => .val () (s.setMem (s.mem.writeWord a v))
  | .ram, p => noPlace p
  | p, _ => noPlace p

/-- The low byte of `v` written at a data address. -/
def writeDataByte (a : Nat) (v : Word) (s : State) : Res Unit :=
  match placeOf s.dev a with
  | .sfr r => sfrWrite r (if a % 2 = 0 then .low else .high) (mkWord (loByte v) (loByte v)) s
  | .ram => .val () (s.setMem (s.mem.write a (loByte v)))
  | p => noPlace p

/-- A read of program space through the PSV window (R107). -/
def readPsv (k : Nat) (upper : Bool) (z : Size) (ea : Word) (s : State) : Res Word :=
  (progWord s k).bind fun w s1 =>
    let v : Word := if upper then (w.extractLsb' 16 8).setWidth 16 else w.setWidth 16
    .val (match z with
      | .word => v
      | .byte => zext16 (if ea.getLsbD 0 then hiByte v else loByte v))
      (s1.setTrk { s1.trk with psvRd := true })

/-- The stack checks for an address formed from W15 (R176, R424, D10; log 12). `wrapped` says that forming the address left the
16 bits. A check that trips adds the request; the access goes on. -/
def stackCheck (b : Base) (ea : Word) (wrapped : Bool) (s : State) : State :=
  if b.formedFrom 15 ∧ ((s.splimEn ∧ (s.splim < ea ∨ wrapped)) ∨ ea < 0x1000#16) then s.raiseStack else s

/-- A word access at an odd address (R98). -/
def misaligned (z : Size) (ea : Word) : Bool :=
  match z with
  | .word => ea.getLsbD 0
  | .byte => false

/-- A data read at an effective address: the stack checks, the alignment rule, paging, then `MemRead` (R96 to R107). A read
that raises AddressError gives a free value (R423). A read through W15 right after a write of SPLIM is refused (R496); W15 as
the offset register does not count (DESIGN CHOICE, log 29). -/
def readAt (b : Base) (z : Size) (ea : Word) (wrapped : Bool) (s : State) : Res Word :=
  if b.isThrough 15 ∧ s.trk.splimPrev then refuse .splimHazard
  else
    let s := stackCheck b ea wrapped s
    if misaligned z ea then .val s.freeWord s.drawn.raiseAddress
    else match readTarget s b ea with
      | .pageZero => .val (match z with
          | .word => s.freeWord
          | .byte => zext16 (loByte s.freeWord)) s.drawn.raiseAddress
      | .psv k u => readPsv k u z ea s
      | .data a =>
        match z with
        | .word => readDataWord a s
        | .byte => readDataByte a s

/-- Whether an address in the instruction is that of DOENDL or DOENDH (R497). -/
def isDoendFile (d : Device) (b : Base) (ea : Word) : Bool :=
  decide (b = .file) && (decide (placeOf d ea.toNat = .sfr .doendl) || decide (placeOf d ea.toNat = .sfr .doendh))

/-- A data write at an effective address. A write that raises AddressError is not performed (R423). -/
def writeAt (b : Base) (z : Size) (ea : Word) (wrapped : Bool) (v : Word) (s : State) : Res Unit :=
  let s := stackCheck b ea wrapped s
  if misaligned z ea then .val () s.raiseAddress
  else match writeTarget s b ea with
    | none => .val () s.raiseAddress
    | some a =>
      let s := if isDoendFile s.dev b ea then s.setTrk { s.trk with doendWr := true } else s
      match z with
      | .word => writeDataWord a v s
      | .byte => writeDataByte a v s

end Sys2Proof.Machine
end

