-- ==== Sys2Proof/Machine/Operands.lean ====
section
/-!
DEFINITION. Every operand form of R142 (30_encoding.md), with the checks of R29 and R109 and the rule of R25.
-/

namespace Sys2Proof.Machine

/-- Whether bit-reversed addressing applies: a word access with pre- or post-increment through the register MODCON.BWM
selects, BREN set and BWM not 15 (R109). -/
def bitReversedApplies (s : State) (m : Mode) (z : Size) (n : Reg) : Bool :=
  s.xbrev.getLsbD 15 && decide ((s.modcon.extractLsb' 8 4).toNat ≠ 15)
    && decide ((s.modcon.extractLsb' 8 4).toNat = n.val) && decide (z = .word)
    && decide (m = .postInc ∨ m = .preInc)

/-- What R142 and R109 ask before `W[n]` serves as a pointer: an uninitialised register resets the device (R29), and
modulo and bit-reversed addressing are not given. -/
def pointerCheck (m : Mode) (z : Size) (n : Reg) (s : State) : Res Unit :=
  if !s.isInit n then .stop (.next s.deviceReset)
  else if s.modcon.getLsbD 15 || s.modcon.getLsbD 14 then refuse .moduloAddressing
  else if bitReversedApplies s m z n then refuse .bitReversed
  else .val () s

/-- `v` as register n would hold it: bit 0 of W15 is 0 (R27). -/
def asReg (n : Reg) (v : Word) : Word := if n = 15 then clearBit0 v else v

/-- The effective address of an indirect form with step `k`, `w` the offset register (R142). -/
def effAddr (m : Mode) (n w : Reg) (k : Word) (s : State) : Word :=
  match m with
  | .preInc => asReg n (s.getW n + k)
  | .preDec => asReg n (s.getW n - k)
  | .offset => s.getW n + s.getW w
  | _ => s.getW n

/-- The registers that address is formed from (R103, R424). -/
def baseOf (m : Mode) (n w : Reg) : Base := .reg n (if m = .offset then w else n)

/-- Whether forming that address carried out of 16 bits or borrowed below 0 (R176). -/
def effWraps (m : Mode) (n w : Reg) (k : Word) (s : State) : Bool :=
  match m with
  | .preInc => decide (65536 ≤ (s.getW n).toNat + k.toNat)
  | .preDec => decide ((s.getW n).toNat < k.toNat)
  | .offset => decide (65536 ≤ (s.getW n).toNat + (s.getW w).toNat)
  | _ => false

/-- The pointer modification of a form, applied to what the register holds now (R142, R25). -/
def modifyPtr (m : Mode) (n : Reg) (k : Word) (s : State) : State :=
  match m with
  | .postInc => s.setW n (s.getW n + k)
  | .preInc => s.setW n (s.getW n + k)
  | .postDec => s.setW n (s.getW n - k)
  | .preDec => s.setW n (s.getW n - k)
  | _ => s

/-- Whether the pointer of a form is modified before the access. -/
def isPre (m : Mode) : Bool :=
  match m with
  | .preInc => true
  | .preDec => true
  | _ => false

/-- A source operand (R142): the value read, the pointer modified before or after the read. Either way it is modified before the
destination is written (DESIGN CHOICE where both are one register, log 13). -/
def readSrc (m : Mode) (z : Size) (n w : Reg) (s : State) : Res Word :=
  if m = .direct then .val (s.regRead z n) s
  else (pointerCheck m z n s).bind fun _ s =>
    let k := stepOf z
    let ea := effAddr m n w k s
    let wr := effWraps m n w k s
    if isPre m then readAt (baseOf m n w) z ea wr (modifyPtr m n k s)
    else (readAt (baseOf m n w) z ea wr s).bind fun v s => .val v (modifyPtr m n k s)

/-- A destination operand (R142): the data write first, then the pointer modification of what the register then holds
(R25). -/
def writeDst (m : Mode) (z : Size) (n w : Reg) (v : Word) (s : State) : Res Unit :=
  if m = .direct then .val () (s.regWrite z n v)
  else (pointerCheck m z n s).bind fun _ s =>
    let k := stepOf z
    (writeAt (baseOf m n w) z (effAddr m n w k s) (effWraps m n w k s) v s).bind fun _ s =>
      .val () (modifyPtr m n k s)

/-- A read-modify-write operand (R220): one effective address, one pointer modification, after the write (R25). -/
def modifyOperand (m : Mode) (z : Size) (n : Reg) (f : Word → Word) (s : State) : Res Unit :=
  if m = .direct then .val () (s.regWrite z n (f (s.regRead z n)))
  else (pointerCheck m z n s).bind fun _ s =>
    let k := stepOf z
    let ea := effAddr m n n k s
    let wr := effWraps m n n k s
    (readAt (.reg n n) z ea wr s).bind fun v s =>
      (writeAt (.reg n n) z ea wr (f v) s).bind fun _ s => .val () (modifyPtr m n k s)

/-- The register after `n`. -/
def nextReg (n : Reg) : Reg := n + 1

/-- The double word source of `MOV.D` (R165): two word reads, step 4. The pointer is modified before the destination pair is
written, so that a pointer in the pair ends with the loaded word (DESIGN CHOICE, log 36). -/
def readSrcD (m : Mode6) (n : Reg) (s : State) : Res (Word × Word) :=
  let m := m.toMode
  if m = .direct then .val (s.getW n, s.getW (nextReg n)) s
  else (pointerCheck m .word n s).bind fun _ s =>
    let ea := effAddr m n n 4#16 s
    let wr := effWraps m n n 4#16 s
    let s := if isPre m then modifyPtr m n 4#16 s else s
    (readAt (.reg n n) .word ea wr s).bind fun lo s =>
      (readAt (.reg n n) .word (ea + 2#16) (wr || decide (ea = 0xFFFE#16)) s).bind fun hi s =>
        .val (lo, hi) (if isPre m then s else modifyPtr m n 4#16 s)

/-- The double word destination of `MOV.D` (R165): two word writes, then the pointer modification. -/
def writeDstD (m : Mode6) (n : Reg) (lo hi : Word) (s : State) : Res Unit :=
  let m := m.toMode
  if m = .direct then .val () ((s.setW n lo).setW (nextReg n) hi)
  else (pointerCheck m .word n s).bind fun _ s =>
    let ea := effAddr m n n 4#16 s
    let wr := effWraps m n n 4#16 s
    (writeAt (.reg n n) .word ea wr lo s).bind fun _ s =>
      (writeAt (.reg n n) .word (ea + 2#16) (wr || decide (ea = 0xFFFE#16)) hi s).bind fun _ s =>
        .val () (modifyPtr m n 4#16 s)

/-- A file register read (R142; log 10). -/
def readFile (z : Size) (f : Word) (s : State) : Res Word := readAt .file z f false s

/-- A file register write. -/
def writeFile (z : Size) (f v : Word) (s : State) : Res Unit := writeAt .file z f false v s

end Sys2Proof.Machine
end

