-- ==== Sys2Proof/Machine/Record.lean ====
section
/-!
DEFINITION. What becomes of a `REPEAT` loop and its divide record when an exception interrupts it and a `RETFIE` resumes it, and
what the handlers between two executions owe the record: R302 (43_divide.md), R365 (45_loops.md). Log 19.
-/

namespace Sys2Proof.Machine

/-- The registers R302 names are as the last execution left them. -/
def DivRec.kept (r : DivRec) (s : State) : Bool :=
  s.getW 0 == r.w0 && s.getW 1 == r.w1 && s.getW r.m == r.wm && s.getW (r.m + 1) == r.wm1 && s.getW r.n == r.wn

/-- The divide can only end with an open result (R302). -/
def DivRec.spoil (r : DivRec) : DivRec := { r with intact := false }

/-- A divide started at `b` was not completed: the record is spoilt if it had its last execution before (R302). -/
def DivRec.spoilFrom (b : Nat) (r : DivRec) : DivRec := if r.last ≤ b then r.spoil else r

/-- `W[n]` of the context `c` as the handler found it. -/
def Interrupted.regIn (x : Interrupted) (c : Fin 5) (n : Reg) : Word :=
  if h : n.val < 15 then x.bank[bankIndex c n h].val else x.frame

/-- The handler that `x` was interrupted by has left the registers R302 names for this divide as it found them. -/
def DivRec.asFoundBy (r : DivRec) (x : Interrupted) (s : State) : Bool :=
  [0, 1, r.m, r.m + 1, r.n].all fun n => s.regIn r.ctx n == x.regIn r.ctx n

/-- The handler that `x` was interrupted by ends. If it ran between two executions of this divide and broke the duty R302 gives
every handler there, the record is spoilt. -/
def DivRec.judge (x : Interrupted) (s : State) (r : DivRec) : DivRec :=
  if r.last ≤ x.since ∧ r.asFoundBy x s = false then r.spoil else r

/-- The record of what was interrupted, if it has one, replaced. -/
def Interrupted.onDiv (f : DivRec → DivRec) (h : Interrupted) : Interrupted := { h with div := h.div.map f }

/-- The divide of an interrupted loop, if it has one, can only end with an open result (R302). -/
def Interrupted.spoil (h : Interrupted) : Interrupted := h.onDiv DivRec.spoil

/-- What was interrupted holds a divide that was started when `k` free values were drawn, or later, and is not completed (R301,
R302). -/
def Interrupted.startedSince (k : Nat) (h : Interrupted) : Bool :=
  match h.div with
  | some r => decide (r.done ≠ 18) && decide (k ≤ r.born)
  | none => false

/-- The machine stands as it was interrupted: RCOUNT, and the registers of the loop's divide, if it has run. -/
def Interrupted.same (s : State) (h : Interrupted) : Bool := h.rcount == s.rcount && h.div.all fun r => r.kept s

/-- A divide is left for good. If it was not completed, those that had an execution before it started have met a handler that broke
its duty (R302). -/
def leaveRecord (d : Option DivRec) (s : State) : State :=
  match d with
  | some r => if r.done = 18 then s else s.setHeld (s.held.map (Interrupted.onDiv (DivRec.spoilFrom r.born)))
  | none => s

/-- The running loop is left (R301, R302). -/
def leaveDiv (s : State) : State := leaveRecord s.div s

/-- An exception interrupts the machine: its two words are about to be pushed (R365, R445). The record of a running loop goes with
it. -/
def hold (s : State) : State :=
  let held := ⟨s.w15, s.pc, s.rcount, s.w, s.fresh, s.sr.ra, if s.sr.ra then s.div else none⟩ :: s.held
  (s.setHeld held).setDiv (if s.sr.ra then none else s.div)

/-- The newest held entry with a property, between the newer and the older ones. -/
def splitHeld (p : Interrupted → Bool) : List Interrupted → Option (List Interrupted × Interrupted × List Interrupted)
  | [] => none
  | h :: t =>
    if p h then some ([], h, t)
    else match splitHeld p t with
      | some (newer, x, older) => some (h :: newer, x, older)
      | none => none

/-- What the popped words say is what was interrupted: the address and, with RA restored, a loop. -/
def Interrupted.fits (s : State) (h : Interrupted) : Bool := h.target == s.pc && (h.loop || !s.sr.ra)

/-- Its words were pushed where a `RETFIE` has just popped. -/
def Interrupted.atPlace (s : State) (h : Interrupted) : Bool := h.frame == s.w15

/-- What a `RETFIE` that has popped its words goes on with (log 19): the newest that fits and whose words were pushed at this place,
over those of any older one. Where there is none, the words were moved, or the handler has changed them: without RA the newest of
this place; else the newest that fits and stands as it was interrupted, else the newest that fits, else the newest of this place. -/
def findHeld (s : State) : Option (List Interrupted × Interrupted × List Interrupted) :=
  [fun h => h.atPlace s && h.fits s, fun h => h.atPlace s && !s.sr.ra, fun h => h.fits s && h.same s, Interrupted.fits s,
    Interrupted.atPlace s].findSome? fun p => splitHeld p s.held

/-- The record the resumed loop goes on with. It stays valid exactly if its registers are as they were found and every divide
started since its last execution is completed (R302), whatever a handler wrote to RCOUNT (R365, R366). -/
def resumedDiv (s : State) (newer : List Interrupted) (h : Interrupted) : Option DivRec :=
  h.div.map fun r => { r with intact := r.intact && r.kept s && !newer.any (Interrupted.startedSince r.last) }

/-- The end of an interruption (R302, R365): its handler is judged on what stays interrupted; with RA restored its loop goes on, else
that is left. Words that no exception stacked resume a loop without a record. -/
def endInterruption (s : State) : State :=
  match findHeld s with
  | none => if s.sr.ra then s.setDiv none else s
  | some (newer, h, older) =>
    let t := s.setHeld ((newer ++ older).map (Interrupted.onDiv (DivRec.judge h s)))
    if !s.sr.ra then leaveRecord h.div t
    else if h.fits s then t.setDiv (resumedDiv s newer h)
    else (leaveRecord h.div t).setDiv none

end Sys2Proof.Machine
end

