-- ==== Sys2Proof/Machine/Ops.lean ====
section
/-!
DEFINITION. The shared operations: the stack (R170 to R176), calls and returns (R173), taking an exception and returning
from one (60_exceptions.md R440 to R456), register contexts (R442, R443), the fetch (R91, R147).
-/

namespace Sys2Proof.Machine

/-! ## The stack -/

/-- `Push(v)`: the write through W15, then W15 + 2 (R171, R176). -/
def push (v : Word) (s : State) : Res Unit :=
  (writeAt (.reg 15 15) .word s.w15 false v s).bind fun _ s => .val () (s.setW 15 (s.w15 + 2#16))

/-- `Pop()`: W15 - 2, then the read through W15 (R172, R176). -/
def pop (s : State) : Res Word :=
  let ea := clearBit0 (s.w15 - 2#16)
  readAt (.reg 15 15) .word ea (decide (s.w15.toNat < 2)) (s.setW 15 (s.w15 - 2#16))

/-- CORCON.SFA written (R51). -/
def State.setSfa (s : State) (b : Bool) : State := s.setCor { s.cor with sfa := b }

/-- The first stacked word: PC bits 15:1 and SFA (R173, R445). -/
def stackedLow (ret : PAddr) (sfa : Bool) : Word := (ret.extractLsb' 1 15 : BitVec 15) ++ BitVec.ofBool sfa

/-- The second stacked word of a call: PC bits 22:16 zero-extended (R173). -/
def stackedHigh (ret : PAddr) : Word := (ret.extractLsb' 16 7).setWidth 16

/-- SR bits 7:0 as they read (R35). -/
def State.srl (s : State) : Byte := s.srWord.extractLsb' 0 8

/-- The second stacked word of an exception: SRL, IPL3, PC bits 22:16 (R445). -/
def stackedHighExc (s : State) (ret : PAddr) : Word := s.srl ++ (BitVec.ofBool s.cor.ipl3 ++ (ret.extractLsb' 16 7 : BitVec 7) : BitVec 8)

/-- The pc two popped words hold: `{hi[6:0], lo[15:1], 0}` (R173, R338). -/
def poppedPc (hi lo : Word) : PAddr := (hi.extractLsb' 0 7 : BitVec 7) ++ (lo.extractLsb' 1 15 : BitVec 15) ++ 0#1

/-- `PushPC_call(ret)` (R173). -/
def pushPcCall (ret : PAddr) (s : State) : Res Unit :=
  (push (stackedLow ret s.cor.sfa) s).bind fun _ s =>
    (push (stackedHigh ret) s).bind fun _ s => .val () (s.setSfa false)

/-- `PopPC()` (R173): the address is the value; SFA is restored. -/
def popPc (s : State) : Res PAddr :=
  (pop s).bind fun hi s => (pop s).bind fun lo s => .val (poppedPc hi lo) (s.setSfa (lo.getLsbD 0))

/-- A call to a target (R324): push, then the pc. -/
def callTo (ret target : PAddr) (s : State) : Out :=
  (pushPcCall ret s).next fun _ s => s.setPc (evenPc target)

/-- A return (R335). -/
def returnFrom (s : State) : Out := (popPc s).next fun a s => s.setPc a

/-! ## Levels, contexts, vectors -/

/-- The CPU interrupt priority level `{IPL3, IPL[2:0]}` (R41). -/
def State.cpuIpl (s : State) : BitVec 4 := BitVec.ofBool s.cor.ipl3 ++ s.sr.ipl

/-- IPL[2:0] and IPL3 written by hardware (R446, R338). -/
def State.setIpl (s : State) (l : BitVec 4) : State :=
  (s.setSr { s.sr with ipl := l.extractLsb' 0 3 }).setCor { s.cor with ipl3 := l.msb }

/-- The contexts assigned a level, among those the device has (R442). -/
def contextsAt (d : Device) (l : BitVec 4) : List (Fin 5) :=
  (d.ctxtIpl.filter fun p => decide (0 < p.1.val) && decide (p.1 ≤ d.nAlt) && decide ((p.2.setWidth 4 : BitVec 4) = l)).map Prod.fst

/-- Context selection from a level: the context assigned to it, else `other` (R442, R338). Two contexts at one level are
outside the sources. -/
def selectContext (l : BitVec 4) (other : Fin 5) (s : State) : Res Unit :=
  match contextsAt s.dev l with
  | [] => .val () (s.setCctxi other)
  | [n] => .val () (s.setCctxi n)
  | _ => refuse .contextConfig

/-- The place of a source in the default vector table (R452). -/
def Source.entry : Source → Nat
  | .oscillator => 0x04
  | .address => 0x06
  | .hard => 0x08
  | .stack => 0x0A
  | .math => 0x0C
  | .dma => 0x0E
  | .soft => 0x10
  | .irq n => 0x14 + 2 * n.val

/-- `VECTOR[source]`: the device's own address, else the word of the default table (R452). -/
def vectorOf (src : Source) (s : State) : Res PAddr :=
  match s.dev.vectors.find? (fun p => p.1 == src.entry) with
  | some p => .val (evenPc p.2) s
  | none => (progWord s (src.entry / 2)).bind fun w s => .val (evenPc (w.setWidth 23)) s

/-! ## Taking an exception and returning from one -/

/-- A CPU trap's request is removed by entry into its handler (R448, D19). -/
def clearPending (src : Source) (p : Pending) : Pending :=
  match src with
  | .address => { p with address := false }
  | .stack => { p with stack := false }
  | .math => { p with math := false }
  | .soft => { p with soft := false }
  | _ => p

/-- The level entry gives the CPU: the request's, or 7 for an interrupt while NSTDIS = 1 (R446). -/
def entryLevel (s : State) (l : BitVec 4) : BitVec 4 := if s.intc.nstdis && !l.msb then 7#4 else l

/-- The context a request that matches none leaves or selects (R443). -/
def noMatchContext (s : State) : Fin 5 :=
  match s.dev.noMatch with
  | .keepCurrent => s.cctxi
  | .switchToDefault => 0

/-- ExceptionEntry (R448): the two pushes with RA and SFA cleared (R445), the level (R446), the context (R442, R443), the
request removed (for StackError this also drops what its own pushes raised, R447), the pc at the handler (R452). What is
interrupted is held (R365; log 19), and the model notes which handler begins (log 27). -/
def takeException (r : Request) (s : State) : Out :=
  ((push (stackedLow s.pc s.cor.sfa) (hold s)).bind fun _ s1 =>
    (push (stackedHighExc s s.pc) s1).bind fun _ s2 =>
      (selectContext r.level (noMatchContext s2)
          (((s2.setSr { s2.sr with ra := false }).setSfa false).setIpl (entryLevel s2 r.level))).bind fun _ s3 =>
        vectorOf r.source s3).next fun a s4 =>
          ((s4.setPend (clearPending r.source s4.pend)).setActive (r.source :: s4.active)).setPc a

/-- SRL, IPL3, SFA and the pc restored from the two popped words (R338). -/
def restoreFrom (hi lo : Word) (s : State) : State :=
  (((s.setSr { s.sr with
      ipl := hi.extractLsb' 13 3
      ra := hi[12], n := hi[11], ov := hi[10], z := hi[9], c := hi[8] }).setCor
    { s.cor with ipl3 := hi[7], sfa := lo[0] })).setPc (poppedPc hi lo)

/-- A status bit of MathError is set (R425). -/
def mathStatus (i : IntCon) : Bool := i.ovaerr || i.ovberr || i.covaerr || i.covberr || i.sftacerr || i.div0err

/-- The newest handler, `h`, returns: a trap of which a status bit is still set is requested again (R448; log 27). -/
def reenterTrap (h : Option Source) (s : State) : State :=
  s.setPend { s.pend with
    math := s.pend.math || (decide (h = some .math) && mathStatus s.intc)
    soft := s.pend.soft || (decide (h = some .soft) && s.intc.doOvr) }

/-- `RETFIE` (R338, R448, R456): two pops, the restore, then the context of the restored level, else MCTXI. The
handler is judged by R302's duty, and with RA the interrupted loop goes on (R365; log 19). -/
def returnFromException (s : State) : Out :=
  ((pop s).bind fun hi s1 => (pop s1).bind fun lo s2 =>
    let s3 := reenterTrap s.active.head? ((restoreFrom hi lo s2).setActive s.active.tail)
    selectContext s3.cpuIpl s3.mctxi s3).next fun _ s4 => endInterruption s4

/-! ## Choosing what to do next (R440, R441) -/

/-- The CPU's own pending traps as requests, at the device's levels (R441). -/
def cpuRequests (s : State) : List Request :=
  (if s.pend.address then [⟨.address, s.dev.levelAddress⟩] else [])
    ++ (if s.pend.stack then [⟨.stack, s.dev.levelStack⟩] else [])
    ++ (if s.pend.math then [⟨.math, s.dev.levelMath⟩] else [])
    ++ (if s.pend.soft then [⟨.soft, s.dev.levelSoft⟩] else [])

/-- A request of the interrupt controller, a trap at the device's level (R428, R441). -/
def External.request (d : Device) : External → Request
  | .oscillator => ⟨.oscillator, d.levelOscillator⟩
  | .hard => ⟨.hard, d.levelHard⟩
  | .dma => ⟨.dma, d.levelDma⟩
  | .soft => ⟨.soft, d.levelSoft⟩
  | .irq n l => ⟨.irq n, l.setWidth 4⟩

/-- The request set of R428. -/
def requests (s : State) : List Request := cpuRequests s ++ s.ext.map (External.request s.dev)

/-- Whether a request can be taken now (R440, R405). -/
def eligible (s : State) (r : Request) : Bool :=
  decide (s.cpuIpl < r.level) && !(decide (r.level ≤ 6#4) && decide (s.disicnt ≠ 0#14))

/-- Whether `a` goes before `b`: the higher level, then the lower place in the table (R441). -/
def goesBefore (a b : Request) : Bool :=
  decide (b.level < a.level) || (decide (a.level = b.level) && decide (a.source.entry ≤ b.source.entry))

/-- The request to take among some. -/
def pickRequest : List Request → Option Request
  | [] => none
  | r :: t =>
    match pickRequest t with
    | none => some r
    | some b => if goesBefore r b then some r else some b

/-- The request taken before the next instruction, if any (R440). -/
def nextRequest (s : State) : Option Request := pickRequest ((requests s).filter (eligible s))

/-! ## Fetching -/

/-- The program word at a program address, for a fetch (R91). -/
def fetchWord (s : State) (a : PAddr) : Option PWord :=
  if a.toNat / 2 < s.dev.progWords then some (s.prog.read (a.toNat / 2)) else none

/-- Fetch and decode at the pc (R147). The second word is fetched only for a two-word instruction. R91 fetches it at pc + 2; for an
instruction at 0x7FFFFE of a device with 4M program words that is 0x800000, of which the spec says nothing (D12 truncates the PC
increment, not this fetch): the model fetches word 0 (DESIGN CHOICE, log 49). -/
def fetchDecode (s : State) : Except Out Instr :=
  match fetchWord s s.pc with
  | none => .error (.fault .fetchOutside)
  | some w1 =>
    if twoWord w1 then
      match fetchWord s (s.pc + 2#23) with
      | none => .error (.fault .fetchOutside)
      | some w2 =>
        match decode w1 w2 with
        | .ok i => .ok i
        | .error e => .error (.refused (.undecoded e))
    else
      match decode w1 0#24 with
      | .ok i => .ok i
      | .error e => .error (.refused (.undecoded e))

end Sys2Proof.Machine
end

