-- ==== Sys2Proof/Machine/Moves.lean ====
section
/-!
DEFINITION. Moves, frames and shadows: R160 to R184 (40_moves_stack_context.md).
-/

namespace Sys2Proof.Machine

/-- The address of a 13-bit file field (R138). -/
def fileAddr (f : BitVec 13) : Word := f.setWidth 16

/-- The address of a 15-bit file field, a word address (R138). -/
def wordFileAddr (f : BitVec 15) : Word := f ++ 0#1

/-- The registers of `MOV.D`: an even pair (R165). -/
def pairReg (d : Fin 8) : Reg := ⟨2 * d.val, by omega⟩

/-- `MOV{.b} Ws, Wd` (R161); `PUSH` and `POP` are its W15 forms (R171, R172). -/
def execMovWsWd (w : Reg) (b : Size) (h : Mode) (d : Reg) (g : Mode) (r : Reg) (s : State) : Out :=
  ((readSrc g b r w s).bind fun v s => writeDst h b d w v s).done

/-- `MOV f, Wnd` (R162). -/
def execMovFWnd (f : BitVec 15) (d : Reg) (s : State) : Out :=
  ((readFile .word (wordFileAddr f) s).bind fun v s => .val () (s.setW d v)).done

/-- `MOV Wns, f` (R162). -/
def execMovWnsF (f : BitVec 15) (r : Reg) (s : State) : Out :=
  (writeFile .word (wordFileAddr f) (s.getW r) s).done

/-- `MOV{.b} WREG, f` (R163). -/
def execMovWregF (b : Size) (f : BitVec 13) (s : State) : Out :=
  (writeFile b (fileAddr f) (s.regRead b 0) s).done

/-- The destination of a file register instruction: WREG or the file register (R163, R206). -/
def writeFileDest (b : Size) (t : FDest) (f v : Word) (s : State) : Res Unit :=
  match t with
  | .wreg => .val () (s.regWrite b 0 v)
  | .file => writeFile b f v s

/-- `MOV{.b} f {,WREG}`: N and Z of the value (R163). -/
def execMovF (b : Size) (t : FDest) (f : BitVec 13) (s : State) : Out :=
  ((readFile b (fileAddr f) s).bind fun v s => writeFileDest b t (fileAddr f) v (s.setNZ (aluPass b v))).done

/-- `MOV #lit16, Wnd` (R164). -/
def execMovLit16 (k : BitVec 16) (d : Reg) (s : State) : Out := .next ((s.setW d k).advance 1)

/-- `MOV.b #lit8, Wnd` (R164). -/
def execMovbLit8 (k : BitVec 8) (d : Reg) (s : State) : Out := .next ((s.setWLow d k).advance 1)

/-- `MOV.D Ws, Wnd` (R165). -/
def execMovDLoad (d : Fin 8) (p : Mode6) (r : Reg) (s : State) : Out :=
  ((readSrcD p r s).bind fun v s =>
    .val () ((s.setW (pairReg d) v.1).setW (nextReg (pairReg d)) v.2)).done

/-- `MOV.D Wns, Wd` (R165); both words of the source are read first (R112; log 13). -/
def execMovDStore (q : Mode6) (d : Reg) (r : Fin 8) (s : State) : Out :=
  (writeDstD q d (s.getW (pairReg r)) (s.getW (nextReg (pairReg r))) s).done

/-- `LNK #lit14` (R180): with SFA set it also raises StackError (D10). -/
def execLnk (k : BitVec 13) (s : State) : Out :=
  let s := if s.cor.sfa then s.raiseStack else s
  ((push (s.getW 14) s).bind fun _ s =>
    let s := s.setW 14 s.w15
    .val () ((s.setW 15 (s.w15 + ((k ++ 0#1 : BitVec 14).setWidth 16))).setSfa true)).done

/-- `ULNK` (R181): with SFA clear it also raises StackError (D10). -/
def execUlnk (s : State) : Out :=
  let s := if s.cor.sfa then s else s.raiseStack
  ((pop (s.setW 15 (s.getW 14))).bind fun v s => .val () ((s.setW 14 v).setSfa false)).done

/-- `PUSH.S` (R183). -/
def execPushS (s : State) : Out :=
  .next ({ s with
    shadow := ⟨s.getW 0, s.getW 1, s.getW 2, s.getW 3, s.sr.dc, s.sr.n, s.sr.ov, s.sr.z, s.sr.c⟩ }.advance 1)

/-- `POP.S` (R184): word writes of W0 to W3 and the five flags. -/
def execPopS (s : State) : Out :=
  let h := s.shadow
  let s := (((s.setW 0 h.w0).setW 1 h.w1).setW 2 h.w2).setW 3 h.w3
  .next ((s.setSr { s.sr with dc := h.dc, n := h.n, ov := h.ov, z := h.z, c := h.c }).advance 1)

end Sys2Proof.Machine
end

