-- ==== Sys2Proof/Machine/Alu.lean ====
section
/-!
DEFINITION. The MCU additions and the byte to word conversions: R200 to R211 (41_alu.md). Flags are written before the
destination, so that a data write to SR wins (R44, D9).
-/

namespace Sys2Proof.Machine

/-- The sum of two operands to a destination, with its flags (R203). -/
def addTo (b : Size) (x y : Word) (q : Mode6) (d : Reg) (s : State) : Res Unit :=
  writeDst q.toMode b d d (aluAdd b x y).val (s.setFlags (aluAdd b x y))

/-- `ADD{.b} Wb, Ws, Wd` (R203); `Wb` is read before `Ws` is. -/
def execAddWbWsWd (w : Reg) (b : Size) (q : Mode6) (d : Reg) (p : PostMode) (r : Reg) (s : State) : Out :=
  ((readSrc p.toMode b r r s).bind fun y s' => addTo b (s.regRead b w) y q d s').done

/-- `ADD{.b} Wb, Ws, Wd` with a pre-modified source (R203). -/
def execAddWbWsWdPre (w : Reg) (b : Size) (q : Mode6) (d : Reg) (p : PreMode) (r : Reg) (s : State) : Out :=
  ((readSrc p.toMode b r r s).bind fun y s' => addTo b (s.regRead b w) y q d s').done

/-- `ADD{.b} Wb, #lit5, Wd` (R204). -/
def execAddWbLit5 (w : Reg) (b : Size) (q : Mode6) (d : Reg) (k : BitVec 5) (s : State) : Out :=
  (addTo b (s.regRead b w) (k.setWidth 16) q d s).done

/-- `ADD{.b} #lit10, Wn` (R205). -/
def execAddLit10 (b : Size) (k : BitVec 10) (d : Reg) (s : State) : Out :=
  let o := aluAdd b (s.regRead b d) (k.setWidth 16)
  .next (((s.setFlags o).regWrite b d o.val).advance 1)

/-- `ADD{.b} f {,WREG}` (R206). -/
def execAddF (b : Size) (t : FDest) (f : BitVec 13) (s : State) : Out :=
  ((readFile b (fileAddr f) s).bind fun v s' =>
    let o := aluAdd b v (s.regRead b 0)
    writeFileDest b t (fileAddr f) o.val (s'.setFlags o)).done

/-- `SE Ws, Wnd` (R210). -/
def execSe (d : Reg) (p : Mode6) (r : Reg) (s : State) : Out :=
  ((readSrc p.toMode .byte r r s).bind fun v s =>
    .val () ((s.setNZC (aluSe v)).setW d (aluSe v).val)).done

/-- `ZE Ws, Wnd` (R211). -/
def execZe (d : Reg) (p : Mode6) (r : Reg) (s : State) : Out :=
  ((readSrc p.toMode .byte r r s).bind fun v s =>
    .val () ((s.setNZC (aluZe v)).setW d (aluZe v).val)).done

end Sys2Proof.Machine
end

