-- ==== Sys2Proof/Machine/Bits.lean ====
section
/-!
DEFINITION. The bit instructions: R220, R221 (41_alu.md), and the skip (R331, 44_program_flow.md).
-/

namespace Sys2Proof.Machine

/-- A value with one bit set (R220). -/
def setBit (k : Nat) (v : Word) : Word := v ||| (1#16 <<< k)

/-- The skip of R331: one program word is passed over. -/
def skipIf (c : Bool) (s : State) : State := s.advance (if c then 2 else 1)

/-- The byte a file register bit instruction accesses (R220). -/
def bitByte (k : BitVec 4) (f : BitVec 12) : Word := (f ++ BitVec.ofBool k.msb : BitVec 13).setWidth 16

/-- The bit of that byte (R220). -/
def bitInByte (k : BitVec 4) : Nat := k.toNat % 8

/-- `BSET{.b} Ws, #bit4` (R220). -/
def execBsetWs (k : BitVec 4) (b : Size) (p : Mode6) (r : Reg) (s : State) : Out :=
  (modifyOperand p.toMode b r (setBit k.toNat) s).done

/-- `BTSC Ws, #bit4` (R221, R331). -/
def execBtscWs (k : BitVec 4) (p : Mode6) (r : Reg) (s : State) : Out :=
  (readSrc p.toMode .word r r s).next fun v s => skipIf (!v.getLsbD k.toNat) s

/-- `BSET f, #bit4` (R220). -/
def execBsetF (k : BitVec 4) (f : BitVec 12) (s : State) : Out :=
  ((readFile .byte (bitByte k f) s).bind fun v s => writeFile .byte (bitByte k f) (setBit (bitInByte k) v) s).done

/-- `BTSC f, #bit4` (R221, R331). -/
def execBtscF (k : BitVec 4) (f : BitVec 12) (s : State) : Out :=
  (readFile .byte (bitByte k f) s).next fun v s => skipIf (!v.getLsbD (bitInByte k)) s

/-- The compare and skip class (R331): the sources give its members no operands and no condition, so the condition is a
free bit (log 21); the skip is R331's. -/
def execCompareSkip (s : State) : Out := .next (skipIf s.freeBit s.drawn)

end Sys2Proof.Machine
end

