-- ==== Sys2Proof/Machine/Divide.lean ====
section
/-!
DEFINITION. The divides: R300 to R307 (43_divide.md). One execution is one of the eighteen iterations (R301); the record of
R302 is `State.div` (log 19).
-/

namespace Sys2Proof.Machine

/-- The dividend as latched: 32 bits for the `D` forms, else the 16 bits of `Wm` (R300). -/
def dividendOf (k : DivKind) (m : Reg) (s : State) : BitVec 32 :=
  match k with
  | .sd | .ud => s.getW (m + 1) ++ s.getW m
  | _ => (s.getW m).setWidth 32

/-- The dividend as an integer (R303, R304). -/
def dividendInt (r : DivRec) : Int :=
  match r.kind with
  | .sd => r.dividend.toInt
  | .sw => (r.dividend.setWidth 16 : Word).toInt
  | .f => (r.dividend.setWidth 16 : Word).toInt * 32768
  | _ => (r.dividend.toNat : Int)

/-- Whether the operands are signed. -/
def DivKind.signed : DivKind → Bool
  | .uw | .ud => false
  | _ => true

/-- The divisor as an integer. -/
def divisorInt (r : DivRec) : Int := if r.kind.signed then r.divisor.toInt else (r.divisor.toNat : Int)

/-- The quotient, truncated toward zero (R303). -/
def quotient (r : DivRec) : Int := Int.tdiv (dividendInt r) (divisorInt r)

/-- The remainder, with the sign of the dividend (R303). -/
def remainder (r : DivRec) : Int := dividendInt r - quotient r * divisorInt r

/-- Divide overflow (R303, R304). -/
def divOverflow (r : DivRec) : Bool :=
  match r.kind with
  | .f => decide ((divisorInt r).natAbs ≤ (r.dividend.setWidth 16 : Word).toInt.natAbs)
  | .uw | .ud => decide (65535 < quotient r)
  | _ => decide (quotient r < -32768) || decide (32767 < quotient r)

/-- `W[0]` and `W[1]` written. -/
def writeResult (q r : Word) (s : State) : State := (s.setW 0 q).setW 1 r

/-- W0 and W1 left open (R302): two free values. -/
def freeResult (s : State) : State := (writeResult s.freeWord s.drawn.freeWord s).drawn.drawn

/-- N, Z, OV and C left open (R301). -/
def freeFlags (s : State) : State :=
  (s.setSr { s.sr with n := s.freeBit, z := s.drawn.freeBit, ov := s.drawn.drawn.freeBit, c := s.drawn.drawn.drawn.freeBit }).drawn.drawn.drawn.drawn

/-- N and Z of a remainder and OV; C is open (R306). -/
def resultFlags (k : DivKind) (rem : Word) (ov : Bool) (s : State) : State :=
  (s.setSr { s.sr with n := k.signed && rem.msb, z := rem == 0#16, ov := ov, c := s.freeBit }).drawn

/-- The result of the eighteenth iteration (R303 to R306). With a record a handler has spoilt everything is open (R302). With a
zero divisor or after an overflow W0 and W1 are (R303, R305), and N and Z follow the open remainder; OV is then as R303 and R304
say, and open for a zero divisor of an integer divide, whose quotient R303 does not give (log 19). -/
def divideResult (r : DivRec) (s : State) : State :=
  let t := freeResult s
  let rem := s.drawn.freeWord
  if !r.intact then freeFlags t
  else if r.kind ≠ .f ∧ r.divisor = 0#16 then resultFlags r.kind rem t.freeBit t.drawn
  else if divOverflow r then resultFlags r.kind rem true t
  else
    resultFlags r.kind (BitVec.ofInt 16 (remainder r)) false
      (writeResult (BitVec.ofInt 16 (quotient r)) (BitVec.ofInt 16 (remainder r)) s)

/-- The record as the registers now stand, for the handlers and the next iteration to be compared with. -/
def recordNow (r : DivRec) (s : State) : DivRec :=
  { r with
    last := s.fresh, ctx := s.cctxi
    w0 := s.getW 0, w1 := s.getW 1, wm := s.getW r.m, wm1 := s.getW (r.m + 1), wn := s.getW r.n }

/-- A new record latches the operands (R302). -/
def newRecord (k : DivKind) (m n : Reg) (s : State) : DivRec :=
  { kind := k, m := m, n := n, born := s.fresh, dividend := dividendOf k m s, divisor := s.getW n, done := 0, intact := true
    last := s.fresh, ctx := s.cctxi
    w0 := s.getW 0, w1 := s.getW 1, wm := s.getW m, wm1 := s.getW (m + 1), wn := s.getW n }

/-- DIV0ERR set, and the trap requested (R305, R425). -/
def raiseDiv0 (s : State) : State := (s.setIntc { s.intc with div0err := true }).raiseMath

/-- The trap of a first iteration (R302, R305). -/
def checkDivisor (n : Reg) (s : State) : State := if s.getW n = 0#16 then raiseDiv0 s else s

/-- One iteration for the record `r` (R302). -/
def iterate (r : DivRec) (s : State) : State :=
  let r : DivRec := { r with done := r.done + 1 }
  let t := if r.done < 18 then freeFlags (freeResult s) else divideResult r s
  t.setDiv (some (recordNow r t))

/-- Whether an execution is the next iteration of the divide `r` of its loop (R302). One after the eighteenth is not, since only
eighteen executions give a result (R301, R502). -/
def continues (r : DivRec) (k : DivKind) (m n : Reg) : Bool :=
  decide (r.kind = k) && decide (r.m = m) && decide (r.n = n) && decide (r.done < 18)

/-- One execution of a divide (R302). In a `REPEAT` loop the first one latches, and one that is no next iteration latches with an
open result; outside it starts a divide and does not complete it, which spoils the interrupted ones. -/
def divideStep (k : DivKind) (m n : Reg) (s : State) : State :=
  if s.sr.ra then
    match s.div with
    | none => iterate (newRecord k m n s) (checkDivisor n s)
    | some r =>
      if continues r k m n then iterate { r with intact := r.intact && r.kept s } s
      else iterate (newRecord k m n s).spoil (checkDivisor n (leaveDiv s))
  else (freeFlags (freeResult (checkDivisor n s))).setHeld (s.held.map Interrupted.spoil)

/-- `DIV.SW` and `DIV.SD` (R307). -/
def execDivS (dbl : Bool) (m n : Reg) (s : State) : Out :=
  .next ((divideStep (if dbl then .sd else .sw) m n s).advance 1)

/-- `DIV.UW` and `DIV.UD` (R307). -/
def execDivU (dbl : Bool) (m n : Reg) (s : State) : Out :=
  .next ((divideStep (if dbl then .ud else .uw) m n s).advance 1)

/-- `DIVF` (R304, R307). -/
def execDivF (m n : Reg) (s : State) : Out := .next ((divideStep .f m n s).advance 1)

end Sys2Proof.Machine
end

