-- ==== Sys2Proof/Machine/Mul.lean ====
section
/-!
DEFINITION. The MCU multiplies: R225 to R229 (41_alu.md). CORCON.IF and CORCON.US play no part (R225).
-/

namespace Sys2Proof.Machine

/-- A 16-bit operand as the integer its signedness letter says (R225). -/
def asOperand (signed : Bool) (v : Word) : Int := if signed then v.toInt else (v.toNat : Int)

/-- Whether the first and the second operand are signed (R135). -/
def MulSign.letters : MulSign → Bool × Bool
  | .uu => (false, false)
  | .us => (false, true)
  | .su => (true, false)
  | .ss => (true, true)

/-- The exact product (R225). -/
def product (x : MulSign) (a b : Word) : Int :=
  asOperand (MulSign.letters x).1 a * asOperand (MulSign.letters x).2 b

/-- A 32-bit result to a register pair, low word in the lower register (R226). -/
def writePair (d : Reg) (p : BitVec 32) (s : State) : State := (s.setW d (p.setWidth 16)).setW (nextReg d) (p.extractLsb' 16 16)

/-- `MUL.xx Wb, Ws, Wnd` (R226); `Wb` is read before `Ws` is. -/
def mulTo (x : MulSign) (w d : Reg) (m : Mode) (r : Reg) (s : State) : Out :=
  ((readSrc m .word r r s).bind fun v s' => .val () (writePair d (BitVec.ofInt 32 (product x (s.getW w) v)) s')).done

/-- `MUL.UU Wb, Ws, Wnd` (R226). -/
def execMulUU (w d : Reg) (p : PostMode) (r : Reg) (s : State) : Out := mulTo .uu w d p.toMode r s

/-- `MUL.UU Wb, Ws, Wnd`, pre-modified source (R226). -/
def execMulUUPre (w d : Reg) (p : PreMode) (r : Reg) (s : State) : Out := mulTo .uu w d p.toMode r s

/-- `MUL.UU Wb, #lit5, Wnd` (R226). -/
def execMulUULit5 (w d : Reg) (k : BitVec 5) (s : State) : Out :=
  .next ((writePair d (BitVec.ofInt 32 (product .uu (s.getW w) (k.setWidth 16))) s).advance 1)

/-- `MUL.US Wb, Ws, Wnd` (R226). -/
def execMulUS (w d : Reg) (p : Mode6) (r : Reg) (s : State) : Out := mulTo .us w d p.toMode r s

/-- `MUL.SU Wb, Ws, Wnd` (R226). -/
def execMulSU (w d : Reg) (p : PostMode) (r : Reg) (s : State) : Out := mulTo .su w d p.toMode r s

/-- `MUL.SU Wb, Ws, Wnd`, pre-modified source (R226). -/
def execMulSUPre (w d : Reg) (p : PreMode) (r : Reg) (s : State) : Out := mulTo .su w d p.toMode r s

/-- `MUL.SU Wb, #lit5, Wnd` (R226). -/
def execMulSULit5 (w d : Reg) (k : BitVec 5) (s : State) : Out :=
  .next ((writePair d (BitVec.ofInt 32 (product .su (s.getW w) (k.setWidth 16))) s).advance 1)

/-- `MUL.SS Wb, Ws, Wnd` (R226). -/
def execMulSS (w d : Reg) (p : Mode6) (r : Reg) (s : State) : Out := mulTo .ss w d p.toMode r s

/-- `MUL{.b} f` (R227): the byte form gives 16 bits in W2, the word form 32 bits in W3:W2. -/
def execMulF (b : Size) (f : BitVec 13) (s : State) : Out :=
  ((readFile b (fileAddr f) s).bind fun v s' =>
    let p : BitVec 32 := BitVec.ofNat 32 ((s.regRead b 0).toNat * v.toNat)
    .val () (match b with
      | .word => writePair 2 p s'
      | .byte => s'.setW 2 (p.setWidth 16))).done

/-- `MULW.xx Wb, Ws, Wnd` (R228): the low 16 bits of the product. -/
def mulwTo (x : MulSign) (w d : Reg) (p : Mode6) (r : Reg) (s : State) : Out :=
  ((readSrc p.toMode .word r r s).bind fun v s' =>
    .val () (s'.setW d (BitVec.ofInt 16 (product x (s.getW w) v)))).done

/-- `MULW.xx Wb, Ws, Wnd` or `MULW.xx Wb, #lit5, Wnd`; the literal is zero-extended (R226, R228). -/
def mulwSrc (x : MulSign) (w d : Reg) (y : MulSrc) (r : Reg) (s : State) : Out :=
  match y with
  | .ws p => mulwTo x w d p r s
  | .lit k => .next ((s.setW d (BitVec.ofInt 16 (product x (s.getW w) (k.setWidth 16)))).advance 1)

/-- `MULW.UU` (R228). -/
def execMulwUU (w d : Reg) (y : MulSrc) (r : Reg) (s : State) : Out := mulwSrc .uu w d y r s

/-- `MULW.US` (R228). -/
def execMulwUS (w d : Reg) (p : Mode6) (r : Reg) (s : State) : Out := mulwTo .us w d p r s

/-- `MULW.SU` (R228). -/
def execMulwSU (w d : Reg) (y : MulSrc) (r : Reg) (s : State) : Out := mulwSrc .su w d y r s

/-- `MULW.SS` (R228). -/
def execMulwSS (w d : Reg) (p : Mode6) (r : Reg) (s : State) : Out := mulwTo .ss w d p r s

/-- `MUL.xx Wb, Ws, Acc` (R229): the 32-bit product, sign-extended (zero-extended for UU) to 40 bits; no accumulator status
and no saturation (log 20). -/
def execMulAcc (x : MulSign) (w : Reg) (p : Mode6) (r : Reg) (a : Acc) (s : State) : Out :=
  ((readSrc p.toMode .word r r s).bind fun v s' =>
    let q : BitVec 32 := BitVec.ofInt 32 (product x (s.getW w) v)
    .val () (s'.setAcc a (if x = .uu then q.setWidth 40 else q.signExtend 40))).done

end Sys2Proof.Machine
end

