-- ==== Sys2Proof/Machine/Dsp.lean ====
section
/-!
DEFINITION. The DSP engine: R240 to R272 (42_dsp_engine.md). Values before they reach an accumulator are exact integers
(R259).
-/

namespace Sys2Proof.Machine

/-! ## The multiplier -/

/-- The signedness of an operand register under CORCON.US (R244); none for the reserved value 11. -/
def operandSigned (us : BitVec 2) (r : DReg) : Option Bool :=
  match us.toNat with
  | 0 => some true
  | 1 => some false
  | 2 => some (decide (r.toReg.val % 2 = 1))
  | _ => none

/-- DspMul (R242): exact, doubled in fractional mode. -/
def dspMul (ifm : Bool) (b : Word) (sb : Bool) (c : Word) (sc : Bool) : Int :=
  let p := asOperand sb b * asOperand sc c
  if ifm then p else 2 * p

/-- The multiplier result of two operand registers (R242, R244). -/
def multiply (m n : DReg) (s : State) : Res Int :=
  match operandSigned s.cor.us m, operandSigned s.cor.us n with
  | some sm, some sn => .val (dspMul s.cor.ifm (s.getW m.toReg) sm (s.getW n.toReg) sn) s
  | _, _ => refuse .reservedUs

/-! ## The accumulators -/

/-- SATA or SATB (R49). -/
def satOf (s : State) (x : Acc) : Bool :=
  match x with
  | .acca => s.cor.sata
  | .accb => s.cor.satb

/-- OVATE or OVBTE (R257). -/
def ovTrapOn (s : State) (x : Acc) : Bool :=
  match x with
  | .acca => s.intc.ovate
  | .accb => s.intc.ovbte

/-- The result needs the guard bits (R253). -/
def ov31 (v : Int) : Bool := decide (v < -2147483648) || decide (2147483647 < v)

/-- The result does not fit 40 bits (R253). -/
def ov39 (v : Int) : Bool := decide (v < -549755813888) || decide (549755813887 < v)

/-- The stored value of R253. -/
def accStored (sat super : Bool) (v : Int) : Acc40 :=
  if sat && super && ov39 v then if 0 < v then 0x7FFFFFFFFF#40 else 0x8000000000#40
  else if sat && !super && ov31 v then if 0 < v then 0x007FFFFFFF#40 else 0xFF80000000#40
  else BitVec.ofInt 40 v

/-- What R253 writes to Ox. -/
def accOver (sat super : Bool) (v : Int) : Bool := !(sat && !super) && ov31 v

/-- Whether R253 sets Sx. -/
def accSticky (sat super : Bool) (v : Int) : Bool := if sat && !super then ov31 v else ov39 v

/-- Ox written, Sx only ever set (R252, R253). -/
def State.setAccStatus (s : State) (x : Acc) (o st : Bool) : State :=
  match x with
  | .acca => s.setSr { s.sr with oa := o, sa := s.sr.sa || st }
  | .accb => s.setSr { s.sr with ob := o, sb := s.sr.sb || st }

/-- OVAERR or OVBERR set, and the trap requested (R257, R425). -/
def raiseOverflow (x : Acc) (s : State) : State :=
  (match x with
    | .acca => s.setIntc { s.intc with ovaerr := true }
    | .accb => s.setIntc { s.intc with ovberr := true }).raiseMath

/-- COVAERR or COVBERR set, and the trap requested (R257, R425). -/
def raiseCatastrophic (x : Acc) (s : State) : State :=
  (match x with
    | .acca => s.setIntc { s.intc with covaerr := true }
    | .accb => s.setIntc { s.intc with covberr := true }).raiseMath

/-- AccUpdate (R253) with the trap tests of R257. -/
def accUpdate (x : Acc) (v : Int) (s : State) : State :=
  let sat := satOf s x
  let s1 := (s.setAcc x (accStored sat s.cor.accsat v)).setAccStatus x (accOver sat s.cor.accsat v) (accSticky sat s.cor.accsat v)
  let s2 := if accOver sat s.cor.accsat v && ovTrapOn s x then raiseOverflow x s1 else s1
  if !sat && ov39 v && s.intc.covte then raiseCatastrophic x s2 else s2

/-- AccShift (R270): positive shifts right. -/
def accShift (v : Int) (k : Int) : Int := if 0 ≤ k then v / 2 ^ k.toNat else v * 2 ^ (-k).toNat

/-- The rounding of a store (R265). -/
inductive Rounding where
  | truncate
  | conventional
  | convergent
  deriving DecidableEq, Repr

/-- Round (R265): the signed value of bits 39:16. -/
def roundAcc (m : Rounding) (a : Int) : Int :=
  let h := a / 65536
  let l := a % 65536
  match m with
  | .truncate => h
  | .conventional => if 32768 ≤ l then h + 1 else h
  | .convergent => if 32768 < l ∨ (l = 32768 ∧ h % 2 = 1) then h + 1 else h

/-- The mode CORCON.RND selects (R52). -/
def roundingOf (s : State) : Rounding := if s.cor.rnd then .conventional else .convergent

/-- StoreValue (R268). -/
def storeValue (satdw : Bool) (t : Int) : Word :=
  if satdw && decide (0x7FFF < t) then 0x7FFF#16
  else if satdw && decide (t < -0x8000) then 0x8000#16
  else BitVec.ofInt 16 t

/-- The other accumulator (R264). -/
def otherAcc : Acc → Acc
  | .acca => .accb
  | .accb => .acca

/-! ## Prefetch and write-back -/

/-- A prefetch's pointer: `first` is W8 or W10 (R141, R262). -/
def prefetchReg (first : Reg) (i : Prefetch) : Option Reg :=
  match i with
  | .none => none
  | .ptr second _ => some (if second then first + 1 else first)
  | .offset => some (first + 1)

/-- The pointer step (R141). -/
def pstep : PStep → Word
  | .zero => 0#16
  | .plus2 => 2#16
  | .plus4 => 4#16
  | .plus6 => 6#16
  | .minus6 => 0xFFFA#16
  | .minus4 => 0xFFFC#16
  | .minus2 => 0xFFFE#16

/-- The addressing mode that the checks of R109 see (log 22). -/
def prefetchMode (i : Prefetch) : Mode :=
  match i with
  | .ptr _ .plus2 | .ptr _ .plus4 | .ptr _ .plus6 => .postInc
  | .offset => .offset
  | _ => .ind

/-- The pointer of a prefetch is checked (R262, R29). -/
def prefetchCheck (first : Reg) (i : Prefetch) (s : State) : Res Unit :=
  match prefetchReg first i with
  | none => .val () s
  | some n => pointerCheck (prefetchMode i) .word n s

/-- The address of a prefetch through pointer `n` (R262). -/
def prefetchAddr (n : Reg) (i : Prefetch) (s : State) : Word :=
  match i with
  | .offset => s.getW n + s.getW 12
  | _ => s.getW n

/-- The X read, an ordinary data read; none without a prefetch (R262). -/
def readX (i : Prefetch) (s : State) : Res (Option Word) :=
  match prefetchReg 8 i with
  | none => .val none s
  | some n => (readAt (.reg n n) .word (prefetchAddr n i s) false s).bind fun v s => .val (some v) s

/-- Whether a word address lies in Y data space, from the boundary to the end of memory (R262; log 24). -/
def inYSpace (d : Device) (a : Word) : Bool :=
  decide (d.xyBoundary ≤ a) && decide (0x1000#16 ≤ a) && decide ((a ||| 1#16) ≤ d.ramEnd)

/-- The Y read: only Y data space, never paged (R262); the alignment rule as for any word (R98). -/
def readY (j : Prefetch) (s : State) : Res (Option Word) :=
  match prefetchReg 10 j with
  | none => .val none s
  | some n =>
    let a := prefetchAddr n j s
    if !inYSpace s.dev a then refuse .outsideYSpace
    else if a.getLsbD 0 then .val (some s.freeWord) s.drawn.raiseAddress
    else .val (some (s.mem.readWord a.toNat)) s

/-- A prefetched word to its register. -/
def loadReg (r : DReg) (v : Option Word) (s : State) : State :=
  match v with
  | none => s
  | some x => s.setW r.toReg x

/-- Both prefetched words to their registers; with one register named twice its value is open (log 23). -/
def loadPrefetch (x y : DReg) (vx vy : Option Word) (s : State) : State :=
  match vx, vy with
  | some _, some _ =>
    if x = y then (s.setW x.toReg s.freeWord).drawn else loadReg y vy (loadReg x vx s)
  | _, _ => loadReg y vy (loadReg x vx s)

/-- The pointer modification of a prefetch (R262). -/
def stepPointer (first : Reg) (i : Prefetch) (s : State) : State :=
  match i with
  | .ptr second k =>
    let n := if second then first + 1 else first
    if k = .zero then s else s.setW n (s.getW n + pstep k)
  | _ => s

/-- The rounded value a write-back stores (R264). -/
def writeBackValue (a : Acc) (s : State) : Word :=
  storeValue s.cor.satdw (roundAcc (roundingOf s) (s.acc (otherAcc a)).toInt)

/-- The accumulator write-back (R264); `a` is the target of the operation. -/
def writeBack (wb : WriteBack) (a : Acc) (s : State) : Res Unit :=
  match wb with
  | .w13 => .val () (s.setW 13 (writeBackValue a s))
  | .w13Inc => writeDst .postInc .word 13 13 (writeBackValue a s) s

/-- The write-back an instruction has, if it has one. -/
def writeBackOpt (wb : Option WriteBack) (a : Acc) (s : State) : Res Unit :=
  match wb with
  | none => .val () s
  | some b => writeBack b a s

/-- The pointer of a write-back is checked with the other pointers. -/
def writeBackCheck (wb : Option WriteBack) (s : State) : Res Unit :=
  match wb with
  | some .w13Inc => pointerCheck .postInc .word 13 s
  | _ => .val () s

/-- What a DSP instruction has read before it writes anything: the product and the prefetched words (R243, R262). -/
structure Fetched where
  prod : Int
  vx : Option Word
  vy : Option Word
  deriving DecidableEq, Repr

/-- The product, the pointer checks and the prefetch reads (R243, R244, R262). -/
def dspFetch (m n : DReg) (i j : Prefetch) (wb : Option WriteBack) (s : State) : Res Fetched :=
  (multiply m n s).bind fun p s =>
    (prefetchCheck 8 i s).bind fun _ s =>
    (prefetchCheck 10 j s).bind fun _ s =>
    (writeBackCheck wb s).bind fun _ s =>
    (readX i s).bind fun vx s =>
    (readY j s).bind fun vy s => .val ⟨p, vx, vy⟩ s

/-- The accumulator update of the multiply class: `f` makes the exact result from the old accumulator and the product. -/
def accumulate (a : Acc) (f : Int → Int → Int) (p : Int) (s : State) : State := accUpdate a (f (s.acc a).toInt p) s

/-- A step of the multiply class (R245 to R249): the reads, the accumulator, the write-back, then the prefetched words and
the pointers. -/
def multiplyClass (m n : DReg) (a : Acc) (f : Int → Int → Int) (x y : DReg) (i j : Prefetch)
    (wb : Option WriteBack) (s : State) : Out :=
  ((dspFetch m n i j wb s).bind fun r s =>
    (writeBackOpt wb a (accumulate a f r.prod s)).bind fun _ s =>
      .val () (stepPointer 10 j (stepPointer 8 i (loadPrefetch x y r.vx r.vy s)))).done

/-- `MAC` with write-back (R245). -/
def execMac (m : MulPair) (a : Acc) (x y : DReg) (i j : Prefetch) (wb : WriteBack) (s : State) : Out :=
  multiplyClass m.left m.right a (fun c p => c + p) x y i j (some wb) s

/-- `MAC` without write-back (R245). -/
def execMacNoWb (m : MulPair) (a : Acc) (x y : DReg) (i j : Prefetch) (s : State) : Out :=
  multiplyClass m.left m.right a (fun c p => c + p) x y i j none s

/-- `MPY` (R248). -/
def execMpy (m : MulPair) (a : Acc) (x y : DReg) (i j : Prefetch) (s : State) : Out :=
  multiplyClass m.left m.right a (fun _ p => p) x y i j none s

/-- `MSC` with write-back (R247). -/
def execMsc (m : MulPair) (a : Acc) (x y : DReg) (i j : Prefetch) (wb : WriteBack) (s : State) : Out :=
  multiplyClass m.left m.right a (fun c p => c - p) x y i j (some wb) s

/-- `MSC` without write-back (R247). -/
def execMscNoWb (m : MulPair) (a : Acc) (x y : DReg) (i j : Prefetch) (s : State) : Out :=
  multiplyClass m.left m.right a (fun c p => c - p) x y i j none s

/-- `MPY.N` (R249). -/
def execMpyN (m : MulPair) (a : Acc) (x y : DReg) (i j : Prefetch) (s : State) : Out :=
  multiplyClass m.left m.right a (fun _ p => -p) x y i j none s

/-- `MAC`, square form (R246). -/
def execMacSq (m : DReg) (a : Acc) (x y : DReg) (i j : Prefetch) (s : State) : Out :=
  multiplyClass m m a (fun c p => c + p) x y i j none s

/-- `MPY`, square form (R248). -/
def execMpySq (m : DReg) (a : Acc) (x y : DReg) (i j : Prefetch) (s : State) : Out :=
  multiplyClass m m a (fun _ p => p) x y i j none s

/-- The difference of the two prefetched words (R250). -/
def difference (vx vy : Option Word) : Option Word :=
  match vx, vy with
  | some a, some b => some (a - b)
  | _, _ => none

/-- A step of `ED` and `EDAC` (R250, R251). -/
def distanceClass (m : DReg) (a : Acc) (f : Int → Int → Int) (x : DReg) (i j : Prefetch) (s : State) : Out :=
  ((dspFetch m m i j none s).bind fun r s =>
    .val () (stepPointer 10 j (stepPointer 8 i (loadReg x (difference r.vx r.vy) (accumulate a f r.prod s))))).done

/-- `ED` (R250). -/
def execEd (m : DReg) (a : Acc) (x : DReg) (i j : Prefetch) (s : State) : Out :=
  distanceClass m a (fun _ p => p) x i j s

/-- `EDAC` (R251). -/
def execEdac (m : DReg) (a : Acc) (x : DReg) (i j : Prefetch) (s : State) : Out :=
  distanceClass m a (fun c p => c + p) x i j s

/-! ## Accumulator add, load, store, shift -/

/-- `ADD Acc` (R260). -/
def execAddAcc (a : Acc) (s : State) : Out :=
  .next ((accUpdate a ((s.acc a).toInt + (s.acc (otherAcc a)).toInt) s).advance 1)

/-- The scaled operand of `ADD Wso` and `LAC` (R261, R263). -/
def scaledOperand (v : Word) (k : BitVec 4) : Int := accShift (v.toInt * 65536) k.toInt

/-- `ADD Wso, #Slit4, Acc` (R261). -/
def execAddWsoAcc (a : Acc) (w : Reg) (k : BitVec 4) (g : Mode) (r : Reg) (s : State) : Out :=
  ((readSrc g .word r w s).bind fun v s => .val () (accUpdate a ((s.acc a).toInt + scaledOperand v k) s)).done

/-- `LAC Wso, #Slit4, Acc` (R263). -/
def execLac (a : Acc) (w : Reg) (k : BitVec 4) (g : Mode) (r : Reg) (s : State) : Out :=
  ((readSrc g .word r w s).bind fun v s => .val () (accUpdate a (scaledOperand v k) s)).done

/-- The word `SAC` and `SAC.R` store: shift in 40 bits, round, saturate (R266, R267). -/
def sacValue (a : Acc) (k : BitVec 4) (m : Rounding) (s : State) : Word :=
  storeValue s.cor.satdw (roundAcc m (BitVec.ofInt 40 (accShift (s.acc a).toInt k.toInt)).toInt)

/-- `SAC Acc, #Slit4, Wdo` (R266). -/
def execSac (a : Acc) (w : Reg) (k : BitVec 4) (h : Mode) (d : Reg) (s : State) : Out :=
  (writeDst h .word d w (sacValue a k .truncate s) s).done

/-- `SAC.R Acc, #Slit4, Wdo` (R267). -/
def execSacR (a : Acc) (w : Reg) (k : BitVec 4) (h : Mode) (d : Reg) (s : State) : Out :=
  (writeDst h .word d w (sacValue a k (roundingOf s) s) s).done

/-- SFTACERR set, and the trap requested (R269, R425). -/
def raiseSftac (s : State) : State := (s.setIntc { s.intc with sftacerr := true }).raiseMath

/-- The shift of an accumulator (R269): out of range it raises the trap and writes nothing. -/
def shiftAcc (a : Acc) (k : Int) (s : State) : State :=
  if k < -16 ∨ 16 < k then raiseSftac s else accUpdate a (accShift (s.acc a).toInt k) s

/-- `SFTAC Acc, Wb` (R269): the low 6 bits of the register are the signed count. -/
def execSftacWb (a : Acc) (r : Reg) (s : State) : Out :=
  .next ((shiftAcc a ((s.getW r).setWidth 6 : BitVec 6).toInt s).advance 1)

/-- `SFTAC Acc, #Slit6` (R269). -/
def execSftacLit (a : Acc) (k : BitVec 6) (s : State) : Out := .next ((shiftAcc a k.toInt s).advance 1)

end Sys2Proof.Machine
end

