-- ==== Sys2Proof/Machine/Flow.lean ====
section
/-!
DEFINITION. Program flow: R315 to R341 (44_program_flow.md). Operands are read before the stack is written (R112).
-/

namespace Sys2Proof.Machine

/-- `pc + 2 + 2 * sext(n)`, truncated to 23 bits (R322, R328, R329). -/
def relTarget (s : State) (n : Word) : PAddr := evenPc (s.pc + 2#23 + BitVec.ofInt 23 (2 * n.toInt))

/-- A relative branch (R322). -/
def branchIf (c : Bool) (n : Word) (s : State) : Out := .next (if c then s.setPc (relTarget s n) else s.advance 1)

/-- `NOP` (R340). -/
def execNop (s : State) : Out := .next (s.advance 1)

/-- `GOTO lit23` (R320). -/
def execGoto (t : BitVec 22) (s : State) : Out := .next (s.setPc (addrOf t))

/-- `CALL lit23` (R325). -/
def execCall (t : BitVec 22) (s : State) : Out := callTo (s.pc + 4#23) (addrOf t) s

/-- `CALL Wn`, CALLW (R326). -/
def execCallWn (n : Reg) (s : State) : Out := callTo (s.pc + 2#23) ((s.getW n).setWidth 23) s

/-- `CALL.L Wn`, CALLWL (R327). There is no register after W15: `CALL.L W15` is ill-formed, and pairs W15 with W0 here (DESIGN
CHOICE, log 30). -/
def execCallLWn (n : Reg) (s : State) : Out :=
  callTo (s.pc + 2#23) (((s.getW (n + 1)).setWidth 7 : BitVec 7) ++ s.getW n) s

/-- `RCALL Expr` (R328). -/
def execRcall (n : BitVec 16) (s : State) : Out := callTo (s.pc + 2#23) (relTarget s n) s

/-- `RCALL Wn`, RCALLW (R329). -/
def execRcallWn (n : Reg) (s : State) : Out := callTo (s.pc + 2#23) (relTarget s (s.getW n)) s

/-- `RETURN` (R335). -/
def execRet (s : State) : Out := returnFrom s

/-- `RETLW{.b} #lit10, Wn` (R336): the register write, then the return. -/
def execRetlw (b : Size) (k : BitVec 10) (d : Reg) (s : State) : Out := returnFrom (s.regWrite b d (k.setWidth 16))

/-- `RETFIE` (R338). -/
def execRetfie (s : State) : Out := returnFromException s

/-- `BRA OA, Expr` (R322). -/
def execBraOA (n : BitVec 16) (s : State) : Out := branchIf s.sr.oa n s
/-- `BRA OB, Expr`. -/
def execBraOB (n : BitVec 16) (s : State) : Out := branchIf s.sr.ob n s
/-- `BRA SA, Expr`. -/
def execBraSA (n : BitVec 16) (s : State) : Out := branchIf s.sr.sa n s
/-- `BRA SB, Expr`. -/
def execBraSB (n : BitVec 16) (s : State) : Out := branchIf s.sr.sb n s
/-- `BRA OV, Expr`. -/
def execBraOV (n : BitVec 16) (s : State) : Out := branchIf s.sr.ov n s
/-- `BRA C, Expr`. -/
def execBraC (n : BitVec 16) (s : State) : Out := branchIf s.sr.c n s
/-- `BRA Z, Expr`. -/
def execBraZ (n : BitVec 16) (s : State) : Out := branchIf s.sr.z n s
/-- `BRA N, Expr`. -/
def execBraN (n : BitVec 16) (s : State) : Out := branchIf s.sr.n n s
/-- `BRA LE, Expr`: Z or N differs from OV. -/
def execBraLE (n : BitVec 16) (s : State) : Out := branchIf (s.sr.z || (s.sr.n != s.sr.ov)) n s
/-- `BRA LT, Expr`: N differs from OV. -/
def execBraLT (n : BitVec 16) (s : State) : Out := branchIf (s.sr.n != s.sr.ov) n s
/-- `BRA LEU, Expr`: not C or Z. -/
def execBraLEU (n : BitVec 16) (s : State) : Out := branchIf (!s.sr.c || s.sr.z) n s
/-- `BRA Expr`. -/
def execBra (n : BitVec 16) (s : State) : Out := branchIf true n s
/-- `BRA NOV, Expr`. -/
def execBraNOV (n : BitVec 16) (s : State) : Out := branchIf (!s.sr.ov) n s
/-- `BRA NC, Expr`. -/
def execBraNC (n : BitVec 16) (s : State) : Out := branchIf (!s.sr.c) n s
/-- `BRA NZ, Expr`. -/
def execBraNZ (n : BitVec 16) (s : State) : Out := branchIf (!s.sr.z) n s
/-- `BRA NN, Expr`. -/
def execBraNN (n : BitVec 16) (s : State) : Out := branchIf (!s.sr.n) n s
/-- `BRA GT, Expr`: not Z and N equal to OV. -/
def execBraGT (n : BitVec 16) (s : State) : Out := branchIf (!s.sr.z && (s.sr.n == s.sr.ov)) n s
/-- `BRA GE, Expr`: N equal to OV. -/
def execBraGE (n : BitVec 16) (s : State) : Out := branchIf (s.sr.n == s.sr.ov) n s
/-- `BRA GTU, Expr`: C and not Z. -/
def execBraGTU (n : BitVec 16) (s : State) : Out := branchIf (s.sr.c && !s.sr.z) n s

/-- `TRAP` (R341). -/
def execTrap (_s : State) : Out := .refused .trapInstr

end Sys2Proof.Machine
end

