-- ==== Sys2Proof/Machine/Loop.lean ====
section
/-!
DEFINITION. `REPEAT` and `DO`: R360 to R385 (45_loops.md), and what every step does around its instruction: the loop
mechanics (R364, R376), the DISICNT countdown (R405) and the software rules whose breach is refused (R367, R381 to R384,
R500).
-/

namespace Sys2Proof.Machine

/-- `REPEAT` with a count (R362, R363); a loop begins unless the count is 0, its divide still to come (R302). -/
def repeatWith (k : Word) (s : State) : Out :=
  let s := s.setRcount k
  let s := if k = 0#16 then s else (s.setSr { s.sr with ra := true }).setDiv none
  .next (s.advance 1)

/-- `REPEAT #lit15` (R362). -/
def execRepeatLit (k : BitVec 15) (s : State) : Out := repeatWith (k.setWidth 16) s

/-- `REPEAT Wn` (R363). -/
def execRepeatWn (r : Reg) (s : State) : Out := repeatWith (s.getW r) s

/-- The entry the running loop's registers make (R63). -/
def State.doEntry (s : State) : DoEntry := ⟨s.dostart, s.doend, s.dcount⟩

/-- `DoStack[DL]` written for DL = 1, 2, 3; DL = 0 stacks to no entry (R371). -/
def saveLoop (s : State) : State :=
  match s.cor.dl.toNat with
  | 1 => { s with doStack := s.doStack.set 0 s.doEntry }
  | 2 => { s with doStack := s.doStack.set 1 s.doEntry }
  | 3 => { s with doStack := s.doStack.set 2 s.doEntry }
  | _ => s

/-- `DOEND` of a `DO`: the address of the first loop instruction plus 2n (R133). -/
def loopEnd (start : PAddr) (n : Word) : PAddr := start + BitVec.ofInt 23 (2 * n.toInt)

/-- DO_OVR set, and the trap requested (R375, R426). -/
def raiseDoOvr (s : State) : State := (s.setIntc { s.intc with doOvr := true }).raiseSoft

/-- A loop length R384 forbids: fewer than two instructions, or the end at the `DO` itself. -/
def shortLoop (start fin : PAddr) : Bool := decide (fin = start ∨ fin = start - 2#23 ∨ fin = start - 4#23)

/-- The mark of a `DO`, executed or failed, for the reads of DOEND after it (R497, log 29). -/
def State.markDo (s : State) : State := s.setTrk { s.trk with doWr := true }

/-- `DO` with a count (R371, R375, R384). -/
def doWith (count : Word) (n : Word) (s : State) : Out :=
  if 4#3 ≤ s.cor.dl then .next ((raiseDoOvr s).markDo.advance 2)
  else
    let start := s.pc + 4#23
    let fin := loopEnd start n
    if shortLoop start fin then .refused .doLength
    else
      let s1 := (saveLoop s).setDo count (bitsOf start) (bitsOf fin)
      .next ((s1.setCor { s1.cor with dl := s1.cor.dl + 1#3 }).markDo.advance 2)

/-- `DO #lit15, Expr` (R371). -/
def execDoLit (k : BitVec 15) (n : BitVec 16) (s : State) : Out := doWith (k.setWidth 16) n s

/-- `DO Wn, Expr` (R371, R372). -/
def execDoWn (r : Reg) (n : BitVec 16) (s : State) : Out := doWith (s.getW r &&& s.dev.doWnMask) n s

/-! ## Around an instruction -/

/-- The returns, which write the pc but may stand at the end of a loop (R383). -/
def isReturn : Instr → Bool
  | .ret | .retlw _ _ _ | .retfie => true
  | _ => false

/-- The other program flow control instructions of R367 and R383. -/
def isFlow : Instr → Bool
  | .callWn _ | .call _ | .goto _ | .rcall _ | .callLWn _ | .rcallWn _ => true
  | .braOA _ | .braOB _ | .braSA _ | .braSB _ | .braOV _ | .braC _ | .braZ _ | .braN _ | .braLE _ | .braLT _ => true
  | .braLEU _ | .bra _ | .braNOV _ | .braNC _ | .braNZ _ | .braNN _ | .braGT _ | .braGE _ | .braGTU _ => true
  | .btscWs _ _ _ | .btscF _ _ | .compareSkip | .trap => true
  | _ => false

/-- `REPEAT` and `DO`. -/
def isLoop : Instr → Bool
  | .repeatLit _ | .repeatWn _ | .doLit _ _ | .doWn _ _ => true
  | _ => false

/-- `REPEAT`. -/
def isRepeat : Instr → Bool
  | .repeatLit _ | .repeatWn _ => true
  | _ => false

/-- `DISI`. -/
def isDisi : Instr → Bool
  | .disi _ => true
  | _ => false

/-- The forbidden targets of `REPEAT` that are of no such class (R367). -/
def neverRepeats : Instr → Bool
  | .disi _ | .ulnk | .lnk _ | .pwrsav _ | .reset | .movDLoad _ _ _ | .movDStore _ _ _ => true
  | _ => false

/-- The instructions that may not be the target of a `REPEAT` (R367). -/
def badTarget (i : Instr) : Bool := isFlow i || isReturn i || isLoop i || neverRepeats i

/-- Whether an instruction at the pc breaks R383: one of the last two of the loop whose end DOEND holds, and of a kind that may not
be there. That the rule binds at no place of an enclosing loop while an inner one is armed, though R381's check takes every running
loop, is the model's DESIGN CHOICE (log 17). A two-word instruction is the penultimate one when it stands two words before the last, and a `REPEAT` there, of whatever
count, has the penultimate one as its target. -/
def badLoopTail (i : Instr) (s : State) : Bool :=
  decide (s.cor.dl ≠ 0#3)
    && ((decide (s.pc = addrOf s.doend ∨ s.pc = addrOf s.doend - 2#23)
          && (isFlow i || isLoop i || isDisi i || decide (i.words = 2) || s.sr.ra))
      || (decide (s.pc = addrOf s.doend - 4#23) && (decide (i.words = 2) || isRepeat i)))

/-- Whether a `REPEAT` at the pc, of whatever count, has a forbidden target (R362, R367). -/
def badRepeat (i : Instr) (s : State) : Bool :=
  isRepeat i && match fetchDecode (s.setPc (s.pc + 2#23)) with
    | .ok j => badTarget j
    | .error _ => false

/-- The software rules checked before an instruction runs (R367, R383). -/
def checkBefore (i : Instr) (s : State) : Option Refusal :=
  if s.sr.ra && badTarget i then some .repeatTarget
  else if badLoopTail i s then some .doLastTwo
  else if badRepeat i s then some .repeatTarget
  else none

/-- The last addresses of the running `DO` loop and of those it is nested in (R62, R63, R374). -/
def State.loopEnds (s : State) : List PAddr :=
  (s.doend :: (s.doStack.toList.take (s.cor.dl.toNat - 1)).map DoEntry.fin).map addrOf

/-- The address of the penultimate instruction of a loop whose last one is at `e`: of two words, which R383 forbids, or of one. -/
def penultimate (s : State) (e : PAddr) : PAddr :=
  if ((fetchWord s (e - 4#23)).map twoWord).getD false then e - 4#23 else e - 2#23

/-- Whether the instruction at the pc, of one word or two, is the one before the penultimate one of a loop that runs, nested or not
(R381, log 17). -/
def beforePenultimate (i : Instr) (s : State) : Bool :=
  s.loopEnds.any fun e => s.pc + BitVec.ofNat 23 (2 * i.words) == penultimate s e

/-- The software rules checked after it (R381, R499, R500): `s` before, `t` after. The length is checked again where a loop ends,
because software can write DOEND (R62). R382's rule is checked at DOSTART only, not at the first instruction of an enclosing loop
(DESIGN CHOICE, log 17). -/
def checkAfter (i : Instr) (s t : State) : Option Refusal :=
  if t.cor.dl = 0#3 ∨ s.cor.dl = 0#3 then none
  else if beforePenultimate i s ∧ t.sr.ipl ≠ s.sr.ipl then some .doIplChange
  else if s.dev.pfu3Cycle ∧ s.pc = addrOf s.dostart ∧ t.trk.psvRd then some .doFirstPfu
  else if s.pc = addrOf t.doend ∧ shortLoop (addrOf t.dostart) (addrOf t.doend) then some .doLength
  else none

/-- R364 after a target's execution: `s` before it, `t` after. The decrement is of the value the target may have written (R366); of
a written 0 it wraps to 0xFFFF (DESIGN CHOICE, log 48). With the loop its divide record ends (R302). -/
def repeatEnd (s t : State) : State :=
  if s.sr.ra && t.sr.ra then
    if s.rcount = 0#16 then ((leaveDiv t).setDiv none).setSr { t.sr with ra := false }
    else (t.setRcount (t.rcount - 1#16)).setPc s.pc
  else t

/-- The loop registers of the outer loop restored (R376). -/
def restoreLoop (t : State) : State :=
  match t.cor.dl.toNat with
  | 2 => t.setDo t.doStack[0].count t.doStack[0].start t.doStack[0].fin
  | 3 => t.setDo t.doStack[1].count t.doStack[1].start t.doStack[1].fin
  | 4 => t.setDo t.doStack[2].count t.doStack[2].start t.doStack[2].fin
  | _ => t

/-- R376 after an instruction at address `a`. However the pc came to `a` counts, a flow change included (DESIGN CHOICE D14,
log 47). -/
def doEnd (a : PAddr) (t : State) : State :=
  if t.cor.dl ≠ 0#3 ∧ a = addrOf t.doend then
    if t.edtPending ∨ t.dcount = 0#16 then
      let t1 := restoreLoop t
      ({ t1 with edtPending := false, edtLate := false }.setCor { t1.cor with dl := t1.cor.dl - 1#3 }).setPc (a + 2#23)
    else
      { t with
        dcount := t.dcount - 1#16
        pc := addrOf t.dostart
        edtPending := t.edtPending || t.edtLate
        edtLate := false }
  else t

/-- R405: one count per step; `DISI`'s own step does not count. -/
def disiCount (i : Instr) (t : State) : State :=
  if isDisi i ∨ t.disicnt = 0#14 then t else t.setDisicnt (t.disicnt - 1#14)

/-- Everything a step does after its instruction ran: `s` before, `t` after (R364, R376, R405). -/
def finishStep (i : Instr) (s t : State) : State :=
  let t1 := repeatEnd s t
  disiCount i (if t1.sr.ra || isFlow i || isReturn i then t1 else doEnd s.pc t1)

/-- The start of an instruction's step: what the one before did becomes what this one may have to look at. Every execution of a
`REPEAT` target counts as an instruction (DESIGN CHOICE, log 29). -/
def beginStep (s : State) : State :=
  s.setTrk ⟨s.trk.splimWr, s.trk.doWr, s.trk.doWr || s.trk.doPrev || s.trk.doendWr, false, false, false, false⟩

/-- A step's outcome from its instruction's outcome (R364, R376, R381, R405, R500). -/
def conclude (i : Instr) (s : State) (o : Out) : Out :=
  match o with
  | .next t =>
    match checkAfter i s t with
    | some r => .refused r
    | none => .next (finishStep i s t)
  | .fault r => .fault r
  | .refused r => .refused r

end Sys2Proof.Machine
end

