-- ==== Sys2Proof/Machine/Shift.lean ====
section
/-!
DEFINITION. The MCU shifts: R214 to R217 (41_alu.md).
-/

namespace Sys2Proof.Machine

/-- A one-bit shift `f` of a source operand to a destination, with N, Z and C (R215 to R217). -/
def shiftTo (f : Size → Word → AluOut) (b : Size) (q : Mode6) (d : Reg) (p : Mode6) (r : Reg) (s : State) : Out :=
  ((readSrc p.toMode b r r s).bind fun v s => writeDst q.toMode b d d (f b v).val (s.setNZC (f b v))).done

/-- A one-bit shift `f` of a file register. -/
def shiftFile (f : Size → Word → AluOut) (b : Size) (t : FDest) (a : BitVec 13) (s : State) : Out :=
  ((readFile b (fileAddr a) s).bind fun v s => writeFileDest b t (fileAddr a) (f b v).val (s.setNZC (f b v))).done

/-- A multi-bit result to a register, with N and Z. -/
def shiftReg (r : Word) (d : Reg) (s : State) : Out := .next (((s.setNZ (plainOut r false)).setW d r).advance 1)

/-- The count of a register count: `W[ns][4:0]` (R214). -/
def shiftCount (v : Word) : Nat := v.toNat % 32

/-- `SL{.b} Ws, Wd` (R217). -/
def execSlWsWd (b : Size) (q : Mode6) (d : Reg) (p : Mode6) (r : Reg) (s : State) : Out := shiftTo aluSl b q d p r s

/-- `LSR{.b} Ws, Wd` (R216). -/
def execLsrWsWd (b : Size) (q : Mode6) (d : Reg) (p : Mode6) (r : Reg) (s : State) : Out := shiftTo aluLsr b q d p r s

/-- `ASR{.b} Ws, Wd` (R215). -/
def execAsrWsWd (b : Size) (q : Mode6) (d : Reg) (p : Mode6) (r : Reg) (s : State) : Out := shiftTo aluAsr b q d p r s

/-- `SL{.b} f {,WREG}` (R217). -/
def execSlF (b : Size) (t : FDest) (f : BitVec 13) (s : State) : Out := shiftFile aluSl b t f s

/-- `LSR{.b} f {,WREG}` (R216). -/
def execLsrF (b : Size) (t : FDest) (f : BitVec 13) (s : State) : Out := shiftFile aluLsr b t f s

/-- `ASR{.b} f {,WREG}` (R215). -/
def execAsrF (b : Size) (t : FDest) (f : BitVec 13) (s : State) : Out := shiftFile aluAsr b t f s

/-- `SL Wb, Wns, Wnd` (R217). -/
def execSlWns (w d r : Reg) (s : State) : Out := shiftReg (s.getW w <<< shiftCount (s.getW r)) d s

/-- `SL Wb, #lit4, Wnd` (R217). -/
def execSlLit4 (w d : Reg) (k : BitVec 4) (s : State) : Out := shiftReg (s.getW w <<< k.toNat) d s

/-- `LSR Wb, Wns, Wnd` (R216). -/
def execLsrWns (w d r : Reg) (s : State) : Out := shiftReg (s.getW w >>> shiftCount (s.getW r)) d s

/-- `LSR Wb, #lit4, Wnd` (R216). -/
def execLsrLit4 (w d : Reg) (k : BitVec 4) (s : State) : Out := shiftReg (s.getW w >>> k.toNat) d s

/-- `ASR Wb, Wns, Wnd` (R215). -/
def execAsrWns (w d r : Reg) (s : State) : Out := shiftReg ((s.getW w).sshiftRight (shiftCount (s.getW r))) d s

/-- `ASR Wb, #lit4, Wnd` (R215). -/
def execAsrLit4 (w d : Reg) (k : BitVec 4) (s : State) : Out := shiftReg ((s.getW w).sshiftRight k.toNat) d s

end Sys2Proof.Machine
end

