-- ==== Sys2Proof/Machine/System.lean ====
section
/-!
DEFINITION. System and control: R400 to R409 (46_system.md).
-/

namespace Sys2Proof.Machine

/-- The context a 3-bit number names, if the device has it (R402). -/
def contextNo (d : Device) (k : BitVec 3) : Option (Fin 5) :=
  if h : k.toNat < 5 then if k.toNat ≤ d.nAlt.val then some ⟨k.toNat, h⟩ else none else none

/-- A manual context switch (R402): CCTXI and MCTXI, and no register's content (R23). -/
def switchContext (k : BitVec 3) (s : State) : Out :=
  match contextNo s.dev k with
  | none => .refused .contextAbsent
  | some c => .next ({ s with cctxi := c, mctxi := c }.advance 1)

/-- `CTXTSWP #lit3` (R402). -/
def execCtxtswpLit (k : BitVec 3) (s : State) : Out := switchContext k s

/-- `CTXTSWP Wn` (R402). -/
def execCtxtswpWn (r : Reg) (s : State) : Out := switchContext ((s.getW r).setWidth 3) s

/-- `DISI #lit14` (R404). -/
def execDisi (k : BitVec 14) (s : State) : Out := .next ((s.setDisicnt k).advance 1)

/-- `RESET` (R407). -/
def execReset (s : State) : Out := .next s.deviceReset

/-- `PWRSAV #lit1` (R406). -/
def execPwrsav (_k : BitVec 1) (_s : State) : Out := .refused .powerSave

/-- `BOOTSWP` (R409). -/
def execBootswp (_s : State) : Out := .refused .dualBoot

/-- `FEX` (R408). -/
def execFex (_s : State) : Out := .refused .debugFex

/-- `SSTEP` (R408). -/
def execSstep (_s : State) : Out := .refused .debugSstep

/-- `URUN` (R408). -/
def execUrun (_s : State) : Out := .refused .debugUrun

end Sys2Proof.Machine
end

