-- ==== Sys2Proof/Machine/Table.lean ====
section
/-!
DEFINITION. Table reads and writes: R108, R188, R189 (40_moves_stack_context.md).
-/

namespace Sys2Proof.Machine

/-- The program word a table read takes its datum from, and bit 0 of the effective address: `{TBLPAG, EA}` with bit 0
cleared (R108, R188). The pointer of `[Ws]` is checked and modified as R142 says. An EA formed from W15 meets the stack
checks as every such one does (R424; log 32), and a read through W15 right after a write of SPLIM is refused here too (R496). -/
def tableWord (b : Size) (p : Mode6) (r : Reg) (s : State) : Res (PWord × Bool) :=
  if p = .direct then refuse .tableSourceDirect
  else (pointerCheck p.toMode b r s).bind fun _ s =>
    let ea := effAddr p.toMode r r (stepOf b) s
    if r = 15 ∧ s.trk.splimPrev then refuse .splimHazard
    else if s.tblpag.msb then refuse .configSpace
    else (progWord s (s.tblpag.toNat * 32768 + ea.toNat / 2)).bind fun w s =>
      let s := stackCheck (.reg r r) ea (effWraps p.toMode r r (stepOf b) s) s
      .val (w, ea.getLsbD 0) ((modifyPtr p.toMode r (stepOf b) s).setTrk { s.trk with psvRd := true })

/-- What `TBLRDL` reads (R188). -/
def tableLow (b : Size) (w : PWord) (odd : Bool) : Word :=
  match b with
  | .word => w.setWidth 16
  | .byte => zext16 (if odd then w.extractLsb' 8 8 else w.extractLsb' 0 8)

/-- What `TBLRDH` reads (R188). -/
def tableHigh (b : Size) (w : PWord) (odd : Bool) : Word :=
  match b with
  | .word => zext16 (w.extractLsb' 16 8)
  | .byte => if odd then 0#16 else zext16 (w.extractLsb' 16 8)

/-- `TBLRDL{.b} [Ws], Wd` (R188). -/
def execTblrdl (b : Size) (q : Mode6) (d : Reg) (p : Mode6) (r : Reg) (s : State) : Out :=
  ((tableWord b p r s).bind fun v s => writeDst q.toMode b d d (tableLow b v.1 v.2) s).done

/-- `TBLRDH{.b} [Ws], Wd` (R188). -/
def execTblrdh (b : Size) (q : Mode6) (d : Reg) (p : Mode6) (r : Reg) (s : State) : Out :=
  ((tableWord b p r s).bind fun v s => writeDst q.toMode b d d (tableHigh b v.1 v.2) s).done

/-- `TBLWTL` (R189). -/
def execTblwtl (_b : Size) (_q : Mode6) (_d : Reg) (_p : Mode6) (_r : Reg) (_s : State) : Out := .refused .tableWrite

/-- `TBLWTH` (R189). -/
def execTblwth (_b : Size) (_q : Mode6) (_d : Reg) (_p : Mode6) (_r : Reg) (_s : State) : Out := .refused .tableWrite

end Sys2Proof.Machine
end

