-- ==== Sys2Proof/Machine/Dispatch.lean ====
section
/-!
DEFINITION. One arm per constructor of `Instr`, each a call of that instruction's meaning.
-/

namespace Sys2Proof.Machine

def exec (i : Instr) (s : State) : Host.Outcome State Fault Refusal :=
  match i with
  | .nop => Sys2Proof.Machine.execNop s
  | .callWn n => Sys2Proof.Machine.execCallWn n s
  | .call t => Sys2Proof.Machine.execCall t s
  | .goto t => Sys2Proof.Machine.execGoto t s
  | .retlw b k d => Sys2Proof.Machine.execRetlw b k d s
  | .ret => Sys2Proof.Machine.execRet s
  | .retfie => Sys2Proof.Machine.execRetfie s
  | .rcall n => Sys2Proof.Machine.execRcall n s
  | .doLit k n => Sys2Proof.Machine.execDoLit k n s
  | .doWn r n => Sys2Proof.Machine.execDoWn r n s
  | .repeatLit k => Sys2Proof.Machine.execRepeatLit k s
  | .repeatWn r => Sys2Proof.Machine.execRepeatWn r s
  | .braOA n => Sys2Proof.Machine.execBraOA n s
  | .braOB n => Sys2Proof.Machine.execBraOB n s
  | .braSA n => Sys2Proof.Machine.execBraSA n s
  | .braSB n => Sys2Proof.Machine.execBraSB n s
  | .movLit16 k d => Sys2Proof.Machine.execMovLit16 k d s
  | .braOV n => Sys2Proof.Machine.execBraOV n s
  | .braC n => Sys2Proof.Machine.execBraC n s
  | .braZ n => Sys2Proof.Machine.execBraZ n s
  | .braN n => Sys2Proof.Machine.execBraN n s
  | .braLE n => Sys2Proof.Machine.execBraLE n s
  | .braLT n => Sys2Proof.Machine.execBraLT n s
  | .braLEU n => Sys2Proof.Machine.execBraLEU n s
  | .bra n => Sys2Proof.Machine.execBra n s
  | .braNOV n => Sys2Proof.Machine.execBraNOV n s
  | .braNC n => Sys2Proof.Machine.execBraNC n s
  | .braNZ n => Sys2Proof.Machine.execBraNZ n s
  | .braNN n => Sys2Proof.Machine.execBraNN n s
  | .braGT n => Sys2Proof.Machine.execBraGT n s
  | .braGE n => Sys2Proof.Machine.execBraGE n s
  | .braGTU n => Sys2Proof.Machine.execBraGTU n s
  | .addWbWsWd w b q d p r => Sys2Proof.Machine.execAddWbWsWd w b q d p r s
  | .addWbWsWdPre w b q d p r => Sys2Proof.Machine.execAddWbWsWdPre w b q d p r s
  | .addWbLit5 w b q d k => Sys2Proof.Machine.execAddWbLit5 w b q d k s
  | .movWsWd w b h d g r => Sys2Proof.Machine.execMovWsWd w b h d g r s
  | .movFWnd f d => Sys2Proof.Machine.execMovFWnd f d s
  | .movWnsF f r => Sys2Proof.Machine.execMovWnsF f r s
  | .bsetWs k b p r => Sys2Proof.Machine.execBsetWs k b p r s
  | .btscWs k p r => Sys2Proof.Machine.execBtscWs k p r s
  | .bsetF k f => Sys2Proof.Machine.execBsetF k f s
  | .btscF k f => Sys2Proof.Machine.execBtscF k f s
  | .addLit10 b k d => Sys2Proof.Machine.execAddLit10 b k d s
  | .movbLit8 k d => Sys2Proof.Machine.execMovbLit8 k d s
  | .addF b t f => Sys2Proof.Machine.execAddF b t f s
  | .movWregF b f => Sys2Proof.Machine.execMovWregF b f s
  | .mulUU w d p r => Sys2Proof.Machine.execMulUU w d p r s
  | .mulUUPre w d p r => Sys2Proof.Machine.execMulUUPre w d p r s
  | .mulUULit5 w d k => Sys2Proof.Machine.execMulUULit5 w d k s
  | .mulUS w d p r => Sys2Proof.Machine.execMulUS w d p r s
  | .mulSU w d p r => Sys2Proof.Machine.execMulSU w d p r s
  | .mulSUPre w d p r => Sys2Proof.Machine.execMulSUPre w d p r s
  | .mulSULit5 w d k => Sys2Proof.Machine.execMulSULit5 w d k s
  | .mulSS w d p r => Sys2Proof.Machine.execMulSS w d p r s
  | .tblrdl b q d p r => Sys2Proof.Machine.execTblrdl b q d p r s
  | .tblrdh b q d p r => Sys2Proof.Machine.execTblrdh b q d p r s
  | .tblwtl b q d p r => Sys2Proof.Machine.execTblwtl b q d p r s
  | .tblwth b q d p r => Sys2Proof.Machine.execTblwth b q d p r s
  | .mulF b f => Sys2Proof.Machine.execMulF b f s
  | .movDLoad d p r => Sys2Proof.Machine.execMovDLoad d p r s
  | .movDStore q d r => Sys2Proof.Machine.execMovDStore q d r s
  | .movF b t f => Sys2Proof.Machine.execMovF b t f s
  | .mac m a x y ip jp wb => Sys2Proof.Machine.execMac m a x y ip jp wb s
  | .macNoWb m a x y ip jp => Sys2Proof.Machine.execMacNoWb m a x y ip jp s
  | .mpy m a x y ip jp => Sys2Proof.Machine.execMpy m a x y ip jp s
  | .msc m a x y ip jp wb => Sys2Proof.Machine.execMsc m a x y ip jp wb s
  | .mscNoWb m a x y ip jp => Sys2Proof.Machine.execMscNoWb m a x y ip jp s
  | .mpyN m a x y ip jp => Sys2Proof.Machine.execMpyN m a x y ip jp s
  | .sftacWb a r => Sys2Proof.Machine.execSftacWb a r s
  | .sftacLit a k => Sys2Proof.Machine.execSftacLit a k s
  | .addWsoAcc a w k g r => Sys2Proof.Machine.execAddWsoAcc a w k g r s
  | .lac a w k g r => Sys2Proof.Machine.execLac a w k g r s
  | .addAcc a => Sys2Proof.Machine.execAddAcc a s
  | .sac a w k h d => Sys2Proof.Machine.execSac a w k h d s
  | .sacR a w k h d => Sys2Proof.Machine.execSacR a w k h d s
  | .slWsWd b q d p r => Sys2Proof.Machine.execSlWsWd b q d p r s
  | .lsrWsWd b q d p r => Sys2Proof.Machine.execLsrWsWd b q d p r s
  | .asrWsWd b q d p r => Sys2Proof.Machine.execAsrWsWd b q d p r s
  | .slF b t f => Sys2Proof.Machine.execSlF b t f s
  | .lsrF b t f => Sys2Proof.Machine.execLsrF b t f s
  | .asrF b t f => Sys2Proof.Machine.execAsrF b t f s
  | .divS dbl m n => Sys2Proof.Machine.execDivS dbl m n s
  | .divU dbl m n => Sys2Proof.Machine.execDivU dbl m n s
  | .divF m n => Sys2Proof.Machine.execDivF m n s
  | .slWns w d r => Sys2Proof.Machine.execSlWns w d r s
  | .slLit4 w d k => Sys2Proof.Machine.execSlLit4 w d k s
  | .lsrWns w d r => Sys2Proof.Machine.execLsrWns w d r s
  | .lsrLit4 w d k => Sys2Proof.Machine.execLsrLit4 w d k s
  | .asrWns w d r => Sys2Proof.Machine.execAsrWns w d r s
  | .asrLit4 w d k => Sys2Proof.Machine.execAsrLit4 w d k s
  | .macSq m a x y ip jp => Sys2Proof.Machine.execMacSq m a x y ip jp s
  | .mpySq m a x y ip jp => Sys2Proof.Machine.execMpySq m a x y ip jp s
  | .edac m a x ip jp => Sys2Proof.Machine.execEdac m a x ip jp s
  | .ed m a x ip jp => Sys2Proof.Machine.execEd m a x ip jp s
  | .lnk k => Sys2Proof.Machine.execLnk k s
  | .ulnk => Sys2Proof.Machine.execUlnk s
  | .se d p r => Sys2Proof.Machine.execSe d p r s
  | .ze d p r => Sys2Proof.Machine.execZe d p r s
  | .disi k => Sys2Proof.Machine.execDisi k s
  | .reset => Sys2Proof.Machine.execReset s
  | .pwrsav k => Sys2Proof.Machine.execPwrsav k s
  | .popS => Sys2Proof.Machine.execPopS s
  | .pushS => Sys2Proof.Machine.execPushS s
  | .ctxtswpLit k => Sys2Proof.Machine.execCtxtswpLit k s
  | .ctxtswpWn r => Sys2Proof.Machine.execCtxtswpWn r s
  | .bootswp => Sys2Proof.Machine.execBootswp s
  | .callLWn n => Sys2Proof.Machine.execCallLWn n s
  | .rcallWn n => Sys2Proof.Machine.execRcallWn n s
  | .mulwUU w d y r => Sys2Proof.Machine.execMulwUU w d y r s
  | .mulwUS w d p r => Sys2Proof.Machine.execMulwUS w d p r s
  | .mulwSU w d y r => Sys2Proof.Machine.execMulwSU w d y r s
  | .mulwSS w d p r => Sys2Proof.Machine.execMulwSS w d p r s
  | .mulAcc x w p r a => Sys2Proof.Machine.execMulAcc x w p r a s
  | .trap => Sys2Proof.Machine.execTrap s
  | .fex => Sys2Proof.Machine.execFex s
  | .sstep => Sys2Proof.Machine.execSstep s
  | .urun => Sys2Proof.Machine.execUrun s
  | .compareSkip => Sys2Proof.Machine.execCompareSkip s

end Sys2Proof.Machine
end

