-- ==== Sys2Proof/Machine/Step.lean ====
section
/-!
DEFINITION. One step of the machine: take the request that is due (R440, R448), else fetch, decode and run one instruction
with what every step does around it (R147, R364, R376, R405).
-/

namespace Sys2Proof.Machine

/-- One step (R440). -/
def step (s : State) : Host.Outcome State Fault Refusal :=
  match nextRequest s with
  | some r => takeException r s
  | none =>
    match fetchDecode s with
    | .error o => o
    | .ok i =>
      match checkBefore i (beginStep s) with
      | some r => .refused r
      | none => conclude i (beginStep s) (exec i (beginStep s))

/-- The instruction whose bits are `w`, first program word in bits 23:0, stored where `step` fetches: at the pc (log 39), the second
word at pc + 2 truncated to 23 bits (log 49). -/
def State.withFetchWord (s : State) (nbits w : Nat) : State :=
  { s with
    prog := (s.prog.write (s.pc.toNat / 2) (BitVec.ofNat 24 (w % 2 ^ nbits))).write ((s.pc + 2#23).toNat / 2)
      (BitVec.ofNat 24 (w % 2 ^ nbits / 16777216)) }

end Sys2Proof.Machine
end

