-- ==== Sys2Proof/Safety.lean ====
section
/-!
DEFINITION. The terms the statements use: the invariant of the machine, what an operand needs to be ordinary (readable,
writable, aligned memory or a register), and frames.
-/

namespace Sys2Proof.Machine

/-! ## The invariant -/

/-- What every step keeps: memory in its canonical form, and the bits and ranges the registers are held to (R27, R33, R48,
R54, R55, R64, R65, R68). -/
structure Inv (s : State) : Prop where
  mem : s.mem.wf = true
  prog : s.prog.wf = true
  pc : s.pc.getLsbD 0 = false
  w15 : s.w15.getLsbD 0 = false
  splim : s.splim.getLsbD 0 = false
  dl : s.cor.dl.toNat ≤ 4
  cctxi : s.cctxi ≤ s.dev.nAlt
  mctxi : s.mctxi ≤ s.dev.nAlt
  modcon : s.modcon &&& 0x3000#16 = 0#16
  xmodsrt : s.xmodsrt.getLsbD 0 = false
  xmodend : s.xmodend.getLsbD 0 = true
  ymodsrt : s.ymodsrt.getLsbD 0 = false
  ymodend : s.ymodend.getLsbD 0 = true
  mstrpr : s.mstrpr &&& 0xFFD6#16 = 0#16

/-! ## Ordinary operands -/

/-- Bytes of an access. -/
def bytesOf (z : Size) : Nat :=
  match z with
  | .word => 2
  | .byte => 1

/-- An address of ordinary memory in base data space: at or above 0x1000, up to RAM_END with its last byte (R94), and even
for a word (R98). -/
def ramAt (s : State) (z : Size) (ea : Word) : Prop :=
  0x1000 ≤ ea.toNat ∧ ea.toNat + bytesOf z ≤ s.dev.ramEnd.toNat + 1 ∧ misaligned z ea = false

/-- The value of ordinary memory at an address. -/
def memValue (z : Size) (ea : Word) (s : State) : Word :=
  match z with
  | .word => s.mem.readWord ea.toNat
  | .byte => zext16 (s.mem.read ea.toNat)

/-- The state with a value stored in ordinary memory. -/
def memStore (z : Size) (ea v : Word) (s : State) : State :=
  match z with
  | .word => s.setMem (s.mem.writeWord ea.toNat v)
  | .byte => s.setMem (s.mem.write ea.toNat (loByte v))

/-- The stack checks do not trip on an address formed from W15 (R176). -/
def stackOk (ea : Word) (wrapped : Bool) (s : State) : Prop :=
  0x1000#16 ≤ ea ∧ (s.splimEn = true → ea ≤ s.splim ∧ wrapped = false)

/-- The pointer of an indirect form is usable: initialised (R29), with linear addressing (R109), its address unpaged
ordinary memory, and if it is formed from W15, as base or as offset register, within the stack checks (R176, R424). -/
def pointerOk (m : Mode) (z : Size) (n w : Reg) (k : Word) (s : State) : Prop :=
  s.isInit n = true ∧ s.modcon.getLsbD 15 = false ∧ s.modcon.getLsbD 14 = false ∧ bitReversedApplies s m z n = false
    ∧ isPaged s (baseOf m n w) (effAddr m n w k s) = false
    ∧ (n = 15 ∨ m = .offset ∧ w = 15 → stackOk (effAddr m n w k s) (effWraps m n w k s) s)

/-- A source operand in any form: a register, or ordinary memory through a usable pointer; through W15 not right after a
write of SPLIM (R496). -/
def srcOk (m : Mode) (z : Size) (n w : Reg) (s : State) : Prop :=
  m = .direct ∨ (pointerOk m z n w (stepOf z) s ∧ ramAt s z (effAddr m n w (stepOf z) s)
    ∧ (n = 15 → s.trk.splimPrev = false))

/-- A destination operand in any form. -/
def dstOk (m : Mode) (z : Size) (n w : Reg) (s : State) : Prop :=
  m = .direct ∨ (pointerOk m z n w (stepOf z) s ∧ ramAt s z (effAddr m n w (stepOf z) s))

/-- The value of an ordinary source operand (R142). -/
def srcValue (m : Mode) (z : Size) (n w : Reg) (s : State) : Word :=
  if m = .direct then s.regRead z n else memValue z (effAddr m n w (stepOf z) s) s

/-- The state after an ordinary source operand is read: its pointer modified, if the form does that (R142). -/
def srcNext (m : Mode) (z : Size) (n : Reg) (s : State) : State := modifyPtr m n (stepOf z) s

/-- The state after an ordinary destination operand is written (R142). -/
def dstNext (m : Mode) (z : Size) (n w : Reg) (v : Word) (s : State) : State :=
  if m = .direct then s.regWrite z n v
  else modifyPtr m n (stepOf z) (memStore z (effAddr m n w (stepOf z) s) v s)

/-- A file register address of ordinary memory. -/
def fileOk (z : Size) (f : Word) (s : State) : Prop := ramAt s z f

/-- The state after a file register instruction's destination is written. -/
def fileDestNext (z : Size) (t : FDest) (f v : Word) (s : State) : State :=
  match t with
  | .wreg => s.regWrite z 0 v
  | .file => memStore z f v s

/-- The double word forms of `MOV.D` (R165): two words of ordinary memory, step 4. -/
def pairOk (m : Mode6) (n : Reg) (s : State) : Prop :=
  m = .direct ∨ (pointerOk m.toMode .word n n 4#16 s ∧ ramAt s .word (effAddr m.toMode n n 4#16 s)
    ∧ ramAt s .word (effAddr m.toMode n n 4#16 s + 2#16)
    ∧ isPaged s (.reg n n) (effAddr m.toMode n n 4#16 s + 2#16) = false
    ∧ (effAddr m.toMode n n 4#16 s).toNat + 2 < 65536
    ∧ (n = 15 → stackOk (effAddr m.toMode n n 4#16 s + 2#16) false s ∧ s.trk.splimPrev = false))

/-- The two words `MOV.D` reads (R165). -/
def pairValue (m : Mode6) (n : Reg) (s : State) : Word × Word :=
  if m = .direct then (s.getW n, s.getW (nextReg n))
  else (s.mem.readWord (effAddr m.toMode n n 4#16 s).toNat, s.mem.readWord ((effAddr m.toMode n n 4#16 s).toNat + 2))

/-- The state after `MOV.D` has stored its two words (R165). -/
def pairNext (m : Mode6) (n : Reg) (lo hi : Word) (s : State) : State :=
  if m = .direct then (s.setW n lo).setW (nextReg n) hi
  else modifyPtr m.toMode n 4#16 (s.setMem ((s.mem.writeWord (effAddr m.toMode n n 4#16 s).toNat lo).writeWord
    ((effAddr m.toMode n n 4#16 s).toNat + 2) hi))

/-! ## The stack -/

/-- One word can be pushed: ordinary memory at W15 that no stack check trips on (R176). -/
def pushOk (s : State) : Prop := ramAt s .word s.w15 ∧ stackOk s.w15 false s

/-- Two words can be pushed. -/
def push2Ok (s : State) : Prop := pushOk s ∧ ramAt s .word (s.w15 + 2#16) ∧ stackOk (s.w15 + 2#16) false s

/-- One word can be popped: ordinary memory below W15 that no stack check trips on (R176), not right after a write of SPLIM
(R496). -/
def popOk (s : State) : Prop :=
  ramAt s .word (s.w15 - 2#16) ∧ stackOk (s.w15 - 2#16) (decide (s.w15.toNat < 2)) s ∧ s.trk.splimPrev = false

/-- Two words can be popped. -/
def pop2Ok (s : State) : Prop := popOk s ∧ ramAt s .word (s.w15 - 4#16) ∧ stackOk (s.w15 - 4#16) false s

/-- The word on top of the stack (R172). -/
def top1 (s : State) : Word := s.mem.readWord (s.w15 - 2#16).toNat

/-- The word below it. -/
def top2 (s : State) : Word := s.mem.readWord (s.w15 - 4#16).toNat

/-- The state a call leaves (R173, R324): the two words pushed, SFA stacked and cleared. -/
def callNext (ret target : PAddr) (s : State) : State :=
  { s with
    mem := (s.mem.writeWord s.w15.toNat (stackedLow ret s.cor.sfa)).writeWord (s.w15 + 2#16).toNat (stackedHigh ret)
    w15 := s.w15 + 4#16
    cor := { s.cor with sfa := false }
    pc := target }

/-- The state a return leaves (R173, R335). -/
def returnNext (s : State) : State :=
  { s with
    w15 := s.w15 - 4#16
    cor := { s.cor with sfa := (top2 s).getLsbD 0 }
    pc := poppedPc (top1 s) (top2 s) }

/-- The four bytes two pushes write. -/
def stackBytes (s : State) : Nat → Prop := fun a => s.w15.toNat ≤ a ∧ a < s.w15.toNat + 4

/-! ## Exceptions -/

/-- The handler of a source: the device's own vector, else the word of the default table if it is present (R452). -/
def handlerOf (src : Source) (s : State) : Option PAddr :=
  match s.dev.vectors.find? (fun p => p.1 == src.entry) with
  | some p => some (evenPc p.2)
  | none =>
    if src.entry / 2 < s.dev.progWords then some (evenPc ((s.prog.read (src.entry / 2)).setWidth 23)) else none

/-- Whether the device assigns a level to a context it has (R9, R442). -/
def assigns (d : Device) (l : BitVec 4) (p : Fin 5 × BitVec 3) : Bool :=
  decide (p.1 ≠ 0) && decide (p.1 ≤ d.nAlt) && decide (p.2.toNat = l.toNat)

/-- The context a level selects: the one assigned to it, else `other` (R442). -/
def contextOf (d : Device) (l : BitVec 4) (other : Fin 5) : Fin 5 :=
  match d.ctxtIpl.find? (assigns d l) with
  | some p => p.1
  | none => other

/-- At most one context is assigned the level (R442). -/
def contextUnique (d : Device) (l : BitVec 4) : Prop := (d.ctxtIpl.filter (assigns d l)).length ≤ 1

/-- The level a handler runs at (R446): the request's, but 7 for an interrupt while nesting is disabled. -/
def handlerLevel (r : Request) (s : State) : Nat :=
  if s.intc.nstdis = true ∧ r.level.toNat < 8 then 7 else r.level.toNat

/-- A stack check trips on one of the two pushes of an exception entry into ordinary memory (R176, R447). -/
def entryTrips (s : State) : Bool := s.splimEn && (decide (s.splim < s.w15) || decide (s.splim < s.w15 + 2#16))

/-- The state exception entry leaves with memory for its two words (R443, R445 to R448, R452): `a` is the handler. What is
interrupted is held, a running `REPEAT` loop with its divide record (R365; log 19). -/
def entryNext (r : Request) (a : PAddr) (s : State) : State :=
  { s with
    mem := (s.mem.writeWord s.w15.toNat (stackedLow s.pc s.cor.sfa)).writeWord (s.w15 + 2#16).toNat (stackedHighExc s s.pc)
    w15 := s.w15 + 4#16
    sr := { s.sr with ra := false, ipl := BitVec.ofNat 3 (handlerLevel r s) }
    cor := { s.cor with sfa := false, ipl3 := decide (8 ≤ handlerLevel r s) }
    cctxi := contextOf s.dev r.level (if s.dev.noMatch = .keepCurrent then s.cctxi else 0)
    pend :=
      { address := s.pend.address && decide (r.source ≠ .address)
        stack := (s.pend.stack || entryTrips s) && decide (r.source ≠ .stack)
        math := s.pend.math && decide (r.source ≠ .math)
        soft := s.pend.soft && decide (r.source ≠ .soft) }
    active := r.source :: s.active
    div := if s.sr.ra then none else s.div
    held :=
      { frame := s.w15, target := s.pc, rcount := s.rcount, bank := s.w, since := s.fresh, loop := s.sr.ra
        div := if s.sr.ra then s.div else none } :: s.held
    pc := a }

/-- The requests after a `RETFIE` of the handler of `h` (R448; log 27): that of a trap of which a status bit is set is back. -/
def returnPend (h : Option Source) (s : State) : Pending :=
  { s.pend with
    math := s.pend.math || (decide (h = some .math) && (s.intc.ovaerr || s.intc.ovberr || s.intc.covaerr
      || s.intc.covberr || s.intc.sftacerr || s.intc.div0err))
    soft := s.pend.soft || (decide (h = some .soft) && s.intc.doOvr) }

/-- The registers R302 names are as the divide's last iteration left them. -/
def dutyKept (r : DivRec) (s : State) : Prop :=
  s.getW 0 = r.w0 ∧ s.getW 1 = r.w1 ∧ s.getW r.m = r.wm ∧ s.getW (r.m + 1) = r.wm1 ∧ s.getW r.n = r.wn

/-- What was interrupted is what the words say that the `RETFIE` which leaves the state `u` has popped: its address is the pc, and
with RA restored it is a loop (R365). -/
def fitsPopped (u : State) (h : Interrupted) : Prop := h.target = u.pc ∧ (u.sr.ra = true → h.loop = true)

/-- It fits, and its words were where the `RETFIE` popped. -/
def heldHere (u : State) (h : Interrupted) : Prop := h.frame = u.w15 ∧ fitsPopped u h

/-- The state stands as the loop was interrupted: RCOUNT, and the registers of its divide, if it has run. -/
def standsAsLeft (u : State) (h : Interrupted) : Prop := h.rcount = u.rcount ∧ ∀ r, h.div = some r → dutyKept r u

/-- The handler of the interruption `x` has left the registers R302 names for the divide `r` as it found them. -/
abbrev leftAsFound (r : DivRec) (x : Interrupted) (u : State) : Prop :=
  u.regIn r.ctx 0 = x.regIn r.ctx 0 ∧ u.regIn r.ctx 1 = x.regIn r.ctx 1 ∧ u.regIn r.ctx r.m = x.regIn r.ctx r.m
    ∧ u.regIn r.ctx (r.m + 1) = x.regIn r.ctx (r.m + 1) ∧ u.regIn r.ctx r.n = x.regIn r.ctx r.n

/-- What stays interrupted when the handler of `x` has ended in the state `u` (R302): a divide that had its last execution before
that handler began is spoilt unless the handler has left its registers as it found them. -/
def judgedBy (x : Interrupted) (u : State) (l : List Interrupted) : List Interrupted :=
  l.map fun h => { h with
    div := h.div.map fun r => if r.last ≤ x.since ∧ ¬leftAsFound r x u then { r with intact := false } else r }

/-- What was interrupted holds a divide that was started since `k` free values were drawn and is not completed (R302). -/
def unfinishedSince (k : Nat) (h : Interrupted) : Prop := ∃ r, h.div = some r ∧ r.done ≠ 18 ∧ k ≤ r.born

/-- The state `u` goes on with the divide record of the loop `h`: valid if its registers are as they were left and nothing
interrupted later holds a divide that was started since and is not completed, else spoilt (R302). -/
def goesOnWith (u : State) (newer : List Interrupted) (h : Interrupted) : Prop :=
  (h.div = none → u.div = none)
    ∧ ∀ r, h.div = some r →
      (dutyKept r u ∧ (∀ x ∈ newer, ¬unfinishedSince r.last x) → u.div = some r)
      ∧ (¬dutyKept r u ∨ (∃ x ∈ newer, unfinishedSince r.last x) → u.div = some { r with intact := false })

/-- The interrupted loops after a divide that was started at `b` was left uncompleted (R302): those that had their last execution
before have met a handler that broke its duty. -/
def spoiltSince (b : Nat) (l : List Interrupted) : List Interrupted :=
  l.map fun h => { h with div := h.div.map fun r => if r.last ≤ b then { r with intact := false } else r }

/-- The interruption `h` ends in the state `u` and its loop goes on; the others are judged (R302, R365). -/
def resumes (u : State) (newer : List Interrupted) (h : Interrupted) (older : List Interrupted) : Prop :=
  u.held = judgedBy h u (newer ++ older) ∧ goesOnWith u newer h

/-- The interruption `h` ends in the state `u` with RA = 0: the others are judged, and a divide of its own that was not completed is
left (R302). -/
def leaves (u : State) (newer : List Interrupted) (h : Interrupted) (older : List Interrupted) : Prop :=
  ((∀ r, h.div = some r → r.done = 18) → u.held = judgedBy h u (newer ++ older))
    ∧ ∀ r, h.div = some r → r.done ≠ 18 → u.held = spoiltSince r.born (judgedBy h u (newer ++ older))

/-- A request is presented (R428): a CPU trap that is pending, or one of the interrupt controller; a trap at the device's level
(R441), an interrupt at its own. -/
def presents (s : State) (q : Request) : Prop :=
  match q.source with
  | .address => s.pend.address = true ∧ q.level = s.dev.levelAddress
  | .stack => s.pend.stack = true ∧ q.level = s.dev.levelStack
  | .math => s.pend.math = true ∧ q.level = s.dev.levelMath
  | .soft => (s.pend.soft = true ∨ .soft ∈ s.ext) ∧ q.level = s.dev.levelSoft
  | .oscillator => .oscillator ∈ s.ext ∧ q.level = s.dev.levelOscillator
  | .hard => .hard ∈ s.ext ∧ q.level = s.dev.levelHard
  | .dma => .dma ∈ s.ext ∧ q.level = s.dev.levelDma
  | .irq n => ∃ l : BitVec 3, .irq n l ∈ s.ext ∧ q.level.toNat = l.toNat

/-! ## Conditions of the branches -/

/-- The condition and the offset of a relative branch (R322). -/
def branchOf : Instr → Option ((Status → Bool) × Word)
  | .braOA n => some (fun f => f.oa, n)
  | .braOB n => some (fun f => f.ob, n)
  | .braSA n => some (fun f => f.sa, n)
  | .braSB n => some (fun f => f.sb, n)
  | .braOV n => some (fun f => f.ov, n)
  | .braC n => some (fun f => f.c, n)
  | .braZ n => some (fun f => f.z, n)
  | .braN n => some (fun f => f.n, n)
  | .braLE n => some (fun f => f.z || xor f.n f.ov, n)
  | .braLT n => some (fun f => xor f.n f.ov, n)
  | .braLEU n => some (fun f => !f.c || f.z, n)
  | .bra n => some (fun _ => true, n)
  | .braNOV n => some (fun f => !f.ov, n)
  | .braNC n => some (fun f => !f.c, n)
  | .braNZ n => some (fun f => !f.z, n)
  | .braNN n => some (fun f => !f.n, n)
  | .braGT n => some (fun f => !f.z && !xor f.n f.ov, n)
  | .braGE n => some (fun f => !xor f.n f.ov, n)
  | .braGTU n => some (fun f => f.c && !f.z, n)
  | _ => none

/-- The flow control instructions but for the returns (R315, R367, R383). -/
def flowControl (i : Instr) : Prop :=
  branchOf i ≠ none ∨ (∃ t, i = .goto t ∨ i = .call t) ∨ (∃ n, i = .callWn n ∨ i = .callLWn n ∨ i = .rcallWn n)
    ∨ (∃ n, i = .rcall n) ∨ (∃ k p r, i = .btscWs k p r) ∨ (∃ k f, i = .btscF k f) ∨ i = .compareSkip ∨ i = .trap

/-- `RETURN`, `RETLW`, `RETFIE`. -/
def returns (i : Instr) : Prop := i = .ret ∨ i = .retfie ∨ ∃ b k d, i = .retlw b k d

/-- `REPEAT` and `DO`. -/
def startsLoop (i : Instr) : Prop :=
  (∃ k, i = .repeatLit k) ∨ (∃ r, i = .repeatWn r) ∨ (∃ k n, i = .doLit k n) ∨ ∃ r n, i = .doWn r n

/-- The end of a loop that runs, the innermost or one it is nested in (R62, R63, R374). -/
def runsTo (s : State) (e : BitVec 22) : Prop := e = s.doend ∨ ∃ k : Fin 3, k.val + 2 ≤ s.cor.dl.toNat ∧ e = s.doStack[k].fin

/-- The word at a program address is there and the first of a two-word instruction (R131). -/
def twoWordsAt (s : State) (a : PAddr) : Prop :=
  a.toNat / 2 < s.dev.progWords ∧ twoWord (s.prog.read (a.toNat / 2)) = true

/-- The instruction `i` at the pc stands before the penultimate one of a loop that runs (R381): the next address is that of the
penultimate one, which has one word unless the program has one of two words there. -/
def atEarlyTail (i : Instr) (s : State) : Prop :=
  ∃ e, runsTo s e ∧ ((¬twoWordsAt s (addrOf e - 4#23) ∧ s.pc + BitVec.ofNat 23 (2 * i.words) = addrOf e - 2#23)
    ∨ (twoWordsAt s (addrOf e - 4#23) ∧ s.pc + BitVec.ofNat 23 (2 * i.words) = addrOf e - 4#23))

/-- The instructions R367 forbids as the target of `REPEAT`. -/
def repeatForbidden (i : Instr) : Prop :=
  flowControl i ∨ returns i ∨ startsLoop i ∨ (∃ k, i = .disi k) ∨ (∃ k, i = .pwrsav k) ∨ (∃ k, i = .lnk k) ∨ i = .ulnk
    ∨ i = .reset ∨ (∃ d p r, i = .movDLoad d p r) ∨ ∃ q d r, i = .movDStore q d r

/-- The constructors whose row has no encoding in the table (log 30). -/
def unencoded : Instr → Bool
  | .ctxtswpLit _ | .ctxtswpWn _ | .bootswp | .callLWn _ | .rcallWn _ | .trap | .fex | .sstep | .urun | .compareSkip => true
  | .mulwUU _ _ _ _ | .mulwUS _ _ _ _ | .mulwSU _ _ _ _ | .mulwSS _ _ _ _ | .mulAcc _ _ _ _ _ => true
  | _ => false

/-! ## Ordinary DSP operands -/

/-- The pointer of a prefetch is initialised and addressed linearly (R29, R109). -/
def pointerFree (m : Mode) (n : Reg) (s : State) : Prop :=
  s.isInit n = true ∧ s.modcon.getLsbD 15 = false ∧ s.modcon.getLsbD 14 = false ∧ bitReversedApplies s m .word n = false

/-- The X prefetch, if there is one, reads ordinary memory (R262). -/
def xOk (i : Prefetch) (s : State) : Prop :=
  ∀ n, prefetchReg 8 i = some n → pointerFree (prefetchMode i) n s ∧ isPaged s (.reg n n) (prefetchAddr n i s) = false
    ∧ ramAt s .word (prefetchAddr n i s)

/-- The Y prefetch, if there is one, reads an even address of Y data space (R262). -/
def yOk (j : Prefetch) (s : State) : Prop :=
  ∀ n, prefetchReg 10 j = some n → pointerFree (prefetchMode j) n s ∧ inYSpace s.dev (prefetchAddr n j s) = true
    ∧ (prefetchAddr n j s).getLsbD 0 = false

/-- The write-back, if it stores to memory, stores to ordinary memory (R264). -/
def writeBackOk (wb : Option WriteBack) (s : State) : Prop := wb = some .w13Inc → dstOk .postInc .word 13 13 s

/-- The word a prefetch reads (R262); `first` is W8 or W10. -/
def prefetched (first : Reg) (i : Prefetch) (s : State) : Option Word :=
  (prefetchReg first i).map fun n => s.mem.readWord (prefetchAddr n i s).toNat

/-- The multiplier result of two operand registers (R242, R244); with US = 11 this says nothing. -/
def dspProduct (m n : DReg) (s : State) : Int :=
  dspMul s.cor.ifm (s.getW m.toReg) ((operandSigned s.cor.us m).getD true) (s.getW n.toReg)
    ((operandSigned s.cor.us n).getD true)

/-- The state after an ordinary write-back (R264). -/
def writeBackNext (wb : Option WriteBack) (a : Acc) (s : State) : State :=
  match wb with
  | none => s
  | some .w13 => s.setW 13 (writeBackValue a s)
  | some .w13Inc => dstNext .postInc .word 13 13 (writeBackValue a s) s

/-- The state an instruction of the multiply class leaves, `v` the exact accumulator result (R245 to R249, R253, R262,
R264). -/
def multiplyNext (a : Acc) (v : Int) (x y : DReg) (i j : Prefetch) (wb : Option WriteBack) (s : State) : State :=
  (stepPointer 10 j (stepPointer 8 i
    (loadPrefetch x y (prefetched 8 i s) (prefetched 10 j s) (writeBackNext wb a (accUpdate a v s))))).advance 1

/-- Whether a prefetch moves its pointer. -/
def moves (i : Prefetch) : Prop := ∃ b k, i = .ptr b k ∧ k ≠ .zero

/-- The registers a multiply class instruction may change (R262, R264). -/
def multiplyRegs (x y : DReg) (i j : Prefetch) (wb : Option WriteBack) : Reg → Prop := fun n =>
  (n = x.toReg ∧ i ≠ .none) ∨ (n = y.toReg ∧ j ≠ .none) ∨ (prefetchReg 8 i = some n ∧ moves i)
    ∨ (prefetchReg 10 j = some n ∧ moves j) ∨ (n = 13 ∧ wb ≠ none)

/-! ## Steps -/

/-- The words at the pc are present and decode to an instruction (R91, R131, R147). -/
def fetches (s : State) (i : Instr) : Prop :=
  s.pc.toNat / 2 < s.dev.progWords
    ∧ (twoWord (s.prog.read (s.pc.toNat / 2)) = true → (s.pc + 2#23).toNat / 2 < s.dev.progWords)
    ∧ decode (s.prog.read (s.pc.toNat / 2))
        (if twoWord (s.prog.read (s.pc.toNat / 2)) then s.prog.read ((s.pc + 2#23).toNat / 2) else 0#24) = .ok i

/-- DISICNT after a step of an instruction (R405, D18): one less, but `DISI` leaves what it loaded. -/
def disiLeft (i : Instr) (t : State) : BitVec 14 :=
  if (∃ k, i = .disi k) ∨ t.disicnt = 0#14 then t.disicnt else t.disicnt - 1#14

/-- The instruction at `a` ends no `DO` loop (R376): none runs, it stands elsewhere, or it wrote the pc. -/
def noLoopEnd (i : Instr) (a : PAddr) (t : State) : Prop :=
  t.cor.dl = 0#3 ∨ a ≠ t.doend ++ 0#1 ∨ flowControl i ∨ returns i

/-! ## Special registers in data space -/

/-- The value of a bit. -/
def bitAt (k : Nat) (b : Bool) : Nat := if b then 2 ^ k else 0

/-- What a special register holds, as data space shows it; for the bits whose read is open, 0 (R32 to R69). -/
def sfrWord (x : Sfr) (s : State) : Word :=
  match x with
  | .w n => s.getW n
  | .splim => s.splim
  | .accL a => BitVec.ofNat 16 (s.acc a).toNat
  | .accH a => BitVec.ofNat 16 ((s.acc a).toNat / 2 ^ 16)
  | .accU a => BitVec.ofInt 16 ((s.acc a).toInt / 2 ^ 32)
  | .pcl => 0#16
  | .pch => BitVec.ofNat 16 (s.pc.toNat / 65536)
  | .dsrpag => BitVec.ofNat 16 s.dsrpag.toNat
  | .dswpag => BitVec.ofNat 16 s.dswpag.toNat
  | .rcount => s.rcount
  | .dcount => s.dcount
  | .dostartl => BitVec.ofNat 16 (2 * s.dostart.toNat)
  | .dostarth => BitVec.ofNat 16 (2 * s.dostart.toNat / 65536)
  | .doendl => BitVec.ofNat 16 (2 * s.doend.toNat)
  | .doendh => BitVec.ofNat 16 (2 * s.doend.toNat / 65536)
  | .sr => BitVec.ofNat 16 (bitAt 15 s.sr.oa + bitAt 14 s.sr.ob + bitAt 13 s.sr.sa + bitAt 12 s.sr.sb
      + bitAt 11 (s.sr.oa || s.sr.ob) + bitAt 10 (s.sr.sa || s.sr.sb) + bitAt 9 (decide (s.cor.dl ≠ 0#3)) + bitAt 8 s.sr.dc
      + 32 * s.sr.ipl.toNat + bitAt 4 s.sr.ra + bitAt 3 s.sr.n + bitAt 2 s.sr.ov + bitAt 1 s.sr.z + bitAt 0 s.sr.c)
  | .corcon => BitVec.ofNat 16 (4096 * s.cor.us.toNat + 256 * s.cor.dl.toNat + bitAt 7 s.cor.sata + bitAt 6 s.cor.satb
      + bitAt 5 s.cor.satdw + bitAt 4 s.cor.accsat + bitAt 3 s.cor.ipl3 + bitAt 2 s.cor.sfa + bitAt 1 s.cor.rnd
      + bitAt 0 s.cor.ifm)
  | .modcon => s.modcon
  | .xmodsrt => s.xmodsrt
  | .xmodend => s.xmodend
  | .ymodsrt => s.ymodsrt
  | .ymodend => s.ymodend
  | .xbrev => s.xbrev
  | .disicnt => BitVec.ofNat 16 s.disicnt.toNat
  | .tblpag => BitVec.ofNat 16 s.tblpag.toNat
  | .mstrpr => s.mstrpr
  | .ctxtstat => BitVec.ofNat 16 (256 * s.cctxi.val + s.mctxi.val)
  | .intcon1 => BitVec.ofNat 16 (bitAt 15 s.intc.nstdis + bitAt 14 s.intc.ovaerr + bitAt 13 s.intc.ovberr
      + bitAt 12 s.intc.covaerr + bitAt 11 s.intc.covberr + bitAt 10 s.intc.ovate + bitAt 9 s.intc.ovbte
      + bitAt 8 s.intc.covte + bitAt 7 s.intc.sftacerr + bitAt 6 s.intc.div0err)
  | .intcon3 => BitVec.ofNat 16 (bitAt 4 s.intc.doOvr)

/-- The bits of a special register whose read is open: all of PCL but bit 0 (R34), the unnamed bits of the two interrupt
controller registers (R427), DOEND after a `DO` or a write of it (R497). -/
def openBits (x : Sfr) (s : State) : Word :=
  match x with
  | .pcl => 0xFFFE#16
  | .intcon1 => 0x003F#16
  | .intcon3 => 0xFFEF#16
  | .doendl | .doendh => if s.trk.doendOpen then 0xFFFF#16 else 0#16
  | _ => 0#16

/-- The state after a word is written to a special register, but for the pc; none for SR and CORCON, which have statements of
their own, and for those whose write is refused (R32 to R69). -/
def sfrStored (x : Sfr) (v : Word) (s : State) : Option State :=
  match x with
  | .w n => some (s.setW n v)
  | .splim => some { s with
      splim := BitVec.ofNat 16 (v.toNat / 2 * 2), splimEn := true, trk := { s.trk with splimWr := true } }
  | .accL a => some (s.setAcc a (BitVec.ofNat 40 ((s.acc a).toNat / 2 ^ 16 * 2 ^ 16 + v.toNat)))
  | .accH a => some (s.setAcc a
      (BitVec.ofNat 40 ((s.acc a).toNat / 2 ^ 32 * 2 ^ 32 + v.toNat * 2 ^ 16 + (s.acc a).toNat % 2 ^ 16)))
  | .accU a => some (s.setAcc a (BitVec.ofNat 40 (v.toNat % 256 * 2 ^ 32 + (s.acc a).toNat % 2 ^ 32)))
  | .pcl | .pch | .disicnt | .sr | .corcon => none
  | .dsrpag => some { s with dsrpag := BitVec.ofNat 10 v.toNat }
  | .dswpag => some { s with dswpag := BitVec.ofNat 9 v.toNat }
  | .rcount => some { s with rcount := v }
  | .dcount => some { s with dcount := v }
  | .dostartl | .dostarth | .ctxtstat => some s
  | .doendl => some { s with
      doend := BitVec.ofNat 22 (s.doend.toNat / 2 ^ 15 * 2 ^ 15 + v.toNat / 2), trk := { s.trk with doendWr := true } }
  | .doendh => some { s with
      doend := BitVec.ofNat 22 (v.toNat % 128 * 2 ^ 15 + s.doend.toNat % 2 ^ 15), trk := { s.trk with doendWr := true } }
  | .modcon => some { s with modcon := BitVec.ofNat 16 (v.toNat / 2 ^ 14 * 2 ^ 14 + v.toNat % 2 ^ 12) }
  | .xmodsrt => some { s with xmodsrt := BitVec.ofNat 16 (v.toNat / 2 * 2) }
  | .xmodend => some { s with xmodend := BitVec.ofNat 16 (v.toNat / 2 * 2 + 1) }
  | .ymodsrt => some { s with ymodsrt := BitVec.ofNat 16 (v.toNat / 2 * 2) }
  | .ymodend => some { s with ymodend := BitVec.ofNat 16 (v.toNat / 2 * 2 + 1) }
  | .xbrev => some { s with xbrev := v }
  | .tblpag => some { s with tblpag := BitVec.ofNat 8 v.toNat }
  | .mstrpr => some { s with mstrpr := BitVec.ofNat 16 (v.toNat / 32 % 2 * 32 + v.toNat / 8 % 2 * 8 + v.toNat % 2) }
  | .intcon1 => some { s with intc := { s.intc with
      nstdis := v.getLsbD 15, ovaerr := v.getLsbD 14, ovberr := v.getLsbD 13, covaerr := v.getLsbD 12
      covberr := v.getLsbD 11, ovate := v.getLsbD 10, ovbte := v.getLsbD 9, covte := v.getLsbD 8, sftacerr := v.getLsbD 7
      div0err := v.getLsbD 6 } }
  | .intcon3 => some { s with intc := { s.intc with doOvr := v.getLsbD 4 } }

/-- A word with one of its bytes replaced, the high one at an odd address (R96). -/
def withByte (odd : Bool) (old : Word) (b : Nat) : Word :=
  BitVec.ofNat 16 (if odd then b * 256 + old.toNat % 256 else old.toNat / 256 * 256 + b)

/-- The state after a byte is written to a special register, but for the pc (R26, R29, R55, R96): as a word write of the register
with that byte replaced, but a W register keeps its mark and SPLIM its enable. -/
def sfrStoredByte (x : Sfr) (odd : Bool) (b : Nat) (s : State) : Option State :=
  match x with
  | .w n => some (s.setWKeep n (withByte odd (s.getW n) b))
  | .splim => some { s with
      splim := BitVec.ofNat 16 ((withByte odd s.splim b).toNat / 2 * 2), trk := { s.trk with splimWr := true } }
  | _ => sfrStored x (withByte odd (sfrWord x s) b) s

/-! ## Frames -/

/-- Nothing differs but working registers, SR, data memory and the pc. -/
def onlyCore (s t : State) : Prop := { t with w := s.w, w15 := s.w15, sr := s.sr, mem := s.mem, pc := s.pc } = s

/-- Every working register outside `P` is unchanged, in every context, with its initialisation flag. -/
def regsKept (P : Reg → Prop) (s t : State) : Prop :=
  (∀ (c : Fin 5) (n : Reg) (h : n.val < 15), ¬(c = s.cctxi ∧ P n) → t.bankReg c n h = s.bankReg c n h)
    ∧ (¬P 15 → t.w15 = s.w15)

/-- Every byte of data memory outside `P` reads as before. -/
def memKept (P : Nat → Prop) (s t : State) : Prop := ∀ a, ¬P a → t.mem.read a = s.mem.read a

/-- The frame of an ordinary instruction: working registers in `R` and bytes in `M` may change, SR and the pc are said
apart, everything else is unchanged. -/
def Frame (R : Reg → Prop) (M : Nat → Prop) (s t : State) : Prop := onlyCore s t ∧ regsKept R s t ∧ memKept M s t

/-- An instruction completes in `t` with that frame and with `f` in SR. -/
def Runs (i : Instr) (s : State) (R : Reg → Prop) (M : Nat → Prop) (f : Status) (t : State) : Prop :=
  exec i s = .next t ∧ Frame R M s t ∧ t.sr = f

/-- Nothing differs but what a DSP instruction may write: working registers, the accumulator `x`, its status bits, memory,
the trap status and requests, the pc, and the count of free values drawn. -/
def DspFrame (x : Acc) (R : Reg → Prop) (M : Nat → Prop) (s t : State) : Prop :=
  { t with
      w := s.w, w15 := s.w15, acca := s.acca, accb := s.accb, mem := s.mem, pc := s.pc, intc := s.intc, pend := s.pend
      fresh := s.fresh, sr := { t.sr with oa := s.sr.oa, ob := s.sr.ob, sa := s.sr.sa, sb := s.sr.sb } } = s
    ∧ t.acc (otherAcc x) = s.acc (otherAcc x)
    ∧ (x = .acca → t.sr.ob = s.sr.ob ∧ t.sr.sb = s.sr.sb) ∧ (x = .accb → t.sr.oa = s.sr.oa ∧ t.sr.sa = s.sr.sa)
    ∧ regsKept R s t ∧ memKept M s t

/-- Whether a form modifies its pointer. -/
def modifies (m : Mode) : Prop := m = .postInc ∨ m = .postDec ∨ m = .preInc ∨ m = .preDec

/-- The registers a source operand changes: its pointer, if the form modifies it. -/
def srcRegs (m : Mode) (n : Reg) : Reg → Prop := fun x => x = n ∧ modifies m

/-- The registers a destination operand changes: the register itself, or its pointer. -/
def dstRegs (m : Mode) (n : Reg) : Reg → Prop := fun x => x = n ∧ (m = .direct ∨ modifies m)

/-- The bytes an access of ordinary memory covers. -/
def bytesAt (z : Size) (ea : Word) : Nat → Prop := fun a => ea.toNat ≤ a ∧ a < ea.toNat + bytesOf z

/-- The bytes a destination operand stores to. -/
def dstBytes (m : Mode) (z : Size) (n w : Reg) (s : State) : Nat → Prop :=
  fun a => m ≠ .direct ∧ bytesAt z (effAddr m n w (stepOf z) s) a

/-- The bytes a file register instruction stores to. -/
def fileBytes (z : Size) (t : FDest) (f : Word) : Nat → Prop := fun a => t = .file ∧ bytesAt z f a

/-- The registers it writes. -/
def fileRegs (t : FDest) : Reg → Prop := fun x => t = .wreg ∧ x = 0

/-- No byte. -/
def noBytes : Nat → Prop := fun _ => False

/-- No register. -/
def noRegs : Reg → Prop := fun _ => False

/-- The bytes a write-back stores to. -/
def writeBackBytes (wb : Option WriteBack) (s : State) : Nat → Prop := fun a => wb = some .w13Inc ∧ bytesAt .word (s.getW 13) a

/-- The outcome is a next state. -/
def completes (o : Out) : Prop := ∃ t, o = .next t

end Sys2Proof.Machine
end

