-- ==== Sys2Proof/Certificates/Slice0/Obligations.lean ====
section
/-!
DEFINITION. The statements for the provers. "Ordinary" operands and what they give are defined in Sys2Proof/Safety.lean.
-/

open Sys2Proof Sys2Proof.Machine

/-! ## Decoding -/

/-- R131, R138 to R143, R147: decoding the words of a well-formed instruction gives it back, with every operand at every
value; a one-word instruction whatever word follows it. The rows of the table without an encoding are the only
instructions without words. -/
def Obligations.DecodeInvertsEncode : Prop :=
  ∀ i : Instr, i.wellFormed = true →
    match encode i with
    | [w1] => i.words = 1 ∧ twoWord w1 = false ∧ ∀ w2, decode w1 w2 = .ok i
    | [w1, w2] => i.words = 2 ∧ twoWord w1 = true ∧ decode w1 w2 = .ok i
    | _ => unencoded i = true

/-- R131, R147: what the decoder answers is well-formed, has a row with an encoding, and its length is the one the first
word tells. -/
def Obligations.DecodedIsWellFormed : Prop :=
  ∀ (w1 w2 : PWord) (i : Instr), decode w1 w2 = .ok i →
    i.wellFormed = true ∧ unencoded i = false ∧ i.words = if twoWord w1 then 2 else 1

/-- Words the rules R320, R322, R325, R328, R171, R172, R221 and R362 write out, and two of the row notes. -/
def Obligations.KnownWords : Prop :=
  decode 0x040200#24 0x000000#24 = .ok (.goto 0x000100#22)
    ∧ decode 0x320007#24 0#24 = .ok (.braZ 7#16)
    ∧ decode 0x37FFFF#24 0#24 = .ok (.bra 0xFFFF#16)
    ∧ decode 0x070007#24 0#24 = .ok (.rcall 7#16)
    ∧ decode 0x022346#24 0x000001#24 = .ok (.call 0x0091A3#22)
    ∧ decode 0x781F80#24 0#24 = .ok (.movWsWd 0 .word .postInc 15 .direct 0)
    ∧ decode 0x78004F#24 0#24 = .ok (.movWsWd 0 .word .direct 0 .preDec 15)
    ∧ decode 0xAF2042#24 0#24 = .ok (.btscF 1#4 0x021#12)
    ∧ decode 0x090011#24 0#24 = .ok (.repeatLit 17#15)
    ∧ decode 0x060000#24 0#24 = .ok .ret ∧ decode 0x064000#24 0#24 = .ok .retfie
    ∧ decode 0xFA8000#24 0#24 = .ok .ulnk ∧ decode 0xFEA000#24 0#24 = .ok .pushS ∧ decode 0xFE8000#24 0#24 = .ok .popS

/-! ## The invariant -/

/-- R27, R33, R48, R54, R55, R64, R65, R68 and the canonical form of memory: every step keeps what `Inv` says, from every
state. -/
def Obligations.StepKeepsInv : Prop := ∀ s t : State, Inv s → step s = .next t → Inv t

/-- The reset state meets the invariant. -/
def Obligations.ResetInv : Prop := Inv State.reset

/-! ## Steps -/

/-- R147, R440: with no request due, the words at the pc are decoded and the instruction is run by `exec`, on the state `b` with
the marks of the steps before shifted, which say whether a read of DOEND is open (log 29); `conclude` adds the loop mechanics
(R364, R376) and the DISICNT count (R405). -/
def Obligations.StepRunsDecoded : Prop :=
  ∀ (i : Instr) (s b : State),
    b = { s with trk := {
      splimPrev := s.trk.splimWr, doPrev := s.trk.doWr, doendOpen := s.trk.doWr || s.trk.doPrev || s.trk.doendWr
      splimWr := false, doWr := false, doendWr := false, psvRd := false } } →
    nextRequest s = none → fetches s i → checkBefore i b = none → step s = conclude i b (exec i b)

/-- R364, R376, R405: where neither `REPEAT` goes on nor a `DO` loop ends, inside or outside a `DO` loop, a step ends in what its
instruction left, with one count off DISICNT (D18, log 15). -/
def Obligations.OutsideLoops : Prop :=
  ∀ (i : Instr) (s t : State), s.sr.ra = false ∨ t.sr.ra = false → t.sr.ra = true ∨ noLoopEnd i s.pc t →
    t.cor.dl = 0#3 ∨ checkAfter i s t = none →
    conclude i s (.next t) = .next { t with disicnt := disiLeft i t }

/-- R428, R440, R441: the requests are the CPU's pending traps and what the interrupt controller presents, a trap at the level the
device gives it, an interrupt at its own. One is taken exactly when one has a level above the CPU's and, at level 6 or below,
DISICNT is 0; the one taken has the highest level and, among those, the lowest place in the vector table. -/
def Obligations.RequestChosen : Prop :=
  ∀ s : State,
    (∀ r, nextRequest s = some r →
      step s = takeException r s ∧ presents s r
        ∧ s.cpuIpl < r.level ∧ (r.level ≤ 6#4 → s.disicnt = 0#14)
        ∧ ∀ q, presents s q → s.cpuIpl < q.level → (q.level ≤ 6#4 → s.disicnt = 0#14) →
            q.level < r.level ∨ (q.level = r.level ∧ r.source.entry ≤ q.source.entry))
    ∧ (nextRequest s = none →
        ∀ q, presents s q → ¬(s.cpuIpl < q.level ∧ (q.level ≤ 6#4 → s.disicnt = 0#14)))

/-! ## Exceptions -/

/-- R442, R443, R445, R446, R447, R448, R452: taking an exception with memory for its two words. A push beyond SPLIM is made and
requests StackError, which an entry into the StackError handler drops (D10). The note of the handler that begins is the model's own
(log 27). -/
def Obligations.EntryEffect : Prop :=
  ∀ (r : Request) (a : PAddr) (s : State), ramAt s .word s.w15 → ramAt s .word (s.w15 + 2#16) →
    contextUnique s.dev r.level → handlerOf r.source s = some a →
    takeException r s = .next (entryNext r a s)
      ∧ (∀ k, ¬stackBytes s k → (entryNext r a s).mem.read k = s.mem.read k)
      ∧ (s.pc.getLsbD 0 = false → (stackedLow s.pc s.cor.sfa).toNat = s.pc.toNat % 65536 + s.cor.sfa.toNat)
      ∧ (stackedHighExc s s.pc).toNat = (32 * s.sr.ipl.toNat + bitAt 4 s.sr.ra + bitAt 3 s.sr.n + bitAt 2 s.sr.ov
          + bitAt 1 s.sr.z + bitAt 0 s.sr.c) * 256 + bitAt 7 s.cor.ipl3 + s.pc.toNat / 65536
      ∧ [Source.oscillator, .address, .hard, .stack, .math, .dma, .soft].map Source.entry = [4, 6, 8, 10, 12, 14, 16]
      ∧ ∀ n, (Source.irq n).entry = 20 + 2 * n.val

/-- R338, R445, R446, R448, R456: `RETFIE` right after the entry gives back the pc, SR, IPL3, SFA and the stack pointer, and the
context of the restored level, else the one selected by hand; the trap of a handler that leaves its status bit set is requested
again. Which handler returns, the model's list of those that have not tells (DESIGN CHOICE, log 27). An interrupted `REPEAT` loop
goes on with its divide record, spoilt if a register of it changed (R302, R365; how a loop is told is the model's DESIGN CHOICE, log
19). -/
def Obligations.EntryThenRetfie : Prop :=
  ∀ (r : Request) (a : PAddr) (s : State), push2Ok s → s.w15.toNat + 4 < 65536 → s.pc.getLsbD 0 = false →
    s.trk.splimPrev = false → contextUnique s.dev r.level → contextUnique s.dev s.cpuIpl → handlerOf r.source s = some a →
    ∃ u, exec .retfie (entryNext r a s) = .next u
      ∧ u = { entryNext r a s with
          w15 := s.w15, pc := s.pc, sr := s.sr, cor := s.cor, cctxi := contextOf s.dev s.cpuIpl s.mctxi, active := s.active
          pend := returnPend (some r.source) (entryNext r a s), div := u.div, held := u.held }
      ∧ u.held = s.held
      ∧ (s.sr.ra = false ∨ (∀ x, s.div = some x → dutyKept x u) → u.div = s.div)
      ∧ ∀ x, s.sr.ra = true → s.div = some x → ¬dutyKept x u → u.div = some { x with intact := false }

/-! ## Moves -/

/-- R161, R142, R27: `MOV{.b} Ws, Wd` with ordinary operands; and the addresses and steps of the indirect forms, of every
instruction, as arithmetic on the pointer: `k` is 2 in word mode, 1 in byte mode, 4 for `MOV.D`. Where the destination register is also the
modified source pointer, the pointer is modified first (DESIGN CHOICE, log 13). -/
def Obligations.MovResult : Prop :=
  (∀ (w : Reg) (b : Size) (h : Mode) (d : Reg) (g : Mode) (r : Reg) (s : State),
    srcOk g b r w s → dstOk h b d w (srcNext g b r s) →
    Runs (.movWsWd w b h d g r) s (fun x => srcRegs g r x ∨ dstRegs h d x) (dstBytes h b d w (srcNext g b r s)) s.sr
      ((dstNext h b d w (srcValue g b r w s) (srcNext g b r s)).advance 1))
  ∧ (stepOf .word = 2#16 ∧ stepOf .byte = 1#16)
  ∧ ∀ (n w : Reg) (k : Word) (s : State),
    let held : Word → Word := fun v => if n = 15 then BitVec.ofNat 16 (v.toNat / 2 * 2) else v
    (∀ m, m = .ind ∨ m = .postInc ∨ m = .postDec → effAddr m n w k s = s.getW n)
    ∧ effAddr .preInc n w k s = held (s.getW n + k) ∧ effAddr .preDec n w k s = held (s.getW n - k)
    ∧ effAddr .offset n w k s = s.getW n + s.getW w
    ∧ (∀ m, m = .postInc ∨ m = .preInc → (modifyPtr m n k s).getW n = held (s.getW n + k))
    ∧ (∀ m, m = .postDec ∨ m = .preDec → (modifyPtr m n k s).getW n = held (s.getW n - k))
    ∧ (∀ m, m = .direct ∨ m = .ind ∨ m = .offset → modifyPtr m n k s = s)
    ∧ ∀ m, Frame (srcRegs m n) noBytes s (modifyPtr m n k s) ∧ (modifyPtr m n k s).sr = s.sr

/-- R171, R172, R176, R29: `PUSH Wn` and `POP Wn` are `MOV` forms through W15, with linear addressing (R109). A push above SPLIM, a
push below 0x1000 onto a register mapped there, and a pop above SPLIM or whose address wraps below 0 are made, and request
StackError (D10, log 12). So are a load and a store with W15 as the offset register above SPLIM or with a carry, which are not
paged (R103, R424: formed from W15; that the offset register counts is DEDUCED for the checks, log 12, and a DESIGN CHOICE for
paging, log 10). -/
def Obligations.PushPop : Prop :=
  ∀ (n w : Reg) (s : State), s.modcon.getLsbD 15 = false → s.modcon.getLsbD 14 = false →
    bitReversedApplies s .postInc .word 15 = false →
    (pushOk s → Runs (.movWsWd w .word .postInc 15 .direct n) s (fun x => x = 15) (bytesAt .word s.w15) s.sr
      (((s.setMem (s.mem.writeWord s.w15.toNat (s.getW n))).setW15 (s.w15 + 2#16)).advance 1))
    ∧ (popOk s → Runs (.movWsWd w .word .direct n .preDec 15) s (fun x => x = 15 ∨ x = n) noBytes s.sr
      (((s.setW15 (s.w15 - 2#16)).setW n (top1 s)).advance 1))
    ∧ (ramAt s .word s.w15 → s.splimEn = true → s.splim < s.w15 →
      exec (.movWsWd w .word .postInc 15 .direct n) s = .next
        ((({ s with pend := { s.pend with stack := true } }.setMem (s.mem.writeWord s.w15.toNat (s.getW n))).setW15
          (s.w15 + 2#16)).advance 1))
    ∧ (∀ k : Reg, k.val < 15 → s.w15.toNat = 2 * k.val →
      exec (.movWsWd w .word .postInc 15 .direct n) s = .next
        ((({ s with pend := { s.pend with stack := true } }.setW k (s.getW n)).setW15 (s.w15 + 2#16)).advance 1))
    ∧ (ramAt s .word (s.w15 - 2#16) → s.trk.splimPrev = false → s.splimEn = true →
      s.splim < s.w15 - 2#16 ∨ s.w15.toNat < 2 →
      exec (.movWsWd w .word .direct n .preDec 15) s = .next
        ((({ s with pend := { s.pend with stack := true } }.setW15 (s.w15 - 2#16)).setW n (top1 s)).advance 1))
    ∧ (∀ (z : Size) (r : Reg), r.val < 15 → s.isInit r = true → ramAt s z (s.getW r + s.w15) → s.splimEn = true →
      s.splim < s.getW r + s.w15 ∨ 65536 ≤ (s.getW r).toNat + s.w15.toNat →
      exec (.movWsWd 15 z .direct n .offset r) s = .next
        (({ s with pend := { s.pend with stack := true } }.regWrite z n (memValue z (s.getW r + s.w15) s)).advance 1)
      ∧ exec (.movWsWd 15 z .offset r .direct n) s = .next
        ((memStore z (s.getW r + s.w15) (s.regRead z n) { s with pend := { s.pend with stack := true } }).advance 1))

/-- R162, R163: the moves between a register and a file register in ordinary memory. R96, R97: the bytes a word stands in, the low
byte at the lower address, and the one byte of a byte access, wherever a statement speaks of a value in memory. -/
def Obligations.MovFile : Prop :=
  ∀ (s : State),
    (∀ (a k : Nat) (v : Word),
      (s.mem.readWord a).toNat = (s.mem.read a).toNat + 256 * (s.mem.read (a + 1)).toNat
      ∧ ((s.mem.writeWord a v).read k).toNat =
        if k = a then v.toNat % 256 else if k = a + 1 then v.toNat / 256 else (s.mem.read k).toNat)
    ∧ (∀ (ea v : Word) (k : Nat),
      (memValue .word ea s).toNat = (s.mem.read ea.toNat).toNat + 256 * (s.mem.read (ea.toNat + 1)).toNat
      ∧ (memValue .byte ea s).toNat = (s.mem.read ea.toNat).toNat
      ∧ ((memStore .word ea v s).mem.read k).toNat =
        (if k = ea.toNat then v.toNat % 256 else if k = ea.toNat + 1 then v.toNat / 256 else (s.mem.read k).toNat)
      ∧ ((memStore .byte ea v s).mem.read k).toNat = (if k = ea.toNat then v.toNat % 256 else (s.mem.read k).toNat)
      ∧ ∀ b, memStore b ea v s = { s with mem := (memStore b ea v s).mem })
    ∧ (∀ (f : BitVec 15) (d : Reg), fileOk .word (wordFileAddr f) s →
      Runs (.movFWnd f d) s (fun x => x = d) noBytes s.sr ((s.setW d (memValue .word (wordFileAddr f) s)).advance 1))
    ∧ (∀ (f : BitVec 15) (r : Reg), fileOk .word (wordFileAddr f) s →
      Runs (.movWnsF f r) s noRegs (bytesAt .word (wordFileAddr f)) s.sr
        ((memStore .word (wordFileAddr f) (s.getW r) s).advance 1))
    ∧ (∀ (b : Size) (f : BitVec 13), fileOk b (fileAddr f) s →
      Runs (.movWregF b f) s noRegs (bytesAt b (fileAddr f)) s.sr
        ((memStore b (fileAddr f) (s.regRead b 0) s).advance 1))
    ∧ (∀ (b : Size) (t : FDest) (f : BitVec 13), fileOk b (fileAddr f) s →
      let v := memValue b (fileAddr f) s
      let fl : Status := { s.sr with
        n := if b = .word then v.msb else v.getLsbD 7
        z := decide (v = 0#16) }
      Runs (.movF b t f) s (fileRegs t) (fileBytes b t (fileAddr f)) fl
        ((fileDestNext b t (fileAddr f) v (s.setSr fl)).advance 1))

/-- R164, R29: the literal moves; the word form initialises the register, the byte form leaves the mark and the high byte. -/
def Obligations.MovLiteral : Prop :=
  ∀ (s : State) (d : Reg) (k : Word) (b : Byte),
    Runs (.movLit16 k d) s (fun x => x = d) noBytes s.sr ((s.setW d k).advance 1)
    ∧ (s.setW d k).isInit d = true
    ∧ Runs (.movbLit8 b d) s (fun x => x = d) noBytes s.sr ((s.setWLow d b).advance 1)
    ∧ (∀ x, (s.setWLow d b).isInit x = s.isInit x)
    ∧ (d ≠ 15 → ((s.setWLow d b).getW d).toNat = (s.getW d).toNat / 256 * 256 + b.toNat)

/-- R165: `MOV.D` in both directions, with ordinary memory. That a load steps its pointer before it writes the pair, which shows
only where the pointer is in the pair, is the model's DESIGN CHOICE (log 36): R165 and R142 give no order. -/
def Obligations.MovDouble : Prop :=
  ∀ s : State,
    (∀ (d : Fin 8) (p : Mode6) (r : Reg), pairOk p r s →
      Runs (.movDLoad d p r) s (fun x => x = pairReg d ∨ x = nextReg (pairReg d) ∨ srcRegs p.toMode r x) noBytes s.sr
        ((((modifyPtr p.toMode r 4#16 s).setW (pairReg d) (pairValue p r s).1).setW (nextReg (pairReg d))
          (pairValue p r s).2).advance 1))
    ∧ (∀ (q : Mode6) (d : Reg) (r : Fin 8), pairOk q d s →
      Runs (.movDStore q d r) s (fun x => dstRegs q.toMode d x ∨ (q = .direct ∧ x = nextReg d))
        (fun a => q ≠ .direct ∧ (bytesAt .word (effAddr q.toMode d d 4#16 s) a
          ∨ bytesAt .word (effAddr q.toMode d d 4#16 s + 2#16) a)) s.sr
        ((pairNext q d (s.getW (pairReg r)) (s.getW (nextReg (pairReg r))) s).advance 1))

/-- R24, R32, R34, R35, R45, R54 to R69, R71, R96, R427: every special register at its data address, whichever the device gives it
(R74): `MOV f, Wnd` and `MOV Wns, f` of a word, `MOV.b f, WREG` and `MOV.b WREG, f` of a byte. Bits whose read is open are free,
fixed-zero and read-only bits do not change, and PCL, PCH and DISICNT refuse a write. -/
def Obligations.RegistersMapped : Prop :=
  ∀ (x : Sfr) (s : State),
    (∀ (f : BitVec 15) (r : Reg), placeOf s.dev (wordFileAddr f).toNat = .sfr x →
      (openBits x s = 0#16 → Runs (.movFWnd f r) s (fun n => n = r) noBytes s.sr ((s.setW r (sfrWord x s)).advance 1))
      ∧ (openBits x s ≠ 0#16 → ∃ v : Word, v &&& ~~~openBits x s = sfrWord x s &&& ~~~openBits x s
        ∧ exec (.movFWnd f r) s = .next ((s.drawn.setW r v).advance 1))
      ∧ (∀ t, sfrStored x (s.getW r) s = some t → exec (.movWnsF f r) s = .next (t.advance 1))
      ∧ (x = .pcl ∨ x = .pch → exec (.movWnsF f r) s = .refused .pcWrite)
      ∧ (x = .disicnt → exec (.movWnsF f r) s = .refused .disicntWrite))
    ∧ ∀ f : BitVec 13, placeOf s.dev (fileAddr f).toNat = .sfr x →
      (openBits x s = 0#16 →
        let b := if f.getLsbD 0 then (sfrWord x s).toNat / 256 else (sfrWord x s).toNat % 256
        let fl : Status := { s.sr with n := decide (128 ≤ b), z := decide (b = 0) }
        Runs (.movF .byte .wreg f) s (fun n => n = 0) noBytes fl (((s.setSr fl).setWLow 0 (BitVec.ofNat 8 b)).advance 1))
      ∧ ∀ t, sfrStoredByte x (f.getLsbD 0) ((s.getW 0).toNat % 256) s = some t →
        exec (.movWregF .byte f) s = .next (t.advance 1)

/-- R25 (conflict C12): a word stored through a post- or pre-modified pointer onto the pointer's own address dominates, and
the step is then applied to it; W1 stored through [W2++] with W2 = 0x0004 ends as W2 = W1 + 2. -/
def Obligations.StoreOntoPointer : Prop :=
  ∀ (w n r : Reg) (s : State), n.val < 15 → r ≠ n → s.isInit n = true → s.modcon.getLsbD 15 = false →
    s.modcon.getLsbD 14 = false → bitReversedApplies s .postInc .word n = false →
    s.getW n = BitVec.ofNat 16 (2 * n.val) →
    Runs (.movWsWd w .word .postInc n .direct r) s (fun x => x = n) noBytes s.sr
      ((s.setW n (s.getW r + 2#16)).advance 1)

/-- R98, R423: a word move from or to an odd address raises AddressError and goes on: the value read is open, nothing is
stored, the pc advances. -/
def Obligations.MisalignedMove : Prop :=
  ∀ (w d r : Reg) (s : State), r ≠ 15 → s.isInit r = true → s.modcon.getLsbD 15 = false → s.modcon.getLsbD 14 = false →
    (s.getW r).getLsbD 0 = true →
    exec (.movWsWd w .word .direct d .ind r) s = .next
        (({ s.drawn with pend := { s.pend with address := true } }.setW d s.freeWord).advance 1)
      ∧ exec (.movWsWd w .word .ind r .direct d) s = .next ({ s with pend := { s.pend with address := true } }.advance 1)

/-- R29, R422: a move through an uninitialised pointer resets the device, as source or as destination. -/
def Obligations.UninitialisedPointerResets : Prop :=
  ∀ (w : Reg) (b : Size) (m : Mode) (d r : Reg) (s : State), m ≠ .direct → s.isInit r = false →
    exec (.movWsWd w b .direct d m r) s = .next s.deviceReset
      ∧ exec (.movWsWd w b m r .direct d) s = .next s.deviceReset

/-- R102 to R107: moves through a pointer with bit 15 set, of a word at an even address or of a byte at any. With DSRPAG in the PSV
range a read gives the low word, or the upper byte, of the program word `{DSRPAG[7:0], EA[14:1]}`, a byte read one byte of that;
with page registers 1 to 0x1FF values are read and stored at `{page, EA[14:0]}`, where the integrator supplies memory; with page 0
AddressError is requested (D3), the value read is open and nothing is stored. -/
def Obligations.MovPaged : Prop :=
  ∀ (w d r : Reg) (s : State), r.val < 14 → s.isInit r = true → s.modcon.getLsbD 15 = false →
    s.modcon.getLsbD 14 = false → (s.getW r).msb = true →
    let trapped : State → State := fun t => { t with pend := { t.pend with address := true } }
    let view : Nat → Nat := fun k => if s.dsrpag.toNat < 0x300 then (s.prog.read k).toNat % 65536 else (s.prog.read k).toNat / 65536
    ((s.getW r).getLsbD 0 = false →
      (∀ k, k = s.dsrpag.toNat % 256 * 16384 + (s.getW r).toNat % 32768 / 2 → 0x200 ≤ s.dsrpag.toNat →
        k < s.dev.progWords →
        exec (.movWsWd w .word .direct d .ind r) s = .next
          (((s.setTrk { s.trk with psvRd := true }).setW d (BitVec.ofNat 16 (view k))).advance 1))
      ∧ (∀ a, a = s.dsrpag.toNat * 32768 + (s.getW r).toNat % 32768 → 1 ≤ s.dsrpag.toNat → s.dsrpag.toNat ≤ 0x1FF →
        placeOf s.dev a = .ram → placeOf s.dev (a + 1) = .ram →
        Runs (.movWsWd w .word .direct d .ind r) s (fun x => x = d) noBytes s.sr
          ((s.setW d (s.mem.readWord a)).advance 1))
      ∧ (∀ a, a = s.dswpag.toNat * 32768 + (s.getW r).toNat % 32768 → 1 ≤ s.dswpag.toNat →
        placeOf s.dev a = .ram → placeOf s.dev (a + 1) = .ram →
        Runs (.movWsWd w .word .ind r .direct d) s noRegs (fun k => k = a ∨ k = a + 1) s.sr
          ((s.setMem (s.mem.writeWord a (s.getW d))).advance 1))
      ∧ (s.dsrpag = 0#10 →
        exec (.movWsWd w .word .direct d .ind r) s = .next (((trapped s.drawn).setW d s.freeWord).advance 1)))
    ∧ (∀ k, k = s.dsrpag.toNat % 256 * 16384 + (s.getW r).toNat % 32768 / 2 → 0x200 ≤ s.dsrpag.toNat →
      k < s.dev.progWords →
      exec (.movWsWd w .byte .direct d .ind r) s = .next (((s.setTrk { s.trk with psvRd := true }).setWLow d
        (BitVec.ofNat 8 (if (s.getW r).getLsbD 0 then view k / 256 else view k))).advance 1))
    ∧ (∀ a, a = s.dsrpag.toNat * 32768 + (s.getW r).toNat % 32768 → 1 ≤ s.dsrpag.toNat → s.dsrpag.toNat ≤ 0x1FF →
      placeOf s.dev a = .ram →
      Runs (.movWsWd w .byte .direct d .ind r) s (fun x => x = d) noBytes s.sr ((s.setWLow d (s.mem.read a)).advance 1))
    ∧ (∀ a, a = s.dswpag.toNat * 32768 + (s.getW r).toNat % 32768 → 1 ≤ s.dswpag.toNat → placeOf s.dev a = .ram →
      Runs (.movWsWd w .byte .ind r .direct d) s noRegs (fun k => k = a) s.sr
        ((s.setMem (s.mem.write a (BitVec.ofNat 8 (s.getW d).toNat))).advance 1))
    ∧ (s.dsrpag = 0#10 →
      exec (.movWsWd w .byte .direct d .ind r) s = .next
        (((trapped s.drawn).setWLow d (BitVec.ofNat 8 s.freeWord.toNat)).advance 1))
    ∧ (s.dswpag = 0#9 → ∀ b, exec (.movWsWd w b .ind r .direct d) s = .next ((trapped s).advance 1))

/-- R44 (D9): a word written to SR: IPL only while NSTDIS = 0, RA and DA never, the accumulator bits unless the write
contradicts itself; and a byte written to SRL, or to SRH, changes the other half's bits not at all. -/
def Obligations.WriteSr : Prop :=
  ∀ (s : State),
    (∀ (f : BitVec 15) (r : Reg), placeOf s.dev (wordFileAddr f).toNat = .sfr .sr →
      ∃ t, exec (.movWnsF f r) s = .next t
      ∧ t = { s with sr := t.sr, pc := s.pc + 2#23, fresh := t.fresh }
      ∧ t.sr.ra = s.sr.ra ∧ t.sr.dc = (s.getW r).getLsbD 8 ∧ t.sr.n = (s.getW r).getLsbD 3
      ∧ t.sr.ov = (s.getW r).getLsbD 2 ∧ t.sr.z = (s.getW r).getLsbD 1 ∧ t.sr.c = (s.getW r).getLsbD 0
      ∧ (s.intc.nstdis = true → t.sr.ipl = s.sr.ipl)
      ∧ (s.intc.nstdis = false → t.sr.ipl.toNat = (s.getW r).toNat / 32 % 8)
      ∧ ((s.getW r).getLsbD 10 = true ∨ ((s.getW r).getLsbD 13 = false ∧ (s.getW r).getLsbD 12 = false) →
          t.sr.sa = (s.getW r).getLsbD 13 ∧ t.sr.sb = (s.getW r).getLsbD 12)
      ∧ ((s.getW r).getLsbD 11 = true ∨ ((s.getW r).getLsbD 15 = false ∧ (s.getW r).getLsbD 14 = false) →
          t.sr.oa = (s.getW r).getLsbD 15 ∧ t.sr.ob = (s.getW r).getLsbD 14))
    ∧ ∀ f : BitVec 13, placeOf s.dev (fileAddr f).toNat = .sfr .sr →
      let b := s.getW 0
      if f.getLsbD 0 then
        ∃ t, exec (.movWregF .byte f) s = .next t
          ∧ t = { s with
              sr := { s.sr with oa := t.sr.oa, ob := t.sr.ob, sa := t.sr.sa, sb := t.sr.sb, dc := b.getLsbD 0 }
              pc := s.pc + 2#23, fresh := t.fresh }
          ∧ (b.getLsbD 2 = true ∨ (b.getLsbD 5 = false ∧ b.getLsbD 4 = false) →
              t.sr.sa = b.getLsbD 5 ∧ t.sr.sb = b.getLsbD 4)
          ∧ (b.getLsbD 3 = true ∨ (b.getLsbD 7 = false ∧ b.getLsbD 6 = false) →
              t.sr.oa = b.getLsbD 7 ∧ t.sr.ob = b.getLsbD 6)
      else
        exec (.movWregF .byte f) s = .next { s with
          sr := { s.sr with
            ipl := if s.intc.nstdis then s.sr.ipl else BitVec.ofNat 3 (b.toNat / 32)
            n := b.getLsbD 3, ov := b.getLsbD 2, z := b.getLsbD 1, c := b.getLsbD 0 }
          pc := s.pc + 2#23 }

/-- R53, R47, R380: a word written to CORCON: DL and SFA never, IPL3 only cleared, EDT into one of two latches, which one by the
place of the writing instruction (the latches and the DL = 0 case are the spec's decision D14, the model's DESIGN CHOICE of
log 45); and a byte written to one half leaves the other. -/
def Obligations.WriteCorcon : Prop :=
  ∀ (s : State),
    (∀ (f : BitVec 15) (r : Reg), placeOf s.dev (wordFileAddr f).toNat = .sfr .corcon →
      ∃ t, exec (.movWnsF f r) s = .next t
      ∧ t = { s with cor := t.cor, pc := s.pc + 2#23, edtPending := t.edtPending, edtLate := t.edtLate }
      ∧ t.cor.dl = s.cor.dl ∧ t.cor.sfa = s.cor.sfa ∧ t.cor.ipl3 = (s.cor.ipl3 && (s.getW r).getLsbD 3)
      ∧ t.cor.us.toNat = (s.getW r).toNat / 4096 % 4 ∧ t.cor.sata = (s.getW r).getLsbD 7
      ∧ t.cor.satb = (s.getW r).getLsbD 6 ∧ t.cor.satdw = (s.getW r).getLsbD 5 ∧ t.cor.accsat = (s.getW r).getLsbD 4
      ∧ t.cor.rnd = (s.getW r).getLsbD 1 ∧ t.cor.ifm = (s.getW r).getLsbD 0
      ∧ ((s.getW r).getLsbD 11 = false ∨ s.cor.dl = 0#3 → t.edtPending = s.edtPending ∧ t.edtLate = s.edtLate)
      ∧ ((s.getW r).getLsbD 11 = true → s.cor.dl ≠ 0#3 →
          if s.pc = addrOf s.doend ∨ s.pc = addrOf s.doend - 2#23 then t.edtLate = true ∧ t.edtPending = s.edtPending
          else t.edtPending = true ∧ t.edtLate = s.edtLate))
    ∧ ∀ f : BitVec 13, placeOf s.dev (fileAddr f).toNat = .sfr .corcon →
      let b := s.getW 0
      if f.getLsbD 0 then
        ∃ t, exec (.movWregF .byte f) s = .next t
          ∧ t = { s with
              cor := { s.cor with us := BitVec.ofNat 2 (b.toNat / 16) }
              pc := s.pc + 2#23, edtPending := t.edtPending, edtLate := t.edtLate }
          ∧ (b.getLsbD 3 = false ∨ s.cor.dl = 0#3 → t.edtPending = s.edtPending ∧ t.edtLate = s.edtLate)
          ∧ (b.getLsbD 3 = true → s.cor.dl ≠ 0#3 →
              if s.pc = addrOf s.doend ∨ s.pc = addrOf s.doend - 2#23 then t.edtLate = true ∧ t.edtPending = s.edtPending
              else t.edtPending = true ∧ t.edtLate = s.edtLate)
      else
        exec (.movWregF .byte f) s = .next { s with
          cor := { s.cor with
            sata := b.getLsbD 7, satb := b.getLsbD 6, satdw := b.getLsbD 5, accsat := b.getLsbD 4
            ipl3 := s.cor.ipl3 && b.getLsbD 3, rnd := b.getLsbD 1, ifm := b.getLsbD 0 }
          pc := s.pc + 2#23 }

/-- R38, R39, R45, R47: what is derived when SR and CORCON are read: OAB, SAB, DA, and EDT as 0; a data write to SR does not
change DA. -/
def Obligations.DerivedBits : Prop :=
  ∀ s : State, s.srWord.getLsbD 11 = (s.sr.oa || s.sr.ob) ∧ s.srWord.getLsbD 10 = (s.sr.sa || s.sr.sb)
    ∧ s.srWord.getLsbD 9 = (s.corconWord.getLsbD 10 || s.corconWord.getLsbD 9 || s.corconWord.getLsbD 8)
    ∧ s.srWord.getLsbD 9 = decide (s.cor.dl ≠ 0#3) ∧ s.corconWord.getLsbD 11 = false
    ∧ s.srWord.toNat % 32 / 16 = s.sr.ra.toNat ∧ s.corconWord.toNat / 256 % 8 = s.cor.dl.toNat
    ∧ ∀ (f : BitVec 15) (r : Reg), placeOf s.dev (wordFileAddr f).toNat = .sfr .sr →
        ∃ t, exec (.movWnsF f r) s = .next t ∧ t.srWord.getLsbD 9 = s.srWord.getLsbD 9

/-- R30, R183, R184, R29: `PUSH.S` copies, `POP.S` restores; the shadows keep their contents, the four registers become
initialised. -/
def Obligations.Shadows : Prop :=
  ∀ s : State,
    exec .pushS s = .next { s with
      pc := s.pc + 2#23
      shadow := ⟨s.getW 0, s.getW 1, s.getW 2, s.getW 3, s.sr.dc, s.sr.n, s.sr.ov, s.sr.z, s.sr.c⟩ }
    ∧ ∃ t, Runs .popS s (fun x => x.val < 4) noBytes
        { s.sr with dc := s.shadow.dc, n := s.shadow.n, ov := s.shadow.ov, z := s.shadow.z, c := s.shadow.c } t
      ∧ t.getW 0 = s.shadow.w0 ∧ t.getW 1 = s.shadow.w1 ∧ t.getW 2 = s.shadow.w2 ∧ t.getW 3 = s.shadow.w3
      ∧ t.isInit 0 = true ∧ t.isInit 1 = true ∧ t.isInit 2 = true ∧ t.isInit 3 = true ∧ t.pc = s.pc + 2#23

/-- R180, R181: `LNK` with room on the stack, `ULNK` with a frame in ordinary memory; with SFA already set, or clear, they
also request StackError (D10). -/
def Obligations.StackFrames : Prop :=
  ∀ (k : BitVec 13) (s : State),
    (pushOk s →
      exec (.lnk k) s = .next ({ ((s.setMem (s.mem.writeWord s.w15.toNat (s.getW 14))).setW 14 (s.w15 + 2#16)) with
        w15 := s.w15 + 2#16 + BitVec.ofNat 16 (2 * k.toNat)
        cor := { s.cor with sfa := true }
        pend := { s.pend with stack := s.pend.stack || s.cor.sfa }
        pc := s.pc + 2#23 })
      ∧ memKept (bytesAt .word s.w15) s (s.setMem (s.mem.writeWord s.w15.toNat (s.getW 14))))
    ∧ (popOk (s.setW15 (clearBit0 (s.getW 14))) →
      exec .ulnk s = .next { s.setW 14 (top1 (s.setW15 (clearBit0 (s.getW 14)))) with
        w15 := clearBit0 (s.getW 14) - 2#16
        cor := { s.cor with sfa := false }
        pend := { s.pend with stack := s.pend.stack || !s.cor.sfa }
        pc := s.pc + 2#23 })

/-- R108, R188, R424, R496: table reads of user program space through a usable pointer into an ordinary destination; through W15 not
right after a write of SPLIM. An effective address formed from W15 meets the stack checks; a read that trips one is made, and
requests StackError (R176, R424; that a table read's address counts is DEDUCED, log 32). Where the destination register is also the
modified source pointer, the pointer is modified first (DESIGN CHOICE, log 13). -/
def Obligations.TableRead : Prop :=
  ∀ (b : Size) (q : Mode6) (d : Reg) (p : Mode6) (r : Reg) (s : State), p ≠ .direct → s.isInit r = true →
    s.modcon.getLsbD 15 = false → s.modcon.getLsbD 14 = false → bitReversedApplies s p.toMode b r = false →
    (r = 15 → s.trk.splimPrev = false) →
    let ea := effAddr p.toMode r r (stepOf b) s
    let k := s.tblpag.toNat * 32768 + ea.toNat / 2
    let trips : Prop := r = 15 ∧ (ea < 0x1000#16
      ∨ s.splimEn = true ∧ (s.splim < ea ∨ effWraps p.toMode r r (stepOf b) s = true))
    let s0 := { s with
      trk := { s.trk with psvRd := true }, pend := { s.pend with stack := s.pend.stack || decide trips } }
    let s1 := modifyPtr p.toMode r (stepOf b) s0
    s.tblpag.toNat < 128 → k < s.dev.progWords → dstOk q.toMode b d d s1 →
    let pw := (s.prog.read k).toNat
    let low := if b = .word then pw % 65536 else if ea.getLsbD 0 then pw / 256 % 256 else pw % 256
    let high := if b = .word then pw / 65536 else if ea.getLsbD 0 then 0 else pw / 65536
    exec (.tblrdl b q d p r) s = .next ((dstNext q.toMode b d d (BitVec.ofNat 16 low) s1).advance 1)
    ∧ exec (.tblrdh b q d p r) s = .next ((dstNext q.toMode b d d (BitVec.ofNat 16 high) s1).advance 1)
    ∧ ∀ v, Frame (fun x => srcRegs p.toMode r x ∨ dstRegs q.toMode d x) (dstBytes q.toMode b d d s1)
        s0 ((dstNext q.toMode b d d v s1).advance 1)

/-! ## The MCU ALU -/

/-- R201, R202, R203, R40, R43: the sum and the five flags of an addition, as arithmetic, of 16 bits and, in byte mode, of the
low bytes. -/
def Obligations.AddFlags : Prop :=
  ∀ a b : Word,
    ((aluAdd .word a b).val = a + b ∧ (aluAdd .word a b).n = (a + b).msb
      ∧ ((aluAdd .word a b).z = true ↔ (a.toNat + b.toNat) % 65536 = 0)
      ∧ ((aluAdd .word a b).c = true ↔ 65536 ≤ a.toNat + b.toNat)
      ∧ ((aluAdd .word a b).dc = true ↔ 256 ≤ a.toNat % 256 + b.toNat % 256)
      ∧ ((aluAdd .word a b).ov = true ↔ a.toInt + b.toInt < -32768 ∨ 32767 < a.toInt + b.toInt))
    ∧ ((aluAdd .byte a b).val.toNat = (a.toNat + b.toNat) % 256
      ∧ ((aluAdd .byte a b).n = true ↔ 128 ≤ (a.toNat + b.toNat) % 256)
      ∧ ((aluAdd .byte a b).z = true ↔ (a.toNat + b.toNat) % 256 = 0)
      ∧ ((aluAdd .byte a b).c = true ↔ 256 ≤ a.toNat % 256 + b.toNat % 256)
      ∧ ((aluAdd .byte a b).dc = true ↔ 16 ≤ a.toNat % 16 + b.toNat % 16)
      ∧ ((aluAdd .byte a b).ov = true ↔
          (loByte a).toInt + (loByte b).toInt < -128 ∨ 127 < (loByte a).toInt + (loByte b).toInt))

/-- R203, R204: `ADD Wb, Ws, Wd` in its three rows, with ordinary operands. Where the destination register is also the modified
source pointer, the pointer is modified first (DESIGN CHOICE, log 13). -/
def Obligations.AddResult : Prop :=
  ∀ (w : Reg) (b : Size) (q : Mode6) (d r : Reg) (s : State),
    (∀ p : PostMode, srcOk p.toMode b r r s → dstOk q.toMode b d d (srcNext p.toMode b r s) →
      let o := aluAdd b (s.regRead b w) (srcValue p.toMode b r r s)
      let fl : Status := { s.sr with n := o.n, z := o.z, c := o.c, dc := o.dc, ov := o.ov }
      Runs (.addWbWsWd w b q d p r) s (fun x => srcRegs p.toMode r x ∨ dstRegs q.toMode d x)
        (dstBytes q.toMode b d d (srcNext p.toMode b r s)) fl
        ((dstNext q.toMode b d d o.val ((srcNext p.toMode b r s).setSr fl)).advance 1))
    ∧ (∀ p : PreMode, srcOk p.toMode b r r s → dstOk q.toMode b d d (srcNext p.toMode b r s) →
      let o := aluAdd b (s.regRead b w) (srcValue p.toMode b r r s)
      let fl : Status := { s.sr with n := o.n, z := o.z, c := o.c, dc := o.dc, ov := o.ov }
      Runs (.addWbWsWdPre w b q d p r) s (fun x => srcRegs p.toMode r x ∨ dstRegs q.toMode d x)
        (dstBytes q.toMode b d d (srcNext p.toMode b r s)) fl
        ((dstNext q.toMode b d d o.val ((srcNext p.toMode b r s).setSr fl)).advance 1))
    ∧ (∀ k : BitVec 5, dstOk q.toMode b d d s →
      let o := aluAdd b (s.regRead b w) (k.setWidth 16)
      let fl : Status := { s.sr with n := o.n, z := o.z, c := o.c, dc := o.dc, ov := o.ov }
      Runs (.addWbLit5 w b q d k) s (dstRegs q.toMode d) (dstBytes q.toMode b d d s) fl
        ((dstNext q.toMode b d d o.val (s.setSr fl)).advance 1))

/-- R205, R206: `ADD #lit10, Wn` and `ADD f {,WREG}`. -/
def Obligations.AddLiteralAndFile : Prop :=
  ∀ (b : Size) (s : State),
    (∀ (k : BitVec 10) (d : Reg),
      let o := aluAdd b (s.regRead b d) (k.setWidth 16)
      let fl : Status := { s.sr with n := o.n, z := o.z, c := o.c, dc := o.dc, ov := o.ov }
      Runs (.addLit10 b k d) s (fun x => x = d) noBytes fl (((s.setSr fl).regWrite b d o.val).advance 1))
    ∧ (∀ (t : FDest) (f : BitVec 13), fileOk b (fileAddr f) s →
      let o := aluAdd b (memValue b (fileAddr f) s) (s.regRead b 0)
      let fl : Status := { s.sr with n := o.n, z := o.z, c := o.c, dc := o.dc, ov := o.ov }
      Runs (.addF b t f) s (fileRegs t) (fileBytes b t (fileAddr f)) fl
        ((fileDestNext b t (fileAddr f) o.val (s.setSr fl)).advance 1))

/-- R210, R211: `SE` and `ZE` with an ordinary source read as a byte. Where the destination register is also the
modified source pointer, the pointer is modified first (DESIGN CHOICE, log 13). -/
def Obligations.ExtendResult : Prop :=
  ∀ (d : Reg) (p : Mode6) (r : Reg) (s : State), srcOk p.toMode .byte r r s →
    let v := (srcValue p.toMode .byte r r s).toNat
    v < 256
    ∧ Runs (.se d p r) s (fun x => x = d ∨ srcRegs p.toMode r x) noBytes
        { s.sr with n := decide (128 ≤ v), z := decide (v = 0), c := decide (v < 128) }
        ((((srcNext p.toMode .byte r s).setSr
          { s.sr with n := decide (128 ≤ v), z := decide (v = 0), c := decide (v < 128) }).setW d
            (BitVec.ofNat 16 (if v < 128 then v else 65280 + v))).advance 1)
    ∧ Runs (.ze d p r) s (fun x => x = d ∨ srcRegs p.toMode r x) noBytes
        { s.sr with n := false, z := decide (v = 0), c := true }
        ((((srcNext p.toMode .byte r s).setSr { s.sr with n := false, z := decide (v = 0), c := true }).setW d
          (BitVec.ofNat 16 v)).advance 1)

/-- R215, R216, R217: the one-bit shifts as arithmetic, in word and byte mode, with C the bit shifted out, N the top bit of the
result and Z its being 0. -/
def Obligations.OneBitShiftFlags : Prop :=
  ∀ x : Word,
    ((aluSl .word x).val.toNat = 2 * x.toNat % 65536 ∧ (aluSl .word x).c = x.msb ∧ (aluSl .word x).n = x.getLsbD 14)
    ∧ ((aluLsr .word x).val.toNat = x.toNat / 2 ∧ (aluLsr .word x).c = x.getLsbD 0 ∧ (aluLsr .word x).n = false)
    ∧ ((aluAsr .word x).val.toInt = x.toInt / 2 ∧ (aluAsr .word x).c = x.getLsbD 0 ∧ (aluAsr .word x).n = x.msb)
    ∧ ((aluSl .byte x).val.toNat = 2 * x.toNat % 256 ∧ (aluSl .byte x).c = x.getLsbD 7 ∧ (aluSl .byte x).n = x.getLsbD 6)
    ∧ ((aluLsr .byte x).val.toNat = x.toNat % 256 / 2 ∧ (aluLsr .byte x).c = x.getLsbD 0 ∧ (aluLsr .byte x).n = false)
    ∧ ((aluAsr .byte x).val.toNat = x.toNat % 256 / 2 + x.toNat / 128 % 2 * 128 ∧ (aluAsr .byte x).c = x.getLsbD 0
      ∧ (aluAsr .byte x).n = x.getLsbD 7)
    ∧ ∀ z, ((aluSl z x).z = true ↔ (aluSl z x).val = 0#16) ∧ ((aluLsr z x).z = true ↔ (aluLsr z x).val = 0#16)
        ∧ ((aluAsr z x).z = true ↔ (aluAsr z x).val = 0#16)

/-- R215, R216, R217: the one-bit shifts of a `Ws` operand and of a file register, with ordinary operands. Where the
destination register is also the modified source pointer, the pointer is modified first (DESIGN CHOICE, log 13). -/
def Obligations.ShiftResult : Prop :=
  ∀ (f : Size → Word → AluOut) (b : Size) (s : State),
    (∀ (i : Instr) (q : Mode6) (d : Reg) (p : Mode6) (r : Reg),
      (i = .slWsWd b q d p r ∧ f = aluSl) ∨ (i = .lsrWsWd b q d p r ∧ f = aluLsr) ∨ (i = .asrWsWd b q d p r ∧ f = aluAsr) →
      srcOk p.toMode b r r s → dstOk q.toMode b d d (srcNext p.toMode b r s) →
      let o := f b (srcValue p.toMode b r r s)
      let fl : Status := { s.sr with n := o.n, z := o.z, c := o.c }
      Runs i s (fun x => srcRegs p.toMode r x ∨ dstRegs q.toMode d x) (dstBytes q.toMode b d d (srcNext p.toMode b r s)) fl
        ((dstNext q.toMode b d d o.val ((srcNext p.toMode b r s).setSr fl)).advance 1))
    ∧ (∀ (i : Instr) (t : FDest) (a : BitVec 13),
      (i = .slF b t a ∧ f = aluSl) ∨ (i = .lsrF b t a ∧ f = aluLsr) ∨ (i = .asrF b t a ∧ f = aluAsr) →
      fileOk b (fileAddr a) s →
      let o := f b (memValue b (fileAddr a) s)
      let fl : Status := { s.sr with n := o.n, z := o.z, c := o.c }
      Runs i s (fileRegs t) (fileBytes b t (fileAddr a)) fl ((fileDestNext b t (fileAddr a) o.val (s.setSr fl)).advance 1))

/-- R214 to R217: the multi-bit shifts as arithmetic; a register count is the low five bits. -/
def Obligations.MultiBitShift : Prop :=
  ∀ (i : Instr) (w d : Reg) (n : Nat) (v : Word) (s : State),
    ((∃ r, i = .slWns w d r ∧ n = (s.getW r).toNat % 32) ∨ (∃ k, i = .slLit4 w d k ∧ n = k.toNat))
        ∧ v = BitVec.ofNat 16 ((s.getW w).toNat * 2 ^ n)
      ∨ ((∃ r, i = .lsrWns w d r ∧ n = (s.getW r).toNat % 32) ∨ (∃ k, i = .lsrLit4 w d k ∧ n = k.toNat))
        ∧ v = BitVec.ofNat 16 ((s.getW w).toNat / 2 ^ n)
      ∨ ((∃ r, i = .asrWns w d r ∧ n = (s.getW r).toNat % 32) ∨ (∃ k, i = .asrLit4 w d k ∧ n = k.toNat))
        ∧ v = BitVec.ofInt 16 ((s.getW w).toInt / 2 ^ n) →
    Runs i s (fun x => x = d) noBytes { s.sr with n := v.msb, z := decide (v = 0#16) }
      (((s.setSr { s.sr with n := v.msb, z := decide (v = 0#16) }).setW d v).advance 1)

/-- R220: `BSET` of an ordinary operand and of a byte of ordinary memory; no flag changes. -/
def Obligations.BitSet : Prop :=
  ∀ (k : BitVec 4) (s : State),
    (∀ (b : Size) (p : Mode6) (r : Reg), srcOk p.toMode b r r s →
      Runs (.bsetWs k b p r) s (dstRegs p.toMode r) (dstBytes p.toMode b r r s) s.sr
        ((dstNext p.toMode b r r (srcValue p.toMode b r r s ||| BitVec.ofNat 16 (2 ^ k.toNat)) s).advance 1))
    ∧ (∀ f : BitVec 12,
      let a := BitVec.ofNat 16 (2 * f.toNat + k.toNat / 8)
      fileOk .byte a s →
      Runs (.bsetF k f) s noRegs (bytesAt .byte a) s.sr
        ((memStore .byte a (memValue .byte a s ||| BitVec.ofNat 16 (2 ^ (k.toNat % 8))) s).advance 1))

/-- R221, R331: `BTSC` skips one program word when the tested bit is 0. -/
def Obligations.BitTestSkip : Prop :=
  ∀ (k : BitVec 4) (s : State),
    (∀ (p : Mode6) (r : Reg), srcOk p.toMode .word r r s →
      Runs (.btscWs k p r) s (srcRegs p.toMode r) noBytes s.sr
        ((srcNext p.toMode .word r s).setPc
          (if (srcValue p.toMode .word r r s).getLsbD k.toNat then s.pc + 2#23 else s.pc + 4#23)))
    ∧ (∀ f : BitVec 12,
      let a := BitVec.ofNat 16 (2 * f.toNat + k.toNat / 8)
      fileOk .byte a s →
      Runs (.btscF k f) s noRegs noBytes s.sr
        (s.setPc (if (s.mem.read a.toNat).getLsbD (k.toNat % 8) then s.pc + 2#23 else s.pc + 4#23)))

/-- R225, R226: the 16 by 16 to 32 multiplies: the exact product in the register pair, low word first, no flag. Where the destination
pair holds the modified source pointer, the pointer is modified first (DESIGN CHOICE, log 13). -/
def Obligations.MulResult : Prop :=
  ∀ (i : Instr) (x : MulSign) (w d : Reg) (m : Mode) (r : Reg) (s : State),
    (∃ p : PostMode, i = .mulUU w d p r ∧ x = .uu ∧ m = p.toMode) ∨ (∃ p : PreMode, i = .mulUUPre w d p r ∧ x = .uu ∧ m = p.toMode)
      ∨ (∃ p : Mode6, i = .mulUS w d p r ∧ x = .us ∧ m = p.toMode) ∨ (∃ p : PostMode, i = .mulSU w d p r ∧ x = .su ∧ m = p.toMode)
      ∨ (∃ p : PreMode, i = .mulSUPre w d p r ∧ x = .su ∧ m = p.toMode) ∨ (∃ p : Mode6, i = .mulSS w d p r ∧ x = .ss ∧ m = p.toMode) →
    srcOk m .word r r s →
    let v := srcValue m .word r r s
    let a : Int := if x = .su ∨ x = .ss then (s.getW w).toInt else (s.getW w).toNat
    let b : Int := if x = .us ∨ x = .ss then v.toInt else v.toNat
    let q : BitVec 32 := BitVec.ofInt 32 (a * b)
    (if x = .uu then (q.toNat : Int) = a * b else q.toInt = a * b)
    ∧ Runs i s (fun n => n = d ∨ n = nextReg d ∨ srcRegs m r n) noBytes s.sr
        ((((srcNext m .word r s).setW d (BitVec.ofNat 16 q.toNat)).setW (nextReg d)
          (BitVec.ofNat 16 (q.toNat / 65536))).advance 1)

/-- R226, R227: the multiplies by a literal and by a file register in ordinary memory. -/
def Obligations.MulLiteralAndFile : Prop :=
  ∀ s : State,
    (∀ (w d : Reg) (k : BitVec 5),
      let q := BitVec.ofNat 32 ((s.getW w).toNat * k.toNat)
      let q' := BitVec.ofInt 32 ((s.getW w).toInt * k.toNat)
      Runs (.mulUULit5 w d k) s (fun n => n = d ∨ n = nextReg d) noBytes s.sr
        (((s.setW d (BitVec.ofNat 16 q.toNat)).setW (nextReg d) (BitVec.ofNat 16 (q.toNat / 65536))).advance 1)
      ∧ Runs (.mulSULit5 w d k) s (fun n => n = d ∨ n = nextReg d) noBytes s.sr
        (((s.setW d (BitVec.ofNat 16 q'.toNat)).setW (nextReg d) (BitVec.ofNat 16 (q'.toNat / 65536))).advance 1))
    ∧ (∀ f : BitVec 13, fileOk .word (fileAddr f) s →
      let p := (s.getW 0).toNat * (memValue .word (fileAddr f) s).toNat
      Runs (.mulF .word f) s (fun n => n = 2 ∨ n = 3) noBytes s.sr
        (((s.setW 2 (BitVec.ofNat 16 p)).setW 3 (BitVec.ofNat 16 (p / 65536))).advance 1))
    ∧ (∀ f : BitVec 13, fileOk .byte (fileAddr f) s →
      Runs (.mulF .byte f) s (fun n => n = 2) noBytes s.sr
        ((s.setW 2 (BitVec.ofNat 16 ((s.getW 0).toNat % 256 * (memValue .byte (fileAddr f) s).toNat))).advance 1))

/-- R228: the four `MULW` give the same register result, the low 16 bits of the product; `MULW.UU` and `MULW.SU` also take a
literal. Where the destination register is also the modified source pointer, the pointer is modified first (DESIGN CHOICE, log 13). -/
def Obligations.MulwResult : Prop :=
  ∀ (i : Instr) (w d : Reg) (s : State),
    (∀ (p : Mode6) (r : Reg),
      i = .mulwUU w d (.ws p) r ∨ i = .mulwUS w d p r ∨ i = .mulwSU w d (.ws p) r ∨ i = .mulwSS w d p r →
      srcOk p.toMode .word r r s →
      Runs i s (fun n => n = d ∨ srcRegs p.toMode r n) noBytes s.sr
        (((srcNext p.toMode .word r s).setW d (s.getW w * srcValue p.toMode .word r r s)).advance 1))
    ∧ ∀ (k : BitVec 5) (r : Reg), i = .mulwUU w d (.lit k) r ∨ i = .mulwSU w d (.lit k) r →
      Runs i s (fun n => n = d) noBytes s.sr
        ((s.setW d (BitVec.ofNat 16 ((s.getW w).toNat * k.toNat))).advance 1)

/-! ## The DSP engine -/

/-- R253: what AccUpdate stores and the status bits it writes, for every exact result. -/
def Obligations.AccUpdateRule : Prop :=
  ∀ (x : Acc) (v : Int) (s : State),
    let sat := satOf s x
    let super := s.cor.accsat
    let t := accUpdate x v s
    let o := if x = .acca then t.sr.oa else t.sr.ob
    let st := if x = .acca then t.sr.sa else t.sr.sb
    let old := if x = .acca then s.sr.sa else s.sr.sb
    let big := v < -2 ^ 31 ∨ 2 ^ 31 - 1 < v
    let huge := v < -2 ^ 39 ∨ 2 ^ 39 - 1 < v
    (sat = true → super = true →
      (t.acc x).toInt = max (-2 ^ 39) (min v (2 ^ 39 - 1)) ∧ (o = true ↔ big) ∧ (st = true ↔ old = true ∨ huge))
    ∧ (sat = true → super = false →
      (t.acc x).toInt = max (-2 ^ 31) (min v (2 ^ 31 - 1)) ∧ o = false ∧ (st = true ↔ old = true ∨ big))
    ∧ (sat = false →
      t.acc x = BitVec.ofInt 40 v ∧ (o = true ↔ big) ∧ (st = true ↔ old = true ∨ huge))
    ∧ DspFrame x noRegs noBytes s t

/-- R257, R425: the traps of AccUpdate and the status bits that record them; no other status bit, enable or request changes. -/
def Obligations.AccTraps : Prop :=
  ∀ (x : Acc) (v : Int) (s : State),
    let t := accUpdate x v s
    let o := if x = .acca then t.sr.oa else t.sr.ob
    let ovEn := if x = .acca then s.intc.ovate else s.intc.ovbte
    let cat := satOf s x = false ∧ s.intc.covte = true ∧ (v < -2 ^ 39 ∨ 2 ^ 39 - 1 < v)
    (t.pend.math = true ↔ s.pend.math = true ∨ (o = true ∧ ovEn = true) ∨ cat)
    ∧ (t.intc.ovaerr = true ↔ s.intc.ovaerr = true ∨ (x = .acca ∧ o = true ∧ ovEn = true))
    ∧ (t.intc.ovberr = true ↔ s.intc.ovberr = true ∨ (x = .accb ∧ o = true ∧ ovEn = true))
    ∧ (t.intc.covaerr = true ↔ s.intc.covaerr = true ∨ (x = .acca ∧ cat))
    ∧ (t.intc.covberr = true ↔ s.intc.covberr = true ∨ (x = .accb ∧ cat))
    ∧ t.pend = { s.pend with math := t.pend.math }
    ∧ t.intc = { s.intc with
        ovaerr := t.intc.ovaerr, ovberr := t.intc.ovberr, covaerr := t.intc.covaerr, covberr := t.intc.covberr }

/-- R265, R268: the three roundings of a 40-bit value, and the word a store writes of it, with and without data space write
saturation. -/
def Obligations.RoundAndStore : Prop :=
  ∀ a : Int,
    let h := a / 65536
    let l := a % 65536
    roundAcc .truncate a = h
    ∧ (l < 32768 → roundAcc .conventional a = h) ∧ (32768 ≤ l → roundAcc .conventional a = h + 1)
    ∧ (l < 32768 → roundAcc .convergent a = h) ∧ (32768 < l → roundAcc .convergent a = h + 1)
    ∧ (l = 32768 → roundAcc .convergent a % 2 = 0 ∧ (roundAcc .convergent a = h ∨ roundAcc .convergent a = h + 1))
    ∧ (∀ s : State, roundingOf s = if s.cor.rnd then .conventional else .convergent)
    ∧ (storeValue true a).toInt = max (-32768) (min a 32767) ∧ storeValue false a = BitVec.ofInt 16 a

/-- R242 to R249, R262, R264: the multiply class with ordinary prefetches and write-back: the exact result goes through
AccUpdate, the operands are read before the prefetches write; and what the prefetches read, load and step, as arithmetic. The
word a write-back stores is the other accumulator rounded as CORCON.RND says. The order of write-back, prefetched words and pointer
steps, and the free value of a register both prefetches name, are the model's DESIGN CHOICE (log 23). -/
def Obligations.MultiplyClass : Prop :=
  (∀ (first x : Reg) (b : Bool) (k : PStep) (s : State), first = 8 ∨ first = 10 →
    let n : Reg := if b then first + 1 else first
    let d : Int := match k with
      | .zero => 0 | .plus2 => 2 | .plus4 => 4 | .plus6 => 6 | .minus2 => -2 | .minus4 => -4 | .minus6 => -6
    prefetchReg first (.ptr b k) = some n ∧ prefetchAddr x (.ptr b k) s = s.getW x
    ∧ prefetchReg first .offset = some (first + 1) ∧ prefetchAddr x .offset s = s.getW x + s.getW 12
    ∧ prefetchReg first .none = none
    ∧ (stepPointer first (.ptr b k) s).getW n = s.getW n + BitVec.ofInt 16 d
    ∧ (x ≠ n → (stepPointer first (.ptr b k) s).getW x = s.getW x)
    ∧ stepPointer first .offset s = s ∧ stepPointer first .none s = s)
  ∧ (∀ (x y z : DReg) (vx vy : Option Word) (s : State),
    let t := loadPrefetch x y vx vy s
    (vx = none → vy = none → t = s)
    ∧ (∀ v, vx = some v → (x ≠ y ∨ vy = none) → t.getW x.toReg = v)
    ∧ (∀ v, vy = some v → (x ≠ y ∨ vx = none) → t.getW y.toReg = v)
    ∧ ((z ≠ x ∨ vx = none) → (z ≠ y ∨ vy = none) → t.getW z.toReg = s.getW z.toReg))
  ∧ (∀ (a : Acc) (s : State), writeBackValue a s = storeValue s.cor.satdw
      (roundAcc (if s.cor.rnd then .conventional else .convergent) (match a with
        | .acca => s.accb.toInt
        | .accb => s.acca.toInt)))
  ∧ ∀ (i : Instr) (m n : DReg) (a : Acc) (x y : DReg) (ip jp : Prefetch) (wb : Option WriteBack) (v : Int) (s : State),
    (∃ q b, i = .mac q a x y ip jp b ∧ m = q.left ∧ n = q.right ∧ wb = some b ∧ v = (s.acc a).toInt + dspProduct m n s)
      ∨ (∃ q, i = .macNoWb q a x y ip jp ∧ m = q.left ∧ n = q.right ∧ wb = none ∧ v = (s.acc a).toInt + dspProduct m n s)
      ∨ (∃ q b, i = .msc q a x y ip jp b ∧ m = q.left ∧ n = q.right ∧ wb = some b ∧ v = (s.acc a).toInt - dspProduct m n s)
      ∨ (∃ q, i = .mscNoWb q a x y ip jp ∧ m = q.left ∧ n = q.right ∧ wb = none ∧ v = (s.acc a).toInt - dspProduct m n s)
      ∨ (∃ q, i = .mpy q a x y ip jp ∧ m = q.left ∧ n = q.right ∧ wb = none ∧ v = dspProduct m n s)
      ∨ (∃ q, i = .mpyN q a x y ip jp ∧ m = q.left ∧ n = q.right ∧ wb = none ∧ v = -dspProduct m n s)
      ∨ (i = .macSq m a x y ip jp ∧ n = m ∧ wb = none ∧ v = (s.acc a).toInt + dspProduct m m s)
      ∨ (i = .mpySq m a x y ip jp ∧ n = m ∧ wb = none ∧ v = dspProduct m m s) →
    s.cor.us ≠ 3#2 → xOk ip s → yOk jp s → writeBackOk wb s →
    exec i s = .next (multiplyNext a v x y ip jp wb s)
      ∧ DspFrame a (multiplyRegs x y ip jp wb) (writeBackBytes wb s) s (multiplyNext a v x y ip jp wb s)

/-- R250, R251: `ED` and `EDAC` with ordinary prefetches: the square of the register goes through AccUpdate, the register
`Wxd` receives the new difference. -/
def Obligations.EuclideanDistance : Prop :=
  ∀ (i : Instr) (m : DReg) (a : Acc) (x : DReg) (ip jp : Prefetch) (v : Int) (vx vy : Word) (s : State),
    (i = .ed m a x ip jp ∧ v = dspProduct m m s) ∨ (i = .edac m a x ip jp ∧ v = (s.acc a).toInt + dspProduct m m s) →
    s.cor.us ≠ 3#2 → xOk ip s → yOk jp s → prefetched 8 ip s = some vx → prefetched 10 jp s = some vy →
    let t := (stepPointer 10 jp (stepPointer 8 ip ((accUpdate a v s).setW x.toReg (vx - vy)))).advance 1
    exec i s = .next t ∧ DspFrame a (multiplyRegs x x ip jp none) noBytes s t

/-- R242, R244, R46: the multiplier result in the modes CORCON.US and CORCON.IF name, and the stop at US = 11. -/
def Obligations.DspProductRule : Prop :=
  ∀ (m n : DReg) (s : State),
    let k : Int := if s.cor.ifm then 1 else 2
    (s.cor.us = 0#2 → dspProduct m n s = k * ((s.getW m.toReg).toInt * (s.getW n.toReg).toInt))
    ∧ (s.cor.us = 1#2 → dspProduct m n s = k * (((s.getW m.toReg).toNat : Int) * (s.getW n.toReg).toNat))
    ∧ (s.cor.us = 2#2 → dspProduct m n s =
        k * ((if m = .w5 ∨ m = .w7 then (s.getW m.toReg).toInt else ((s.getW m.toReg).toNat : Int))
          * (if n = .w5 ∨ n = .w7 then (s.getW n.toReg).toInt else ((s.getW n.toReg).toNat : Int))))
    ∧ (s.cor.us ≠ 3#2 → multiply m n s = .val (dspProduct m n s) s)
    ∧ (s.cor.us = 3#2 → multiply m n s = .stop (.refused .reservedUs))
    ∧ -549755813888 ≤ dspProduct m n s ∧ dspProduct m n s ≤ 549755813887

/-- R260, R261, R263, R270: `ADD Acc`, `ADD Wso`, `LAC` with an ordinary source; the shift is arithmetic, right for a
positive count. -/
def Obligations.AccumulatorLoadAdd : Prop :=
  ∀ (a : Acc) (s : State),
    (exec (.addAcc a) s = .next ((accUpdate a (s.acca.toInt + s.accb.toInt) s).advance 1))
    ∧ ∀ (w : Reg) (k : BitVec 4) (g : Mode) (r : Reg), srcOk g .word r w s →
      let d := (srcValue g .word r w s).toInt * 65536
      let v := if 0 ≤ k.toInt then d / 2 ^ k.toNat else d * 2 ^ (16 - k.toNat)
      exec (.lac a w k g r) s = .next ((accUpdate a v (srcNext g .word r s)).advance 1)
      ∧ exec (.addWsoAcc a w k g r) s = .next ((accUpdate a ((s.acc a).toInt + v) (srcNext g .word r s)).advance 1)
      ∧ ∀ u, DspFrame a (srcRegs g r) noBytes s ((accUpdate a u (srcNext g .word r s)).advance 1)

/-- R266, R267: `SAC` and `SAC.R` to an ordinary destination; the accumulators and SR do not change. -/
def Obligations.AccumulatorStore : Prop :=
  ∀ (a : Acc) (w : Reg) (k : BitVec 4) (h : Mode) (d : Reg) (s : State), dstOk h .word d w s →
    let sh := if 0 ≤ k.toInt then (s.acc a).toInt / 2 ^ k.toNat else (s.acc a).toInt * 2 ^ (16 - k.toNat)
    let x := (BitVec.ofInt 40 sh).toInt
    let v := storeValue s.cor.satdw (x / 65536)
    let vr := storeValue s.cor.satdw (roundAcc (if s.cor.rnd then .conventional else .convergent) x)
    Runs (.sac a w k h d) s (dstRegs h d) (dstBytes h .word d w s) s.sr ((dstNext h .word d w v s).advance 1)
    ∧ Runs (.sacR a w k h d) s (dstRegs h d) (dstBytes h .word d w s) s.sr ((dstNext h .word d w vr s).advance 1)

/-- R269, R425: `SFTAC` in both forms: in the range -16 to 16 the shifted value goes through AccUpdate; outside it the
trap is requested and nothing is written. -/
def Obligations.AccumulatorShift : Prop :=
  ∀ (a : Acc) (i : Instr) (k : Int) (s : State),
    (∃ r : Reg, i = .sftacWb a r ∧ k = (BitVec.ofNat 6 (s.getW r).toNat).toInt)
      ∨ (∃ l : BitVec 6, i = .sftacLit a l ∧ k = l.toInt) →
    (0 ≤ k → k ≤ 16 → exec i s = .next ((accUpdate a ((s.acc a).toInt / 2 ^ k.toNat) s).advance 1))
    ∧ (-16 ≤ k → k < 0 → exec i s = .next ((accUpdate a ((s.acc a).toInt * 2 ^ (-k).toNat) s).advance 1))
    ∧ (k < -16 ∨ 16 < k → exec i s = .next { s with
        pc := s.pc + 2#23, intc := { s.intc with sftacerr := true }, pend := { s.pend with math := true } })

/-- R229 (general knowledge in the spec; log 20): a multiply into an accumulator writes the 32-bit product extended to 40
bits, and neither status bits nor anything else. -/
def Obligations.MulAccumulator : Prop :=
  ∀ (x : MulSign) (w : Reg) (p : Mode6) (r : Reg) (a : Acc) (s : State), srcOk p.toMode .word r r s →
    let v := srcValue p.toMode .word r r s
    let f : Int := if x = .su ∨ x = .ss then (s.getW w).toInt else (s.getW w).toNat
    let g : Int := if x = .us ∨ x = .ss then v.toInt else v.toNat
    let t := ((srcNext p.toMode .word r s).setAcc a (BitVec.ofInt 40 (f * g))).advance 1
    exec (.mulAcc x w p r a) s = .next t
      ∧ Frame (srcRegs p.toMode r) noBytes (s.setAcc a (BitVec.ofInt 40 (f * g))) t ∧ t.sr = s.sr

/-! ## Divides -/

/-- R300, R301, R302, R305, R307: every execution of a divide is one iteration that completes: only W0, W1, N, Z, OV, C, the
records and the trap state change. The first one of a `REPEAT` loop latches the operands and, with a zero divisor, sets DIV0ERR
and requests MathError; the next ones count, and request nothing. One outside a loop starts a divide that is not completed, and
spoils those of the loops it interrupted. What a record holds beside kind, dividend, divisor and count, and the latch where the
kind or an operand register is another or eighteen executions are done, are the model's DESIGN CHOICE (D13, log 19). -/
def Obligations.DivideIteration : Prop :=
  ∀ (i : Instr) (k : DivKind) (m n : Reg) (s : State),
    (i = .divS false m n ∧ k = .sw) ∨ (i = .divS true m n ∧ k = .sd) ∨ (i = .divU false m n ∧ k = .uw)
      ∨ (i = .divU true m n ∧ k = .ud) ∨ (i = .divF m n ∧ k = .f) →
    let checked : State → Prop := fun t =>
      (t.pend.math = true ↔ s.pend.math = true ∨ s.getW n = 0#16)
        ∧ (t.intc.div0err = true ↔ s.intc.div0err = true ∨ s.getW n = 0#16)
    let latched : DivRec → State → Prop := fun r t =>
      r.kind = k ∧ r.m = m ∧ r.n = n ∧ r.born = s.fresh ∧ r.done = 1 ∧ r.divisor = s.getW n
        ∧ r.last = t.fresh ∧ r.ctx = t.cctxi
        ∧ (k = .sd ∨ k = .ud → r.dividend = s.getW (m + 1) ++ s.getW m)
        ∧ (k ≠ .sd → k ≠ .ud → r.dividend.toNat = (s.getW m).toNat)
        ∧ dutyKept r t
    ∃ t, exec i s = .next t ∧ t.pc = s.pc + 2#23 ∧ regsKept (fun x => x.val < 2) s t
      ∧ t.sr = { s.sr with n := t.sr.n, z := t.sr.z, ov := t.sr.ov, c := t.sr.c }
      ∧ { t with
          w := s.w, sr := s.sr, intc := s.intc, pend := s.pend, div := s.div, held := s.held, fresh := s.fresh
          pc := s.pc } = s
      ∧ t.pend = { s.pend with math := t.pend.math } ∧ t.intc = { s.intc with div0err := t.intc.div0err }
      ∧ (s.sr.ra = false → checked t ∧ t.div = s.div
        ∧ t.held = s.held.map fun h => { h with div := h.div.map fun r => { r with intact := false } })
      ∧ (s.sr.ra = true →
        (s.div = none → checked t ∧ t.held = s.held ∧ ∃ q, t.div = some q ∧ latched q t ∧ q.intact = true)
        ∧ ∀ r, s.div = some r →
          (r.kind = k → r.m = m → r.n = n → r.done < 18 →
            t.pend = s.pend ∧ t.intc = s.intc ∧ t.held = s.held
            ∧ ∃ q, t.div = some q
              ∧ q = { r with
                  done := r.done + 1, intact := q.intact, last := t.fresh, ctx := t.cctxi
                  w0 := q.w0, w1 := q.w1, wm := q.wm, wm1 := q.wm1, wn := q.wn }
              ∧ dutyKept q t ∧ (q.intact = true ↔ r.intact = true ∧ dutyKept r s))
          ∧ (r.kind ≠ k ∨ r.m ≠ m ∨ r.n ≠ n ∨ 18 ≤ r.done →
            checked t ∧ (∃ q, t.div = some q ∧ latched q t ∧ q.intact = false)
            ∧ t.held = if r.done = 18 then s.held else spoiltSince r.born s.held))

/-- R303, R304, R305, R306: the eighteenth iteration of a divide that no handler has disturbed: the quotient truncated toward zero
in W0 and the remainder in W1 when the quotient fits, else OV and both open. N and Z are those of W1, N never set by an unsigned
divide. A zero divisor leaves W0 and W1 open, and OV too but for `DIVF`, which sets it. The model's DESIGN CHOICE (D13, log 19) is
what the record's `intact` and `dutyKept` say of an undisturbed divide, and that N and Z follow an open W1 after an overflow or a
zero divisor. -/
def Obligations.DivideResult : Prop :=
  ∀ (i : Instr) (k : DivKind) (m n : Reg) (r : DivRec) (s : State),
    (i = .divS false m n ∧ k = .sw) ∨ (i = .divS true m n ∧ k = .sd) ∨ (i = .divU false m n ∧ k = .uw)
      ∨ (i = .divU true m n ∧ k = .ud) ∨ (i = .divF m n ∧ k = .f) →
    s.sr.ra = true → s.div = some r → r.kind = k → r.m = m → r.n = n → r.done = 17 → r.intact = true → dutyKept r s →
    let a : Int := match k with
      | .uw | .ud => r.dividend.toNat
      | .sd => r.dividend.toInt
      | .sw => (r.dividend.setWidth 16 : Word).toInt
      | .f => (r.dividend.setWidth 16 : Word).toInt * 32768
    let b : Int := if k = .uw ∨ k = .ud then r.divisor.toNat else r.divisor.toInt
    let fits := match k with
      | .uw | .ud => a.tdiv b ≤ 65535
      | .f => ((r.dividend.setWidth 16 : Word).toInt).natAbs < b.natAbs
      | _ => -32768 ≤ a.tdiv b ∧ a.tdiv b ≤ 32767
    ∃ t, exec i s = .next t ∧ t.pc = s.pc + 2#23 ∧ t.sr.dc = s.sr.dc ∧ t.pend = s.pend
      ∧ (k = .f ∨ r.divisor ≠ 0#16 → (t.sr.ov = false ↔ fits))
      ∧ (t.sr.z = true ↔ t.getW 1 = 0#16)
      ∧ (t.sr.n = true ↔ k ≠ .uw ∧ k ≠ .ud ∧ (t.getW 1).toInt < 0)
      ∧ (r.divisor ≠ 0#16 → fits → t.getW 0 = BitVec.ofInt 16 (a.tdiv b) ∧ t.getW 1 = BitVec.ofInt 16 (a.tmod b))
      ∧ ∃ q, t.div = some q ∧ q.done = 18

/-! ## Program flow -/

/-- R320, R322, R340: `GOTO`, `NOP` and the nineteen relative branches; nothing but the pc changes. -/
def Obligations.Branches : Prop :=
  ∀ s : State, s.pc.getLsbD 0 = false →
    (∀ t : BitVec 22, Runs (.goto t) s noRegs noBytes s.sr (s.setPc (BitVec.ofNat 23 (2 * t.toNat))))
    ∧ Runs .nop s noRegs noBytes s.sr (s.setPc (s.pc + 2#23))
    ∧ ∀ (i : Instr) (c : Status → Bool) (n : Word), branchOf i = some (c, n) →
      Runs i s noRegs noBytes s.sr
        (s.setPc (if c s.sr then s.pc + 2#23 + BitVec.ofInt 23 (2 * n.toInt) else s.pc + 2#23))

/-- R173, R324 to R329: the five calls with room on the stack: what is pushed, SFA cleared, the target.
`CALL.L W15` is left out: R327's `W[n+1]` is no register there (the model's choice, log 30). -/
def Obligations.Calls : Prop :=
  ∀ s : State, push2Ok s → s.pc.getLsbD 0 = false →
    (∀ t : BitVec 22, exec (.call t) s = .next (callNext (s.pc + 4#23) (BitVec.ofNat 23 (2 * t.toNat)) s))
    ∧ (∀ n : Reg, exec (.callWn n) s
        = .next (callNext (s.pc + 2#23) (BitVec.ofNat 23 ((s.getW n).toNat / 2 * 2)) s))
    ∧ (∀ n : Reg, n.val < 15 → exec (.callLWn n) s = .next (callNext (s.pc + 2#23)
        (BitVec.ofNat 23 ((s.getW (n + 1)).toNat % 128 * 65536 + (s.getW n).toNat / 2 * 2)) s))
    ∧ (∀ n : Word, exec (.rcall n) s
        = .next (callNext (s.pc + 2#23) (s.pc + 2#23 + BitVec.ofInt 23 (2 * n.toInt)) s))
    ∧ (∀ n : Reg, exec (.rcallWn n) s
        = .next (callNext (s.pc + 2#23) (s.pc + 2#23 + BitVec.ofInt 23 (2 * (s.getW n).toInt)) s))
    ∧ ∀ ret target : PAddr, memKept (stackBytes s) s (callNext ret target s)
      ∧ (ret.getLsbD 0 = false → (stackedLow ret s.cor.sfa).toNat = ret.toNat % 65536 + s.cor.sfa.toNat
        ∧ (stackedHigh ret).toNat = ret.toNat / 65536)

/-- R173, R302, R335, R336, R338, R365, R448, R456: the returns with two words on the stack; `RETFIE` also restores SRL and IPL3, selects
the context, and from a trap handler whose status bit is set requests the trap again; the handler that returns is the newest in the
model's list (DESIGN CHOICE, log 27). The handler that ends spoils every divide between two executions of which it ran if it leaves a
register of it not as it found it, whether it returns to the divide's loop or to another handler (`judgedBy`; R302). With RA restored
the interrupted `REPEAT` loop goes on with its divide record, which this return spoils if a register of it is not as its last
execution left it or a divide started since is not completed (R302, R365). How the interruption that ends is told is the model's
DESIGN CHOICE (log 19): the newest whose words were where `RETFIE` popped; where none were, without RA the newest of that place whose
address the handler has changed, with RA the newest loop of the target that stands as it was left, else the newest of the target. -/
def Obligations.Returns : Prop :=
  ∀ s : State,
    (pop2Ok s → exec .ret s = .next (returnNext s))
    ∧ (∀ (b : Size) (k : BitVec 10) (d : Reg), pop2Ok (s.regWrite b d (k.setWidth 16)) →
      exec (.retlw b k d) s = .next (returnNext (s.regWrite b d (k.setWidth 16))))
    ∧ (pop2Ok s →
      let hi := top1 s
      let l : BitVec 4 := BitVec.ofBool (hi.getLsbD 7) ++ hi.extractLsb' 13 3
      contextUnique s.dev l →
      ∃ u, exec .retfie s = .next u
        ∧ u = { returnNext s with
            sr := { s.sr with
              ipl := hi.extractLsb' 13 3, ra := hi.getLsbD 12, n := hi.getLsbD 11, ov := hi.getLsbD 10
              z := hi.getLsbD 9, c := hi.getLsbD 8 }
            cor := { s.cor with ipl3 := hi.getLsbD 7, sfa := (top2 s).getLsbD 0 }
            cctxi := contextOf s.dev l s.mctxi
            active := s.active.tail
            pend := returnPend s.active.head? s
            div := u.div
            held := u.held }
        ∧ (u.sr.ra = false → u.div = s.div
          ∧ (∀ newer h older, s.held = newer ++ h :: older → heldHere u h → (∀ x ∈ newer, ¬heldHere u x) → leaves u newer h older)
          ∧ (∀ newer h older, s.held = newer ++ h :: older → (∀ x ∈ s.held, ¬heldHere u x) → h.frame = u.w15 →
            (∀ x ∈ newer, x.frame ≠ u.w15) → leaves u newer h older)
          ∧ ((∀ x ∈ s.held, x.frame ≠ u.w15 ∧ x.target ≠ u.pc) → u.held = s.held))
        ∧ (u.sr.ra = true →
          (∀ newer h older, s.held = newer ++ h :: older → heldHere u h → (∀ x ∈ newer, ¬heldHere u x) → resumes u newer h older)
          ∧ (∀ newer h older, s.held = newer ++ h :: older → (∀ x ∈ s.held, ¬heldHere u x) → fitsPopped u h →
            (standsAsLeft u h ∧ ∀ x ∈ newer, ¬(fitsPopped u x ∧ standsAsLeft u x))
              ∨ ((∀ x ∈ newer, ¬fitsPopped u x) ∧ ∀ x ∈ s.held, ¬(fitsPopped u x ∧ standsAsLeft u x)) →
            resumes u newer h older)
          ∧ ((∀ x ∈ s.held, ¬fitsPopped u x) → u.div = none ∧ ((∀ x ∈ s.held, x.frame ≠ u.w15) → u.held = s.held))))

/-! ## Loops -/

/-- R302, R362, R363: `REPEAT` in both forms; the divide of a loop that begins is still to come. -/
def Obligations.RepeatStarts : Prop :=
  ∀ (i : Instr) (k : Word) (s : State),
    (∃ l : BitVec 15, i = .repeatLit l ∧ k.toNat = l.toNat) ∨ (∃ r, i = .repeatWn r ∧ k = s.getW r) →
    exec i s = .next { s with
      rcount := k, sr := { s.sr with ra := s.sr.ra || decide (k ≠ 0#16) }, pc := s.pc + 2#23
      div := if k = 0#16 then s.div else none }

/-- R364, R366, R405: a step with RA = 1, inside or outside `DO` loops: with RCOUNT 0 the loop ends, else RCOUNT, as the target may
have written it, counts down and the pc stays. The model's DESIGN CHOICE is the wrap of a written 0 (log 48), that an uncompleted
divide of the loop spoils those of which the last execution came before it started (D13, log 19), and one count off DISICNT a step (D18,
log 15). -/
def Obligations.RepeatMechanism : Prop :=
  ∀ (i : Instr) (s t : State), s.sr.ra = true → t.sr.ra = true → t.cor.dl = 0#3 ∨ checkAfter i s t = none →
    (s.rcount = 0#16 → noLoopEnd i s.pc t →
      ∃ g, conclude i s (.next t) = .next { t with
          sr := { t.sr with ra := false }, div := none, held := g, disicnt := disiLeft i t }
        ∧ ((∀ r, t.div = some r → r.done = 18) → g = t.held)
        ∧ ∀ r, t.div = some r → r.done ≠ 18 → g = spoiltSince r.born t.held)
    ∧ (s.rcount ≠ 0#16 →
      conclude i s (.next t) = .next { t with rcount := t.rcount - 1#16, pc := s.pc, disicnt := disiLeft i t })

/-- R371, R372, R375, R63: `DO` in both forms: below four levels with an allowed length it stacks the running loop and
starts its own; at four levels it sets DO_OVR, requests SoftTrap and is stepped over. -/
def Obligations.DoStarts : Prop :=
  ∀ (i : Instr) (count n : Word) (s : State),
    (∃ k : BitVec 15, i = .doLit k n ∧ count.toNat = k.toNat)
      ∨ (∃ r, i = .doWn r n ∧ count = s.getW r &&& s.dev.doWnMask) →
    (s.cor.dl < 4#3 →
      (∀ e, e = s.pc + 4#23 + BitVec.ofInt 23 (2 * n.toInt) →
        e ≠ s.pc + 4#23 → e ≠ s.pc + 2#23 → e ≠ s.pc →
        ∃ t, exec i s = .next t
          ∧ t = { s with
              dcount := count, dostart := (s.pc + 4#23).extractLsb' 1 22, doend := e.extractLsb' 1 22
              cor := { s.cor with dl := s.cor.dl + 1#3 }, doStack := t.doStack
              trk := { s.trk with doWr := true }, pc := s.pc + 4#23 }
          ∧ ∀ k : Fin 3, t.doStack[k] =
              if s.cor.dl.toNat = k.val + 1 then ⟨s.dostart, s.doend, s.dcount⟩ else s.doStack[k]))
    ∧ (4#3 ≤ s.cor.dl →
      exec i s = .next { s with
        intc := { s.intc with doOvr := true }, pend := { s.pend with soft := true }, trk := { s.trk with doWr := true }
        pc := s.pc + 4#23 })

/-- R376, R374, R380, R405: the end of a `DO` loop, after an instruction at DOEND that does not write the pc. The model's DESIGN
CHOICES: however the pc came to DOEND counts (D14, log 47), EDT has two latches, of which the late one becomes the pending one at
a loop end that does not terminate and both clear at one that does (D14, log 45), and DISICNT counts one a step (D18, log 15). -/
def Obligations.DoEnds : Prop :=
  ∀ (i : Instr) (s t : State), s.sr.ra = false → t.sr.ra = false → ¬flowControl i → ¬returns i →
    t.cor.dl ≠ 0#3 → t.cor.dl.toNat ≤ 4 → s.pc = t.doend ++ 0#1 → checkAfter i s t = none →
    (t.edtPending = false → t.dcount ≠ 0#16 →
      conclude i s (.next t) = .next { t with
        dcount := t.dcount - 1#16, pc := t.dostart ++ 0#1, edtPending := t.edtLate, edtLate := false
        disicnt := disiLeft i t })
    ∧ (t.edtPending = true ∨ t.dcount = 0#16 →
      ∃ u, conclude i s (.next t) = .next u
        ∧ u = { t with
            cor := { t.cor with dl := t.cor.dl - 1#3 }, pc := s.pc + 2#23, edtPending := false, edtLate := false
            disicnt := disiLeft i t, dostart := u.dostart, doend := u.doend, dcount := u.dcount }
        ∧ (t.cor.dl = 1#3 → u.dostart = t.dostart ∧ u.doend = t.doend ∧ u.dcount = t.dcount)
        ∧ ∀ k : Fin 3, t.cor.dl.toNat = k.val + 2 →
            u.dostart = t.doStack[k].start ∧ u.doend = t.doStack[k].fin ∧ u.dcount = t.doStack[k].count)

/-! ## System -/

/-- R23, R29, R72, R402, R404, R407, R480, R331: `CTXTSWP`, `DISI`, `RESET` and the compare and skip class, whose condition is open
(log 21). A context switch changes no register of any context. That the named INTCON bits reset to 0 is the
spec's own choice (D16). -/
def Obligations.SystemInstructions : Prop :=
  ∀ s : State,
    (∀ k : Fin 5, k ≤ s.dev.nAlt →
      exec (.ctxtswpLit (BitVec.ofNat 3 k.val)) s = .next { s with cctxi := k, mctxi := k, pc := s.pc + 2#23 }
      ∧ ∀ r, (s.getW r).toNat % 8 = k.val →
        exec (.ctxtswpWn r) s = .next { s with cctxi := k, mctxi := k, pc := s.pc + 2#23 })
    ∧ (∀ k : BitVec 3, s.dev.nAlt.val < k.toNat → exec (.ctxtswpLit k) s = .refused .contextAbsent)
    ∧ (∀ r : Reg, s.dev.nAlt.val < (s.getW r).toNat % 8 → exec (.ctxtswpWn r) s = .refused .contextAbsent)
    ∧ (∀ k : BitVec 14, exec (.disi k) s = .next { s with disicnt := k, pc := s.pc + 2#23 })
    ∧ (exec .reset s = .next s.deviceReset
      ∧ (∀ n : Reg, s.deviceReset.getW n = if n = 15 then 0x1000#16 else 0#16)
      ∧ (∀ n : Reg, s.deviceReset.isInit n = decide (n = 15))
      ∧ (∀ (c : Fin 5) (n : Reg) (h : n.val < 15), s.deviceReset.bankReg c n h = ⟨0#16, false⟩)
      ∧ s.deviceReset.edtPending = false ∧ s.deviceReset.edtLate = false
      ∧ s.deviceReset.intc =
        { nstdis := false, ovaerr := false, ovberr := false, covaerr := false, covberr := false, ovate := false, ovbte := false
          covte := false, sftacerr := false, div0err := false, doOvr := false }
      ∧ s.deviceReset.srWord = 0#16 ∧ s.deviceReset.corconWord = 0x0020#16 ∧ s.deviceReset.ctxtstatWord = 0#16
      ∧ s.deviceReset.acca = 0#40 ∧ s.deviceReset.accb = 0#40 ∧ s.deviceReset.splim = 0#16
      ∧ s.deviceReset.splimEn = false ∧ s.deviceReset.dsrpag = 1#10 ∧ s.deviceReset.dswpag = 1#9
      ∧ s.deviceReset.tblpag = 0#8 ∧ s.deviceReset.modcon = 0#16 ∧ s.deviceReset.mstrpr = 0#16
      ∧ s.deviceReset.disicnt = 0#14 ∧ s.deviceReset.div = none ∧ s.deviceReset.held = [] ∧ s.deviceReset.active = []
      ∧ cpuRequests s.deviceReset = []
      ∧ (s.dev.resetPc.getLsbD 0 = false → s.deviceReset.pc = s.dev.resetPc))
    ∧ ∃ c : Bool, exec .compareSkip s = .next { s with
        pc := if c then s.pc + 4#23 else s.pc + 2#23, fresh := s.fresh + 1 }

/-- R189, R341, R406, R408, R409: the instructions the spec names without an operation stop by name. -/
def Obligations.NamedStops : Prop :=
  ∀ s : State,
    (∀ b q d p r, exec (.tblwtl b q d p r) s = .refused .tableWrite ∧ exec (.tblwth b q d p r) s = .refused .tableWrite)
    ∧ (∀ k, exec (.pwrsav k) s = .refused .powerSave) ∧ exec .bootswp s = .refused .dualBoot
    ∧ exec .trap s = .refused .trapInstr ∧ exec .fex s = .refused .debugFex ∧ exec .sstep s = .refused .debugSstep
    ∧ exec .urun s = .refused .debugUrun

/-- R46, R109, R144, R147, R188, R367, R381, R383, R384, R496, R500: words outside the table and breaches of the software rules stop
by name: what the checks before and after an instruction find, `step` refuses (log 16, log 17), and they find every breach; a
forbidden target of `REPEAT` is refused at the `REPEAT`, of whatever count, and where RA is set. Register indirect forms are refused
under modulo addressing and, where it applies, bit-reversed addressing: `MOV` as load and store, and a DSP prefetch. R382 and R383
are asked of the loop DOSTART and DOEND hold, not at an enclosing loop's places (DESIGN CHOICE, log 17). -/
def Obligations.BreachesRefused : Prop :=
  ∀ s : State,
    (∀ (e : Reject) (w1 w2 : PWord), nextRequest s = none → s.pc.toNat / 2 < s.dev.progWords →
      s.prog.read (s.pc.toNat / 2) = w1 →
      (twoWord w1 = true → (s.pc + 2#23).toNat / 2 < s.dev.progWords ∧ s.prog.read ((s.pc + 2#23).toNat / 2) = w2) →
      decode w1 (if twoWord w1 then w2 else 0#24) = .error e → step s = .refused (.undecoded e))
    ∧ (∀ (i : Instr) (f : Refusal), nextRequest s = none → fetches s i →
      checkBefore i (beginStep s) = some f
        ∨ (checkBefore i (beginStep s) = none
          ∧ ∃ t, exec i (beginStep s) = .next t ∧ checkAfter i (beginStep s) t = some f) → step s = .refused f)
    ∧ (∀ i, s.sr.ra = true → repeatForbidden i → checkBefore i s = some .repeatTarget)
    ∧ (∀ i, s.cor.dl ≠ 0#3 → s.sr.ra = false →
      ((s.pc = addrOf s.doend ∨ s.pc = addrOf s.doend - 2#23)
          ∧ (flowControl i ∨ startsLoop i ∨ (∃ k, i = .disi k) ∨ i.words = 2))
        ∨ (s.pc = addrOf s.doend - 4#23 ∧ (i.words = 2 ∨ (∃ k, i = .repeatLit k) ∨ ∃ r, i = .repeatWn r)) →
      checkBefore i s = some .doLastTwo)
    ∧ (∀ i j, s.sr.ra = false → (∃ k, i = .repeatLit k) ∨ (∃ r, i = .repeatWn r) →
      s.cor.dl = 0#3 ∨ s.pc ≠ addrOf s.doend ∧ s.pc ≠ addrOf s.doend - 2#23 ∧ s.pc ≠ addrOf s.doend - 4#23 →
      fetches { s with pc := s.pc + 2#23 } j → repeatForbidden j → checkBefore i s = some .repeatTarget)
    ∧ (∀ i, s.cor.dl ≠ 0#3 → s.sr.ra = true → ¬repeatForbidden i →
      s.pc = addrOf s.doend ∨ s.pc = addrOf s.doend - 2#23 → checkBefore i s = some .doLastTwo)
    ∧ (∀ (i : Instr) (t : State), s.cor.dl ≠ 0#3 → t.cor.dl ≠ 0#3 →
      (atEarlyTail i s → t.sr.ipl ≠ s.sr.ipl → checkAfter i s t = some .doIplChange)
      ∧ (¬atEarlyTail i s ∨ t.sr.ipl = s.sr.ipl → s.dev.pfu3Cycle = true → s.pc = addrOf s.dostart → t.trk.psvRd = true →
        checkAfter i s t = some .doFirstPfu)
      ∧ (¬atEarlyTail i s ∨ t.sr.ipl = s.sr.ipl → t.trk.psvRd = false → s.pc = addrOf t.doend →
        addrOf t.doend = addrOf t.dostart ∨ addrOf t.doend = addrOf t.dostart - 2#23
          ∨ addrOf t.doend = addrOf t.dostart - 4#23 → checkAfter i s t = some .doLength))
    ∧ (∀ (i : Instr) (n : Word), ((∃ k, i = .doLit k n) ∨ ∃ r, i = .doWn r n) → s.cor.dl < 4#3 →
      n = 0#16 ∨ n = 0xFFFF#16 ∨ n = 0xFFFE#16 → exec i s = .refused .doLength)
    ∧ (s.trk.splimPrev = true → s.modcon.getLsbD 15 = false → s.modcon.getLsbD 14 = false →
      (∀ w n, exec (.movWsWd w .word .direct n .preDec 15) s = .refused .splimHazard)
      ∧ (∀ b q d, exec (.tblrdl b q d .ind 15) s = .refused .splimHazard
        ∧ exec (.tblrdh b q d .ind 15) s = .refused .splimHazard)
      ∧ exec .ulnk s = .refused .splimHazard ∧ exec .ret s = .refused .splimHazard
      ∧ exec .retfie s = .refused .splimHazard)
    ∧ (∀ b q d r, r ≠ 15 → s.isInit r = true → s.modcon.getLsbD 15 = false → s.modcon.getLsbD 14 = false →
      128 ≤ s.tblpag.toNat →
      exec (.tblrdl b q d .ind r) s = .refused .configSpace ∧ exec (.tblrdh b q d .ind r) s = .refused .configSpace)
    ∧ (∀ r, s.isInit r = true → s.modcon.getLsbD 15 = true ∨ s.modcon.getLsbD 14 = true →
      (∀ w b m d, m ≠ .direct → exec (.movWsWd w b .direct d m r) s = .refused .moduloAddressing
        ∧ exec (.movWsWd w b m r .direct d) s = .refused .moduloAddressing)
      ∧ ∀ q a x y i j, s.cor.us ≠ 3#2 → prefetchReg 8 i = some r →
        exec (.mpy q a x y i j) s = .refused .moduloAddressing)
    ∧ (∀ r w m d, s.isInit r = true → s.modcon.getLsbD 15 = false → s.modcon.getLsbD 14 = false →
      s.xbrev.getLsbD 15 = true → s.modcon.toNat / 256 % 16 ≠ 15 → s.modcon.toNat / 256 % 16 = r.val →
      m = .postInc ∨ m = .preInc →
      exec (.movWsWd w .word .direct d m r) s = .refused .bitReversed
        ∧ exec (.movWsWd w .word m r .direct d) s = .refused .bitReversed)
    ∧ (∀ m a x y, s.cor.us = 3#2 → exec (.mpy m a x y .none .none) s = .refused .reservedUs)
end

