-- ==== Sys2Proof/Laws/Memory.lean ====
section
/-!
SUPPORT. Memory: a read after a write, and the canonical form every memory operation keeps.
-/

namespace Sys2Proof.Machine

theorem lookupAt_insertAt {α : Type} (d : α) (k : Nat) (v : α) (m : List (Nat × α)) (j : Nat) :
    lookupAt d (insertAt k v m) j = if j = k then v else lookupAt d m j := by
  induction m with
  | nil => rfl
  | cons c t ih =>
    obtain ⟨a, u⟩ := c
    simp only [insertAt]
    split
    · rfl
    · split
      · subst_vars; simp only [lookupAt]; split <;> simp_all
      · simp only [lookupAt, ih]
        split
        · split
          · omega
          · rfl
        · rfl

theorem lookupAt_removeAt {α : Type} (d : α) (k : Nat) (m : List (Nat × α)) (j : Nat) :
    lookupAt d (removeAt k m) j = if j = k then d else lookupAt d m j := by
  induction m with
  | nil => simp [removeAt, lookupAt]
  | cons c t ih =>
    obtain ⟨a, u⟩ := c
    simp only [removeAt]
    split
    · subst_vars; rw [ih]; simp only [lookupAt]; split <;> rfl
    · simp only [lookupAt, ih]
      split
      · split
        · omega
        · rfl
      · rfl

theorem canonicalFrom_mono {α : Type} [DecidableEq α] {d : α} {lo lo' : Nat} {m : List (Nat × α)} (h : lo ≤ lo')
    (hm : canonicalFrom d lo' m = true) : canonicalFrom d lo m = true := by
  cases m with
  | nil => rfl
  | cons c t =>
    obtain ⟨a, v⟩ := c
    simp only [canonicalFrom, Bool.and_eq_true, decide_eq_true_eq] at hm ⊢
    exact ⟨⟨Nat.le_trans h hm.1.1, hm.1.2⟩, hm.2⟩

theorem canonicalFrom_insertAt {α : Type} [DecidableEq α] {d : α} {k : Nat} {v : α} (hv : v ≠ d) {m : List (Nat × α)}
    {lo : Nat} (h : canonicalFrom d lo m = true) (hk : lo ≤ k) : canonicalFrom d lo (insertAt k v m) = true := by
  induction m generalizing lo with
  | nil => simp [insertAt, canonicalFrom, hk, hv]
  | cons c t ih =>
    obtain ⟨a, u⟩ := c
    simp only [canonicalFrom, Bool.and_eq_true, decide_eq_true_eq] at h
    simp only [insertAt]
    split
    · simp only [canonicalFrom, Bool.and_eq_true, decide_eq_true_eq]
      exact ⟨⟨hk, by simp [hv]⟩, ⟨by omega, h.1.2⟩, h.2⟩
    · split
      · subst_vars
        simp only [canonicalFrom, Bool.and_eq_true, decide_eq_true_eq]
        exact ⟨⟨hk, by simp [hv]⟩, h.2⟩
      · simp only [canonicalFrom, Bool.and_eq_true, decide_eq_true_eq]
        exact ⟨h.1, ih h.2 (by omega)⟩

theorem canonicalFrom_removeAt {α : Type} [DecidableEq α] {d : α} {k : Nat} {m : List (Nat × α)} {lo : Nat}
    (h : canonicalFrom d lo m = true) : canonicalFrom d lo (removeAt k m) = true := by
  induction m generalizing lo with
  | nil => rfl
  | cons c t ih =>
    obtain ⟨a, u⟩ := c
    simp only [canonicalFrom, Bool.and_eq_true, decide_eq_true_eq] at h
    simp only [removeAt]
    split
    · exact canonicalFrom_mono (by omega) (ih h.2)
    · simp only [canonicalFrom, Bool.and_eq_true, decide_eq_true_eq]
      exact ⟨h.1, ih h.2⟩

theorem all_insertAt {α : Type} (p : Nat × α → Bool) {k : Nat} {v : α} {m : List (Nat × α)} (h : m.all p = true)
    (hk : p (k, v) = true) : (insertAt k v m).all p = true := by
  induction m with
  | nil => simp [insertAt, hk]
  | cons c t ih =>
    obtain ⟨a, u⟩ := c
    simp only [List.all_cons, Bool.and_eq_true] at h
    simp only [insertAt]
    split
    · simp [hk, h.1, h.2]
    · split
      · simp [hk, h.2]
      · simp [h.1, ih h.2]

theorem all_removeAt {α : Type} (p : Nat × α → Bool) {k : Nat} {m : List (Nat × α)} (h : m.all p = true) :
    (removeAt k m).all p = true := by
  induction m with
  | nil => rfl
  | cons c t ih =>
    obtain ⟨a, u⟩ := c
    simp only [List.all_cons, Bool.and_eq_true] at h
    simp only [removeAt]
    split
    · exact ih h.2
    · simp [h.1, ih h.2]

/-- A byte written is the byte read back, and no other byte changes. -/
theorem Memory.read_write (m : Memory) (a k : Nat) (b : Byte) :
    (m.write a b).read k = if k = a then b else m.read k := by
  unfold Memory.read Memory.write
  split
  · rw [lookupAt_removeAt]; simp_all
  · rw [lookupAt_insertAt]

/-- A word written changes two bytes. -/
theorem Memory.read_writeWord (m : Memory) (a k : Nat) (v : Word) :
    (m.writeWord a v).read k = if k = a + 1 then hiByte v else if k = a then loByte v else m.read k := by
  unfold Memory.writeWord
  rw [Memory.read_write, Memory.read_write]

theorem mkWord_bytes (v : Word) : mkWord (hiByte v) (loByte v) = v := by
  simp only [mkWord, hiByte, loByte]
  ext i hi
  simp only [BitVec.getElem_append, BitVec.getElem_extractLsb']
  split <;> simp_all [BitVec.getLsbD_eq_getElem]

/-- A word written is the word read back. -/
theorem Memory.readWord_writeWord_self (m : Memory) (a : Nat) (v : Word) : (m.writeWord a v).readWord a = v := by
  unfold Memory.readWord
  rw [Memory.read_writeWord, Memory.read_writeWord]
  simp [mkWord_bytes]

/-- A byte write keeps the canonical form. -/
theorem Memory.wf_write {m : Memory} {a : Nat} {b : Byte} (h : m.wf = true) (ha : a < 2 ^ 24) :
    (m.write a b).wf = true := by
  simp only [Memory.wf, Bool.and_eq_true] at h ⊢
  unfold Memory.write
  split
  · exact ⟨canonicalFrom_removeAt h.1, all_removeAt _ h.2⟩
  · exact ⟨canonicalFrom_insertAt ‹_› h.1 (Nat.zero_le _), all_insertAt _ h.2 (by simpa using ha)⟩

/-- A word write keeps the canonical form. -/
theorem Memory.wf_writeWord {m : Memory} {a : Nat} {v : Word} (h : m.wf = true) (ha : a + 1 < 2 ^ 24) :
    (m.writeWord a v).wf = true :=
  Memory.wf_write (Memory.wf_write h (by omega)) ha

/-- Memory at reset is in canonical form. -/
theorem Memory.wf_reset : State.reset.mem.wf = true := rfl

/-- Placing a program word keeps the canonical form. -/
theorem ProgImage.wf_write {p : ProgImage} {k : Nat} {v : PWord} (h : p.wf = true) : (p.write k v).wf = true := by
  unfold ProgImage.wf ProgImage.write at *
  split
  · exact canonicalFrom_removeAt h
  · exact canonicalFrom_insertAt ‹_› h (Nat.zero_le _)

/-- A program word placed is read back, and no other changes. -/
theorem ProgImage.read_write (p : ProgImage) (k j : Nat) (v : PWord) :
    (p.write k v).read j = if j = k then v else p.read j := by
  unfold ProgImage.read ProgImage.write
  split
  · rw [lookupAt_removeAt]; simp_all
  · rw [lookupAt_insertAt]

end Sys2Proof.Machine
end

