-- ==== Sys2Proof/Laws/State.lean ====
section
/-!
SUPPORT. One lemma per field per named update of the state, each true by rfl.
-/

namespace Sys2Proof.Machine

/-! setPc -/
@[simp] theorem State.setPc_dev (s : State) (v : PAddr) : (s.setPc v).dev = s.dev := rfl
@[simp] theorem State.setPc_w (s : State) (v : PAddr) : (s.setPc v).w = s.w := rfl
@[simp] theorem State.setPc_w15 (s : State) (v : PAddr) : (s.setPc v).w15 = s.w15 := rfl
@[simp] theorem State.setPc_acca (s : State) (v : PAddr) : (s.setPc v).acca = s.acca := rfl
@[simp] theorem State.setPc_accb (s : State) (v : PAddr) : (s.setPc v).accb = s.accb := rfl
@[simp] theorem State.setPc_pc (s : State) (v : PAddr) : (s.setPc v).pc = v := rfl
@[simp] theorem State.setPc_sr (s : State) (v : PAddr) : (s.setPc v).sr = s.sr := rfl
@[simp] theorem State.setPc_cor (s : State) (v : PAddr) : (s.setPc v).cor = s.cor := rfl
@[simp] theorem State.setPc_cctxi (s : State) (v : PAddr) : (s.setPc v).cctxi = s.cctxi := rfl
@[simp] theorem State.setPc_mctxi (s : State) (v : PAddr) : (s.setPc v).mctxi = s.mctxi := rfl
@[simp] theorem State.setPc_splim (s : State) (v : PAddr) : (s.setPc v).splim = s.splim := rfl
@[simp] theorem State.setPc_splimEn (s : State) (v : PAddr) : (s.setPc v).splimEn = s.splimEn := rfl
@[simp] theorem State.setPc_tblpag (s : State) (v : PAddr) : (s.setPc v).tblpag = s.tblpag := rfl
@[simp] theorem State.setPc_dsrpag (s : State) (v : PAddr) : (s.setPc v).dsrpag = s.dsrpag := rfl
@[simp] theorem State.setPc_dswpag (s : State) (v : PAddr) : (s.setPc v).dswpag = s.dswpag := rfl
@[simp] theorem State.setPc_rcount (s : State) (v : PAddr) : (s.setPc v).rcount = s.rcount := rfl
@[simp] theorem State.setPc_dcount (s : State) (v : PAddr) : (s.setPc v).dcount = s.dcount := rfl
@[simp] theorem State.setPc_dostart (s : State) (v : PAddr) : (s.setPc v).dostart = s.dostart := rfl
@[simp] theorem State.setPc_doend (s : State) (v : PAddr) : (s.setPc v).doend = s.doend := rfl
@[simp] theorem State.setPc_doStack (s : State) (v : PAddr) : (s.setPc v).doStack = s.doStack := rfl
@[simp] theorem State.setPc_edtPending (s : State) (v : PAddr) : (s.setPc v).edtPending = s.edtPending := rfl
@[simp] theorem State.setPc_edtLate (s : State) (v : PAddr) : (s.setPc v).edtLate = s.edtLate := rfl
@[simp] theorem State.setPc_modcon (s : State) (v : PAddr) : (s.setPc v).modcon = s.modcon := rfl
@[simp] theorem State.setPc_xmodsrt (s : State) (v : PAddr) : (s.setPc v).xmodsrt = s.xmodsrt := rfl
@[simp] theorem State.setPc_xmodend (s : State) (v : PAddr) : (s.setPc v).xmodend = s.xmodend := rfl
@[simp] theorem State.setPc_ymodsrt (s : State) (v : PAddr) : (s.setPc v).ymodsrt = s.ymodsrt := rfl
@[simp] theorem State.setPc_ymodend (s : State) (v : PAddr) : (s.setPc v).ymodend = s.ymodend := rfl
@[simp] theorem State.setPc_xbrev (s : State) (v : PAddr) : (s.setPc v).xbrev = s.xbrev := rfl
@[simp] theorem State.setPc_mstrpr (s : State) (v : PAddr) : (s.setPc v).mstrpr = s.mstrpr := rfl
@[simp] theorem State.setPc_disicnt (s : State) (v : PAddr) : (s.setPc v).disicnt = s.disicnt := rfl
@[simp] theorem State.setPc_shadow (s : State) (v : PAddr) : (s.setPc v).shadow = s.shadow := rfl
@[simp] theorem State.setPc_intc (s : State) (v : PAddr) : (s.setPc v).intc = s.intc := rfl
@[simp] theorem State.setPc_pend (s : State) (v : PAddr) : (s.setPc v).pend = s.pend := rfl
@[simp] theorem State.setPc_ext (s : State) (v : PAddr) : (s.setPc v).ext = s.ext := rfl
@[simp] theorem State.setPc_active (s : State) (v : PAddr) : (s.setPc v).active = s.active := rfl
@[simp] theorem State.setPc_div (s : State) (v : PAddr) : (s.setPc v).div = s.div := rfl
@[simp] theorem State.setPc_held (s : State) (v : PAddr) : (s.setPc v).held = s.held := rfl
@[simp] theorem State.setPc_mem (s : State) (v : PAddr) : (s.setPc v).mem = s.mem := rfl
@[simp] theorem State.setPc_prog (s : State) (v : PAddr) : (s.setPc v).prog = s.prog := rfl
@[simp] theorem State.setPc_fresh (s : State) (v : PAddr) : (s.setPc v).fresh = s.fresh := rfl
@[simp] theorem State.setPc_trk (s : State) (v : PAddr) : (s.setPc v).trk = s.trk := rfl

/-! setSr -/
@[simp] theorem State.setSr_dev (s : State) (v : Status) : (s.setSr v).dev = s.dev := rfl
@[simp] theorem State.setSr_w (s : State) (v : Status) : (s.setSr v).w = s.w := rfl
@[simp] theorem State.setSr_w15 (s : State) (v : Status) : (s.setSr v).w15 = s.w15 := rfl
@[simp] theorem State.setSr_acca (s : State) (v : Status) : (s.setSr v).acca = s.acca := rfl
@[simp] theorem State.setSr_accb (s : State) (v : Status) : (s.setSr v).accb = s.accb := rfl
@[simp] theorem State.setSr_pc (s : State) (v : Status) : (s.setSr v).pc = s.pc := rfl
@[simp] theorem State.setSr_sr (s : State) (v : Status) : (s.setSr v).sr = v := rfl
@[simp] theorem State.setSr_cor (s : State) (v : Status) : (s.setSr v).cor = s.cor := rfl
@[simp] theorem State.setSr_cctxi (s : State) (v : Status) : (s.setSr v).cctxi = s.cctxi := rfl
@[simp] theorem State.setSr_mctxi (s : State) (v : Status) : (s.setSr v).mctxi = s.mctxi := rfl
@[simp] theorem State.setSr_splim (s : State) (v : Status) : (s.setSr v).splim = s.splim := rfl
@[simp] theorem State.setSr_splimEn (s : State) (v : Status) : (s.setSr v).splimEn = s.splimEn := rfl
@[simp] theorem State.setSr_tblpag (s : State) (v : Status) : (s.setSr v).tblpag = s.tblpag := rfl
@[simp] theorem State.setSr_dsrpag (s : State) (v : Status) : (s.setSr v).dsrpag = s.dsrpag := rfl
@[simp] theorem State.setSr_dswpag (s : State) (v : Status) : (s.setSr v).dswpag = s.dswpag := rfl
@[simp] theorem State.setSr_rcount (s : State) (v : Status) : (s.setSr v).rcount = s.rcount := rfl
@[simp] theorem State.setSr_dcount (s : State) (v : Status) : (s.setSr v).dcount = s.dcount := rfl
@[simp] theorem State.setSr_dostart (s : State) (v : Status) : (s.setSr v).dostart = s.dostart := rfl
@[simp] theorem State.setSr_doend (s : State) (v : Status) : (s.setSr v).doend = s.doend := rfl
@[simp] theorem State.setSr_doStack (s : State) (v : Status) : (s.setSr v).doStack = s.doStack := rfl
@[simp] theorem State.setSr_edtPending (s : State) (v : Status) : (s.setSr v).edtPending = s.edtPending := rfl
@[simp] theorem State.setSr_edtLate (s : State) (v : Status) : (s.setSr v).edtLate = s.edtLate := rfl
@[simp] theorem State.setSr_modcon (s : State) (v : Status) : (s.setSr v).modcon = s.modcon := rfl
@[simp] theorem State.setSr_xmodsrt (s : State) (v : Status) : (s.setSr v).xmodsrt = s.xmodsrt := rfl
@[simp] theorem State.setSr_xmodend (s : State) (v : Status) : (s.setSr v).xmodend = s.xmodend := rfl
@[simp] theorem State.setSr_ymodsrt (s : State) (v : Status) : (s.setSr v).ymodsrt = s.ymodsrt := rfl
@[simp] theorem State.setSr_ymodend (s : State) (v : Status) : (s.setSr v).ymodend = s.ymodend := rfl
@[simp] theorem State.setSr_xbrev (s : State) (v : Status) : (s.setSr v).xbrev = s.xbrev := rfl
@[simp] theorem State.setSr_mstrpr (s : State) (v : Status) : (s.setSr v).mstrpr = s.mstrpr := rfl
@[simp] theorem State.setSr_disicnt (s : State) (v : Status) : (s.setSr v).disicnt = s.disicnt := rfl
@[simp] theorem State.setSr_shadow (s : State) (v : Status) : (s.setSr v).shadow = s.shadow := rfl
@[simp] theorem State.setSr_intc (s : State) (v : Status) : (s.setSr v).intc = s.intc := rfl
@[simp] theorem State.setSr_pend (s : State) (v : Status) : (s.setSr v).pend = s.pend := rfl
@[simp] theorem State.setSr_ext (s : State) (v : Status) : (s.setSr v).ext = s.ext := rfl
@[simp] theorem State.setSr_active (s : State) (v : Status) : (s.setSr v).active = s.active := rfl
@[simp] theorem State.setSr_div (s : State) (v : Status) : (s.setSr v).div = s.div := rfl
@[simp] theorem State.setSr_held (s : State) (v : Status) : (s.setSr v).held = s.held := rfl
@[simp] theorem State.setSr_mem (s : State) (v : Status) : (s.setSr v).mem = s.mem := rfl
@[simp] theorem State.setSr_prog (s : State) (v : Status) : (s.setSr v).prog = s.prog := rfl
@[simp] theorem State.setSr_fresh (s : State) (v : Status) : (s.setSr v).fresh = s.fresh := rfl
@[simp] theorem State.setSr_trk (s : State) (v : Status) : (s.setSr v).trk = s.trk := rfl

/-! setCor -/
@[simp] theorem State.setCor_dev (s : State) (v : Corcon) : (s.setCor v).dev = s.dev := rfl
@[simp] theorem State.setCor_w (s : State) (v : Corcon) : (s.setCor v).w = s.w := rfl
@[simp] theorem State.setCor_w15 (s : State) (v : Corcon) : (s.setCor v).w15 = s.w15 := rfl
@[simp] theorem State.setCor_acca (s : State) (v : Corcon) : (s.setCor v).acca = s.acca := rfl
@[simp] theorem State.setCor_accb (s : State) (v : Corcon) : (s.setCor v).accb = s.accb := rfl
@[simp] theorem State.setCor_pc (s : State) (v : Corcon) : (s.setCor v).pc = s.pc := rfl
@[simp] theorem State.setCor_sr (s : State) (v : Corcon) : (s.setCor v).sr = s.sr := rfl
@[simp] theorem State.setCor_cor (s : State) (v : Corcon) : (s.setCor v).cor = v := rfl
@[simp] theorem State.setCor_cctxi (s : State) (v : Corcon) : (s.setCor v).cctxi = s.cctxi := rfl
@[simp] theorem State.setCor_mctxi (s : State) (v : Corcon) : (s.setCor v).mctxi = s.mctxi := rfl
@[simp] theorem State.setCor_splim (s : State) (v : Corcon) : (s.setCor v).splim = s.splim := rfl
@[simp] theorem State.setCor_splimEn (s : State) (v : Corcon) : (s.setCor v).splimEn = s.splimEn := rfl
@[simp] theorem State.setCor_tblpag (s : State) (v : Corcon) : (s.setCor v).tblpag = s.tblpag := rfl
@[simp] theorem State.setCor_dsrpag (s : State) (v : Corcon) : (s.setCor v).dsrpag = s.dsrpag := rfl
@[simp] theorem State.setCor_dswpag (s : State) (v : Corcon) : (s.setCor v).dswpag = s.dswpag := rfl
@[simp] theorem State.setCor_rcount (s : State) (v : Corcon) : (s.setCor v).rcount = s.rcount := rfl
@[simp] theorem State.setCor_dcount (s : State) (v : Corcon) : (s.setCor v).dcount = s.dcount := rfl
@[simp] theorem State.setCor_dostart (s : State) (v : Corcon) : (s.setCor v).dostart = s.dostart := rfl
@[simp] theorem State.setCor_doend (s : State) (v : Corcon) : (s.setCor v).doend = s.doend := rfl
@[simp] theorem State.setCor_doStack (s : State) (v : Corcon) : (s.setCor v).doStack = s.doStack := rfl
@[simp] theorem State.setCor_edtPending (s : State) (v : Corcon) : (s.setCor v).edtPending = s.edtPending := rfl
@[simp] theorem State.setCor_edtLate (s : State) (v : Corcon) : (s.setCor v).edtLate = s.edtLate := rfl
@[simp] theorem State.setCor_modcon (s : State) (v : Corcon) : (s.setCor v).modcon = s.modcon := rfl
@[simp] theorem State.setCor_xmodsrt (s : State) (v : Corcon) : (s.setCor v).xmodsrt = s.xmodsrt := rfl
@[simp] theorem State.setCor_xmodend (s : State) (v : Corcon) : (s.setCor v).xmodend = s.xmodend := rfl
@[simp] theorem State.setCor_ymodsrt (s : State) (v : Corcon) : (s.setCor v).ymodsrt = s.ymodsrt := rfl
@[simp] theorem State.setCor_ymodend (s : State) (v : Corcon) : (s.setCor v).ymodend = s.ymodend := rfl
@[simp] theorem State.setCor_xbrev (s : State) (v : Corcon) : (s.setCor v).xbrev = s.xbrev := rfl
@[simp] theorem State.setCor_mstrpr (s : State) (v : Corcon) : (s.setCor v).mstrpr = s.mstrpr := rfl
@[simp] theorem State.setCor_disicnt (s : State) (v : Corcon) : (s.setCor v).disicnt = s.disicnt := rfl
@[simp] theorem State.setCor_shadow (s : State) (v : Corcon) : (s.setCor v).shadow = s.shadow := rfl
@[simp] theorem State.setCor_intc (s : State) (v : Corcon) : (s.setCor v).intc = s.intc := rfl
@[simp] theorem State.setCor_pend (s : State) (v : Corcon) : (s.setCor v).pend = s.pend := rfl
@[simp] theorem State.setCor_ext (s : State) (v : Corcon) : (s.setCor v).ext = s.ext := rfl
@[simp] theorem State.setCor_active (s : State) (v : Corcon) : (s.setCor v).active = s.active := rfl
@[simp] theorem State.setCor_div (s : State) (v : Corcon) : (s.setCor v).div = s.div := rfl
@[simp] theorem State.setCor_held (s : State) (v : Corcon) : (s.setCor v).held = s.held := rfl
@[simp] theorem State.setCor_mem (s : State) (v : Corcon) : (s.setCor v).mem = s.mem := rfl
@[simp] theorem State.setCor_prog (s : State) (v : Corcon) : (s.setCor v).prog = s.prog := rfl
@[simp] theorem State.setCor_fresh (s : State) (v : Corcon) : (s.setCor v).fresh = s.fresh := rfl
@[simp] theorem State.setCor_trk (s : State) (v : Corcon) : (s.setCor v).trk = s.trk := rfl

/-! setBank -/
@[simp] theorem State.setBank_dev (s : State) (v : Vector WReg 75) : (s.setBank v).dev = s.dev := rfl
@[simp] theorem State.setBank_w (s : State) (v : Vector WReg 75) : (s.setBank v).w = v := rfl
@[simp] theorem State.setBank_w15 (s : State) (v : Vector WReg 75) : (s.setBank v).w15 = s.w15 := rfl
@[simp] theorem State.setBank_acca (s : State) (v : Vector WReg 75) : (s.setBank v).acca = s.acca := rfl
@[simp] theorem State.setBank_accb (s : State) (v : Vector WReg 75) : (s.setBank v).accb = s.accb := rfl
@[simp] theorem State.setBank_pc (s : State) (v : Vector WReg 75) : (s.setBank v).pc = s.pc := rfl
@[simp] theorem State.setBank_sr (s : State) (v : Vector WReg 75) : (s.setBank v).sr = s.sr := rfl
@[simp] theorem State.setBank_cor (s : State) (v : Vector WReg 75) : (s.setBank v).cor = s.cor := rfl
@[simp] theorem State.setBank_cctxi (s : State) (v : Vector WReg 75) : (s.setBank v).cctxi = s.cctxi := rfl
@[simp] theorem State.setBank_mctxi (s : State) (v : Vector WReg 75) : (s.setBank v).mctxi = s.mctxi := rfl
@[simp] theorem State.setBank_splim (s : State) (v : Vector WReg 75) : (s.setBank v).splim = s.splim := rfl
@[simp] theorem State.setBank_splimEn (s : State) (v : Vector WReg 75) : (s.setBank v).splimEn = s.splimEn := rfl
@[simp] theorem State.setBank_tblpag (s : State) (v : Vector WReg 75) : (s.setBank v).tblpag = s.tblpag := rfl
@[simp] theorem State.setBank_dsrpag (s : State) (v : Vector WReg 75) : (s.setBank v).dsrpag = s.dsrpag := rfl
@[simp] theorem State.setBank_dswpag (s : State) (v : Vector WReg 75) : (s.setBank v).dswpag = s.dswpag := rfl
@[simp] theorem State.setBank_rcount (s : State) (v : Vector WReg 75) : (s.setBank v).rcount = s.rcount := rfl
@[simp] theorem State.setBank_dcount (s : State) (v : Vector WReg 75) : (s.setBank v).dcount = s.dcount := rfl
@[simp] theorem State.setBank_dostart (s : State) (v : Vector WReg 75) : (s.setBank v).dostart = s.dostart := rfl
@[simp] theorem State.setBank_doend (s : State) (v : Vector WReg 75) : (s.setBank v).doend = s.doend := rfl
@[simp] theorem State.setBank_doStack (s : State) (v : Vector WReg 75) : (s.setBank v).doStack = s.doStack := rfl
@[simp] theorem State.setBank_edtPending (s : State) (v : Vector WReg 75) : (s.setBank v).edtPending = s.edtPending := rfl
@[simp] theorem State.setBank_edtLate (s : State) (v : Vector WReg 75) : (s.setBank v).edtLate = s.edtLate := rfl
@[simp] theorem State.setBank_modcon (s : State) (v : Vector WReg 75) : (s.setBank v).modcon = s.modcon := rfl
@[simp] theorem State.setBank_xmodsrt (s : State) (v : Vector WReg 75) : (s.setBank v).xmodsrt = s.xmodsrt := rfl
@[simp] theorem State.setBank_xmodend (s : State) (v : Vector WReg 75) : (s.setBank v).xmodend = s.xmodend := rfl
@[simp] theorem State.setBank_ymodsrt (s : State) (v : Vector WReg 75) : (s.setBank v).ymodsrt = s.ymodsrt := rfl
@[simp] theorem State.setBank_ymodend (s : State) (v : Vector WReg 75) : (s.setBank v).ymodend = s.ymodend := rfl
@[simp] theorem State.setBank_xbrev (s : State) (v : Vector WReg 75) : (s.setBank v).xbrev = s.xbrev := rfl
@[simp] theorem State.setBank_mstrpr (s : State) (v : Vector WReg 75) : (s.setBank v).mstrpr = s.mstrpr := rfl
@[simp] theorem State.setBank_disicnt (s : State) (v : Vector WReg 75) : (s.setBank v).disicnt = s.disicnt := rfl
@[simp] theorem State.setBank_shadow (s : State) (v : Vector WReg 75) : (s.setBank v).shadow = s.shadow := rfl
@[simp] theorem State.setBank_intc (s : State) (v : Vector WReg 75) : (s.setBank v).intc = s.intc := rfl
@[simp] theorem State.setBank_pend (s : State) (v : Vector WReg 75) : (s.setBank v).pend = s.pend := rfl
@[simp] theorem State.setBank_ext (s : State) (v : Vector WReg 75) : (s.setBank v).ext = s.ext := rfl
@[simp] theorem State.setBank_active (s : State) (v : Vector WReg 75) : (s.setBank v).active = s.active := rfl
@[simp] theorem State.setBank_div (s : State) (v : Vector WReg 75) : (s.setBank v).div = s.div := rfl
@[simp] theorem State.setBank_held (s : State) (v : Vector WReg 75) : (s.setBank v).held = s.held := rfl
@[simp] theorem State.setBank_mem (s : State) (v : Vector WReg 75) : (s.setBank v).mem = s.mem := rfl
@[simp] theorem State.setBank_prog (s : State) (v : Vector WReg 75) : (s.setBank v).prog = s.prog := rfl
@[simp] theorem State.setBank_fresh (s : State) (v : Vector WReg 75) : (s.setBank v).fresh = s.fresh := rfl
@[simp] theorem State.setBank_trk (s : State) (v : Vector WReg 75) : (s.setBank v).trk = s.trk := rfl

/-! setW15 -/
@[simp] theorem State.setW15_dev (s : State) (v : Word) : (s.setW15 v).dev = s.dev := rfl
@[simp] theorem State.setW15_w (s : State) (v : Word) : (s.setW15 v).w = s.w := rfl
@[simp] theorem State.setW15_w15 (s : State) (v : Word) : (s.setW15 v).w15 = v := rfl
@[simp] theorem State.setW15_acca (s : State) (v : Word) : (s.setW15 v).acca = s.acca := rfl
@[simp] theorem State.setW15_accb (s : State) (v : Word) : (s.setW15 v).accb = s.accb := rfl
@[simp] theorem State.setW15_pc (s : State) (v : Word) : (s.setW15 v).pc = s.pc := rfl
@[simp] theorem State.setW15_sr (s : State) (v : Word) : (s.setW15 v).sr = s.sr := rfl
@[simp] theorem State.setW15_cor (s : State) (v : Word) : (s.setW15 v).cor = s.cor := rfl
@[simp] theorem State.setW15_cctxi (s : State) (v : Word) : (s.setW15 v).cctxi = s.cctxi := rfl
@[simp] theorem State.setW15_mctxi (s : State) (v : Word) : (s.setW15 v).mctxi = s.mctxi := rfl
@[simp] theorem State.setW15_splim (s : State) (v : Word) : (s.setW15 v).splim = s.splim := rfl
@[simp] theorem State.setW15_splimEn (s : State) (v : Word) : (s.setW15 v).splimEn = s.splimEn := rfl
@[simp] theorem State.setW15_tblpag (s : State) (v : Word) : (s.setW15 v).tblpag = s.tblpag := rfl
@[simp] theorem State.setW15_dsrpag (s : State) (v : Word) : (s.setW15 v).dsrpag = s.dsrpag := rfl
@[simp] theorem State.setW15_dswpag (s : State) (v : Word) : (s.setW15 v).dswpag = s.dswpag := rfl
@[simp] theorem State.setW15_rcount (s : State) (v : Word) : (s.setW15 v).rcount = s.rcount := rfl
@[simp] theorem State.setW15_dcount (s : State) (v : Word) : (s.setW15 v).dcount = s.dcount := rfl
@[simp] theorem State.setW15_dostart (s : State) (v : Word) : (s.setW15 v).dostart = s.dostart := rfl
@[simp] theorem State.setW15_doend (s : State) (v : Word) : (s.setW15 v).doend = s.doend := rfl
@[simp] theorem State.setW15_doStack (s : State) (v : Word) : (s.setW15 v).doStack = s.doStack := rfl
@[simp] theorem State.setW15_edtPending (s : State) (v : Word) : (s.setW15 v).edtPending = s.edtPending := rfl
@[simp] theorem State.setW15_edtLate (s : State) (v : Word) : (s.setW15 v).edtLate = s.edtLate := rfl
@[simp] theorem State.setW15_modcon (s : State) (v : Word) : (s.setW15 v).modcon = s.modcon := rfl
@[simp] theorem State.setW15_xmodsrt (s : State) (v : Word) : (s.setW15 v).xmodsrt = s.xmodsrt := rfl
@[simp] theorem State.setW15_xmodend (s : State) (v : Word) : (s.setW15 v).xmodend = s.xmodend := rfl
@[simp] theorem State.setW15_ymodsrt (s : State) (v : Word) : (s.setW15 v).ymodsrt = s.ymodsrt := rfl
@[simp] theorem State.setW15_ymodend (s : State) (v : Word) : (s.setW15 v).ymodend = s.ymodend := rfl
@[simp] theorem State.setW15_xbrev (s : State) (v : Word) : (s.setW15 v).xbrev = s.xbrev := rfl
@[simp] theorem State.setW15_mstrpr (s : State) (v : Word) : (s.setW15 v).mstrpr = s.mstrpr := rfl
@[simp] theorem State.setW15_disicnt (s : State) (v : Word) : (s.setW15 v).disicnt = s.disicnt := rfl
@[simp] theorem State.setW15_shadow (s : State) (v : Word) : (s.setW15 v).shadow = s.shadow := rfl
@[simp] theorem State.setW15_intc (s : State) (v : Word) : (s.setW15 v).intc = s.intc := rfl
@[simp] theorem State.setW15_pend (s : State) (v : Word) : (s.setW15 v).pend = s.pend := rfl
@[simp] theorem State.setW15_ext (s : State) (v : Word) : (s.setW15 v).ext = s.ext := rfl
@[simp] theorem State.setW15_active (s : State) (v : Word) : (s.setW15 v).active = s.active := rfl
@[simp] theorem State.setW15_div (s : State) (v : Word) : (s.setW15 v).div = s.div := rfl
@[simp] theorem State.setW15_held (s : State) (v : Word) : (s.setW15 v).held = s.held := rfl
@[simp] theorem State.setW15_mem (s : State) (v : Word) : (s.setW15 v).mem = s.mem := rfl
@[simp] theorem State.setW15_prog (s : State) (v : Word) : (s.setW15 v).prog = s.prog := rfl
@[simp] theorem State.setW15_fresh (s : State) (v : Word) : (s.setW15 v).fresh = s.fresh := rfl
@[simp] theorem State.setW15_trk (s : State) (v : Word) : (s.setW15 v).trk = s.trk := rfl

/-! setMem -/
@[simp] theorem State.setMem_dev (s : State) (v : Memory) : (s.setMem v).dev = s.dev := rfl
@[simp] theorem State.setMem_w (s : State) (v : Memory) : (s.setMem v).w = s.w := rfl
@[simp] theorem State.setMem_w15 (s : State) (v : Memory) : (s.setMem v).w15 = s.w15 := rfl
@[simp] theorem State.setMem_acca (s : State) (v : Memory) : (s.setMem v).acca = s.acca := rfl
@[simp] theorem State.setMem_accb (s : State) (v : Memory) : (s.setMem v).accb = s.accb := rfl
@[simp] theorem State.setMem_pc (s : State) (v : Memory) : (s.setMem v).pc = s.pc := rfl
@[simp] theorem State.setMem_sr (s : State) (v : Memory) : (s.setMem v).sr = s.sr := rfl
@[simp] theorem State.setMem_cor (s : State) (v : Memory) : (s.setMem v).cor = s.cor := rfl
@[simp] theorem State.setMem_cctxi (s : State) (v : Memory) : (s.setMem v).cctxi = s.cctxi := rfl
@[simp] theorem State.setMem_mctxi (s : State) (v : Memory) : (s.setMem v).mctxi = s.mctxi := rfl
@[simp] theorem State.setMem_splim (s : State) (v : Memory) : (s.setMem v).splim = s.splim := rfl
@[simp] theorem State.setMem_splimEn (s : State) (v : Memory) : (s.setMem v).splimEn = s.splimEn := rfl
@[simp] theorem State.setMem_tblpag (s : State) (v : Memory) : (s.setMem v).tblpag = s.tblpag := rfl
@[simp] theorem State.setMem_dsrpag (s : State) (v : Memory) : (s.setMem v).dsrpag = s.dsrpag := rfl
@[simp] theorem State.setMem_dswpag (s : State) (v : Memory) : (s.setMem v).dswpag = s.dswpag := rfl
@[simp] theorem State.setMem_rcount (s : State) (v : Memory) : (s.setMem v).rcount = s.rcount := rfl
@[simp] theorem State.setMem_dcount (s : State) (v : Memory) : (s.setMem v).dcount = s.dcount := rfl
@[simp] theorem State.setMem_dostart (s : State) (v : Memory) : (s.setMem v).dostart = s.dostart := rfl
@[simp] theorem State.setMem_doend (s : State) (v : Memory) : (s.setMem v).doend = s.doend := rfl
@[simp] theorem State.setMem_doStack (s : State) (v : Memory) : (s.setMem v).doStack = s.doStack := rfl
@[simp] theorem State.setMem_edtPending (s : State) (v : Memory) : (s.setMem v).edtPending = s.edtPending := rfl
@[simp] theorem State.setMem_edtLate (s : State) (v : Memory) : (s.setMem v).edtLate = s.edtLate := rfl
@[simp] theorem State.setMem_modcon (s : State) (v : Memory) : (s.setMem v).modcon = s.modcon := rfl
@[simp] theorem State.setMem_xmodsrt (s : State) (v : Memory) : (s.setMem v).xmodsrt = s.xmodsrt := rfl
@[simp] theorem State.setMem_xmodend (s : State) (v : Memory) : (s.setMem v).xmodend = s.xmodend := rfl
@[simp] theorem State.setMem_ymodsrt (s : State) (v : Memory) : (s.setMem v).ymodsrt = s.ymodsrt := rfl
@[simp] theorem State.setMem_ymodend (s : State) (v : Memory) : (s.setMem v).ymodend = s.ymodend := rfl
@[simp] theorem State.setMem_xbrev (s : State) (v : Memory) : (s.setMem v).xbrev = s.xbrev := rfl
@[simp] theorem State.setMem_mstrpr (s : State) (v : Memory) : (s.setMem v).mstrpr = s.mstrpr := rfl
@[simp] theorem State.setMem_disicnt (s : State) (v : Memory) : (s.setMem v).disicnt = s.disicnt := rfl
@[simp] theorem State.setMem_shadow (s : State) (v : Memory) : (s.setMem v).shadow = s.shadow := rfl
@[simp] theorem State.setMem_intc (s : State) (v : Memory) : (s.setMem v).intc = s.intc := rfl
@[simp] theorem State.setMem_pend (s : State) (v : Memory) : (s.setMem v).pend = s.pend := rfl
@[simp] theorem State.setMem_ext (s : State) (v : Memory) : (s.setMem v).ext = s.ext := rfl
@[simp] theorem State.setMem_active (s : State) (v : Memory) : (s.setMem v).active = s.active := rfl
@[simp] theorem State.setMem_div (s : State) (v : Memory) : (s.setMem v).div = s.div := rfl
@[simp] theorem State.setMem_held (s : State) (v : Memory) : (s.setMem v).held = s.held := rfl
@[simp] theorem State.setMem_mem (s : State) (v : Memory) : (s.setMem v).mem = v := rfl
@[simp] theorem State.setMem_prog (s : State) (v : Memory) : (s.setMem v).prog = s.prog := rfl
@[simp] theorem State.setMem_fresh (s : State) (v : Memory) : (s.setMem v).fresh = s.fresh := rfl
@[simp] theorem State.setMem_trk (s : State) (v : Memory) : (s.setMem v).trk = s.trk := rfl

/-! setAcca -/
@[simp] theorem State.setAcca_dev (s : State) (v : Acc40) : (s.setAcca v).dev = s.dev := rfl
@[simp] theorem State.setAcca_w (s : State) (v : Acc40) : (s.setAcca v).w = s.w := rfl
@[simp] theorem State.setAcca_w15 (s : State) (v : Acc40) : (s.setAcca v).w15 = s.w15 := rfl
@[simp] theorem State.setAcca_acca (s : State) (v : Acc40) : (s.setAcca v).acca = v := rfl
@[simp] theorem State.setAcca_accb (s : State) (v : Acc40) : (s.setAcca v).accb = s.accb := rfl
@[simp] theorem State.setAcca_pc (s : State) (v : Acc40) : (s.setAcca v).pc = s.pc := rfl
@[simp] theorem State.setAcca_sr (s : State) (v : Acc40) : (s.setAcca v).sr = s.sr := rfl
@[simp] theorem State.setAcca_cor (s : State) (v : Acc40) : (s.setAcca v).cor = s.cor := rfl
@[simp] theorem State.setAcca_cctxi (s : State) (v : Acc40) : (s.setAcca v).cctxi = s.cctxi := rfl
@[simp] theorem State.setAcca_mctxi (s : State) (v : Acc40) : (s.setAcca v).mctxi = s.mctxi := rfl
@[simp] theorem State.setAcca_splim (s : State) (v : Acc40) : (s.setAcca v).splim = s.splim := rfl
@[simp] theorem State.setAcca_splimEn (s : State) (v : Acc40) : (s.setAcca v).splimEn = s.splimEn := rfl
@[simp] theorem State.setAcca_tblpag (s : State) (v : Acc40) : (s.setAcca v).tblpag = s.tblpag := rfl
@[simp] theorem State.setAcca_dsrpag (s : State) (v : Acc40) : (s.setAcca v).dsrpag = s.dsrpag := rfl
@[simp] theorem State.setAcca_dswpag (s : State) (v : Acc40) : (s.setAcca v).dswpag = s.dswpag := rfl
@[simp] theorem State.setAcca_rcount (s : State) (v : Acc40) : (s.setAcca v).rcount = s.rcount := rfl
@[simp] theorem State.setAcca_dcount (s : State) (v : Acc40) : (s.setAcca v).dcount = s.dcount := rfl
@[simp] theorem State.setAcca_dostart (s : State) (v : Acc40) : (s.setAcca v).dostart = s.dostart := rfl
@[simp] theorem State.setAcca_doend (s : State) (v : Acc40) : (s.setAcca v).doend = s.doend := rfl
@[simp] theorem State.setAcca_doStack (s : State) (v : Acc40) : (s.setAcca v).doStack = s.doStack := rfl
@[simp] theorem State.setAcca_edtPending (s : State) (v : Acc40) : (s.setAcca v).edtPending = s.edtPending := rfl
@[simp] theorem State.setAcca_edtLate (s : State) (v : Acc40) : (s.setAcca v).edtLate = s.edtLate := rfl
@[simp] theorem State.setAcca_modcon (s : State) (v : Acc40) : (s.setAcca v).modcon = s.modcon := rfl
@[simp] theorem State.setAcca_xmodsrt (s : State) (v : Acc40) : (s.setAcca v).xmodsrt = s.xmodsrt := rfl
@[simp] theorem State.setAcca_xmodend (s : State) (v : Acc40) : (s.setAcca v).xmodend = s.xmodend := rfl
@[simp] theorem State.setAcca_ymodsrt (s : State) (v : Acc40) : (s.setAcca v).ymodsrt = s.ymodsrt := rfl
@[simp] theorem State.setAcca_ymodend (s : State) (v : Acc40) : (s.setAcca v).ymodend = s.ymodend := rfl
@[simp] theorem State.setAcca_xbrev (s : State) (v : Acc40) : (s.setAcca v).xbrev = s.xbrev := rfl
@[simp] theorem State.setAcca_mstrpr (s : State) (v : Acc40) : (s.setAcca v).mstrpr = s.mstrpr := rfl
@[simp] theorem State.setAcca_disicnt (s : State) (v : Acc40) : (s.setAcca v).disicnt = s.disicnt := rfl
@[simp] theorem State.setAcca_shadow (s : State) (v : Acc40) : (s.setAcca v).shadow = s.shadow := rfl
@[simp] theorem State.setAcca_intc (s : State) (v : Acc40) : (s.setAcca v).intc = s.intc := rfl
@[simp] theorem State.setAcca_pend (s : State) (v : Acc40) : (s.setAcca v).pend = s.pend := rfl
@[simp] theorem State.setAcca_ext (s : State) (v : Acc40) : (s.setAcca v).ext = s.ext := rfl
@[simp] theorem State.setAcca_active (s : State) (v : Acc40) : (s.setAcca v).active = s.active := rfl
@[simp] theorem State.setAcca_div (s : State) (v : Acc40) : (s.setAcca v).div = s.div := rfl
@[simp] theorem State.setAcca_held (s : State) (v : Acc40) : (s.setAcca v).held = s.held := rfl
@[simp] theorem State.setAcca_mem (s : State) (v : Acc40) : (s.setAcca v).mem = s.mem := rfl
@[simp] theorem State.setAcca_prog (s : State) (v : Acc40) : (s.setAcca v).prog = s.prog := rfl
@[simp] theorem State.setAcca_fresh (s : State) (v : Acc40) : (s.setAcca v).fresh = s.fresh := rfl
@[simp] theorem State.setAcca_trk (s : State) (v : Acc40) : (s.setAcca v).trk = s.trk := rfl

/-! setAccb -/
@[simp] theorem State.setAccb_dev (s : State) (v : Acc40) : (s.setAccb v).dev = s.dev := rfl
@[simp] theorem State.setAccb_w (s : State) (v : Acc40) : (s.setAccb v).w = s.w := rfl
@[simp] theorem State.setAccb_w15 (s : State) (v : Acc40) : (s.setAccb v).w15 = s.w15 := rfl
@[simp] theorem State.setAccb_acca (s : State) (v : Acc40) : (s.setAccb v).acca = s.acca := rfl
@[simp] theorem State.setAccb_accb (s : State) (v : Acc40) : (s.setAccb v).accb = v := rfl
@[simp] theorem State.setAccb_pc (s : State) (v : Acc40) : (s.setAccb v).pc = s.pc := rfl
@[simp] theorem State.setAccb_sr (s : State) (v : Acc40) : (s.setAccb v).sr = s.sr := rfl
@[simp] theorem State.setAccb_cor (s : State) (v : Acc40) : (s.setAccb v).cor = s.cor := rfl
@[simp] theorem State.setAccb_cctxi (s : State) (v : Acc40) : (s.setAccb v).cctxi = s.cctxi := rfl
@[simp] theorem State.setAccb_mctxi (s : State) (v : Acc40) : (s.setAccb v).mctxi = s.mctxi := rfl
@[simp] theorem State.setAccb_splim (s : State) (v : Acc40) : (s.setAccb v).splim = s.splim := rfl
@[simp] theorem State.setAccb_splimEn (s : State) (v : Acc40) : (s.setAccb v).splimEn = s.splimEn := rfl
@[simp] theorem State.setAccb_tblpag (s : State) (v : Acc40) : (s.setAccb v).tblpag = s.tblpag := rfl
@[simp] theorem State.setAccb_dsrpag (s : State) (v : Acc40) : (s.setAccb v).dsrpag = s.dsrpag := rfl
@[simp] theorem State.setAccb_dswpag (s : State) (v : Acc40) : (s.setAccb v).dswpag = s.dswpag := rfl
@[simp] theorem State.setAccb_rcount (s : State) (v : Acc40) : (s.setAccb v).rcount = s.rcount := rfl
@[simp] theorem State.setAccb_dcount (s : State) (v : Acc40) : (s.setAccb v).dcount = s.dcount := rfl
@[simp] theorem State.setAccb_dostart (s : State) (v : Acc40) : (s.setAccb v).dostart = s.dostart := rfl
@[simp] theorem State.setAccb_doend (s : State) (v : Acc40) : (s.setAccb v).doend = s.doend := rfl
@[simp] theorem State.setAccb_doStack (s : State) (v : Acc40) : (s.setAccb v).doStack = s.doStack := rfl
@[simp] theorem State.setAccb_edtPending (s : State) (v : Acc40) : (s.setAccb v).edtPending = s.edtPending := rfl
@[simp] theorem State.setAccb_edtLate (s : State) (v : Acc40) : (s.setAccb v).edtLate = s.edtLate := rfl
@[simp] theorem State.setAccb_modcon (s : State) (v : Acc40) : (s.setAccb v).modcon = s.modcon := rfl
@[simp] theorem State.setAccb_xmodsrt (s : State) (v : Acc40) : (s.setAccb v).xmodsrt = s.xmodsrt := rfl
@[simp] theorem State.setAccb_xmodend (s : State) (v : Acc40) : (s.setAccb v).xmodend = s.xmodend := rfl
@[simp] theorem State.setAccb_ymodsrt (s : State) (v : Acc40) : (s.setAccb v).ymodsrt = s.ymodsrt := rfl
@[simp] theorem State.setAccb_ymodend (s : State) (v : Acc40) : (s.setAccb v).ymodend = s.ymodend := rfl
@[simp] theorem State.setAccb_xbrev (s : State) (v : Acc40) : (s.setAccb v).xbrev = s.xbrev := rfl
@[simp] theorem State.setAccb_mstrpr (s : State) (v : Acc40) : (s.setAccb v).mstrpr = s.mstrpr := rfl
@[simp] theorem State.setAccb_disicnt (s : State) (v : Acc40) : (s.setAccb v).disicnt = s.disicnt := rfl
@[simp] theorem State.setAccb_shadow (s : State) (v : Acc40) : (s.setAccb v).shadow = s.shadow := rfl
@[simp] theorem State.setAccb_intc (s : State) (v : Acc40) : (s.setAccb v).intc = s.intc := rfl
@[simp] theorem State.setAccb_pend (s : State) (v : Acc40) : (s.setAccb v).pend = s.pend := rfl
@[simp] theorem State.setAccb_ext (s : State) (v : Acc40) : (s.setAccb v).ext = s.ext := rfl
@[simp] theorem State.setAccb_active (s : State) (v : Acc40) : (s.setAccb v).active = s.active := rfl
@[simp] theorem State.setAccb_div (s : State) (v : Acc40) : (s.setAccb v).div = s.div := rfl
@[simp] theorem State.setAccb_held (s : State) (v : Acc40) : (s.setAccb v).held = s.held := rfl
@[simp] theorem State.setAccb_mem (s : State) (v : Acc40) : (s.setAccb v).mem = s.mem := rfl
@[simp] theorem State.setAccb_prog (s : State) (v : Acc40) : (s.setAccb v).prog = s.prog := rfl
@[simp] theorem State.setAccb_fresh (s : State) (v : Acc40) : (s.setAccb v).fresh = s.fresh := rfl
@[simp] theorem State.setAccb_trk (s : State) (v : Acc40) : (s.setAccb v).trk = s.trk := rfl

/-! setPend -/
@[simp] theorem State.setPend_dev (s : State) (v : Pending) : (s.setPend v).dev = s.dev := rfl
@[simp] theorem State.setPend_w (s : State) (v : Pending) : (s.setPend v).w = s.w := rfl
@[simp] theorem State.setPend_w15 (s : State) (v : Pending) : (s.setPend v).w15 = s.w15 := rfl
@[simp] theorem State.setPend_acca (s : State) (v : Pending) : (s.setPend v).acca = s.acca := rfl
@[simp] theorem State.setPend_accb (s : State) (v : Pending) : (s.setPend v).accb = s.accb := rfl
@[simp] theorem State.setPend_pc (s : State) (v : Pending) : (s.setPend v).pc = s.pc := rfl
@[simp] theorem State.setPend_sr (s : State) (v : Pending) : (s.setPend v).sr = s.sr := rfl
@[simp] theorem State.setPend_cor (s : State) (v : Pending) : (s.setPend v).cor = s.cor := rfl
@[simp] theorem State.setPend_cctxi (s : State) (v : Pending) : (s.setPend v).cctxi = s.cctxi := rfl
@[simp] theorem State.setPend_mctxi (s : State) (v : Pending) : (s.setPend v).mctxi = s.mctxi := rfl
@[simp] theorem State.setPend_splim (s : State) (v : Pending) : (s.setPend v).splim = s.splim := rfl
@[simp] theorem State.setPend_splimEn (s : State) (v : Pending) : (s.setPend v).splimEn = s.splimEn := rfl
@[simp] theorem State.setPend_tblpag (s : State) (v : Pending) : (s.setPend v).tblpag = s.tblpag := rfl
@[simp] theorem State.setPend_dsrpag (s : State) (v : Pending) : (s.setPend v).dsrpag = s.dsrpag := rfl
@[simp] theorem State.setPend_dswpag (s : State) (v : Pending) : (s.setPend v).dswpag = s.dswpag := rfl
@[simp] theorem State.setPend_rcount (s : State) (v : Pending) : (s.setPend v).rcount = s.rcount := rfl
@[simp] theorem State.setPend_dcount (s : State) (v : Pending) : (s.setPend v).dcount = s.dcount := rfl
@[simp] theorem State.setPend_dostart (s : State) (v : Pending) : (s.setPend v).dostart = s.dostart := rfl
@[simp] theorem State.setPend_doend (s : State) (v : Pending) : (s.setPend v).doend = s.doend := rfl
@[simp] theorem State.setPend_doStack (s : State) (v : Pending) : (s.setPend v).doStack = s.doStack := rfl
@[simp] theorem State.setPend_edtPending (s : State) (v : Pending) : (s.setPend v).edtPending = s.edtPending := rfl
@[simp] theorem State.setPend_edtLate (s : State) (v : Pending) : (s.setPend v).edtLate = s.edtLate := rfl
@[simp] theorem State.setPend_modcon (s : State) (v : Pending) : (s.setPend v).modcon = s.modcon := rfl
@[simp] theorem State.setPend_xmodsrt (s : State) (v : Pending) : (s.setPend v).xmodsrt = s.xmodsrt := rfl
@[simp] theorem State.setPend_xmodend (s : State) (v : Pending) : (s.setPend v).xmodend = s.xmodend := rfl
@[simp] theorem State.setPend_ymodsrt (s : State) (v : Pending) : (s.setPend v).ymodsrt = s.ymodsrt := rfl
@[simp] theorem State.setPend_ymodend (s : State) (v : Pending) : (s.setPend v).ymodend = s.ymodend := rfl
@[simp] theorem State.setPend_xbrev (s : State) (v : Pending) : (s.setPend v).xbrev = s.xbrev := rfl
@[simp] theorem State.setPend_mstrpr (s : State) (v : Pending) : (s.setPend v).mstrpr = s.mstrpr := rfl
@[simp] theorem State.setPend_disicnt (s : State) (v : Pending) : (s.setPend v).disicnt = s.disicnt := rfl
@[simp] theorem State.setPend_shadow (s : State) (v : Pending) : (s.setPend v).shadow = s.shadow := rfl
@[simp] theorem State.setPend_intc (s : State) (v : Pending) : (s.setPend v).intc = s.intc := rfl
@[simp] theorem State.setPend_pend (s : State) (v : Pending) : (s.setPend v).pend = v := rfl
@[simp] theorem State.setPend_ext (s : State) (v : Pending) : (s.setPend v).ext = s.ext := rfl
@[simp] theorem State.setPend_active (s : State) (v : Pending) : (s.setPend v).active = s.active := rfl
@[simp] theorem State.setPend_div (s : State) (v : Pending) : (s.setPend v).div = s.div := rfl
@[simp] theorem State.setPend_held (s : State) (v : Pending) : (s.setPend v).held = s.held := rfl
@[simp] theorem State.setPend_mem (s : State) (v : Pending) : (s.setPend v).mem = s.mem := rfl
@[simp] theorem State.setPend_prog (s : State) (v : Pending) : (s.setPend v).prog = s.prog := rfl
@[simp] theorem State.setPend_fresh (s : State) (v : Pending) : (s.setPend v).fresh = s.fresh := rfl
@[simp] theorem State.setPend_trk (s : State) (v : Pending) : (s.setPend v).trk = s.trk := rfl

/-! setIntc -/
@[simp] theorem State.setIntc_dev (s : State) (v : IntCon) : (s.setIntc v).dev = s.dev := rfl
@[simp] theorem State.setIntc_w (s : State) (v : IntCon) : (s.setIntc v).w = s.w := rfl
@[simp] theorem State.setIntc_w15 (s : State) (v : IntCon) : (s.setIntc v).w15 = s.w15 := rfl
@[simp] theorem State.setIntc_acca (s : State) (v : IntCon) : (s.setIntc v).acca = s.acca := rfl
@[simp] theorem State.setIntc_accb (s : State) (v : IntCon) : (s.setIntc v).accb = s.accb := rfl
@[simp] theorem State.setIntc_pc (s : State) (v : IntCon) : (s.setIntc v).pc = s.pc := rfl
@[simp] theorem State.setIntc_sr (s : State) (v : IntCon) : (s.setIntc v).sr = s.sr := rfl
@[simp] theorem State.setIntc_cor (s : State) (v : IntCon) : (s.setIntc v).cor = s.cor := rfl
@[simp] theorem State.setIntc_cctxi (s : State) (v : IntCon) : (s.setIntc v).cctxi = s.cctxi := rfl
@[simp] theorem State.setIntc_mctxi (s : State) (v : IntCon) : (s.setIntc v).mctxi = s.mctxi := rfl
@[simp] theorem State.setIntc_splim (s : State) (v : IntCon) : (s.setIntc v).splim = s.splim := rfl
@[simp] theorem State.setIntc_splimEn (s : State) (v : IntCon) : (s.setIntc v).splimEn = s.splimEn := rfl
@[simp] theorem State.setIntc_tblpag (s : State) (v : IntCon) : (s.setIntc v).tblpag = s.tblpag := rfl
@[simp] theorem State.setIntc_dsrpag (s : State) (v : IntCon) : (s.setIntc v).dsrpag = s.dsrpag := rfl
@[simp] theorem State.setIntc_dswpag (s : State) (v : IntCon) : (s.setIntc v).dswpag = s.dswpag := rfl
@[simp] theorem State.setIntc_rcount (s : State) (v : IntCon) : (s.setIntc v).rcount = s.rcount := rfl
@[simp] theorem State.setIntc_dcount (s : State) (v : IntCon) : (s.setIntc v).dcount = s.dcount := rfl
@[simp] theorem State.setIntc_dostart (s : State) (v : IntCon) : (s.setIntc v).dostart = s.dostart := rfl
@[simp] theorem State.setIntc_doend (s : State) (v : IntCon) : (s.setIntc v).doend = s.doend := rfl
@[simp] theorem State.setIntc_doStack (s : State) (v : IntCon) : (s.setIntc v).doStack = s.doStack := rfl
@[simp] theorem State.setIntc_edtPending (s : State) (v : IntCon) : (s.setIntc v).edtPending = s.edtPending := rfl
@[simp] theorem State.setIntc_edtLate (s : State) (v : IntCon) : (s.setIntc v).edtLate = s.edtLate := rfl
@[simp] theorem State.setIntc_modcon (s : State) (v : IntCon) : (s.setIntc v).modcon = s.modcon := rfl
@[simp] theorem State.setIntc_xmodsrt (s : State) (v : IntCon) : (s.setIntc v).xmodsrt = s.xmodsrt := rfl
@[simp] theorem State.setIntc_xmodend (s : State) (v : IntCon) : (s.setIntc v).xmodend = s.xmodend := rfl
@[simp] theorem State.setIntc_ymodsrt (s : State) (v : IntCon) : (s.setIntc v).ymodsrt = s.ymodsrt := rfl
@[simp] theorem State.setIntc_ymodend (s : State) (v : IntCon) : (s.setIntc v).ymodend = s.ymodend := rfl
@[simp] theorem State.setIntc_xbrev (s : State) (v : IntCon) : (s.setIntc v).xbrev = s.xbrev := rfl
@[simp] theorem State.setIntc_mstrpr (s : State) (v : IntCon) : (s.setIntc v).mstrpr = s.mstrpr := rfl
@[simp] theorem State.setIntc_disicnt (s : State) (v : IntCon) : (s.setIntc v).disicnt = s.disicnt := rfl
@[simp] theorem State.setIntc_shadow (s : State) (v : IntCon) : (s.setIntc v).shadow = s.shadow := rfl
@[simp] theorem State.setIntc_intc (s : State) (v : IntCon) : (s.setIntc v).intc = v := rfl
@[simp] theorem State.setIntc_pend (s : State) (v : IntCon) : (s.setIntc v).pend = s.pend := rfl
@[simp] theorem State.setIntc_ext (s : State) (v : IntCon) : (s.setIntc v).ext = s.ext := rfl
@[simp] theorem State.setIntc_active (s : State) (v : IntCon) : (s.setIntc v).active = s.active := rfl
@[simp] theorem State.setIntc_div (s : State) (v : IntCon) : (s.setIntc v).div = s.div := rfl
@[simp] theorem State.setIntc_held (s : State) (v : IntCon) : (s.setIntc v).held = s.held := rfl
@[simp] theorem State.setIntc_mem (s : State) (v : IntCon) : (s.setIntc v).mem = s.mem := rfl
@[simp] theorem State.setIntc_prog (s : State) (v : IntCon) : (s.setIntc v).prog = s.prog := rfl
@[simp] theorem State.setIntc_fresh (s : State) (v : IntCon) : (s.setIntc v).fresh = s.fresh := rfl
@[simp] theorem State.setIntc_trk (s : State) (v : IntCon) : (s.setIntc v).trk = s.trk := rfl

/-! setTrk -/
@[simp] theorem State.setTrk_dev (s : State) (v : StepInfo) : (s.setTrk v).dev = s.dev := rfl
@[simp] theorem State.setTrk_w (s : State) (v : StepInfo) : (s.setTrk v).w = s.w := rfl
@[simp] theorem State.setTrk_w15 (s : State) (v : StepInfo) : (s.setTrk v).w15 = s.w15 := rfl
@[simp] theorem State.setTrk_acca (s : State) (v : StepInfo) : (s.setTrk v).acca = s.acca := rfl
@[simp] theorem State.setTrk_accb (s : State) (v : StepInfo) : (s.setTrk v).accb = s.accb := rfl
@[simp] theorem State.setTrk_pc (s : State) (v : StepInfo) : (s.setTrk v).pc = s.pc := rfl
@[simp] theorem State.setTrk_sr (s : State) (v : StepInfo) : (s.setTrk v).sr = s.sr := rfl
@[simp] theorem State.setTrk_cor (s : State) (v : StepInfo) : (s.setTrk v).cor = s.cor := rfl
@[simp] theorem State.setTrk_cctxi (s : State) (v : StepInfo) : (s.setTrk v).cctxi = s.cctxi := rfl
@[simp] theorem State.setTrk_mctxi (s : State) (v : StepInfo) : (s.setTrk v).mctxi = s.mctxi := rfl
@[simp] theorem State.setTrk_splim (s : State) (v : StepInfo) : (s.setTrk v).splim = s.splim := rfl
@[simp] theorem State.setTrk_splimEn (s : State) (v : StepInfo) : (s.setTrk v).splimEn = s.splimEn := rfl
@[simp] theorem State.setTrk_tblpag (s : State) (v : StepInfo) : (s.setTrk v).tblpag = s.tblpag := rfl
@[simp] theorem State.setTrk_dsrpag (s : State) (v : StepInfo) : (s.setTrk v).dsrpag = s.dsrpag := rfl
@[simp] theorem State.setTrk_dswpag (s : State) (v : StepInfo) : (s.setTrk v).dswpag = s.dswpag := rfl
@[simp] theorem State.setTrk_rcount (s : State) (v : StepInfo) : (s.setTrk v).rcount = s.rcount := rfl
@[simp] theorem State.setTrk_dcount (s : State) (v : StepInfo) : (s.setTrk v).dcount = s.dcount := rfl
@[simp] theorem State.setTrk_dostart (s : State) (v : StepInfo) : (s.setTrk v).dostart = s.dostart := rfl
@[simp] theorem State.setTrk_doend (s : State) (v : StepInfo) : (s.setTrk v).doend = s.doend := rfl
@[simp] theorem State.setTrk_doStack (s : State) (v : StepInfo) : (s.setTrk v).doStack = s.doStack := rfl
@[simp] theorem State.setTrk_edtPending (s : State) (v : StepInfo) : (s.setTrk v).edtPending = s.edtPending := rfl
@[simp] theorem State.setTrk_edtLate (s : State) (v : StepInfo) : (s.setTrk v).edtLate = s.edtLate := rfl
@[simp] theorem State.setTrk_modcon (s : State) (v : StepInfo) : (s.setTrk v).modcon = s.modcon := rfl
@[simp] theorem State.setTrk_xmodsrt (s : State) (v : StepInfo) : (s.setTrk v).xmodsrt = s.xmodsrt := rfl
@[simp] theorem State.setTrk_xmodend (s : State) (v : StepInfo) : (s.setTrk v).xmodend = s.xmodend := rfl
@[simp] theorem State.setTrk_ymodsrt (s : State) (v : StepInfo) : (s.setTrk v).ymodsrt = s.ymodsrt := rfl
@[simp] theorem State.setTrk_ymodend (s : State) (v : StepInfo) : (s.setTrk v).ymodend = s.ymodend := rfl
@[simp] theorem State.setTrk_xbrev (s : State) (v : StepInfo) : (s.setTrk v).xbrev = s.xbrev := rfl
@[simp] theorem State.setTrk_mstrpr (s : State) (v : StepInfo) : (s.setTrk v).mstrpr = s.mstrpr := rfl
@[simp] theorem State.setTrk_disicnt (s : State) (v : StepInfo) : (s.setTrk v).disicnt = s.disicnt := rfl
@[simp] theorem State.setTrk_shadow (s : State) (v : StepInfo) : (s.setTrk v).shadow = s.shadow := rfl
@[simp] theorem State.setTrk_intc (s : State) (v : StepInfo) : (s.setTrk v).intc = s.intc := rfl
@[simp] theorem State.setTrk_pend (s : State) (v : StepInfo) : (s.setTrk v).pend = s.pend := rfl
@[simp] theorem State.setTrk_ext (s : State) (v : StepInfo) : (s.setTrk v).ext = s.ext := rfl
@[simp] theorem State.setTrk_active (s : State) (v : StepInfo) : (s.setTrk v).active = s.active := rfl
@[simp] theorem State.setTrk_div (s : State) (v : StepInfo) : (s.setTrk v).div = s.div := rfl
@[simp] theorem State.setTrk_held (s : State) (v : StepInfo) : (s.setTrk v).held = s.held := rfl
@[simp] theorem State.setTrk_mem (s : State) (v : StepInfo) : (s.setTrk v).mem = s.mem := rfl
@[simp] theorem State.setTrk_prog (s : State) (v : StepInfo) : (s.setTrk v).prog = s.prog := rfl
@[simp] theorem State.setTrk_fresh (s : State) (v : StepInfo) : (s.setTrk v).fresh = s.fresh := rfl
@[simp] theorem State.setTrk_trk (s : State) (v : StepInfo) : (s.setTrk v).trk = v := rfl

/-! drawn -/
@[simp] theorem State.drawn_dev (s : State) : s.drawn.dev = s.dev := rfl
@[simp] theorem State.drawn_w (s : State) : s.drawn.w = s.w := rfl
@[simp] theorem State.drawn_w15 (s : State) : s.drawn.w15 = s.w15 := rfl
@[simp] theorem State.drawn_acca (s : State) : s.drawn.acca = s.acca := rfl
@[simp] theorem State.drawn_accb (s : State) : s.drawn.accb = s.accb := rfl
@[simp] theorem State.drawn_pc (s : State) : s.drawn.pc = s.pc := rfl
@[simp] theorem State.drawn_sr (s : State) : s.drawn.sr = s.sr := rfl
@[simp] theorem State.drawn_cor (s : State) : s.drawn.cor = s.cor := rfl
@[simp] theorem State.drawn_cctxi (s : State) : s.drawn.cctxi = s.cctxi := rfl
@[simp] theorem State.drawn_mctxi (s : State) : s.drawn.mctxi = s.mctxi := rfl
@[simp] theorem State.drawn_splim (s : State) : s.drawn.splim = s.splim := rfl
@[simp] theorem State.drawn_splimEn (s : State) : s.drawn.splimEn = s.splimEn := rfl
@[simp] theorem State.drawn_tblpag (s : State) : s.drawn.tblpag = s.tblpag := rfl
@[simp] theorem State.drawn_dsrpag (s : State) : s.drawn.dsrpag = s.dsrpag := rfl
@[simp] theorem State.drawn_dswpag (s : State) : s.drawn.dswpag = s.dswpag := rfl
@[simp] theorem State.drawn_rcount (s : State) : s.drawn.rcount = s.rcount := rfl
@[simp] theorem State.drawn_dcount (s : State) : s.drawn.dcount = s.dcount := rfl
@[simp] theorem State.drawn_dostart (s : State) : s.drawn.dostart = s.dostart := rfl
@[simp] theorem State.drawn_doend (s : State) : s.drawn.doend = s.doend := rfl
@[simp] theorem State.drawn_doStack (s : State) : s.drawn.doStack = s.doStack := rfl
@[simp] theorem State.drawn_edtPending (s : State) : s.drawn.edtPending = s.edtPending := rfl
@[simp] theorem State.drawn_edtLate (s : State) : s.drawn.edtLate = s.edtLate := rfl
@[simp] theorem State.drawn_modcon (s : State) : s.drawn.modcon = s.modcon := rfl
@[simp] theorem State.drawn_xmodsrt (s : State) : s.drawn.xmodsrt = s.xmodsrt := rfl
@[simp] theorem State.drawn_xmodend (s : State) : s.drawn.xmodend = s.xmodend := rfl
@[simp] theorem State.drawn_ymodsrt (s : State) : s.drawn.ymodsrt = s.ymodsrt := rfl
@[simp] theorem State.drawn_ymodend (s : State) : s.drawn.ymodend = s.ymodend := rfl
@[simp] theorem State.drawn_xbrev (s : State) : s.drawn.xbrev = s.xbrev := rfl
@[simp] theorem State.drawn_mstrpr (s : State) : s.drawn.mstrpr = s.mstrpr := rfl
@[simp] theorem State.drawn_disicnt (s : State) : s.drawn.disicnt = s.disicnt := rfl
@[simp] theorem State.drawn_shadow (s : State) : s.drawn.shadow = s.shadow := rfl
@[simp] theorem State.drawn_intc (s : State) : s.drawn.intc = s.intc := rfl
@[simp] theorem State.drawn_pend (s : State) : s.drawn.pend = s.pend := rfl
@[simp] theorem State.drawn_ext (s : State) : s.drawn.ext = s.ext := rfl
@[simp] theorem State.drawn_active (s : State) : s.drawn.active = s.active := rfl
@[simp] theorem State.drawn_div (s : State) : s.drawn.div = s.div := rfl
@[simp] theorem State.drawn_held (s : State) : s.drawn.held = s.held := rfl
@[simp] theorem State.drawn_mem (s : State) : s.drawn.mem = s.mem := rfl
@[simp] theorem State.drawn_prog (s : State) : s.drawn.prog = s.prog := rfl
@[simp] theorem State.drawn_fresh (s : State) : s.drawn.fresh = s.fresh + 1 := rfl
@[simp] theorem State.drawn_trk (s : State) : s.drawn.trk = s.trk := rfl

/-! setRcount -/
@[simp] theorem State.setRcount_dev (s : State) (v : Word) : (s.setRcount v).dev = s.dev := rfl
@[simp] theorem State.setRcount_w (s : State) (v : Word) : (s.setRcount v).w = s.w := rfl
@[simp] theorem State.setRcount_w15 (s : State) (v : Word) : (s.setRcount v).w15 = s.w15 := rfl
@[simp] theorem State.setRcount_acca (s : State) (v : Word) : (s.setRcount v).acca = s.acca := rfl
@[simp] theorem State.setRcount_accb (s : State) (v : Word) : (s.setRcount v).accb = s.accb := rfl
@[simp] theorem State.setRcount_pc (s : State) (v : Word) : (s.setRcount v).pc = s.pc := rfl
@[simp] theorem State.setRcount_sr (s : State) (v : Word) : (s.setRcount v).sr = s.sr := rfl
@[simp] theorem State.setRcount_cor (s : State) (v : Word) : (s.setRcount v).cor = s.cor := rfl
@[simp] theorem State.setRcount_cctxi (s : State) (v : Word) : (s.setRcount v).cctxi = s.cctxi := rfl
@[simp] theorem State.setRcount_mctxi (s : State) (v : Word) : (s.setRcount v).mctxi = s.mctxi := rfl
@[simp] theorem State.setRcount_splim (s : State) (v : Word) : (s.setRcount v).splim = s.splim := rfl
@[simp] theorem State.setRcount_splimEn (s : State) (v : Word) : (s.setRcount v).splimEn = s.splimEn := rfl
@[simp] theorem State.setRcount_tblpag (s : State) (v : Word) : (s.setRcount v).tblpag = s.tblpag := rfl
@[simp] theorem State.setRcount_dsrpag (s : State) (v : Word) : (s.setRcount v).dsrpag = s.dsrpag := rfl
@[simp] theorem State.setRcount_dswpag (s : State) (v : Word) : (s.setRcount v).dswpag = s.dswpag := rfl
@[simp] theorem State.setRcount_rcount (s : State) (v : Word) : (s.setRcount v).rcount = v := rfl
@[simp] theorem State.setRcount_dcount (s : State) (v : Word) : (s.setRcount v).dcount = s.dcount := rfl
@[simp] theorem State.setRcount_dostart (s : State) (v : Word) : (s.setRcount v).dostart = s.dostart := rfl
@[simp] theorem State.setRcount_doend (s : State) (v : Word) : (s.setRcount v).doend = s.doend := rfl
@[simp] theorem State.setRcount_doStack (s : State) (v : Word) : (s.setRcount v).doStack = s.doStack := rfl
@[simp] theorem State.setRcount_edtPending (s : State) (v : Word) : (s.setRcount v).edtPending = s.edtPending := rfl
@[simp] theorem State.setRcount_edtLate (s : State) (v : Word) : (s.setRcount v).edtLate = s.edtLate := rfl
@[simp] theorem State.setRcount_modcon (s : State) (v : Word) : (s.setRcount v).modcon = s.modcon := rfl
@[simp] theorem State.setRcount_xmodsrt (s : State) (v : Word) : (s.setRcount v).xmodsrt = s.xmodsrt := rfl
@[simp] theorem State.setRcount_xmodend (s : State) (v : Word) : (s.setRcount v).xmodend = s.xmodend := rfl
@[simp] theorem State.setRcount_ymodsrt (s : State) (v : Word) : (s.setRcount v).ymodsrt = s.ymodsrt := rfl
@[simp] theorem State.setRcount_ymodend (s : State) (v : Word) : (s.setRcount v).ymodend = s.ymodend := rfl
@[simp] theorem State.setRcount_xbrev (s : State) (v : Word) : (s.setRcount v).xbrev = s.xbrev := rfl
@[simp] theorem State.setRcount_mstrpr (s : State) (v : Word) : (s.setRcount v).mstrpr = s.mstrpr := rfl
@[simp] theorem State.setRcount_disicnt (s : State) (v : Word) : (s.setRcount v).disicnt = s.disicnt := rfl
@[simp] theorem State.setRcount_shadow (s : State) (v : Word) : (s.setRcount v).shadow = s.shadow := rfl
@[simp] theorem State.setRcount_intc (s : State) (v : Word) : (s.setRcount v).intc = s.intc := rfl
@[simp] theorem State.setRcount_pend (s : State) (v : Word) : (s.setRcount v).pend = s.pend := rfl
@[simp] theorem State.setRcount_ext (s : State) (v : Word) : (s.setRcount v).ext = s.ext := rfl
@[simp] theorem State.setRcount_active (s : State) (v : Word) : (s.setRcount v).active = s.active := rfl
@[simp] theorem State.setRcount_div (s : State) (v : Word) : (s.setRcount v).div = s.div := rfl
@[simp] theorem State.setRcount_held (s : State) (v : Word) : (s.setRcount v).held = s.held := rfl
@[simp] theorem State.setRcount_mem (s : State) (v : Word) : (s.setRcount v).mem = s.mem := rfl
@[simp] theorem State.setRcount_prog (s : State) (v : Word) : (s.setRcount v).prog = s.prog := rfl
@[simp] theorem State.setRcount_fresh (s : State) (v : Word) : (s.setRcount v).fresh = s.fresh := rfl
@[simp] theorem State.setRcount_trk (s : State) (v : Word) : (s.setRcount v).trk = s.trk := rfl

/-! setDisicnt -/
@[simp] theorem State.setDisicnt_dev (s : State) (v : BitVec 14) : (s.setDisicnt v).dev = s.dev := rfl
@[simp] theorem State.setDisicnt_w (s : State) (v : BitVec 14) : (s.setDisicnt v).w = s.w := rfl
@[simp] theorem State.setDisicnt_w15 (s : State) (v : BitVec 14) : (s.setDisicnt v).w15 = s.w15 := rfl
@[simp] theorem State.setDisicnt_acca (s : State) (v : BitVec 14) : (s.setDisicnt v).acca = s.acca := rfl
@[simp] theorem State.setDisicnt_accb (s : State) (v : BitVec 14) : (s.setDisicnt v).accb = s.accb := rfl
@[simp] theorem State.setDisicnt_pc (s : State) (v : BitVec 14) : (s.setDisicnt v).pc = s.pc := rfl
@[simp] theorem State.setDisicnt_sr (s : State) (v : BitVec 14) : (s.setDisicnt v).sr = s.sr := rfl
@[simp] theorem State.setDisicnt_cor (s : State) (v : BitVec 14) : (s.setDisicnt v).cor = s.cor := rfl
@[simp] theorem State.setDisicnt_cctxi (s : State) (v : BitVec 14) : (s.setDisicnt v).cctxi = s.cctxi := rfl
@[simp] theorem State.setDisicnt_mctxi (s : State) (v : BitVec 14) : (s.setDisicnt v).mctxi = s.mctxi := rfl
@[simp] theorem State.setDisicnt_splim (s : State) (v : BitVec 14) : (s.setDisicnt v).splim = s.splim := rfl
@[simp] theorem State.setDisicnt_splimEn (s : State) (v : BitVec 14) : (s.setDisicnt v).splimEn = s.splimEn := rfl
@[simp] theorem State.setDisicnt_tblpag (s : State) (v : BitVec 14) : (s.setDisicnt v).tblpag = s.tblpag := rfl
@[simp] theorem State.setDisicnt_dsrpag (s : State) (v : BitVec 14) : (s.setDisicnt v).dsrpag = s.dsrpag := rfl
@[simp] theorem State.setDisicnt_dswpag (s : State) (v : BitVec 14) : (s.setDisicnt v).dswpag = s.dswpag := rfl
@[simp] theorem State.setDisicnt_rcount (s : State) (v : BitVec 14) : (s.setDisicnt v).rcount = s.rcount := rfl
@[simp] theorem State.setDisicnt_dcount (s : State) (v : BitVec 14) : (s.setDisicnt v).dcount = s.dcount := rfl
@[simp] theorem State.setDisicnt_dostart (s : State) (v : BitVec 14) : (s.setDisicnt v).dostart = s.dostart := rfl
@[simp] theorem State.setDisicnt_doend (s : State) (v : BitVec 14) : (s.setDisicnt v).doend = s.doend := rfl
@[simp] theorem State.setDisicnt_doStack (s : State) (v : BitVec 14) : (s.setDisicnt v).doStack = s.doStack := rfl
@[simp] theorem State.setDisicnt_edtPending (s : State) (v : BitVec 14) : (s.setDisicnt v).edtPending = s.edtPending := rfl
@[simp] theorem State.setDisicnt_edtLate (s : State) (v : BitVec 14) : (s.setDisicnt v).edtLate = s.edtLate := rfl
@[simp] theorem State.setDisicnt_modcon (s : State) (v : BitVec 14) : (s.setDisicnt v).modcon = s.modcon := rfl
@[simp] theorem State.setDisicnt_xmodsrt (s : State) (v : BitVec 14) : (s.setDisicnt v).xmodsrt = s.xmodsrt := rfl
@[simp] theorem State.setDisicnt_xmodend (s : State) (v : BitVec 14) : (s.setDisicnt v).xmodend = s.xmodend := rfl
@[simp] theorem State.setDisicnt_ymodsrt (s : State) (v : BitVec 14) : (s.setDisicnt v).ymodsrt = s.ymodsrt := rfl
@[simp] theorem State.setDisicnt_ymodend (s : State) (v : BitVec 14) : (s.setDisicnt v).ymodend = s.ymodend := rfl
@[simp] theorem State.setDisicnt_xbrev (s : State) (v : BitVec 14) : (s.setDisicnt v).xbrev = s.xbrev := rfl
@[simp] theorem State.setDisicnt_mstrpr (s : State) (v : BitVec 14) : (s.setDisicnt v).mstrpr = s.mstrpr := rfl
@[simp] theorem State.setDisicnt_disicnt (s : State) (v : BitVec 14) : (s.setDisicnt v).disicnt = v := rfl
@[simp] theorem State.setDisicnt_shadow (s : State) (v : BitVec 14) : (s.setDisicnt v).shadow = s.shadow := rfl
@[simp] theorem State.setDisicnt_intc (s : State) (v : BitVec 14) : (s.setDisicnt v).intc = s.intc := rfl
@[simp] theorem State.setDisicnt_pend (s : State) (v : BitVec 14) : (s.setDisicnt v).pend = s.pend := rfl
@[simp] theorem State.setDisicnt_ext (s : State) (v : BitVec 14) : (s.setDisicnt v).ext = s.ext := rfl
@[simp] theorem State.setDisicnt_active (s : State) (v : BitVec 14) : (s.setDisicnt v).active = s.active := rfl
@[simp] theorem State.setDisicnt_div (s : State) (v : BitVec 14) : (s.setDisicnt v).div = s.div := rfl
@[simp] theorem State.setDisicnt_held (s : State) (v : BitVec 14) : (s.setDisicnt v).held = s.held := rfl
@[simp] theorem State.setDisicnt_mem (s : State) (v : BitVec 14) : (s.setDisicnt v).mem = s.mem := rfl
@[simp] theorem State.setDisicnt_prog (s : State) (v : BitVec 14) : (s.setDisicnt v).prog = s.prog := rfl
@[simp] theorem State.setDisicnt_fresh (s : State) (v : BitVec 14) : (s.setDisicnt v).fresh = s.fresh := rfl
@[simp] theorem State.setDisicnt_trk (s : State) (v : BitVec 14) : (s.setDisicnt v).trk = s.trk := rfl

/-! setCctxi -/
@[simp] theorem State.setCctxi_dev (s : State) (v : Fin 5) : (s.setCctxi v).dev = s.dev := rfl
@[simp] theorem State.setCctxi_w (s : State) (v : Fin 5) : (s.setCctxi v).w = s.w := rfl
@[simp] theorem State.setCctxi_w15 (s : State) (v : Fin 5) : (s.setCctxi v).w15 = s.w15 := rfl
@[simp] theorem State.setCctxi_acca (s : State) (v : Fin 5) : (s.setCctxi v).acca = s.acca := rfl
@[simp] theorem State.setCctxi_accb (s : State) (v : Fin 5) : (s.setCctxi v).accb = s.accb := rfl
@[simp] theorem State.setCctxi_pc (s : State) (v : Fin 5) : (s.setCctxi v).pc = s.pc := rfl
@[simp] theorem State.setCctxi_sr (s : State) (v : Fin 5) : (s.setCctxi v).sr = s.sr := rfl
@[simp] theorem State.setCctxi_cor (s : State) (v : Fin 5) : (s.setCctxi v).cor = s.cor := rfl
@[simp] theorem State.setCctxi_cctxi (s : State) (v : Fin 5) : (s.setCctxi v).cctxi = v := rfl
@[simp] theorem State.setCctxi_mctxi (s : State) (v : Fin 5) : (s.setCctxi v).mctxi = s.mctxi := rfl
@[simp] theorem State.setCctxi_splim (s : State) (v : Fin 5) : (s.setCctxi v).splim = s.splim := rfl
@[simp] theorem State.setCctxi_splimEn (s : State) (v : Fin 5) : (s.setCctxi v).splimEn = s.splimEn := rfl
@[simp] theorem State.setCctxi_tblpag (s : State) (v : Fin 5) : (s.setCctxi v).tblpag = s.tblpag := rfl
@[simp] theorem State.setCctxi_dsrpag (s : State) (v : Fin 5) : (s.setCctxi v).dsrpag = s.dsrpag := rfl
@[simp] theorem State.setCctxi_dswpag (s : State) (v : Fin 5) : (s.setCctxi v).dswpag = s.dswpag := rfl
@[simp] theorem State.setCctxi_rcount (s : State) (v : Fin 5) : (s.setCctxi v).rcount = s.rcount := rfl
@[simp] theorem State.setCctxi_dcount (s : State) (v : Fin 5) : (s.setCctxi v).dcount = s.dcount := rfl
@[simp] theorem State.setCctxi_dostart (s : State) (v : Fin 5) : (s.setCctxi v).dostart = s.dostart := rfl
@[simp] theorem State.setCctxi_doend (s : State) (v : Fin 5) : (s.setCctxi v).doend = s.doend := rfl
@[simp] theorem State.setCctxi_doStack (s : State) (v : Fin 5) : (s.setCctxi v).doStack = s.doStack := rfl
@[simp] theorem State.setCctxi_edtPending (s : State) (v : Fin 5) : (s.setCctxi v).edtPending = s.edtPending := rfl
@[simp] theorem State.setCctxi_edtLate (s : State) (v : Fin 5) : (s.setCctxi v).edtLate = s.edtLate := rfl
@[simp] theorem State.setCctxi_modcon (s : State) (v : Fin 5) : (s.setCctxi v).modcon = s.modcon := rfl
@[simp] theorem State.setCctxi_xmodsrt (s : State) (v : Fin 5) : (s.setCctxi v).xmodsrt = s.xmodsrt := rfl
@[simp] theorem State.setCctxi_xmodend (s : State) (v : Fin 5) : (s.setCctxi v).xmodend = s.xmodend := rfl
@[simp] theorem State.setCctxi_ymodsrt (s : State) (v : Fin 5) : (s.setCctxi v).ymodsrt = s.ymodsrt := rfl
@[simp] theorem State.setCctxi_ymodend (s : State) (v : Fin 5) : (s.setCctxi v).ymodend = s.ymodend := rfl
@[simp] theorem State.setCctxi_xbrev (s : State) (v : Fin 5) : (s.setCctxi v).xbrev = s.xbrev := rfl
@[simp] theorem State.setCctxi_mstrpr (s : State) (v : Fin 5) : (s.setCctxi v).mstrpr = s.mstrpr := rfl
@[simp] theorem State.setCctxi_disicnt (s : State) (v : Fin 5) : (s.setCctxi v).disicnt = s.disicnt := rfl
@[simp] theorem State.setCctxi_shadow (s : State) (v : Fin 5) : (s.setCctxi v).shadow = s.shadow := rfl
@[simp] theorem State.setCctxi_intc (s : State) (v : Fin 5) : (s.setCctxi v).intc = s.intc := rfl
@[simp] theorem State.setCctxi_pend (s : State) (v : Fin 5) : (s.setCctxi v).pend = s.pend := rfl
@[simp] theorem State.setCctxi_ext (s : State) (v : Fin 5) : (s.setCctxi v).ext = s.ext := rfl
@[simp] theorem State.setCctxi_active (s : State) (v : Fin 5) : (s.setCctxi v).active = s.active := rfl
@[simp] theorem State.setCctxi_div (s : State) (v : Fin 5) : (s.setCctxi v).div = s.div := rfl
@[simp] theorem State.setCctxi_held (s : State) (v : Fin 5) : (s.setCctxi v).held = s.held := rfl
@[simp] theorem State.setCctxi_mem (s : State) (v : Fin 5) : (s.setCctxi v).mem = s.mem := rfl
@[simp] theorem State.setCctxi_prog (s : State) (v : Fin 5) : (s.setCctxi v).prog = s.prog := rfl
@[simp] theorem State.setCctxi_fresh (s : State) (v : Fin 5) : (s.setCctxi v).fresh = s.fresh := rfl
@[simp] theorem State.setCctxi_trk (s : State) (v : Fin 5) : (s.setCctxi v).trk = s.trk := rfl

/-! setDiv -/
@[simp] theorem State.setDiv_dev (s : State) (v : Option DivRec) : (s.setDiv v).dev = s.dev := rfl
@[simp] theorem State.setDiv_w (s : State) (v : Option DivRec) : (s.setDiv v).w = s.w := rfl
@[simp] theorem State.setDiv_w15 (s : State) (v : Option DivRec) : (s.setDiv v).w15 = s.w15 := rfl
@[simp] theorem State.setDiv_acca (s : State) (v : Option DivRec) : (s.setDiv v).acca = s.acca := rfl
@[simp] theorem State.setDiv_accb (s : State) (v : Option DivRec) : (s.setDiv v).accb = s.accb := rfl
@[simp] theorem State.setDiv_pc (s : State) (v : Option DivRec) : (s.setDiv v).pc = s.pc := rfl
@[simp] theorem State.setDiv_sr (s : State) (v : Option DivRec) : (s.setDiv v).sr = s.sr := rfl
@[simp] theorem State.setDiv_cor (s : State) (v : Option DivRec) : (s.setDiv v).cor = s.cor := rfl
@[simp] theorem State.setDiv_cctxi (s : State) (v : Option DivRec) : (s.setDiv v).cctxi = s.cctxi := rfl
@[simp] theorem State.setDiv_mctxi (s : State) (v : Option DivRec) : (s.setDiv v).mctxi = s.mctxi := rfl
@[simp] theorem State.setDiv_splim (s : State) (v : Option DivRec) : (s.setDiv v).splim = s.splim := rfl
@[simp] theorem State.setDiv_splimEn (s : State) (v : Option DivRec) : (s.setDiv v).splimEn = s.splimEn := rfl
@[simp] theorem State.setDiv_tblpag (s : State) (v : Option DivRec) : (s.setDiv v).tblpag = s.tblpag := rfl
@[simp] theorem State.setDiv_dsrpag (s : State) (v : Option DivRec) : (s.setDiv v).dsrpag = s.dsrpag := rfl
@[simp] theorem State.setDiv_dswpag (s : State) (v : Option DivRec) : (s.setDiv v).dswpag = s.dswpag := rfl
@[simp] theorem State.setDiv_rcount (s : State) (v : Option DivRec) : (s.setDiv v).rcount = s.rcount := rfl
@[simp] theorem State.setDiv_dcount (s : State) (v : Option DivRec) : (s.setDiv v).dcount = s.dcount := rfl
@[simp] theorem State.setDiv_dostart (s : State) (v : Option DivRec) : (s.setDiv v).dostart = s.dostart := rfl
@[simp] theorem State.setDiv_doend (s : State) (v : Option DivRec) : (s.setDiv v).doend = s.doend := rfl
@[simp] theorem State.setDiv_doStack (s : State) (v : Option DivRec) : (s.setDiv v).doStack = s.doStack := rfl
@[simp] theorem State.setDiv_edtPending (s : State) (v : Option DivRec) : (s.setDiv v).edtPending = s.edtPending := rfl
@[simp] theorem State.setDiv_edtLate (s : State) (v : Option DivRec) : (s.setDiv v).edtLate = s.edtLate := rfl
@[simp] theorem State.setDiv_modcon (s : State) (v : Option DivRec) : (s.setDiv v).modcon = s.modcon := rfl
@[simp] theorem State.setDiv_xmodsrt (s : State) (v : Option DivRec) : (s.setDiv v).xmodsrt = s.xmodsrt := rfl
@[simp] theorem State.setDiv_xmodend (s : State) (v : Option DivRec) : (s.setDiv v).xmodend = s.xmodend := rfl
@[simp] theorem State.setDiv_ymodsrt (s : State) (v : Option DivRec) : (s.setDiv v).ymodsrt = s.ymodsrt := rfl
@[simp] theorem State.setDiv_ymodend (s : State) (v : Option DivRec) : (s.setDiv v).ymodend = s.ymodend := rfl
@[simp] theorem State.setDiv_xbrev (s : State) (v : Option DivRec) : (s.setDiv v).xbrev = s.xbrev := rfl
@[simp] theorem State.setDiv_mstrpr (s : State) (v : Option DivRec) : (s.setDiv v).mstrpr = s.mstrpr := rfl
@[simp] theorem State.setDiv_disicnt (s : State) (v : Option DivRec) : (s.setDiv v).disicnt = s.disicnt := rfl
@[simp] theorem State.setDiv_shadow (s : State) (v : Option DivRec) : (s.setDiv v).shadow = s.shadow := rfl
@[simp] theorem State.setDiv_intc (s : State) (v : Option DivRec) : (s.setDiv v).intc = s.intc := rfl
@[simp] theorem State.setDiv_pend (s : State) (v : Option DivRec) : (s.setDiv v).pend = s.pend := rfl
@[simp] theorem State.setDiv_ext (s : State) (v : Option DivRec) : (s.setDiv v).ext = s.ext := rfl
@[simp] theorem State.setDiv_active (s : State) (v : Option DivRec) : (s.setDiv v).active = s.active := rfl
@[simp] theorem State.setDiv_div (s : State) (v : Option DivRec) : (s.setDiv v).div = v := rfl
@[simp] theorem State.setDiv_held (s : State) (v : Option DivRec) : (s.setDiv v).held = s.held := rfl
@[simp] theorem State.setDiv_mem (s : State) (v : Option DivRec) : (s.setDiv v).mem = s.mem := rfl
@[simp] theorem State.setDiv_prog (s : State) (v : Option DivRec) : (s.setDiv v).prog = s.prog := rfl
@[simp] theorem State.setDiv_fresh (s : State) (v : Option DivRec) : (s.setDiv v).fresh = s.fresh := rfl
@[simp] theorem State.setDiv_trk (s : State) (v : Option DivRec) : (s.setDiv v).trk = s.trk := rfl

/-! setHeld -/
@[simp] theorem State.setHeld_dev (s : State) (v : List Interrupted) : (s.setHeld v).dev = s.dev := rfl
@[simp] theorem State.setHeld_w (s : State) (v : List Interrupted) : (s.setHeld v).w = s.w := rfl
@[simp] theorem State.setHeld_w15 (s : State) (v : List Interrupted) : (s.setHeld v).w15 = s.w15 := rfl
@[simp] theorem State.setHeld_acca (s : State) (v : List Interrupted) : (s.setHeld v).acca = s.acca := rfl
@[simp] theorem State.setHeld_accb (s : State) (v : List Interrupted) : (s.setHeld v).accb = s.accb := rfl
@[simp] theorem State.setHeld_pc (s : State) (v : List Interrupted) : (s.setHeld v).pc = s.pc := rfl
@[simp] theorem State.setHeld_sr (s : State) (v : List Interrupted) : (s.setHeld v).sr = s.sr := rfl
@[simp] theorem State.setHeld_cor (s : State) (v : List Interrupted) : (s.setHeld v).cor = s.cor := rfl
@[simp] theorem State.setHeld_cctxi (s : State) (v : List Interrupted) : (s.setHeld v).cctxi = s.cctxi := rfl
@[simp] theorem State.setHeld_mctxi (s : State) (v : List Interrupted) : (s.setHeld v).mctxi = s.mctxi := rfl
@[simp] theorem State.setHeld_splim (s : State) (v : List Interrupted) : (s.setHeld v).splim = s.splim := rfl
@[simp] theorem State.setHeld_splimEn (s : State) (v : List Interrupted) : (s.setHeld v).splimEn = s.splimEn := rfl
@[simp] theorem State.setHeld_tblpag (s : State) (v : List Interrupted) : (s.setHeld v).tblpag = s.tblpag := rfl
@[simp] theorem State.setHeld_dsrpag (s : State) (v : List Interrupted) : (s.setHeld v).dsrpag = s.dsrpag := rfl
@[simp] theorem State.setHeld_dswpag (s : State) (v : List Interrupted) : (s.setHeld v).dswpag = s.dswpag := rfl
@[simp] theorem State.setHeld_rcount (s : State) (v : List Interrupted) : (s.setHeld v).rcount = s.rcount := rfl
@[simp] theorem State.setHeld_dcount (s : State) (v : List Interrupted) : (s.setHeld v).dcount = s.dcount := rfl
@[simp] theorem State.setHeld_dostart (s : State) (v : List Interrupted) : (s.setHeld v).dostart = s.dostart := rfl
@[simp] theorem State.setHeld_doend (s : State) (v : List Interrupted) : (s.setHeld v).doend = s.doend := rfl
@[simp] theorem State.setHeld_doStack (s : State) (v : List Interrupted) : (s.setHeld v).doStack = s.doStack := rfl
@[simp] theorem State.setHeld_edtPending (s : State) (v : List Interrupted) : (s.setHeld v).edtPending = s.edtPending := rfl
@[simp] theorem State.setHeld_edtLate (s : State) (v : List Interrupted) : (s.setHeld v).edtLate = s.edtLate := rfl
@[simp] theorem State.setHeld_modcon (s : State) (v : List Interrupted) : (s.setHeld v).modcon = s.modcon := rfl
@[simp] theorem State.setHeld_xmodsrt (s : State) (v : List Interrupted) : (s.setHeld v).xmodsrt = s.xmodsrt := rfl
@[simp] theorem State.setHeld_xmodend (s : State) (v : List Interrupted) : (s.setHeld v).xmodend = s.xmodend := rfl
@[simp] theorem State.setHeld_ymodsrt (s : State) (v : List Interrupted) : (s.setHeld v).ymodsrt = s.ymodsrt := rfl
@[simp] theorem State.setHeld_ymodend (s : State) (v : List Interrupted) : (s.setHeld v).ymodend = s.ymodend := rfl
@[simp] theorem State.setHeld_xbrev (s : State) (v : List Interrupted) : (s.setHeld v).xbrev = s.xbrev := rfl
@[simp] theorem State.setHeld_mstrpr (s : State) (v : List Interrupted) : (s.setHeld v).mstrpr = s.mstrpr := rfl
@[simp] theorem State.setHeld_disicnt (s : State) (v : List Interrupted) : (s.setHeld v).disicnt = s.disicnt := rfl
@[simp] theorem State.setHeld_shadow (s : State) (v : List Interrupted) : (s.setHeld v).shadow = s.shadow := rfl
@[simp] theorem State.setHeld_intc (s : State) (v : List Interrupted) : (s.setHeld v).intc = s.intc := rfl
@[simp] theorem State.setHeld_pend (s : State) (v : List Interrupted) : (s.setHeld v).pend = s.pend := rfl
@[simp] theorem State.setHeld_ext (s : State) (v : List Interrupted) : (s.setHeld v).ext = s.ext := rfl
@[simp] theorem State.setHeld_active (s : State) (v : List Interrupted) : (s.setHeld v).active = s.active := rfl
@[simp] theorem State.setHeld_div (s : State) (v : List Interrupted) : (s.setHeld v).div = s.div := rfl
@[simp] theorem State.setHeld_held (s : State) (v : List Interrupted) : (s.setHeld v).held = v := rfl
@[simp] theorem State.setHeld_mem (s : State) (v : List Interrupted) : (s.setHeld v).mem = s.mem := rfl
@[simp] theorem State.setHeld_prog (s : State) (v : List Interrupted) : (s.setHeld v).prog = s.prog := rfl
@[simp] theorem State.setHeld_fresh (s : State) (v : List Interrupted) : (s.setHeld v).fresh = s.fresh := rfl
@[simp] theorem State.setHeld_trk (s : State) (v : List Interrupted) : (s.setHeld v).trk = s.trk := rfl

/-! setActive -/
@[simp] theorem State.setActive_dev (s : State) (v : List Source) : (s.setActive v).dev = s.dev := rfl
@[simp] theorem State.setActive_w (s : State) (v : List Source) : (s.setActive v).w = s.w := rfl
@[simp] theorem State.setActive_w15 (s : State) (v : List Source) : (s.setActive v).w15 = s.w15 := rfl
@[simp] theorem State.setActive_acca (s : State) (v : List Source) : (s.setActive v).acca = s.acca := rfl
@[simp] theorem State.setActive_accb (s : State) (v : List Source) : (s.setActive v).accb = s.accb := rfl
@[simp] theorem State.setActive_pc (s : State) (v : List Source) : (s.setActive v).pc = s.pc := rfl
@[simp] theorem State.setActive_sr (s : State) (v : List Source) : (s.setActive v).sr = s.sr := rfl
@[simp] theorem State.setActive_cor (s : State) (v : List Source) : (s.setActive v).cor = s.cor := rfl
@[simp] theorem State.setActive_cctxi (s : State) (v : List Source) : (s.setActive v).cctxi = s.cctxi := rfl
@[simp] theorem State.setActive_mctxi (s : State) (v : List Source) : (s.setActive v).mctxi = s.mctxi := rfl
@[simp] theorem State.setActive_splim (s : State) (v : List Source) : (s.setActive v).splim = s.splim := rfl
@[simp] theorem State.setActive_splimEn (s : State) (v : List Source) : (s.setActive v).splimEn = s.splimEn := rfl
@[simp] theorem State.setActive_tblpag (s : State) (v : List Source) : (s.setActive v).tblpag = s.tblpag := rfl
@[simp] theorem State.setActive_dsrpag (s : State) (v : List Source) : (s.setActive v).dsrpag = s.dsrpag := rfl
@[simp] theorem State.setActive_dswpag (s : State) (v : List Source) : (s.setActive v).dswpag = s.dswpag := rfl
@[simp] theorem State.setActive_rcount (s : State) (v : List Source) : (s.setActive v).rcount = s.rcount := rfl
@[simp] theorem State.setActive_dcount (s : State) (v : List Source) : (s.setActive v).dcount = s.dcount := rfl
@[simp] theorem State.setActive_dostart (s : State) (v : List Source) : (s.setActive v).dostart = s.dostart := rfl
@[simp] theorem State.setActive_doend (s : State) (v : List Source) : (s.setActive v).doend = s.doend := rfl
@[simp] theorem State.setActive_doStack (s : State) (v : List Source) : (s.setActive v).doStack = s.doStack := rfl
@[simp] theorem State.setActive_edtPending (s : State) (v : List Source) : (s.setActive v).edtPending = s.edtPending := rfl
@[simp] theorem State.setActive_edtLate (s : State) (v : List Source) : (s.setActive v).edtLate = s.edtLate := rfl
@[simp] theorem State.setActive_modcon (s : State) (v : List Source) : (s.setActive v).modcon = s.modcon := rfl
@[simp] theorem State.setActive_xmodsrt (s : State) (v : List Source) : (s.setActive v).xmodsrt = s.xmodsrt := rfl
@[simp] theorem State.setActive_xmodend (s : State) (v : List Source) : (s.setActive v).xmodend = s.xmodend := rfl
@[simp] theorem State.setActive_ymodsrt (s : State) (v : List Source) : (s.setActive v).ymodsrt = s.ymodsrt := rfl
@[simp] theorem State.setActive_ymodend (s : State) (v : List Source) : (s.setActive v).ymodend = s.ymodend := rfl
@[simp] theorem State.setActive_xbrev (s : State) (v : List Source) : (s.setActive v).xbrev = s.xbrev := rfl
@[simp] theorem State.setActive_mstrpr (s : State) (v : List Source) : (s.setActive v).mstrpr = s.mstrpr := rfl
@[simp] theorem State.setActive_disicnt (s : State) (v : List Source) : (s.setActive v).disicnt = s.disicnt := rfl
@[simp] theorem State.setActive_shadow (s : State) (v : List Source) : (s.setActive v).shadow = s.shadow := rfl
@[simp] theorem State.setActive_intc (s : State) (v : List Source) : (s.setActive v).intc = s.intc := rfl
@[simp] theorem State.setActive_pend (s : State) (v : List Source) : (s.setActive v).pend = s.pend := rfl
@[simp] theorem State.setActive_ext (s : State) (v : List Source) : (s.setActive v).ext = s.ext := rfl
@[simp] theorem State.setActive_active (s : State) (v : List Source) : (s.setActive v).active = v := rfl
@[simp] theorem State.setActive_div (s : State) (v : List Source) : (s.setActive v).div = s.div := rfl
@[simp] theorem State.setActive_held (s : State) (v : List Source) : (s.setActive v).held = s.held := rfl
@[simp] theorem State.setActive_mem (s : State) (v : List Source) : (s.setActive v).mem = s.mem := rfl
@[simp] theorem State.setActive_prog (s : State) (v : List Source) : (s.setActive v).prog = s.prog := rfl
@[simp] theorem State.setActive_fresh (s : State) (v : List Source) : (s.setActive v).fresh = s.fresh := rfl
@[simp] theorem State.setActive_trk (s : State) (v : List Source) : (s.setActive v).trk = s.trk := rfl

/-! setDo -/
@[simp] theorem State.setDo_dev (s : State) (c : Word) (b e : BitVec 22) : (s.setDo c b e).dev = s.dev := rfl
@[simp] theorem State.setDo_w (s : State) (c : Word) (b e : BitVec 22) : (s.setDo c b e).w = s.w := rfl
@[simp] theorem State.setDo_w15 (s : State) (c : Word) (b e : BitVec 22) : (s.setDo c b e).w15 = s.w15 := rfl
@[simp] theorem State.setDo_acca (s : State) (c : Word) (b e : BitVec 22) : (s.setDo c b e).acca = s.acca := rfl
@[simp] theorem State.setDo_accb (s : State) (c : Word) (b e : BitVec 22) : (s.setDo c b e).accb = s.accb := rfl
@[simp] theorem State.setDo_pc (s : State) (c : Word) (b e : BitVec 22) : (s.setDo c b e).pc = s.pc := rfl
@[simp] theorem State.setDo_sr (s : State) (c : Word) (b e : BitVec 22) : (s.setDo c b e).sr = s.sr := rfl
@[simp] theorem State.setDo_cor (s : State) (c : Word) (b e : BitVec 22) : (s.setDo c b e).cor = s.cor := rfl
@[simp] theorem State.setDo_cctxi (s : State) (c : Word) (b e : BitVec 22) : (s.setDo c b e).cctxi = s.cctxi := rfl
@[simp] theorem State.setDo_mctxi (s : State) (c : Word) (b e : BitVec 22) : (s.setDo c b e).mctxi = s.mctxi := rfl
@[simp] theorem State.setDo_splim (s : State) (c : Word) (b e : BitVec 22) : (s.setDo c b e).splim = s.splim := rfl
@[simp] theorem State.setDo_splimEn (s : State) (c : Word) (b e : BitVec 22) : (s.setDo c b e).splimEn = s.splimEn := rfl
@[simp] theorem State.setDo_tblpag (s : State) (c : Word) (b e : BitVec 22) : (s.setDo c b e).tblpag = s.tblpag := rfl
@[simp] theorem State.setDo_dsrpag (s : State) (c : Word) (b e : BitVec 22) : (s.setDo c b e).dsrpag = s.dsrpag := rfl
@[simp] theorem State.setDo_dswpag (s : State) (c : Word) (b e : BitVec 22) : (s.setDo c b e).dswpag = s.dswpag := rfl
@[simp] theorem State.setDo_rcount (s : State) (c : Word) (b e : BitVec 22) : (s.setDo c b e).rcount = s.rcount := rfl
@[simp] theorem State.setDo_dcount (s : State) (c : Word) (b e : BitVec 22) : (s.setDo c b e).dcount = c := rfl
@[simp] theorem State.setDo_dostart (s : State) (c : Word) (b e : BitVec 22) : (s.setDo c b e).dostart = b := rfl
@[simp] theorem State.setDo_doend (s : State) (c : Word) (b e : BitVec 22) : (s.setDo c b e).doend = e := rfl
@[simp] theorem State.setDo_doStack (s : State) (c : Word) (b e : BitVec 22) : (s.setDo c b e).doStack = s.doStack := rfl
@[simp] theorem State.setDo_edtPending (s : State) (c : Word) (b e : BitVec 22) : (s.setDo c b e).edtPending = s.edtPending := rfl
@[simp] theorem State.setDo_edtLate (s : State) (c : Word) (b e : BitVec 22) : (s.setDo c b e).edtLate = s.edtLate := rfl
@[simp] theorem State.setDo_modcon (s : State) (c : Word) (b e : BitVec 22) : (s.setDo c b e).modcon = s.modcon := rfl
@[simp] theorem State.setDo_xmodsrt (s : State) (c : Word) (b e : BitVec 22) : (s.setDo c b e).xmodsrt = s.xmodsrt := rfl
@[simp] theorem State.setDo_xmodend (s : State) (c : Word) (b e : BitVec 22) : (s.setDo c b e).xmodend = s.xmodend := rfl
@[simp] theorem State.setDo_ymodsrt (s : State) (c : Word) (b e : BitVec 22) : (s.setDo c b e).ymodsrt = s.ymodsrt := rfl
@[simp] theorem State.setDo_ymodend (s : State) (c : Word) (b e : BitVec 22) : (s.setDo c b e).ymodend = s.ymodend := rfl
@[simp] theorem State.setDo_xbrev (s : State) (c : Word) (b e : BitVec 22) : (s.setDo c b e).xbrev = s.xbrev := rfl
@[simp] theorem State.setDo_mstrpr (s : State) (c : Word) (b e : BitVec 22) : (s.setDo c b e).mstrpr = s.mstrpr := rfl
@[simp] theorem State.setDo_disicnt (s : State) (c : Word) (b e : BitVec 22) : (s.setDo c b e).disicnt = s.disicnt := rfl
@[simp] theorem State.setDo_shadow (s : State) (c : Word) (b e : BitVec 22) : (s.setDo c b e).shadow = s.shadow := rfl
@[simp] theorem State.setDo_intc (s : State) (c : Word) (b e : BitVec 22) : (s.setDo c b e).intc = s.intc := rfl
@[simp] theorem State.setDo_pend (s : State) (c : Word) (b e : BitVec 22) : (s.setDo c b e).pend = s.pend := rfl
@[simp] theorem State.setDo_ext (s : State) (c : Word) (b e : BitVec 22) : (s.setDo c b e).ext = s.ext := rfl
@[simp] theorem State.setDo_active (s : State) (c : Word) (b e : BitVec 22) : (s.setDo c b e).active = s.active := rfl
@[simp] theorem State.setDo_div (s : State) (c : Word) (b e : BitVec 22) : (s.setDo c b e).div = s.div := rfl
@[simp] theorem State.setDo_held (s : State) (c : Word) (b e : BitVec 22) : (s.setDo c b e).held = s.held := rfl
@[simp] theorem State.setDo_mem (s : State) (c : Word) (b e : BitVec 22) : (s.setDo c b e).mem = s.mem := rfl
@[simp] theorem State.setDo_prog (s : State) (c : Word) (b e : BitVec 22) : (s.setDo c b e).prog = s.prog := rfl
@[simp] theorem State.setDo_fresh (s : State) (c : Word) (b e : BitVec 22) : (s.setDo c b e).fresh = s.fresh := rfl
@[simp] theorem State.setDo_trk (s : State) (c : Word) (b e : BitVec 22) : (s.setDo c b e).trk = s.trk := rfl

end Sys2Proof.Machine
end

