-- ==== Sys2Proof/Laws/Regs.lean ====
section
/-!
SUPPORT. The working registers: what a write changes and what it leaves (R20 to R29).
-/

namespace Sys2Proof.Machine

theorem bankIndex_inj {c c' : Fin 5} {n n' : Reg} (h : n.val < 15) (h' : n'.val < 15)
    (e : bankIndex c n h = bankIndex c' n' h') : c = c' ∧ n = n' := by
  have := congrArg Fin.val e
  simp only [bankIndex] at this
  constructor <;> apply Fin.ext <;> omega

@[simp] theorem clearBit0_clearBit0 (v : Word) : clearBit0 (clearBit0 v) = clearBit0 v := by
  simp [clearBit0, BitVec.and_assoc]

@[simp] theorem State.setW_dev (s : State) (n : Reg) (v : Word) : (s.setW n v).dev = s.dev := by
  unfold State.setW; split <;> rfl
@[simp] theorem State.setWKeep_dev (s : State) (n : Reg) (v : Word) : (s.setWKeep n v).dev = s.dev := by
  unfold State.setWKeep; split <;> rfl
@[simp] theorem State.setW_acca (s : State) (n : Reg) (v : Word) : (s.setW n v).acca = s.acca := by
  unfold State.setW; split <;> rfl
@[simp] theorem State.setWKeep_acca (s : State) (n : Reg) (v : Word) : (s.setWKeep n v).acca = s.acca := by
  unfold State.setWKeep; split <;> rfl
@[simp] theorem State.setW_accb (s : State) (n : Reg) (v : Word) : (s.setW n v).accb = s.accb := by
  unfold State.setW; split <;> rfl
@[simp] theorem State.setWKeep_accb (s : State) (n : Reg) (v : Word) : (s.setWKeep n v).accb = s.accb := by
  unfold State.setWKeep; split <;> rfl
@[simp] theorem State.setW_pc (s : State) (n : Reg) (v : Word) : (s.setW n v).pc = s.pc := by
  unfold State.setW; split <;> rfl
@[simp] theorem State.setWKeep_pc (s : State) (n : Reg) (v : Word) : (s.setWKeep n v).pc = s.pc := by
  unfold State.setWKeep; split <;> rfl
@[simp] theorem State.setW_sr (s : State) (n : Reg) (v : Word) : (s.setW n v).sr = s.sr := by
  unfold State.setW; split <;> rfl
@[simp] theorem State.setWKeep_sr (s : State) (n : Reg) (v : Word) : (s.setWKeep n v).sr = s.sr := by
  unfold State.setWKeep; split <;> rfl
@[simp] theorem State.setW_cor (s : State) (n : Reg) (v : Word) : (s.setW n v).cor = s.cor := by
  unfold State.setW; split <;> rfl
@[simp] theorem State.setWKeep_cor (s : State) (n : Reg) (v : Word) : (s.setWKeep n v).cor = s.cor := by
  unfold State.setWKeep; split <;> rfl
@[simp] theorem State.setW_cctxi (s : State) (n : Reg) (v : Word) : (s.setW n v).cctxi = s.cctxi := by
  unfold State.setW; split <;> rfl
@[simp] theorem State.setWKeep_cctxi (s : State) (n : Reg) (v : Word) : (s.setWKeep n v).cctxi = s.cctxi := by
  unfold State.setWKeep; split <;> rfl
@[simp] theorem State.setW_mctxi (s : State) (n : Reg) (v : Word) : (s.setW n v).mctxi = s.mctxi := by
  unfold State.setW; split <;> rfl
@[simp] theorem State.setWKeep_mctxi (s : State) (n : Reg) (v : Word) : (s.setWKeep n v).mctxi = s.mctxi := by
  unfold State.setWKeep; split <;> rfl
@[simp] theorem State.setW_splim (s : State) (n : Reg) (v : Word) : (s.setW n v).splim = s.splim := by
  unfold State.setW; split <;> rfl
@[simp] theorem State.setWKeep_splim (s : State) (n : Reg) (v : Word) : (s.setWKeep n v).splim = s.splim := by
  unfold State.setWKeep; split <;> rfl
@[simp] theorem State.setW_splimEn (s : State) (n : Reg) (v : Word) : (s.setW n v).splimEn = s.splimEn := by
  unfold State.setW; split <;> rfl
@[simp] theorem State.setWKeep_splimEn (s : State) (n : Reg) (v : Word) : (s.setWKeep n v).splimEn = s.splimEn := by
  unfold State.setWKeep; split <;> rfl
@[simp] theorem State.setW_tblpag (s : State) (n : Reg) (v : Word) : (s.setW n v).tblpag = s.tblpag := by
  unfold State.setW; split <;> rfl
@[simp] theorem State.setWKeep_tblpag (s : State) (n : Reg) (v : Word) : (s.setWKeep n v).tblpag = s.tblpag := by
  unfold State.setWKeep; split <;> rfl
@[simp] theorem State.setW_dsrpag (s : State) (n : Reg) (v : Word) : (s.setW n v).dsrpag = s.dsrpag := by
  unfold State.setW; split <;> rfl
@[simp] theorem State.setWKeep_dsrpag (s : State) (n : Reg) (v : Word) : (s.setWKeep n v).dsrpag = s.dsrpag := by
  unfold State.setWKeep; split <;> rfl
@[simp] theorem State.setW_dswpag (s : State) (n : Reg) (v : Word) : (s.setW n v).dswpag = s.dswpag := by
  unfold State.setW; split <;> rfl
@[simp] theorem State.setWKeep_dswpag (s : State) (n : Reg) (v : Word) : (s.setWKeep n v).dswpag = s.dswpag := by
  unfold State.setWKeep; split <;> rfl
@[simp] theorem State.setW_rcount (s : State) (n : Reg) (v : Word) : (s.setW n v).rcount = s.rcount := by
  unfold State.setW; split <;> rfl
@[simp] theorem State.setWKeep_rcount (s : State) (n : Reg) (v : Word) : (s.setWKeep n v).rcount = s.rcount := by
  unfold State.setWKeep; split <;> rfl
@[simp] theorem State.setW_dcount (s : State) (n : Reg) (v : Word) : (s.setW n v).dcount = s.dcount := by
  unfold State.setW; split <;> rfl
@[simp] theorem State.setWKeep_dcount (s : State) (n : Reg) (v : Word) : (s.setWKeep n v).dcount = s.dcount := by
  unfold State.setWKeep; split <;> rfl
@[simp] theorem State.setW_dostart (s : State) (n : Reg) (v : Word) : (s.setW n v).dostart = s.dostart := by
  unfold State.setW; split <;> rfl
@[simp] theorem State.setWKeep_dostart (s : State) (n : Reg) (v : Word) : (s.setWKeep n v).dostart = s.dostart := by
  unfold State.setWKeep; split <;> rfl
@[simp] theorem State.setW_doend (s : State) (n : Reg) (v : Word) : (s.setW n v).doend = s.doend := by
  unfold State.setW; split <;> rfl
@[simp] theorem State.setWKeep_doend (s : State) (n : Reg) (v : Word) : (s.setWKeep n v).doend = s.doend := by
  unfold State.setWKeep; split <;> rfl
@[simp] theorem State.setW_doStack (s : State) (n : Reg) (v : Word) : (s.setW n v).doStack = s.doStack := by
  unfold State.setW; split <;> rfl
@[simp] theorem State.setWKeep_doStack (s : State) (n : Reg) (v : Word) : (s.setWKeep n v).doStack = s.doStack := by
  unfold State.setWKeep; split <;> rfl
@[simp] theorem State.setW_edtPending (s : State) (n : Reg) (v : Word) : (s.setW n v).edtPending = s.edtPending := by
  unfold State.setW; split <;> rfl
@[simp] theorem State.setWKeep_edtPending (s : State) (n : Reg) (v : Word) : (s.setWKeep n v).edtPending = s.edtPending := by
  unfold State.setWKeep; split <;> rfl
@[simp] theorem State.setW_edtLate (s : State) (n : Reg) (v : Word) : (s.setW n v).edtLate = s.edtLate := by
  unfold State.setW; split <;> rfl
@[simp] theorem State.setWKeep_edtLate (s : State) (n : Reg) (v : Word) : (s.setWKeep n v).edtLate = s.edtLate := by
  unfold State.setWKeep; split <;> rfl
@[simp] theorem State.setW_modcon (s : State) (n : Reg) (v : Word) : (s.setW n v).modcon = s.modcon := by
  unfold State.setW; split <;> rfl
@[simp] theorem State.setWKeep_modcon (s : State) (n : Reg) (v : Word) : (s.setWKeep n v).modcon = s.modcon := by
  unfold State.setWKeep; split <;> rfl
@[simp] theorem State.setW_xmodsrt (s : State) (n : Reg) (v : Word) : (s.setW n v).xmodsrt = s.xmodsrt := by
  unfold State.setW; split <;> rfl
@[simp] theorem State.setWKeep_xmodsrt (s : State) (n : Reg) (v : Word) : (s.setWKeep n v).xmodsrt = s.xmodsrt := by
  unfold State.setWKeep; split <;> rfl
@[simp] theorem State.setW_xmodend (s : State) (n : Reg) (v : Word) : (s.setW n v).xmodend = s.xmodend := by
  unfold State.setW; split <;> rfl
@[simp] theorem State.setWKeep_xmodend (s : State) (n : Reg) (v : Word) : (s.setWKeep n v).xmodend = s.xmodend := by
  unfold State.setWKeep; split <;> rfl
@[simp] theorem State.setW_ymodsrt (s : State) (n : Reg) (v : Word) : (s.setW n v).ymodsrt = s.ymodsrt := by
  unfold State.setW; split <;> rfl
@[simp] theorem State.setWKeep_ymodsrt (s : State) (n : Reg) (v : Word) : (s.setWKeep n v).ymodsrt = s.ymodsrt := by
  unfold State.setWKeep; split <;> rfl
@[simp] theorem State.setW_ymodend (s : State) (n : Reg) (v : Word) : (s.setW n v).ymodend = s.ymodend := by
  unfold State.setW; split <;> rfl
@[simp] theorem State.setWKeep_ymodend (s : State) (n : Reg) (v : Word) : (s.setWKeep n v).ymodend = s.ymodend := by
  unfold State.setWKeep; split <;> rfl
@[simp] theorem State.setW_xbrev (s : State) (n : Reg) (v : Word) : (s.setW n v).xbrev = s.xbrev := by
  unfold State.setW; split <;> rfl
@[simp] theorem State.setWKeep_xbrev (s : State) (n : Reg) (v : Word) : (s.setWKeep n v).xbrev = s.xbrev := by
  unfold State.setWKeep; split <;> rfl
@[simp] theorem State.setW_mstrpr (s : State) (n : Reg) (v : Word) : (s.setW n v).mstrpr = s.mstrpr := by
  unfold State.setW; split <;> rfl
@[simp] theorem State.setWKeep_mstrpr (s : State) (n : Reg) (v : Word) : (s.setWKeep n v).mstrpr = s.mstrpr := by
  unfold State.setWKeep; split <;> rfl
@[simp] theorem State.setW_disicnt (s : State) (n : Reg) (v : Word) : (s.setW n v).disicnt = s.disicnt := by
  unfold State.setW; split <;> rfl
@[simp] theorem State.setWKeep_disicnt (s : State) (n : Reg) (v : Word) : (s.setWKeep n v).disicnt = s.disicnt := by
  unfold State.setWKeep; split <;> rfl
@[simp] theorem State.setW_shadow (s : State) (n : Reg) (v : Word) : (s.setW n v).shadow = s.shadow := by
  unfold State.setW; split <;> rfl
@[simp] theorem State.setWKeep_shadow (s : State) (n : Reg) (v : Word) : (s.setWKeep n v).shadow = s.shadow := by
  unfold State.setWKeep; split <;> rfl
@[simp] theorem State.setW_intc (s : State) (n : Reg) (v : Word) : (s.setW n v).intc = s.intc := by
  unfold State.setW; split <;> rfl
@[simp] theorem State.setWKeep_intc (s : State) (n : Reg) (v : Word) : (s.setWKeep n v).intc = s.intc := by
  unfold State.setWKeep; split <;> rfl
@[simp] theorem State.setW_pend (s : State) (n : Reg) (v : Word) : (s.setW n v).pend = s.pend := by
  unfold State.setW; split <;> rfl
@[simp] theorem State.setWKeep_pend (s : State) (n : Reg) (v : Word) : (s.setWKeep n v).pend = s.pend := by
  unfold State.setWKeep; split <;> rfl
@[simp] theorem State.setW_ext (s : State) (n : Reg) (v : Word) : (s.setW n v).ext = s.ext := by
  unfold State.setW; split <;> rfl
@[simp] theorem State.setWKeep_ext (s : State) (n : Reg) (v : Word) : (s.setWKeep n v).ext = s.ext := by
  unfold State.setWKeep; split <;> rfl
@[simp] theorem State.setW_active (s : State) (n : Reg) (v : Word) : (s.setW n v).active = s.active := by
  unfold State.setW; split <;> rfl
@[simp] theorem State.setWKeep_active (s : State) (n : Reg) (v : Word) : (s.setWKeep n v).active = s.active := by
  unfold State.setWKeep; split <;> rfl
@[simp] theorem State.setW_div (s : State) (n : Reg) (v : Word) : (s.setW n v).div = s.div := by
  unfold State.setW; split <;> rfl
@[simp] theorem State.setWKeep_div (s : State) (n : Reg) (v : Word) : (s.setWKeep n v).div = s.div := by
  unfold State.setWKeep; split <;> rfl
@[simp] theorem State.setW_held (s : State) (n : Reg) (v : Word) : (s.setW n v).held = s.held := by
  unfold State.setW; split <;> rfl
@[simp] theorem State.setWKeep_held (s : State) (n : Reg) (v : Word) : (s.setWKeep n v).held = s.held := by
  unfold State.setWKeep; split <;> rfl
@[simp] theorem State.setW_mem (s : State) (n : Reg) (v : Word) : (s.setW n v).mem = s.mem := by
  unfold State.setW; split <;> rfl
@[simp] theorem State.setWKeep_mem (s : State) (n : Reg) (v : Word) : (s.setWKeep n v).mem = s.mem := by
  unfold State.setWKeep; split <;> rfl
@[simp] theorem State.setW_prog (s : State) (n : Reg) (v : Word) : (s.setW n v).prog = s.prog := by
  unfold State.setW; split <;> rfl
@[simp] theorem State.setWKeep_prog (s : State) (n : Reg) (v : Word) : (s.setWKeep n v).prog = s.prog := by
  unfold State.setWKeep; split <;> rfl
@[simp] theorem State.setW_fresh (s : State) (n : Reg) (v : Word) : (s.setW n v).fresh = s.fresh := by
  unfold State.setW; split <;> rfl
@[simp] theorem State.setWKeep_fresh (s : State) (n : Reg) (v : Word) : (s.setWKeep n v).fresh = s.fresh := by
  unfold State.setWKeep; split <;> rfl
@[simp] theorem State.setW_trk (s : State) (n : Reg) (v : Word) : (s.setW n v).trk = s.trk := by
  unfold State.setW; split <;> rfl
@[simp] theorem State.setWKeep_trk (s : State) (n : Reg) (v : Word) : (s.setWKeep n v).trk = s.trk := by
  unfold State.setWKeep; split <;> rfl

theorem State.bankReg_putReg_self (s : State) (n : Reg) (h : n.val < 15) (r : WReg) :
    (s.putReg n h r).bankReg s.cctxi n h = r := by
  simp [State.putReg, State.bankReg]

theorem State.bankReg_putReg_ne (s : State) (n m : Reg) (hn : n.val < 15) (hm : m.val < 15) (r : WReg) (c : Fin 5)
    (h : c ≠ s.cctxi ∨ m ≠ n) : (s.putReg n hn r).bankReg c m hm = s.bankReg c m hm := by
  unfold State.putReg State.bankReg
  rw [State.setBank_w, Fin.getElem_fin, Fin.getElem_fin, Vector.getElem_set_ne]
  intro e
  have := bankIndex_inj hn hm (Fin.ext e)
  rcases h with h | h
  · exact h this.1.symm
  · exact h this.2.symm

/-- The value a write stores, bit 0 of W15 cleared (R27). -/
@[simp] theorem State.getW_setW_self (s : State) (n : Reg) (v : Word) :
    (s.setW n v).getW n = if n.val < 15 then v else clearBit0 v := by
  by_cases h : n.val < 15
  · simp only [State.getW, h, dite_true, State.setW_cctxi, if_true]
    simp only [State.setW, h, dite_true, State.bankReg_putReg_self]
  · simp [State.getW, State.setW, h]

/-- No register of another context and no other register of this one changes (R23). -/
theorem State.bankReg_setW (s : State) (n m : Reg) (v : Word) (c : Fin 5) (hm : m.val < 15)
    (h : c ≠ s.cctxi ∨ m ≠ n) : (s.setW n v).bankReg c m hm = s.bankReg c m hm := by
  by_cases hn : n.val < 15
  · simp only [State.setW, hn, dite_true, State.bankReg_putReg_ne s n m hn hm _ c h]
  · simp [State.setW, hn, State.bankReg]

/-- No other register changes. -/
theorem State.getW_setW_ne (s : State) (n m : Reg) (v : Word) (h : m ≠ n) : (s.setW n v).getW m = s.getW m := by
  by_cases hm : m.val < 15
  · simp only [State.getW, hm, dite_true, State.setW_cctxi, State.bankReg_setW s n m v _ hm (.inr h)]
  · have hn : n.val < 15 := by
      by_contra hn
      exact h (Fin.ext (by omega))
    simp [State.getW, hm, State.setW, State.putReg, hn]

/-- The value a write stores, bit 0 of W15 cleared (R27). -/
@[simp] theorem State.getW_setWKeep_self (s : State) (n : Reg) (v : Word) :
    (s.setWKeep n v).getW n = if n.val < 15 then v else clearBit0 v := by
  by_cases h : n.val < 15
  · simp only [State.getW, h, dite_true, State.setWKeep_cctxi, if_true]
    simp only [State.setWKeep, h, dite_true, State.bankReg_putReg_self]
  · simp [State.getW, State.setWKeep, h]

/-- No register of another context and no other register of this one changes (R23). -/
theorem State.bankReg_setWKeep (s : State) (n m : Reg) (v : Word) (c : Fin 5) (hm : m.val < 15)
    (h : c ≠ s.cctxi ∨ m ≠ n) : (s.setWKeep n v).bankReg c m hm = s.bankReg c m hm := by
  by_cases hn : n.val < 15
  · simp only [State.setWKeep, hn, dite_true, State.bankReg_putReg_ne s n m hn hm _ c h]
  · simp [State.setWKeep, hn, State.bankReg]

/-- No other register changes. -/
theorem State.getW_setWKeep_ne (s : State) (n m : Reg) (v : Word) (h : m ≠ n) : (s.setWKeep n v).getW m = s.getW m := by
  by_cases hm : m.val < 15
  · simp only [State.getW, hm, dite_true, State.setWKeep_cctxi, State.bankReg_setWKeep s n m v _ hm (.inr h)]
  · have hn : n.val < 15 := by
      by_contra hn
      exact h (Fin.ext (by omega))
    simp [State.getW, hm, State.setWKeep, State.putReg, hn]

/-- A word write initialises the register (R29). -/
theorem State.isInit_setW_self (s : State) (n : Reg) (v : Word) : (s.setW n v).isInit n = true := by
  by_cases h : n.val < 15
  · simp only [State.isInit, h, dite_true, State.setW_cctxi]
    simp only [State.setW, h, dite_true, State.bankReg_putReg_self]
  · simp [State.isInit, h]

theorem State.isInit_setW_ne (s : State) (n m : Reg) (v : Word) (h : m ≠ n) : (s.setW n v).isInit m = s.isInit m := by
  by_cases hm : m.val < 15
  · simp only [State.isInit, hm, dite_true, State.setW_cctxi, State.bankReg_setW s n m v _ hm (.inr h)]
  · simp [State.isInit, hm]

/-- A byte write leaves the initialisation flags (R29). -/
theorem State.isInit_setWKeep (s : State) (n m : Reg) (v : Word) : (s.setWKeep n v).isInit m = s.isInit m := by
  by_cases hm : m.val < 15
  · by_cases e : m = n
    · subst e
      simp only [State.isInit, hm, dite_true, State.setWKeep_cctxi]
      simp only [State.setWKeep, hm, dite_true, State.bankReg_putReg_self]
      simp [State.isInit, hm]
    · simp only [State.isInit, hm, dite_true, State.setWKeep_cctxi, State.bankReg_setWKeep s n m v _ hm (.inr e)]
  · simp [State.isInit, hm]

/-- The registers read the same after an update of anything else. -/
theorem State.getW_congr {s t : State} (hw : t.w = s.w) (h15 : t.w15 = s.w15) (hc : t.cctxi = s.cctxi) (n : Reg) :
    t.getW n = s.getW n := by
  simp [State.getW, State.bankReg, hw, h15, hc]

theorem State.isInit_congr {s t : State} (hw : t.w = s.w) (hc : t.cctxi = s.cctxi) (n : Reg) :
    t.isInit n = s.isInit n := by
  simp [State.isInit, State.bankReg, hw, hc]

/-- A register of the current context is the register. -/
theorem State.regIn_cctxi (s : State) (n : Reg) : s.regIn s.cctxi n = s.getW n := rfl

/-- The registers of a context depend on the arrays and W15 only. -/
theorem State.regIn_congr {s t : State} (hw : t.w = s.w) (h15 : t.w15 = s.w15) (c : Fin 5) (n : Reg) :
    t.regIn c n = s.regIn c n := by
  simp [State.regIn, State.bankReg, hw, h15]

@[simp] theorem State.getW_setPc (s : State) (v : PAddr) (n : Reg) : (s.setPc v).getW n = s.getW n := rfl
@[simp] theorem State.isInit_setPc (s : State) (v : PAddr) (n : Reg) : (s.setPc v).isInit n = s.isInit n := rfl
@[simp] theorem State.regRead_setPc (s : State) (v : PAddr) (z : Size) (n : Reg) : (s.setPc v).regRead z n = s.regRead z n := rfl
@[simp] theorem State.getW_setSr (s : State) (v : Status) (n : Reg) : (s.setSr v).getW n = s.getW n := rfl
@[simp] theorem State.isInit_setSr (s : State) (v : Status) (n : Reg) : (s.setSr v).isInit n = s.isInit n := rfl
@[simp] theorem State.regRead_setSr (s : State) (v : Status) (z : Size) (n : Reg) : (s.setSr v).regRead z n = s.regRead z n := rfl
@[simp] theorem State.getW_setCor (s : State) (v : Corcon) (n : Reg) : (s.setCor v).getW n = s.getW n := rfl
@[simp] theorem State.isInit_setCor (s : State) (v : Corcon) (n : Reg) : (s.setCor v).isInit n = s.isInit n := rfl
@[simp] theorem State.regRead_setCor (s : State) (v : Corcon) (z : Size) (n : Reg) : (s.setCor v).regRead z n = s.regRead z n := rfl
@[simp] theorem State.getW_setMem (s : State) (v : Memory) (n : Reg) : (s.setMem v).getW n = s.getW n := rfl
@[simp] theorem State.isInit_setMem (s : State) (v : Memory) (n : Reg) : (s.setMem v).isInit n = s.isInit n := rfl
@[simp] theorem State.regRead_setMem (s : State) (v : Memory) (z : Size) (n : Reg) : (s.setMem v).regRead z n = s.regRead z n := rfl
@[simp] theorem State.getW_setAcca (s : State) (v : Acc40) (n : Reg) : (s.setAcca v).getW n = s.getW n := rfl
@[simp] theorem State.isInit_setAcca (s : State) (v : Acc40) (n : Reg) : (s.setAcca v).isInit n = s.isInit n := rfl
@[simp] theorem State.regRead_setAcca (s : State) (v : Acc40) (z : Size) (n : Reg) : (s.setAcca v).regRead z n = s.regRead z n := rfl
@[simp] theorem State.getW_setAccb (s : State) (v : Acc40) (n : Reg) : (s.setAccb v).getW n = s.getW n := rfl
@[simp] theorem State.isInit_setAccb (s : State) (v : Acc40) (n : Reg) : (s.setAccb v).isInit n = s.isInit n := rfl
@[simp] theorem State.regRead_setAccb (s : State) (v : Acc40) (z : Size) (n : Reg) : (s.setAccb v).regRead z n = s.regRead z n := rfl
@[simp] theorem State.getW_setPend (s : State) (v : Pending) (n : Reg) : (s.setPend v).getW n = s.getW n := rfl
@[simp] theorem State.isInit_setPend (s : State) (v : Pending) (n : Reg) : (s.setPend v).isInit n = s.isInit n := rfl
@[simp] theorem State.regRead_setPend (s : State) (v : Pending) (z : Size) (n : Reg) : (s.setPend v).regRead z n = s.regRead z n := rfl
@[simp] theorem State.getW_setIntc (s : State) (v : IntCon) (n : Reg) : (s.setIntc v).getW n = s.getW n := rfl
@[simp] theorem State.isInit_setIntc (s : State) (v : IntCon) (n : Reg) : (s.setIntc v).isInit n = s.isInit n := rfl
@[simp] theorem State.regRead_setIntc (s : State) (v : IntCon) (z : Size) (n : Reg) : (s.setIntc v).regRead z n = s.regRead z n := rfl
@[simp] theorem State.getW_setTrk (s : State) (v : StepInfo) (n : Reg) : (s.setTrk v).getW n = s.getW n := rfl
@[simp] theorem State.isInit_setTrk (s : State) (v : StepInfo) (n : Reg) : (s.setTrk v).isInit n = s.isInit n := rfl
@[simp] theorem State.regRead_setTrk (s : State) (v : StepInfo) (z : Size) (n : Reg) : (s.setTrk v).regRead z n = s.regRead z n := rfl
@[simp] theorem State.getW_drawn (s : State) (n : Reg) : s.drawn.getW n = s.getW n := rfl
@[simp] theorem State.isInit_drawn (s : State) (n : Reg) : s.drawn.isInit n = s.isInit n := rfl
@[simp] theorem State.regRead_drawn (s : State) (z : Size) (n : Reg) : s.drawn.regRead z n = s.regRead z n := rfl
@[simp] theorem State.getW_setRcount (s : State) (v : Word) (n : Reg) : (s.setRcount v).getW n = s.getW n := rfl
@[simp] theorem State.isInit_setRcount (s : State) (v : Word) (n : Reg) : (s.setRcount v).isInit n = s.isInit n := rfl
@[simp] theorem State.regRead_setRcount (s : State) (v : Word) (z : Size) (n : Reg) : (s.setRcount v).regRead z n = s.regRead z n := rfl
@[simp] theorem State.getW_setDisicnt (s : State) (v : BitVec 14) (n : Reg) : (s.setDisicnt v).getW n = s.getW n := rfl
@[simp] theorem State.isInit_setDisicnt (s : State) (v : BitVec 14) (n : Reg) : (s.setDisicnt v).isInit n = s.isInit n := rfl
@[simp] theorem State.regRead_setDisicnt (s : State) (v : BitVec 14) (z : Size) (n : Reg) : (s.setDisicnt v).regRead z n = s.regRead z n := rfl
@[simp] theorem State.getW_setDiv (s : State) (v : Option DivRec) (n : Reg) : (s.setDiv v).getW n = s.getW n := rfl
@[simp] theorem State.isInit_setDiv (s : State) (v : Option DivRec) (n : Reg) : (s.setDiv v).isInit n = s.isInit n := rfl
@[simp] theorem State.regRead_setDiv (s : State) (v : Option DivRec) (z : Size) (n : Reg) : (s.setDiv v).regRead z n = s.regRead z n := rfl
@[simp] theorem State.getW_setHeld (s : State) (v : List Interrupted) (n : Reg) : (s.setHeld v).getW n = s.getW n := rfl
@[simp] theorem State.isInit_setHeld (s : State) (v : List Interrupted) (n : Reg) : (s.setHeld v).isInit n = s.isInit n := rfl
@[simp] theorem State.regRead_setHeld (s : State) (v : List Interrupted) (z : Size) (n : Reg) : (s.setHeld v).regRead z n = s.regRead z n := rfl
@[simp] theorem State.getW_setActive (s : State) (v : List Source) (n : Reg) : (s.setActive v).getW n = s.getW n := rfl
@[simp] theorem State.isInit_setActive (s : State) (v : List Source) (n : Reg) : (s.setActive v).isInit n = s.isInit n := rfl
@[simp] theorem State.regRead_setActive (s : State) (v : List Source) (z : Size) (n : Reg) : (s.setActive v).regRead z n = s.regRead z n := rfl
@[simp] theorem State.getW_setDo (s : State) (c : Word) (b e : BitVec 22) (n : Reg) : (s.setDo c b e).getW n = s.getW n := rfl
@[simp] theorem State.isInit_setDo (s : State) (c : Word) (b e : BitVec 22) (n : Reg) : (s.setDo c b e).isInit n = s.isInit n := rfl
@[simp] theorem State.regRead_setDo (s : State) (c : Word) (b e : BitVec 22) (z : Size) (n : Reg) : (s.setDo c b e).regRead z n = s.regRead z n := rfl

@[simp] theorem State.advance_getW (s : State) (k : Nat) (n : Reg) : (s.advance k).getW n = s.getW n := rfl
@[simp] theorem State.advance_dev (s : State) (k : Nat) : (s.advance k).dev = s.dev := rfl
@[simp] theorem State.advance_w (s : State) (k : Nat) : (s.advance k).w = s.w := rfl
@[simp] theorem State.advance_w15 (s : State) (k : Nat) : (s.advance k).w15 = s.w15 := rfl
@[simp] theorem State.advance_acca (s : State) (k : Nat) : (s.advance k).acca = s.acca := rfl
@[simp] theorem State.advance_accb (s : State) (k : Nat) : (s.advance k).accb = s.accb := rfl
@[simp] theorem State.advance_sr (s : State) (k : Nat) : (s.advance k).sr = s.sr := rfl
@[simp] theorem State.advance_cor (s : State) (k : Nat) : (s.advance k).cor = s.cor := rfl
@[simp] theorem State.advance_cctxi (s : State) (k : Nat) : (s.advance k).cctxi = s.cctxi := rfl
@[simp] theorem State.advance_mctxi (s : State) (k : Nat) : (s.advance k).mctxi = s.mctxi := rfl
@[simp] theorem State.advance_splim (s : State) (k : Nat) : (s.advance k).splim = s.splim := rfl
@[simp] theorem State.advance_splimEn (s : State) (k : Nat) : (s.advance k).splimEn = s.splimEn := rfl
@[simp] theorem State.advance_tblpag (s : State) (k : Nat) : (s.advance k).tblpag = s.tblpag := rfl
@[simp] theorem State.advance_dsrpag (s : State) (k : Nat) : (s.advance k).dsrpag = s.dsrpag := rfl
@[simp] theorem State.advance_dswpag (s : State) (k : Nat) : (s.advance k).dswpag = s.dswpag := rfl
@[simp] theorem State.advance_rcount (s : State) (k : Nat) : (s.advance k).rcount = s.rcount := rfl
@[simp] theorem State.advance_dcount (s : State) (k : Nat) : (s.advance k).dcount = s.dcount := rfl
@[simp] theorem State.advance_dostart (s : State) (k : Nat) : (s.advance k).dostart = s.dostart := rfl
@[simp] theorem State.advance_doend (s : State) (k : Nat) : (s.advance k).doend = s.doend := rfl
@[simp] theorem State.advance_doStack (s : State) (k : Nat) : (s.advance k).doStack = s.doStack := rfl
@[simp] theorem State.advance_edtPending (s : State) (k : Nat) : (s.advance k).edtPending = s.edtPending := rfl
@[simp] theorem State.advance_edtLate (s : State) (k : Nat) : (s.advance k).edtLate = s.edtLate := rfl
@[simp] theorem State.advance_modcon (s : State) (k : Nat) : (s.advance k).modcon = s.modcon := rfl
@[simp] theorem State.advance_xmodsrt (s : State) (k : Nat) : (s.advance k).xmodsrt = s.xmodsrt := rfl
@[simp] theorem State.advance_xmodend (s : State) (k : Nat) : (s.advance k).xmodend = s.xmodend := rfl
@[simp] theorem State.advance_ymodsrt (s : State) (k : Nat) : (s.advance k).ymodsrt = s.ymodsrt := rfl
@[simp] theorem State.advance_ymodend (s : State) (k : Nat) : (s.advance k).ymodend = s.ymodend := rfl
@[simp] theorem State.advance_xbrev (s : State) (k : Nat) : (s.advance k).xbrev = s.xbrev := rfl
@[simp] theorem State.advance_mstrpr (s : State) (k : Nat) : (s.advance k).mstrpr = s.mstrpr := rfl
@[simp] theorem State.advance_disicnt (s : State) (k : Nat) : (s.advance k).disicnt = s.disicnt := rfl
@[simp] theorem State.advance_shadow (s : State) (k : Nat) : (s.advance k).shadow = s.shadow := rfl
@[simp] theorem State.advance_intc (s : State) (k : Nat) : (s.advance k).intc = s.intc := rfl
@[simp] theorem State.advance_pend (s : State) (k : Nat) : (s.advance k).pend = s.pend := rfl
@[simp] theorem State.advance_ext (s : State) (k : Nat) : (s.advance k).ext = s.ext := rfl
@[simp] theorem State.advance_active (s : State) (k : Nat) : (s.advance k).active = s.active := rfl
@[simp] theorem State.advance_div (s : State) (k : Nat) : (s.advance k).div = s.div := rfl
@[simp] theorem State.advance_held (s : State) (k : Nat) : (s.advance k).held = s.held := rfl
@[simp] theorem State.advance_mem (s : State) (k : Nat) : (s.advance k).mem = s.mem := rfl
@[simp] theorem State.advance_prog (s : State) (k : Nat) : (s.advance k).prog = s.prog := rfl
@[simp] theorem State.advance_fresh (s : State) (k : Nat) : (s.advance k).fresh = s.fresh := rfl
@[simp] theorem State.advance_trk (s : State) (k : Nat) : (s.advance k).trk = s.trk := rfl

/-- The pc after an instruction of some words (R33). -/
theorem State.advance_pc (s : State) (k : Nat) : (s.advance k).pc = s.pc + BitVec.ofNat 23 (2 * k) := rfl

/-! ## Putting results together -/

@[simp] theorem Res.bind_val {α β : Type} (v : α) (s : State) (f : α → State → Res β) : (Res.val v s).bind f = f v s := rfl
@[simp] theorem Res.bind_stop {α β : Type} (o : Out) (f : α → State → Res β) : (Res.stop o : Res α).bind f = .stop o := rfl
@[simp] theorem Res.next_val {α : Type} (v : α) (s : State) (f : α → State → State) : (Res.val v s).next f = .next (f v s) := rfl
@[simp] theorem Res.next_stop {α : Type} (o : Out) (f : α → State → State) : (Res.stop o : Res α).next f = o := rfl
@[simp] theorem Res.done_val (s : State) : (Res.val () s).done = .next (s.advance 1) := rfl
@[simp] theorem Res.done_stop (o : Out) : (Res.stop o : Res Unit).done = o := rfl

/-- A bind that gives a value gave one before. -/
theorem Res.bind_eq_val {α β : Type} {r : Res α} {f : α → State → Res β} {v : β} {t : State}
    (h : r.bind f = .val v t) : ∃ u s, r = .val u s ∧ f u s = .val v t := by
  cases r with
  | val u s => exact ⟨u, s, rfl, h⟩
  | stop o => cases h

end Sys2Proof.Machine
end

