-- ==== Sys2Proof/Laws/Operands.lean ====
section
/-!
SUPPORT. What each operand operation does on an ordinary operand (R142): one lemma per operation, cited instead of unfolding
it.
-/

namespace Sys2Proof.Machine

/-! ## Data accesses -/

theorem placeOf_ram {d : Device} {a : Nat} (h : 0x1000 ≤ a) (h' : a ≤ d.ramEnd.toNat) : placeOf d a = .ram := by
  have := d.ramEnd.isLt
  unfold placeOf
  rw [if_neg (by omega), if_pos (by omega), if_pos h']

theorem readTarget_flat {s : State} {b : Base} {ea : Word} (h : isPaged s b ea = false) :
    readTarget s b ea = .data ea.toNat := by
  simp [readTarget, h]

theorem writeTarget_flat {s : State} {b : Base} {ea : Word} (h : isPaged s b ea = false) :
    writeTarget s b ea = some ea.toNat := by
  simp [writeTarget, h]

theorem stackCheck_ok {b : Base} {ea : Word} {wr : Bool} {s : State} (h : b.formedFrom 15 = true → stackOk ea wr s) :
    stackCheck b ea wr s = s := by
  unfold stackCheck
  rw [if_neg]
  rintro ⟨hb, hc⟩
  obtain ⟨h1, h2⟩ := h hb
  rcases hc with ⟨he, hc⟩ | hc
  · obtain ⟨h3, h4⟩ := h2 he
    rcases hc with hc | hc
    · exact absurd hc (BitVec.not_lt.2 h3)
    · simp [h4] at hc
  · exact absurd hc (BitVec.not_lt.2 h1)

/-- A read of ordinary memory gives its value and changes nothing. -/
theorem readAt_ram {b : Base} {z : Size} {ea : Word} {wr : Bool} {s : State} (hr : ramAt s z ea)
    (hp : isPaged s b ea = false) (hs : b.formedFrom 15 = true → stackOk ea wr s) (ht : b.isThrough 15 = true → s.trk.splimPrev = false) :
    readAt b z ea wr s = .val (memValue z ea s) s := by
  unfold readAt
  rw [if_neg (by rintro ⟨hb, h⟩; simp [ht hb] at h)]
  obtain ⟨h1, h2, h3⟩ := hr
  simp only [stackCheck_ok hs, h3, Bool.false_eq_true, if_false, readTarget_flat hp]
  cases z with
  | word =>
    simp only [bytesOf] at h2
    simp only [readDataWord, placeOf_ram h1 (by omega : ea.toNat ≤ s.dev.ramEnd.toNat),
      placeOf_ram (by omega : 0x1000 ≤ ea.toNat + 1) (by omega : ea.toNat + 1 ≤ s.dev.ramEnd.toNat), memValue]
  | byte =>
    simp only [bytesOf] at h2
    simp only [readDataByte, placeOf_ram h1 (by omega : ea.toNat ≤ s.dev.ramEnd.toNat), memValue]

/-- A write to ordinary memory stores the value and changes nothing else. -/
theorem writeAt_ram {b : Base} {z : Size} {ea v : Word} {wr : Bool} {s : State} (hr : ramAt s z ea)
    (hp : isPaged s b ea = false) (hs : b.formedFrom 15 = true → stackOk ea wr s) :
    writeAt b z ea wr v s = .val () (memStore z ea v s) := by
  unfold writeAt
  obtain ⟨h1, h2, h3⟩ := hr
  have hd : isDoendFile s.dev b ea = false := by
    simp [isDoendFile, placeOf_ram h1 (by cases z <;> simp only [bytesOf] at h2 <;> omega : ea.toNat ≤ s.dev.ramEnd.toNat)]
  simp only [stackCheck_ok hs, h3, Bool.false_eq_true, if_false, writeTarget_flat hp, hd]
  cases z with
  | word =>
    simp only [bytesOf] at h2
    simp only [writeDataWord, placeOf_ram h1 (by omega : ea.toNat ≤ s.dev.ramEnd.toNat),
      placeOf_ram (by omega : 0x1000 ≤ ea.toNat + 1) (by omega : ea.toNat + 1 ≤ s.dev.ramEnd.toNat), memStore]
  | byte =>
    simp only [bytesOf] at h2
    simp only [writeDataByte, placeOf_ram h1 (by omega : ea.toNat ≤ s.dev.ramEnd.toNat), memStore]

/-- An operand's address is formed from a register if that is its base register or the offset register of its form. -/
theorem baseOf_formedFrom {m : Mode} {n w r : Reg} : (baseOf m n w).formedFrom r = true ↔ n = r ∨ m = .offset ∧ w = r := by
  simp only [baseOf, Base.formedFrom, Bool.or_eq_true, decide_eq_true_eq]
  by_cases hm : m = .offset
  · simp [hm]
  · simp [hm]

theorem baseOf_self (m : Mode) (n : Reg) : baseOf m n n = .reg n n := by simp [baseOf]

@[simp] theorem reg_formedFrom {n r : Reg} : (Base.reg n n).formedFrom r = true ↔ n = r := by simp [Base.formedFrom]

@[simp] theorem reg_isThrough {n o r : Reg} : (Base.reg n o).isThrough r = true ↔ n = r := by simp [Base.isThrough]

@[simp] theorem baseOf_isThrough {m : Mode} {n w r : Reg} : (baseOf m n w).isThrough r = true ↔ n = r := by
  simp [baseOf]

theorem isPaged_file (s : State) (ea : Word) : isPaged s .file ea = false := by simp [isPaged]

/-- A file register read of ordinary memory. -/
theorem readFile_ok {z : Size} {f : Word} {s : State} (h : fileOk z f s) : readFile z f s = .val (memValue z f s) s :=
  readAt_ram h (isPaged_file s f) nofun nofun

/-- A file register write to ordinary memory. -/
theorem writeFile_ok {z : Size} {f v : Word} {s : State} (h : fileOk z f s) :
    writeFile z f v s = .val () (memStore z f v s) :=
  writeAt_ram h (isPaged_file s f) nofun

/-! ## Fields a pointer modification and a store leave -/

theorem memStore_eq (z : Size) (ea v : Word) (s : State) : ∃ m, memStore z ea v s = s.setMem m := by
  cases z <;> exact ⟨_, rfl⟩

theorem modifyPtr_eq (m : Mode) (n : Reg) (k : Word) (s : State) :
    modifyPtr m n k s = s ∨ ∃ v, modifyPtr m n k s = s.setW n v := by
  cases m <;> simp [modifyPtr]

/-- A pointer check that passes leaves the state. -/
theorem pointerCheck_ok {m : Mode} {z : Size} {n w : Reg} {k : Word} {s : State} (h : pointerOk m z n w k s) :
    pointerCheck m z n s = .val () s := by
  obtain ⟨h1, h2, h3, h4, -⟩ := h
  simp only [pointerCheck, h1, h2, h3, h4, Bool.not_true, Bool.false_eq_true, if_false, Bool.or_false]

/-! ## Operands -/

theorem modifyPtr_fields (m : Mode) (n : Reg) (k : Word) (s : State) :
    (modifyPtr m n k s).dev = s.dev ∧ (modifyPtr m n k s).cor = s.cor ∧ (modifyPtr m n k s).dsrpag = s.dsrpag
      ∧ (modifyPtr m n k s).dswpag = s.dswpag ∧ (modifyPtr m n k s).splim = s.splim
      ∧ (modifyPtr m n k s).splimEn = s.splimEn ∧ (modifyPtr m n k s).trk = s.trk ∧ (modifyPtr m n k s).mem = s.mem := by
  rcases modifyPtr_eq m n k s with h | ⟨v, h⟩ <;> rw [h] <;> simp

theorem direct_modify (n : Reg) (k : Word) (s : State) : modifyPtr .direct n k s = s := rfl

/-- An ordinary source operand: its value, and its pointer modified. -/
theorem readSrc_ok {m : Mode} {z : Size} {n w : Reg} {s : State} (h : srcOk m z n w s) :
    readSrc m z n w s = .val (srcValue m z n w s) (srcNext m z n s) := by
  unfold readSrc srcValue srcNext
  by_cases hm : m = .direct
  · simp [hm, modifyPtr]
  · obtain ⟨hp, hr, ht⟩ := h.resolve_left hm
    simp only [hm, if_false, pointerCheck_ok hp, Res.bind_val]
    obtain ⟨-, -, -, -, hf, hs⟩ := hp
    obtain ⟨e1, e2, e3, -, e5, e6, e7, e8⟩ := modifyPtr_fields m n (stepOf z) s
    split
    · rw [readAt_ram]
      · cases z <;> simp [memValue, e8]
      · simpa [ramAt, e1] using hr
      · simpa [isPaged, e2] using hf
      · intro hb
        have := hs (baseOf_formedFrom.1 hb)
        simpa [stackOk, e5, e6] using this
      · intro hb
        rw [e7]; exact ht (baseOf_isThrough.1 hb)
    · rw [readAt_ram hr hf (fun hb => hs (baseOf_formedFrom.1 hb)) (fun hb => ht (baseOf_isThrough.1 hb))]
      rfl

/-- An ordinary destination operand: the value stored, then the pointer modified. -/
theorem writeDst_ok {m : Mode} {z : Size} {n w : Reg} {v : Word} {s : State} (h : dstOk m z n w s) :
    writeDst m z n w v s = .val () (dstNext m z n w v s) := by
  unfold writeDst dstNext
  by_cases hm : m = .direct
  · simp [hm]
  · obtain ⟨hp, hr⟩ := h.resolve_left hm
    simp only [hm, if_false, pointerCheck_ok hp, Res.bind_val]
    obtain ⟨-, -, -, -, hf, hs⟩ := hp
    rw [writeAt_ram hr hf (fun hb => hs (baseOf_formedFrom.1 hb))]
    rfl

/-- An ordinary read-modify-write operand. -/
theorem modifyOperand_ok {m : Mode} {z : Size} {n : Reg} {f : Word → Word} {s : State} (h : srcOk m z n n s) :
    modifyOperand m z n f s = .val () (dstNext m z n n (f (srcValue m z n n s)) s) := by
  unfold modifyOperand dstNext srcValue
  by_cases hm : m = .direct
  · simp [hm]
  · obtain ⟨hp, hr, ht⟩ := h.resolve_left hm
    simp only [hm, if_false, pointerCheck_ok hp, Res.bind_val]
    obtain ⟨-, -, -, -, hf, hs⟩ := hp
    rw [baseOf_self] at hf
    rw [readAt_ram hr hf (fun hb => hs (.inl (reg_formedFrom.1 hb))) (fun hb => ht (reg_isThrough.1 hb)), Res.bind_val,
      writeAt_ram hr hf (fun hb => hs (.inl (reg_formedFrom.1 hb)))]
    rfl

/-- A file register instruction's destination. -/
theorem writeFileDest_ok {z : Size} {t : FDest} {f v : Word} {s : State} (h : t = .file → fileOk z f s) :
    writeFileDest z t f v s = .val () (fileDestNext z t f v s) := by
  cases t with
  | wreg => rfl
  | file => exact writeFile_ok (h rfl)

theorem toNat_add_two {ea : Word} (h : ea.toNat + 2 < 65536) : (ea + 2#16).toNat = ea.toNat + 2 := by
  rw [BitVec.toNat_add]; simp; omega

theorem toMode_direct {m : Mode6} : m.toMode = .direct ↔ m = .direct := by cases m <;> simp [Mode6.toMode]

theorem ne_top {ea : Word} (h : ea.toNat + 2 < 65536) : decide (ea = 0xFFFE#16) = false := by
  rw [decide_eq_false_iff_not]
  rintro rfl
  simp at h

/-- The double word source of `MOV.D` in ordinary memory. -/
theorem readSrcD_ok {m : Mode6} {n : Reg} {s : State} (h : pairOk m n s) :
    readSrcD m n s = .val (pairValue m n s) (modifyPtr m.toMode n 4#16 s) := by
  unfold readSrcD pairValue
  by_cases hm : m = .direct
  · simp [hm, Mode6.toMode, modifyPtr]
  · obtain ⟨hp, hr, hr2, hf2, hl, ht⟩ := h.resolve_left hm
    have hm' : ¬m.toMode = .direct := fun h => hm (toMode_direct.1 h)
    simp only [hm, hm', if_false, pointerCheck_ok hp, Res.bind_val]
    obtain ⟨-, -, -, -, hf, hs⟩ := hp
    rw [baseOf_self] at hf
    obtain ⟨e1, e2, e3, -, e5, e6, e7, e8⟩ := modifyPtr_fields m.toMode n 4#16 s
    split
    · rw [readAt_ram (by simpa [ramAt, e1] using hr) (by simpa [isPaged, e2] using hf)
          (fun hb => by simpa [stackOk, e5, e6] using hs (.inl (reg_formedFrom.1 hb)))
          (fun hb => by rw [e7]; exact (ht (reg_isThrough.1 hb)).2), Res.bind_val,
        readAt_ram (by simpa [ramAt, e1] using hr2) (by simpa [isPaged, e2] using hf2)
          (fun hb => by
            have h1 := (ht (reg_formedFrom.1 hb)).1
            have h2 := hs (.inl (reg_formedFrom.1 hb))
            simp only [stackOk, e5, e6, ne_top hl, Bool.or_false] at h1 h2 ⊢
            exact ⟨h1.1, fun h => ⟨(h1.2 h).1, (h2.2 h).2⟩⟩)
          (fun hb => by rw [e7]; exact (ht (reg_isThrough.1 hb)).2)]
      simp [memValue, e8, toNat_add_two hl]
    · rw [readAt_ram hr hf (fun hb => hs (.inl (reg_formedFrom.1 hb))) (fun hb => (ht (reg_isThrough.1 hb)).2), Res.bind_val,
        readAt_ram hr2 hf2
          (fun hb => by
            have h1 := (ht (reg_formedFrom.1 hb)).1
            have h2 := hs (.inl (reg_formedFrom.1 hb))
            simp only [stackOk, ne_top hl, Bool.or_false] at h1 h2 ⊢
            exact ⟨h1.1, fun h => ⟨(h1.2 h).1, (h2.2 h).2⟩⟩)
          (fun hb => (ht (reg_isThrough.1 hb)).2)]
      simp [memValue, toNat_add_two hl]

/-- The double word destination of `MOV.D` in ordinary memory. -/
theorem writeDstD_ok {m : Mode6} {n : Reg} {lo hi : Word} {s : State} (h : pairOk m n s) :
    writeDstD m n lo hi s = .val () (pairNext m n lo hi s) := by
  unfold writeDstD pairNext
  by_cases hm : m = .direct
  · simp [hm, Mode6.toMode]
  · obtain ⟨hp, hr, hr2, hf2, hl, ht⟩ := h.resolve_left hm
    have hm' : ¬m.toMode = .direct := fun h => hm (toMode_direct.1 h)
    simp only [hm, hm', if_false, pointerCheck_ok hp, Res.bind_val]
    obtain ⟨-, -, -, -, hf, hs⟩ := hp
    rw [baseOf_self] at hf
    rw [writeAt_ram hr hf (fun hb => hs (.inl (reg_formedFrom.1 hb))), Res.bind_val,
      writeAt_ram (by simpa [ramAt, memStore] using hr2) (by simpa [isPaged, memStore] using hf2)
        (fun hb => by
          have h1 := (ht (reg_formedFrom.1 hb)).1
          have h2 := hs (.inl (reg_formedFrom.1 hb))
          simp only [stackOk, memStore, State.setMem_splim, State.setMem_splimEn, ne_top hl, Bool.or_false] at h1 h2 ⊢
          exact ⟨h1.1, fun h => ⟨(h1.2 h).1, (h2.2 h).2⟩⟩)]
    simp [memStore, toNat_add_two hl]
    rfl

end Sys2Proof.Machine
end

