-- ==== Sys2Proof/Laws/Frame.lean ====
section
/-!
SUPPORT. Frames: what each update leaves, and how frames compose.
-/

namespace Sys2Proof.Machine

theorem Frame.refl (R : Reg → Prop) (M : Nat → Prop) (s : State) : Frame R M s s :=
  ⟨rfl, ⟨fun _ _ _ _ => rfl, fun _ => rfl⟩, fun _ _ => rfl⟩

theorem onlyCore.cctxi {s t : State} (h : onlyCore s t) : t.cctxi = s.cctxi := by
  unfold onlyCore at h
  rw [← h]

/-- Frames compose. -/
theorem Frame.trans {R R' : Reg → Prop} {M M' : Nat → Prop} {s t u : State} (h : Frame R M s t) (h' : Frame R' M' t u) :
    Frame (fun x => R x ∨ R' x) (fun a => M a ∨ M' a) s u := by
  obtain ⟨h1, ⟨h2, h3⟩, h4⟩ := h
  obtain ⟨g1, ⟨g2, g3⟩, g4⟩ := h'
  have hc := h1.cctxi
  refine ⟨?_, ⟨fun c n hn hx => ?_, fun hx => ?_⟩, fun a ha => ?_⟩
  · unfold onlyCore at *
    rw [← h1, ← g1]
  · rw [g2 c n hn (fun q => hx ⟨by rw [← hc]; exact q.1, .inr q.2⟩), h2 c n hn (fun q => hx ⟨q.1, .inl q.2⟩)]
  · rw [g3 (fun q => hx (.inr q)), h3 (fun q => hx (.inl q))]
  · rw [g4 a (fun q => ha (.inr q)), h4 a (fun q => ha (.inl q))]

/-- A frame with more allowed. -/
theorem Frame.mono {R R' : Reg → Prop} {M M' : Nat → Prop} {s t : State} (h : Frame R M s t) (hR : ∀ x, R x → R' x)
    (hM : ∀ a, M a → M' a) : Frame R' M' s t :=
  ⟨h.1, ⟨fun c n hn hx => h.2.1.1 c n hn fun q => hx ⟨q.1, hR _ q.2⟩, fun hx => h.2.1.2 fun q => hx (hR _ q)⟩,
    fun a ha => h.2.2 a fun q => ha (hM a q)⟩

theorem Frame.setPc (s : State) (a : PAddr) : Frame noRegs noBytes s (s.setPc a) :=
  ⟨rfl, ⟨fun _ _ _ _ => rfl, fun _ => rfl⟩, fun _ _ => rfl⟩

theorem Frame.advance (s : State) (k : Nat) : Frame noRegs noBytes s (s.advance k) :=
  ⟨rfl, ⟨fun _ _ _ _ => rfl, fun _ => rfl⟩, fun _ _ => rfl⟩

theorem Frame.setSr (s : State) (f : Status) : Frame noRegs noBytes s (s.setSr f) :=
  ⟨rfl, ⟨fun _ _ _ _ => rfl, fun _ => rfl⟩, fun _ _ => rfl⟩

theorem Frame.setMem (s : State) (m : Memory) (M : Nat → Prop) (h : ∀ a, ¬M a → m.read a = s.mem.read a) :
    Frame noRegs M s (s.setMem m) :=
  ⟨rfl, ⟨fun _ _ _ _ => rfl, fun _ => rfl⟩, h⟩

/-- A register write changes that register of the current context. -/
theorem Frame.setW (s : State) (n : Reg) (v : Word) : Frame (fun x => x = n) noBytes s (s.setW n v) := by
  refine ⟨?_, ⟨fun c m hm hx => ?_, fun hx => ?_⟩, fun a _ => by simp⟩
  · unfold onlyCore State.setW State.putReg
    split <;> rfl
  · refine State.bankReg_setW s n m v c hm (not_and_or.1 hx)
  · unfold State.setW State.putReg
    split
    · rfl
    · exact absurd (Fin.ext (by omega)) (Ne.symm (fun h => hx h.symm))

theorem Frame.setWKeep (s : State) (n : Reg) (v : Word) : Frame (fun x => x = n) noBytes s (s.setWKeep n v) := by
  refine ⟨?_, ⟨fun c m hm hx => ?_, fun hx => ?_⟩, fun a _ => by simp⟩
  · unfold onlyCore State.setWKeep State.putReg
    split <;> rfl
  · refine State.bankReg_setWKeep s n m v c hm (not_and_or.1 hx)
  · unfold State.setWKeep State.putReg
    split
    · rfl
    · exact absurd (Fin.ext (by omega)) (Ne.symm (fun h => hx h.symm))

theorem Frame.regWrite (z : Size) (s : State) (n : Reg) (v : Word) :
    Frame (fun x => x = n) noBytes s (s.regWrite z n v) := by
  cases z
  · exact Frame.setW s n v
  · exact Frame.setWKeep s n _

/-- A store to ordinary memory changes the bytes of the access. -/
theorem Frame.memStore (z : Size) (ea v : Word) (s : State) : Frame noRegs (bytesAt z ea) s (memStore z ea v s) := by
  cases z
  · refine Frame.setMem s _ _ fun a ha => ?_
    rw [Memory.read_writeWord]
    simp only [bytesAt, bytesOf, not_and, not_lt] at ha
    rw [if_neg (by omega), if_neg (by omega)]
  · refine Frame.setMem s _ _ fun a ha => ?_
    rw [Memory.read_write]
    simp only [bytesAt, bytesOf, not_and, not_lt] at ha
    rw [if_neg (by omega)]

/-- A pointer modification changes the pointer, in the forms that modify it. -/
theorem Frame.modifyPtr (m : Mode) (n : Reg) (k : Word) (s : State) : Frame (srcRegs m n) noBytes s (modifyPtr m n k s) := by
  cases m <;> first
    | exact Frame.refl _ _ _
    | exact (Frame.setW s n _).mono (fun x hx => ⟨hx, by simp [modifies]⟩) (fun _ h => h)

theorem Frame.srcNext (m : Mode) (z : Size) (n : Reg) (s : State) : Frame (srcRegs m n) noBytes s (srcNext m z n s) :=
  Frame.modifyPtr m n _ s

/-- What an ordinary destination changes. -/
theorem Frame.dstNext (m : Mode) (z : Size) (n w : Reg) (v : Word) (s : State) :
    Frame (dstRegs m n) (dstBytes m z n w s) s (dstNext m z n w v s) := by
  unfold Machine.dstNext
  split
  · exact (Frame.regWrite z s n v).mono (fun x hx => ⟨hx, .inl ‹_›⟩) (fun _ h => h.elim)
  · refine ((Frame.memStore z _ v s).trans (Frame.modifyPtr m n (stepOf z) _)).mono ?_ ?_
    · rintro x (h | h)
      · exact h.elim
      · exact ⟨h.1, .inr h.2⟩
    · rintro a (h | h)
      · exact ⟨‹_›, h⟩
      · exact h.elim

/-- What the destination of a file register instruction changes. -/
theorem Frame.fileDestNext (z : Size) (t : FDest) (f v : Word) (s : State) :
    Frame (fileRegs t) (fileBytes z t f) s (fileDestNext z t f v s) := by
  cases t
  · exact (Frame.regWrite z s 0 v).mono (fun x hx => ⟨rfl, hx⟩) (fun _ h => h.elim)
  · exact (Frame.memStore z f v s).mono (fun x hx => hx.elim) (fun a h => ⟨rfl, h⟩)

/-! ## SR -/

@[simp] theorem modifyPtr_sr (m : Mode) (n : Reg) (k : Word) (s : State) : (modifyPtr m n k s).sr = s.sr := by
  rcases modifyPtr_eq m n k s with h | ⟨v, h⟩ <;> rw [h]; simp

@[simp] theorem srcNext_sr (m : Mode) (z : Size) (n : Reg) (s : State) : (srcNext m z n s).sr = s.sr := modifyPtr_sr m n _ s

@[simp] theorem memStore_sr (z : Size) (ea v : Word) (s : State) : (memStore z ea v s).sr = s.sr := by
  obtain ⟨m, h⟩ := memStore_eq z ea v s
  rw [h]; rfl

@[simp] theorem regWrite_sr (z : Size) (n : Reg) (v : Word) (s : State) : (s.regWrite z n v).sr = s.sr := by
  cases z <;> simp [State.regWrite, State.setWLow]

@[simp] theorem dstNext_sr (m : Mode) (z : Size) (n w : Reg) (v : Word) (s : State) : (dstNext m z n w v s).sr = s.sr := by
  unfold dstNext
  split <;> simp

@[simp] theorem fileDestNext_sr (z : Size) (t : FDest) (f v : Word) (s : State) : (fileDestNext z t f v s).sr = s.sr := by
  cases t <;> simp [fileDestNext]

/-! ## Operands and the flags: what is ordinary does not depend on SR or the pc -/

theorem srcOk_setSr {m : Mode} {z : Size} {n w : Reg} {s : State} (f : Status) :
    srcOk m z n w (s.setSr f) ↔ srcOk m z n w s := Iff.rfl

theorem dstOk_setSr {m : Mode} {z : Size} {n w : Reg} {s : State} (f : Status) :
    dstOk m z n w (s.setSr f) ↔ dstOk m z n w s := Iff.rfl

theorem fileOk_setSr {z : Size} {a : Word} {s : State} (f : Status) : fileOk z a (s.setSr f) ↔ fileOk z a s := Iff.rfl

theorem dstBytes_setSr (m : Mode) (z : Size) (n w : Reg) (s : State) (f : Status) :
    dstBytes m z n w (s.setSr f) = dstBytes m z n w s := rfl

end Sys2Proof.Machine
end

