-- ==== Sys2Proof/Laws/Loops.lean ====
section
/-!
SUPPORT. What the operations around an instruction do: the classes of R367 and R383, the fetch, the DISICNT count, the loops with
their divide records (R302), the trap a return requests again (R448) and the requests (R428).
-/

namespace Sys2Proof.Machine

/-! ## Classes of instructions -/

/-- The model's test for the flow control instructions is the statements' class of them (R367, R383). -/
theorem isFlow_iff (i : Instr) : flowControl i ↔ isFlow i = true := by
  constructor
  · rintro (h | ⟨_, rfl | rfl⟩ | ⟨_, rfl | rfl | rfl⟩ | ⟨_, rfl⟩ | ⟨_, _, _, rfl⟩ | ⟨_, _, rfl⟩ | rfl | rfl) <;> try rfl
    cases i <;> first | rfl | exact absurd rfl h
  · intro h
    cases i <;> first
      | exact absurd h Bool.false_ne_true
      | exact .inr (.inl ⟨_, .inl rfl⟩)
      | exact .inr (.inl ⟨_, .inr rfl⟩)
      | exact .inr (.inr (.inl ⟨_, .inl rfl⟩))
      | exact .inr (.inr (.inl ⟨_, .inr (.inl rfl)⟩))
      | exact .inr (.inr (.inl ⟨_, .inr (.inr rfl)⟩))
      | exact .inr (.inr (.inr (.inl ⟨_, rfl⟩)))
      | exact .inr (.inr (.inr (.inr (.inl ⟨_, _, _, rfl⟩))))
      | exact .inr (.inr (.inr (.inr (.inr (.inl ⟨_, _, rfl⟩)))))
      | exact .inr (.inr (.inr (.inr (.inr (.inr (.inl rfl))))))
      | exact .inr (.inr (.inr (.inr (.inr (.inr (.inr rfl))))))
      | exact .inl nofun

/-- So is its test for the returns. -/
theorem isReturn_iff (i : Instr) : returns i ↔ isReturn i = true := by
  constructor
  · rintro (rfl | rfl | ⟨_, _, _, rfl⟩) <;> rfl
  · intro h
    cases i <;> first
      | exact absurd h Bool.false_ne_true
      | exact .inl rfl
      | exact .inr (.inl rfl)
      | exact .inr (.inr ⟨_, _, _, rfl⟩)

/-- And for `REPEAT` and `DO`. -/
theorem isLoop_iff (i : Instr) : startsLoop i ↔ isLoop i = true := by
  constructor
  · rintro (⟨_, rfl⟩ | ⟨_, rfl⟩ | ⟨_, _, rfl⟩ | ⟨_, _, rfl⟩) <;> rfl
  · intro h
    cases i <;> first
      | exact absurd h Bool.false_ne_true
      | exact .inl ⟨_, rfl⟩
      | exact .inr (.inl ⟨_, rfl⟩)
      | exact .inr (.inr (.inl ⟨_, _, rfl⟩))
      | exact .inr (.inr (.inr ⟨_, _, rfl⟩))

/-- And for `DISI`. -/
theorem isDisi_iff (i : Instr) : (∃ k, i = .disi k) ↔ isDisi i = true := by
  constructor
  · rintro ⟨_, rfl⟩; rfl
  · intro h
    cases i <;> first | exact absurd h Bool.false_ne_true | exact ⟨_, rfl⟩

/-- And for the forbidden targets of `REPEAT` (R367). -/
theorem badTarget_iff (i : Instr) : repeatForbidden i ↔ badTarget i = true := by
  unfold repeatForbidden
  rw [isFlow_iff, isReturn_iff, isLoop_iff]
  constructor
  · rintro (h | h | h | ⟨_, rfl⟩ | ⟨_, rfl⟩ | ⟨_, rfl⟩ | rfl | rfl | ⟨_, _, _, rfl⟩ | ⟨_, _, _, rfl⟩) <;>
      first | rfl | simp only [badTarget, h, Bool.true_or, Bool.or_true]
  · intro h
    cases i <;> first
      | exact absurd h Bool.false_ne_true
      | exact .inl rfl
      | exact .inr (.inl rfl)
      | exact .inr (.inr (.inl rfl))
      | exact .inr (.inr (.inr (.inl ⟨_, rfl⟩)))
      | exact .inr (.inr (.inr (.inr (.inl ⟨_, rfl⟩))))
      | exact .inr (.inr (.inr (.inr (.inr (.inl ⟨_, rfl⟩)))))
      | exact .inr (.inr (.inr (.inr (.inr (.inr (.inl rfl))))))
      | exact .inr (.inr (.inr (.inr (.inr (.inr (.inr (.inl rfl)))))))
      | exact .inr (.inr (.inr (.inr (.inr (.inr (.inr (.inr (.inl ⟨_, _, _, rfl⟩))))))))
      | exact .inr (.inr (.inr (.inr (.inr (.inr (.inr (.inr (.inr ⟨_, _, _, rfl⟩))))))))

/-- The DISICNT count as the statements write it (R405). -/
theorem disiCount_eq (i : Instr) (t : State) : disiCount i t = { t with disicnt := disiLeft i t } := by
  unfold disiCount disiLeft
  simp only [isDisi_iff]
  split <;> rfl

/-! ## The fetch -/

/-- The words at the pc decode to the instruction. -/
theorem fetchDecode_ok {s : State} {i : Instr} (h : fetches s i) : fetchDecode s = .ok i := by
  obtain ⟨h1, h2, h3⟩ := h
  unfold fetchDecode fetchWord
  rw [if_pos h1]
  simp only
  by_cases hw : twoWord (s.prog.read (s.pc.toNat / 2)) = true
  · rw [if_pos hw, if_pos (h2 hw)]
    rw [if_pos hw] at h3
    simp only [h3]
  · rw [if_neg hw]
    rw [if_neg hw] at h3
    simp [h3]

/-! ## Loops and their divide records -/

/-- The registers R302 names are kept. -/
theorem DivRec.kept_iff (r : DivRec) (s : State) : r.kept s = true ↔ dutyKept r s := by
  simp only [DivRec.kept, dutyKept, Bool.and_eq_true, beq_iff_eq, and_assoc]

/-- A loop holds a divide started since and not completed. -/
theorem Interrupted.startedSince_iff (k : Nat) (h : Interrupted) : h.startedSince k = true ↔ unfinishedSince k h := by
  unfold Interrupted.startedSince unfinishedSince
  cases h.div <;> simp

/-- What was interrupted is what the popped words say. -/
theorem Interrupted.fits_iff (s : State) (h : Interrupted) : h.fits s = true ↔ fitsPopped s h := by
  unfold Interrupted.fits fitsPopped
  cases s.sr.ra <;> simp

/-- And its words were at this place. -/
theorem Interrupted.here_iff (s : State) (h : Interrupted) : (h.atPlace s && h.fits s) = true ↔ heldHere s h := by
  rw [Bool.and_eq_true, Interrupted.fits_iff]
  simp [Interrupted.atPlace, heldHere]

/-- The machine stands as the loop was left. -/
theorem Interrupted.same_iff (s : State) (h : Interrupted) : h.same s = true ↔ standsAsLeft s h := by
  unfold Interrupted.same standsAsLeft
  cases h.div <;> simp [DivRec.kept_iff]

/-- It fits and stands as it was left. -/
theorem Interrupted.stands_iff (s : State) (h : Interrupted) :
    (h.fits s && h.same s) = true ↔ fitsPopped s h ∧ standsAsLeft s h := by
  rw [Bool.and_eq_true, Interrupted.fits_iff, Interrupted.same_iff]

/-- A handler has left the registers of a divide as it found them. -/
theorem DivRec.asFoundBy_iff (r : DivRec) (x : Interrupted) (s : State) : r.asFoundBy x s = true ↔ leftAsFound r x s := by
  simp [DivRec.asFoundBy]

/-- A handler has broken its duty only if the divide had its last execution before it (R302). -/
theorem map_judge (x : Interrupted) (s : State) (l : List Interrupted) :
    l.map (Interrupted.onDiv (DivRec.judge x s)) = judgedBy x s l := by
  unfold judgedBy Interrupted.onDiv
  congr 1; funext h; congr 2; funext r
  unfold DivRec.judge
  simp only [← DivRec.asFoundBy_iff, Bool.not_eq_true]
  rfl

/-- A handler that leaves all working registers as it found them spoils nothing. -/
theorem judgedBy_of_kept {x : Interrupted} {s : State} (h : ∀ c n, s.regIn c n = x.regIn c n) (l : List Interrupted) :
    judgedBy x s l = l := by
  unfold judgedBy
  simp only [h, leftAsFound, and_self, not_true_eq_false, and_false, if_false, Option.map_id', List.map_id']

/-- The records after a divide was left. -/
theorem map_spoilFrom (b : Nat) (l : List Interrupted) : l.map (Interrupted.onDiv (DivRec.spoilFrom b)) = spoiltSince b l := rfl

/-- A divide that is left changes the held records only, and spoils those that had their last execution before it started if it was
not completed (R302). -/
theorem leaveRecord_eq (d : Option DivRec) (s : State) : ∃ l, leaveRecord d s = s.setHeld l
    ∧ ((∀ r, d = some r → r.done = 18) → l = s.held) ∧ ∀ r, d = some r → r.done ≠ 18 → l = spoiltSince r.born s.held := by
  cases d with
  | none => exact ⟨s.held, rfl, fun _ => rfl, nofun⟩
  | some r =>
    unfold leaveRecord
    by_cases e : r.done = 18
    · exact ⟨s.held, by simp only [e, if_true]; rfl, fun _ => rfl, fun q hq n => absurd (by cases hq; exact e) n⟩
    · exact ⟨_, by simp only [e, if_false]; rfl, fun f => absurd (f r rfl) e, fun q hq _ => by cases hq; rfl⟩

/-- The end of a loop does so with its divide. -/
theorem leaveDiv_eq (s : State) : ∃ l, leaveDiv s = s.setHeld l ∧ ((∀ r, s.div = some r → r.done = 18) → l = s.held)
    ∧ ∀ r, s.div = some r → r.done ≠ 18 → l = spoiltSince r.born s.held := leaveRecord_eq s.div s

/-- An exception changes the running record and what is held only (R365). -/
theorem hold_eq (s : State) : hold s = { s with
    div := if s.sr.ra then none else s.div
    held := ⟨s.w15, s.pc, s.rcount, s.w, s.fresh, s.sr.ra, if s.sr.ra then s.div else none⟩ :: s.held } := rfl

/-- What is held has the working registers of every context as they stood at the entry, which its handler finds. -/
theorem hold_regIn (s : State) (c : Fin 5) (n : Reg) : (hold s).held.head?.map (fun x => x.regIn c n) = some (s.regIn c n) := rfl

/-- The entry found is the first with the property. -/
theorem splitHeld_some {p : Interrupted → Bool} {l newer older : List Interrupted} {x : Interrupted}
    (h : splitHeld p l = some (newer, x, older)) : l = newer ++ x :: older ∧ p x = true ∧ ∀ q ∈ newer, p q = false := by
  induction l generalizing newer with
  | nil => cases h
  | cons q t ih =>
    unfold splitHeld at h
    split at h
    · next hq => cases h; exact ⟨rfl, hq, by simp⟩
    · next hq =>
      split at h
      · next n y o he =>
        cases h
        obtain ⟨h1, h2, h3⟩ := ih he
        exact ⟨by rw [h1]; rfl, h2, fun y hy => by rcases List.mem_cons.1 hy with rfl | hy; exacts [by simpa using hq, h3 y hy]⟩
      · cases h

/-- The first entry with the property is found. -/
theorem splitHeld_append {p : Interrupted → Bool} {newer older : List Interrupted} {x : Interrupted}
    (h : ∀ q ∈ newer, ¬p q = true) (hx : p x = true) : splitHeld p (newer ++ x :: older) = some (newer, x, older) := by
  induction newer with
  | nil => simp [splitHeld, hx]
  | cons q t ih =>
    rw [List.cons_append]
    unfold splitHeld
    rw [if_neg (h q (by simp)), ih fun y hy => h y (by simp [hy])]

/-- No entry with the property is found where there is none. -/
theorem splitHeld_none {p : Interrupted → Bool} {l : List Interrupted} (h : ∀ q ∈ l, ¬p q = true) : splitHeld p l = none := by
  induction l with
  | nil => rfl
  | cons q t ih =>
    unfold splitHeld
    rw [if_neg (h q (by simp)), ih fun y hy => h y (by simp [hy])]

/-- The newest that fits and whose words were at this place is found, whatever RCOUNT and the registers. -/
theorem findHeld_here {s : State} {newer older : List Interrupted} {x : Interrupted} (e : s.held = newer ++ x :: older)
    (hx : heldHere s x) (h : ∀ q ∈ newer, ¬heldHere s q) : findHeld s = some (newer, x, older) := by
  simp only [findHeld, List.findSome?_cons, e]
  rw [splitHeld_append (fun q hq => by rw [Interrupted.here_iff]; exact h q hq) ((Interrupted.here_iff s x).2 hx)]

/-- Without RA, where none at this place fits, the newest of the place is found. -/
theorem findHeld_changed {s : State} {newer older : List Interrupted} {x : Interrupted} (ra : s.sr.ra = false)
    (e : s.held = newer ++ x :: older) (n : ∀ q ∈ s.held, ¬heldHere s q) (hx : x.frame = s.w15)
    (h : ∀ q ∈ newer, q.frame ≠ s.w15) : findHeld s = some (newer, x, older) := by
  simp only [findHeld, List.findSome?_cons]
  rw [splitHeld_none fun q hq => by rw [Interrupted.here_iff]; exact n q hq, e]
  simp only
  rw [splitHeld_append (fun q hq => by simp [Interrupted.atPlace, h q hq]) (by simp [Interrupted.atPlace, hx, ra])]

/-- With RA, where none fits at this place, the newest that fits and stands as it was left is found, else the newest that fits. -/
theorem findHeld_moved {s : State} {newer older : List Interrupted} {x : Interrupted} (ra : s.sr.ra = true)
    (e : s.held = newer ++ x :: older) (n : ∀ q ∈ s.held, ¬heldHere s q) (hx : fitsPopped s x)
    (h : (standsAsLeft s x ∧ ∀ q ∈ newer, ¬(fitsPopped s q ∧ standsAsLeft s q))
      ∨ ((∀ q ∈ newer, ¬fitsPopped s q) ∧ ∀ q ∈ s.held, ¬(fitsPopped s q ∧ standsAsLeft s q))) :
    findHeld s = some (newer, x, older) := by
  simp only [findHeld, List.findSome?_cons]
  rw [splitHeld_none fun q hq => by rw [Interrupted.here_iff]; exact n q hq, splitHeld_none fun q _ => by simp [ra]]
  simp only
  rcases h with ⟨h1, h2⟩ | ⟨h1, h2⟩
  · rw [e, splitHeld_append (fun q hq => by rw [Interrupted.stands_iff]; exact h2 q hq) ((Interrupted.stands_iff s x).2 ⟨hx, h1⟩)]
  · rw [splitHeld_none fun q hq => by rw [Interrupted.stands_iff]; exact h2 q hq, e]
    simp only
    rw [splitHeld_append (fun q hq => by rw [Interrupted.fits_iff]; exact h1 q hq) ((Interrupted.fits_iff s x).2 hx)]

/-- Where none is of this place and none fits, none is found. -/
theorem findHeld_none {s : State} (h1 : ∀ q ∈ s.held, q.frame ≠ s.w15) (h2 : ∀ q ∈ s.held, ¬fitsPopped s q) :
    findHeld s = none := by
  have f : ∀ q ∈ s.held, ¬q.atPlace s = true := fun q hq => by simpa [Interrupted.atPlace] using h1 q hq
  have g : ∀ q ∈ s.held, ¬q.fits s = true := fun q hq => by rw [Interrupted.fits_iff]; exact h2 q hq
  simp only [findHeld, List.findSome?_cons, List.findSome?_nil]
  rw [splitHeld_none fun q hq => by simp [f q hq], splitHeld_none fun q hq => by simp [f q hq],
    splitHeld_none fun q hq => by simp [g q hq], splitHeld_none g, splitHeld_none f]

/-- The record a resumed loop goes on with is valid as R302's duty says. -/
theorem resumedDiv_goesOn (s : State) (newer : List Interrupted) (h : Interrupted) :
    goesOnWith (s.setDiv (resumedDiv s newer h)) newer h := by
  unfold goesOnWith resumedDiv
  simp only [State.setDiv_div, dutyKept, State.getW_setDiv]
  refine ⟨fun e => by rw [e]; rfl, fun r e => ?_⟩
  rw [e]
  simp only [← Interrupted.startedSince_iff, Option.map_some, Option.some.injEq]
  have k := DivRec.kept_iff r s
  unfold dutyKept at k
  rw [← k]
  constructor
  · rintro ⟨h1, h2⟩
    have : newer.any (Interrupted.startedSince r.last) = false := by simpa using h2
    rw [h1, this]
    simp
  · rintro (h1 | ⟨x, hx, hu⟩)
    · simp [Bool.eq_false_iff.2 h1]
    · have : newer.any (Interrupted.startedSince r.last) = true := List.any_eq_true.2 ⟨x, hx, hu⟩
      simp [this]

/-- A return changes the running record and what is held only, and with RA = 0 not the record (R365). -/
theorem endInterruption_eq (s : State) : ∃ d l, endInterruption s = (s.setHeld l).setDiv d ∧ (s.sr.ra = false → d = s.div) := by
  unfold endInterruption
  cases findHeld s with
  | none => cases s.sr.ra <;> exact ⟨_, s.held, rfl, by simp⟩
  | some y =>
    obtain ⟨newer, x, older⟩ := y
    obtain ⟨l, e, -⟩ := leaveRecord_eq x.div (s.setHeld ((newer ++ older).map (Interrupted.onDiv (DivRec.judge x s))))
    simp only [e]
    cases s.sr.ra with
    | false => exact ⟨s.div, l, rfl, fun _ => rfl⟩
    | true => cases x.fits s <;> exact ⟨_, _, rfl, nofun⟩

/-- With RA restored the loop that is found goes on, and the others are judged (R302, R365). -/
theorem endInterruption_resumes {s : State} {newer older : List Interrupted} {x : Interrupted} (ra : s.sr.ra = true)
    (f : fitsPopped s x) (h : findHeld s = some (newer, x, older)) : resumes (endInterruption s) newer x older := by
  have e : endInterruption s = (s.setHeld (judgedBy x s (newer ++ older))).setDiv (resumedDiv s newer x) := by
    unfold endInterruption
    simp only [h, ra, Bool.not_true, Bool.false_eq_true, if_false, (Interrupted.fits_iff s x).2 f, if_true, map_judge]
  rw [e]
  exact ⟨rfl, resumedDiv_goesOn (s.setHeld _) newer x⟩

/-- With RA = 0 the others are judged, and a divide of what was interrupted is left (R302). -/
theorem endInterruption_leaves {s : State} {newer older : List Interrupted} {x : Interrupted} (ra : s.sr.ra = false)
    (h : findHeld s = some (newer, x, older)) :
    (endInterruption s).div = s.div ∧ leaves (endInterruption s) newer x older := by
  obtain ⟨l, e, h1, h2⟩ := leaveRecord_eq x.div (s.setHeld (judgedBy x s (newer ++ older)))
  have e' : endInterruption s = s.setHeld l := by
    unfold endInterruption
    simp only [h, ra, Bool.not_false, if_true, map_judge, e]
    rfl
  rw [e']
  exact ⟨rfl, h1, h2⟩

/-- Where nothing is found nothing is judged, and a loop that goes on has no record. -/
theorem endInterruption_none {s : State} (h : findHeld s = none) :
    endInterruption s = s.setDiv (if s.sr.ra then none else s.div) := by
  unfold endInterruption
  simp only [h]
  split <;> rfl

/-- With RA restored and nothing that fits, the loop that goes on has no record. -/
theorem endInterruption_unknown {s : State} (ra : s.sr.ra = true) (h : ∀ q ∈ s.held, ¬fitsPopped s q) :
    (endInterruption s).div = none := by
  unfold endInterruption
  cases hf : findHeld s with
  | none => simp [ra]
  | some y =>
    obtain ⟨newer, x, older⟩ := y
    obtain ⟨p, -, hp⟩ := List.exists_of_findSome?_eq_some hf
    have : x.fits s = false := by
      rw [Bool.eq_false_iff, ne_eq, Interrupted.fits_iff]
      exact h x (by simp [(splitHeld_some hp).1])
    simp [ra, this]

/-! ## Traps requested again -/

/-- A return changes the requests of MathError and SoftTrap at most (R448, log 27). -/
theorem reenterTrap_eq (h : Option Source) (s : State) : reenterTrap h s = s.setPend (returnPend h s) := rfl

/-! ## Requests -/

/-- The CPU's own requests are its pending traps (R441). -/
theorem mem_cpuRequests (s : State) (q : Request) : q ∈ cpuRequests s ↔
    s.pend.address = true ∧ q = ⟨.address, s.dev.levelAddress⟩ ∨ s.pend.stack = true ∧ q = ⟨.stack, s.dev.levelStack⟩
      ∨ s.pend.math = true ∧ q = ⟨.math, s.dev.levelMath⟩ ∨ s.pend.soft = true ∧ q = ⟨.soft, s.dev.levelSoft⟩ := by
  have e : ∀ (b : Bool) (r : Request), (q ∈ if b = true then [r] else []) ↔ b = true ∧ q = r := fun b r => by
    cases b <;> simp
  simp only [cpuRequests, List.mem_append, e, or_assoc]

/-- The requests are those the statements call presented (R428, R441). -/
theorem mem_requests (s : State) (q : Request) : q ∈ requests s ↔ presents s q := by
  obtain ⟨src, l⟩ := q
  have z : ∀ k : BitVec 3, k.setWidth 4 = l ↔ l.toNat = k.toNat := fun k => by
    rw [← BitVec.toNat_inj, BitVec.toNat_setWidth, Nat.mod_eq_of_lt (by have := k.isLt; omega)]
    exact eq_comm
  rw [requests, List.mem_append, mem_cpuRequests, List.mem_map]
  constructor
  · rintro (h | ⟨x, hx, h⟩)
    · rcases h with ⟨h, e⟩ | ⟨h, e⟩ | ⟨h, e⟩ | ⟨h, e⟩ <;> cases e <;> first | exact ⟨h, rfl⟩ | exact ⟨.inl h, rfl⟩
    · cases x <;> cases h <;> first | exact ⟨hx, rfl⟩ | exact ⟨.inr hx, rfl⟩ | exact ⟨_, hx, (z _).1 rfl⟩
  · intro h
    cases src with
    | oscillator | hard | dma => exact .inr ⟨_, h.1, congrArg _ h.2.symm⟩
    | irq n => obtain ⟨k, h1, h2⟩ := h; exact .inr ⟨_, h1, congrArg _ ((z k).2 h2)⟩
    | soft =>
      obtain ⟨h1 | h1, h2⟩ := h
      · simp only at h2; simp [h1, h2]
      · exact .inr ⟨_, h1, congrArg _ h2.symm⟩
    | address | stack | math => obtain ⟨h1, h2⟩ := h; simp only at h2; simp [h1, h2]

/-- The mark of a `DO` changes nothing else. -/
theorem State.markDo_eq (s : State) : s.markDo = s.setTrk { s.trk with doWr := true } := rfl

end Sys2Proof.Machine
end

