-- ==== Sys2Proof/Laws/PerInstr.lean ====
section
/-!
SUPPORT. What is shown for every instruction, one lemma per constructor.
-/

namespace Sys2Proof.Laws.EncodeShape

set_option Elab.async false

/-- R131, R147: the encoder gives numbers of 24 bits, as many as the instruction has words, and none exactly for the rows
without an encoding. -/
def Statement (i : Instr) : Prop :=
  (∀ x ∈ encodeNat i, x < 2 ^ 24)
    ∧ if Sys2Proof.Machine.unencoded i = true then encodeNat i = [] else (encodeNat i).length = i.words

theorem size_code (b : Size) : b.code < 2 := by cases b <;> decide
theorem fdest_code (t : FDest) : t.code < 2 := by cases t <;> decide
theorem acc_code (a : Acc) : a.code < 2 := by cases a <;> decide
theorem wb_code (b : WriteBack) : b.code < 2 := by cases b <;> decide
theorem mode_code (m : Mode) : m.code < 8 := by cases m <;> decide
theorem mode6_code (m : Mode6) : m.code < 8 := by cases m <;> decide
theorem post_code (m : PostMode) : m.code < 4 := by cases m <;> decide
theorem pre_code (m : PreMode) : m.code < 8 := by cases m <;> decide
theorem dreg_code (m : DReg) : m.code < 4 := by cases m <;> decide
theorem pair_code (m : MulPair) : m.code < 8 := by cases m <;> decide
theorem prefetch_code (i : Prefetch) : i.code < 16 := by
  rcases i with _ | ⟨b, k⟩ | _
  · decide
  · cases b <;> cases k <;> decide
  · decide

theorem nop : Statement (.nop) := by
  refine ⟨?_, rfl⟩
  simp only [encodeNat, List.mem_cons, List.not_mem_nil, or_false, forall_eq]
  omega

theorem callWn (n : Reg) : Statement (.callWn n) := by
  refine ⟨?_, rfl⟩
  have := n.isLt
  simp only [encodeNat, List.mem_cons, List.not_mem_nil, or_false, forall_eq]
  omega

theorem call (t : BitVec 22) : Statement (.call t) := by
  refine ⟨?_, rfl⟩
  have := t.isLt
  simp only [encodeNat, List.mem_cons, List.not_mem_nil, or_false, forall_eq_or_imp, forall_eq]
  omega

theorem goto (t : BitVec 22) : Statement (.goto t) := by
  refine ⟨?_, rfl⟩
  have := t.isLt
  simp only [encodeNat, List.mem_cons, List.not_mem_nil, or_false, forall_eq_or_imp, forall_eq]
  omega

theorem retlw (b : Size) (k : BitVec 10) (d : Reg) : Statement (.retlw b k d) := by
  refine ⟨?_, rfl⟩
  have := size_code b
  have := k.isLt
  have := d.isLt
  simp only [encodeNat, List.mem_cons, List.not_mem_nil, or_false, forall_eq]
  omega

theorem ret : Statement (.ret) := by
  refine ⟨?_, rfl⟩
  simp only [encodeNat, List.mem_cons, List.not_mem_nil, or_false, forall_eq]
  omega

theorem retfie : Statement (.retfie) := by
  refine ⟨?_, rfl⟩
  simp only [encodeNat, List.mem_cons, List.not_mem_nil, or_false, forall_eq]
  omega

theorem rcall (n : BitVec 16) : Statement (.rcall n) := by
  refine ⟨?_, rfl⟩
  have := n.isLt
  simp only [encodeNat, List.mem_cons, List.not_mem_nil, or_false, forall_eq]
  omega

theorem doLit (k : BitVec 15) (n : BitVec 16) : Statement (.doLit k n) := by
  refine ⟨?_, rfl⟩
  have := k.isLt
  have := n.isLt
  simp only [encodeNat, List.mem_cons, List.not_mem_nil, or_false, forall_eq_or_imp, forall_eq]
  omega

theorem doWn (r : Reg) (n : BitVec 16) : Statement (.doWn r n) := by
  refine ⟨?_, rfl⟩
  have := r.isLt
  have := n.isLt
  simp only [encodeNat, List.mem_cons, List.not_mem_nil, or_false, forall_eq_or_imp, forall_eq]
  omega

theorem repeatLit (k : BitVec 15) : Statement (.repeatLit k) := by
  refine ⟨?_, rfl⟩
  have := k.isLt
  simp only [encodeNat, List.mem_cons, List.not_mem_nil, or_false, forall_eq]
  omega

theorem repeatWn (r : Reg) : Statement (.repeatWn r) := by
  refine ⟨?_, rfl⟩
  have := r.isLt
  simp only [encodeNat, List.mem_cons, List.not_mem_nil, or_false, forall_eq]
  omega

theorem braOA (n : BitVec 16) : Statement (.braOA n) := by
  refine ⟨?_, rfl⟩
  have := n.isLt
  simp only [encodeNat, List.mem_cons, List.not_mem_nil, or_false, forall_eq]
  omega

theorem braOB (n : BitVec 16) : Statement (.braOB n) := by
  refine ⟨?_, rfl⟩
  have := n.isLt
  simp only [encodeNat, List.mem_cons, List.not_mem_nil, or_false, forall_eq]
  omega

theorem braSA (n : BitVec 16) : Statement (.braSA n) := by
  refine ⟨?_, rfl⟩
  have := n.isLt
  simp only [encodeNat, List.mem_cons, List.not_mem_nil, or_false, forall_eq]
  omega

theorem braSB (n : BitVec 16) : Statement (.braSB n) := by
  refine ⟨?_, rfl⟩
  have := n.isLt
  simp only [encodeNat, List.mem_cons, List.not_mem_nil, or_false, forall_eq]
  omega

theorem movLit16 (k : BitVec 16) (d : Reg) : Statement (.movLit16 k d) := by
  refine ⟨?_, rfl⟩
  have := k.isLt
  have := d.isLt
  simp only [encodeNat, List.mem_cons, List.not_mem_nil, or_false, forall_eq]
  omega

theorem braOV (n : BitVec 16) : Statement (.braOV n) := by
  refine ⟨?_, rfl⟩
  have := n.isLt
  simp only [encodeNat, List.mem_cons, List.not_mem_nil, or_false, forall_eq]
  omega

theorem braC (n : BitVec 16) : Statement (.braC n) := by
  refine ⟨?_, rfl⟩
  have := n.isLt
  simp only [encodeNat, List.mem_cons, List.not_mem_nil, or_false, forall_eq]
  omega

theorem braZ (n : BitVec 16) : Statement (.braZ n) := by
  refine ⟨?_, rfl⟩
  have := n.isLt
  simp only [encodeNat, List.mem_cons, List.not_mem_nil, or_false, forall_eq]
  omega

theorem braN (n : BitVec 16) : Statement (.braN n) := by
  refine ⟨?_, rfl⟩
  have := n.isLt
  simp only [encodeNat, List.mem_cons, List.not_mem_nil, or_false, forall_eq]
  omega

theorem braLE (n : BitVec 16) : Statement (.braLE n) := by
  refine ⟨?_, rfl⟩
  have := n.isLt
  simp only [encodeNat, List.mem_cons, List.not_mem_nil, or_false, forall_eq]
  omega

theorem braLT (n : BitVec 16) : Statement (.braLT n) := by
  refine ⟨?_, rfl⟩
  have := n.isLt
  simp only [encodeNat, List.mem_cons, List.not_mem_nil, or_false, forall_eq]
  omega

theorem braLEU (n : BitVec 16) : Statement (.braLEU n) := by
  refine ⟨?_, rfl⟩
  have := n.isLt
  simp only [encodeNat, List.mem_cons, List.not_mem_nil, or_false, forall_eq]
  omega

theorem bra (n : BitVec 16) : Statement (.bra n) := by
  refine ⟨?_, rfl⟩
  have := n.isLt
  simp only [encodeNat, List.mem_cons, List.not_mem_nil, or_false, forall_eq]
  omega

theorem braNOV (n : BitVec 16) : Statement (.braNOV n) := by
  refine ⟨?_, rfl⟩
  have := n.isLt
  simp only [encodeNat, List.mem_cons, List.not_mem_nil, or_false, forall_eq]
  omega

theorem braNC (n : BitVec 16) : Statement (.braNC n) := by
  refine ⟨?_, rfl⟩
  have := n.isLt
  simp only [encodeNat, List.mem_cons, List.not_mem_nil, or_false, forall_eq]
  omega

theorem braNZ (n : BitVec 16) : Statement (.braNZ n) := by
  refine ⟨?_, rfl⟩
  have := n.isLt
  simp only [encodeNat, List.mem_cons, List.not_mem_nil, or_false, forall_eq]
  omega

theorem braNN (n : BitVec 16) : Statement (.braNN n) := by
  refine ⟨?_, rfl⟩
  have := n.isLt
  simp only [encodeNat, List.mem_cons, List.not_mem_nil, or_false, forall_eq]
  omega

theorem braGT (n : BitVec 16) : Statement (.braGT n) := by
  refine ⟨?_, rfl⟩
  have := n.isLt
  simp only [encodeNat, List.mem_cons, List.not_mem_nil, or_false, forall_eq]
  omega

theorem braGE (n : BitVec 16) : Statement (.braGE n) := by
  refine ⟨?_, rfl⟩
  have := n.isLt
  simp only [encodeNat, List.mem_cons, List.not_mem_nil, or_false, forall_eq]
  omega

theorem braGTU (n : BitVec 16) : Statement (.braGTU n) := by
  refine ⟨?_, rfl⟩
  have := n.isLt
  simp only [encodeNat, List.mem_cons, List.not_mem_nil, or_false, forall_eq]
  omega

theorem addWbWsWd (w : Reg) (b : Size) (q : Mode6) (d : Reg) (p : PostMode) (r : Reg) : Statement (.addWbWsWd w b q d p r) := by
  refine ⟨?_, rfl⟩
  have := w.isLt
  have := size_code b
  have := mode6_code q
  have := d.isLt
  have := post_code p
  have := r.isLt
  simp only [encodeNat, List.mem_cons, List.not_mem_nil, or_false, forall_eq]
  omega

theorem addWbWsWdPre (w : Reg) (b : Size) (q : Mode6) (d : Reg) (p : PreMode) (r : Reg) : Statement (.addWbWsWdPre w b q d p r) := by
  refine ⟨?_, rfl⟩
  have := w.isLt
  have := size_code b
  have := mode6_code q
  have := d.isLt
  have := pre_code p
  have := r.isLt
  simp only [encodeNat, List.mem_cons, List.not_mem_nil, or_false, forall_eq]
  omega

theorem addWbLit5 (w : Reg) (b : Size) (q : Mode6) (d : Reg) (k : BitVec 5) : Statement (.addWbLit5 w b q d k) := by
  refine ⟨?_, rfl⟩
  have := w.isLt
  have := size_code b
  have := mode6_code q
  have := d.isLt
  have := k.isLt
  simp only [encodeNat, List.mem_cons, List.not_mem_nil, or_false, forall_eq]
  omega

theorem movWsWd (w : Reg) (b : Size) (h : Mode) (d : Reg) (g : Mode) (r : Reg) : Statement (.movWsWd w b h d g r) := by
  refine ⟨?_, rfl⟩
  have := w.isLt
  have := size_code b
  have := mode_code h
  have := d.isLt
  have := mode_code g
  have := r.isLt
  simp only [encodeNat, List.mem_cons, List.not_mem_nil, or_false, forall_eq]
  omega

theorem movFWnd (f : BitVec 15) (d : Reg) : Statement (.movFWnd f d) := by
  refine ⟨?_, rfl⟩
  have := f.isLt
  have := d.isLt
  simp only [encodeNat, List.mem_cons, List.not_mem_nil, or_false, forall_eq]
  omega

theorem movWnsF (f : BitVec 15) (r : Reg) : Statement (.movWnsF f r) := by
  refine ⟨?_, rfl⟩
  have := f.isLt
  have := r.isLt
  simp only [encodeNat, List.mem_cons, List.not_mem_nil, or_false, forall_eq]
  omega

theorem bsetWs (k : BitVec 4) (b : Size) (p : Mode6) (r : Reg) : Statement (.bsetWs k b p r) := by
  refine ⟨?_, rfl⟩
  have := k.isLt
  have := size_code b
  have := mode6_code p
  have := r.isLt
  simp only [encodeNat, List.mem_cons, List.not_mem_nil, or_false, forall_eq]
  omega

theorem btscWs (k : BitVec 4) (p : Mode6) (r : Reg) : Statement (.btscWs k p r) := by
  refine ⟨?_, rfl⟩
  have := k.isLt
  have := mode6_code p
  have := r.isLt
  simp only [encodeNat, List.mem_cons, List.not_mem_nil, or_false, forall_eq]
  omega

theorem bsetF (k : BitVec 4) (f : BitVec 12) : Statement (.bsetF k f) := by
  refine ⟨?_, rfl⟩
  have := k.isLt
  have := f.isLt
  simp only [encodeNat, List.mem_cons, List.not_mem_nil, or_false, forall_eq]
  omega

theorem btscF (k : BitVec 4) (f : BitVec 12) : Statement (.btscF k f) := by
  refine ⟨?_, rfl⟩
  have := k.isLt
  have := f.isLt
  simp only [encodeNat, List.mem_cons, List.not_mem_nil, or_false, forall_eq]
  omega

theorem addLit10 (b : Size) (k : BitVec 10) (d : Reg) : Statement (.addLit10 b k d) := by
  refine ⟨?_, rfl⟩
  have := size_code b
  have := k.isLt
  have := d.isLt
  simp only [encodeNat, List.mem_cons, List.not_mem_nil, or_false, forall_eq]
  omega

theorem movbLit8 (k : BitVec 8) (d : Reg) : Statement (.movbLit8 k d) := by
  refine ⟨?_, rfl⟩
  have := k.isLt
  have := d.isLt
  simp only [encodeNat, List.mem_cons, List.not_mem_nil, or_false, forall_eq]
  omega

theorem addF (b : Size) (t : FDest) (f : BitVec 13) : Statement (.addF b t f) := by
  refine ⟨?_, rfl⟩
  have := size_code b
  have := fdest_code t
  have := f.isLt
  simp only [encodeNat, encFile, List.mem_cons, List.not_mem_nil, or_false, forall_eq]
  omega

theorem movWregF (b : Size) (f : BitVec 13) : Statement (.movWregF b f) := by
  refine ⟨?_, rfl⟩
  have := size_code b
  have := f.isLt
  simp only [encodeNat, List.mem_cons, List.not_mem_nil, or_false, forall_eq]
  omega

theorem mulUU (w : Reg) (d : Reg) (p : PostMode) (r : Reg) : Statement (.mulUU w d p r) := by
  refine ⟨?_, rfl⟩
  have := w.isLt
  have := d.isLt
  have := post_code p
  have := r.isLt
  simp only [encodeNat, encWD, List.mem_cons, List.not_mem_nil, or_false, forall_eq]
  omega

theorem mulUUPre (w : Reg) (d : Reg) (p : PreMode) (r : Reg) : Statement (.mulUUPre w d p r) := by
  refine ⟨?_, rfl⟩
  have := w.isLt
  have := d.isLt
  have := pre_code p
  have := r.isLt
  simp only [encodeNat, encWD, List.mem_cons, List.not_mem_nil, or_false, forall_eq]
  omega

theorem mulUULit5 (w : Reg) (d : Reg) (k : BitVec 5) : Statement (.mulUULit5 w d k) := by
  refine ⟨?_, rfl⟩
  have := w.isLt
  have := d.isLt
  have := k.isLt
  simp only [encodeNat, encWD, List.mem_cons, List.not_mem_nil, or_false, forall_eq]
  omega

theorem mulUS (w : Reg) (d : Reg) (p : Mode6) (r : Reg) : Statement (.mulUS w d p r) := by
  refine ⟨?_, rfl⟩
  have := w.isLt
  have := d.isLt
  have := mode6_code p
  have := r.isLt
  simp only [encodeNat, encWD, List.mem_cons, List.not_mem_nil, or_false, forall_eq]
  omega

theorem mulSU (w : Reg) (d : Reg) (p : PostMode) (r : Reg) : Statement (.mulSU w d p r) := by
  refine ⟨?_, rfl⟩
  have := w.isLt
  have := d.isLt
  have := post_code p
  have := r.isLt
  simp only [encodeNat, encWD, List.mem_cons, List.not_mem_nil, or_false, forall_eq]
  omega

theorem mulSUPre (w : Reg) (d : Reg) (p : PreMode) (r : Reg) : Statement (.mulSUPre w d p r) := by
  refine ⟨?_, rfl⟩
  have := w.isLt
  have := d.isLt
  have := pre_code p
  have := r.isLt
  simp only [encodeNat, encWD, List.mem_cons, List.not_mem_nil, or_false, forall_eq]
  omega

theorem mulSULit5 (w : Reg) (d : Reg) (k : BitVec 5) : Statement (.mulSULit5 w d k) := by
  refine ⟨?_, rfl⟩
  have := w.isLt
  have := d.isLt
  have := k.isLt
  simp only [encodeNat, encWD, List.mem_cons, List.not_mem_nil, or_false, forall_eq]
  omega

theorem mulSS (w : Reg) (d : Reg) (p : Mode6) (r : Reg) : Statement (.mulSS w d p r) := by
  refine ⟨?_, rfl⟩
  have := w.isLt
  have := d.isLt
  have := mode6_code p
  have := r.isLt
  simp only [encodeNat, encWD, List.mem_cons, List.not_mem_nil, or_false, forall_eq]
  omega

theorem tblrdl (b : Size) (q : Mode6) (d : Reg) (p : Mode6) (r : Reg) : Statement (.tblrdl b q d p r) := by
  refine ⟨?_, rfl⟩
  have := size_code b
  have := mode6_code q
  have := d.isLt
  have := mode6_code p
  have := r.isLt
  simp only [encodeNat, encTwo, List.mem_cons, List.not_mem_nil, or_false, forall_eq]
  omega

theorem tblrdh (b : Size) (q : Mode6) (d : Reg) (p : Mode6) (r : Reg) : Statement (.tblrdh b q d p r) := by
  refine ⟨?_, rfl⟩
  have := size_code b
  have := mode6_code q
  have := d.isLt
  have := mode6_code p
  have := r.isLt
  simp only [encodeNat, encTwo, List.mem_cons, List.not_mem_nil, or_false, forall_eq]
  omega

theorem tblwtl (b : Size) (q : Mode6) (d : Reg) (p : Mode6) (r : Reg) : Statement (.tblwtl b q d p r) := by
  refine ⟨?_, rfl⟩
  have := size_code b
  have := mode6_code q
  have := d.isLt
  have := mode6_code p
  have := r.isLt
  simp only [encodeNat, encTwo, List.mem_cons, List.not_mem_nil, or_false, forall_eq]
  omega

theorem tblwth (b : Size) (q : Mode6) (d : Reg) (p : Mode6) (r : Reg) : Statement (.tblwth b q d p r) := by
  refine ⟨?_, rfl⟩
  have := size_code b
  have := mode6_code q
  have := d.isLt
  have := mode6_code p
  have := r.isLt
  simp only [encodeNat, encTwo, List.mem_cons, List.not_mem_nil, or_false, forall_eq]
  omega

theorem mulF (b : Size) (f : BitVec 13) : Statement (.mulF b f) := by
  refine ⟨?_, rfl⟩
  have := size_code b
  have := f.isLt
  simp only [encodeNat, List.mem_cons, List.not_mem_nil, or_false, forall_eq]
  omega

theorem movDLoad (d : Fin 8) (p : Mode6) (r : Reg) : Statement (.movDLoad d p r) := by
  refine ⟨?_, rfl⟩
  have := d.isLt
  have := mode6_code p
  have := r.isLt
  simp only [encodeNat, List.mem_cons, List.not_mem_nil, or_false, forall_eq]
  omega

theorem movDStore (q : Mode6) (d : Reg) (r : Fin 8) : Statement (.movDStore q d r) := by
  refine ⟨?_, rfl⟩
  have := mode6_code q
  have := d.isLt
  have := r.isLt
  simp only [encodeNat, List.mem_cons, List.not_mem_nil, or_false, forall_eq]
  omega

theorem movF (b : Size) (t : FDest) (f : BitVec 13) : Statement (.movF b t f) := by
  refine ⟨?_, rfl⟩
  have := size_code b
  have := fdest_code t
  have := f.isLt
  simp only [encodeNat, encFile, List.mem_cons, List.not_mem_nil, or_false, forall_eq]
  omega

theorem mac (m : MulPair) (a : Acc) (x y : DReg) (i j : Prefetch) (wb : WriteBack) : Statement (.mac m a x y i j wb) := by
  refine ⟨?_, rfl⟩
  have := pair_code m
  have := acc_code a
  have := dreg_code x
  have := dreg_code y
  have := prefetch_code i
  have := prefetch_code j
  have := wb_code wb
  simp only [encodeNat, encDsp, List.mem_cons, List.not_mem_nil, or_false, forall_eq]
  omega

theorem macNoWb (m : MulPair) (a : Acc) (x y : DReg) (i j : Prefetch) : Statement (.macNoWb m a x y i j) := by
  refine ⟨?_, rfl⟩
  have := pair_code m
  have := acc_code a
  have := dreg_code x
  have := dreg_code y
  have := prefetch_code i
  have := prefetch_code j
  simp only [encodeNat, encDsp, List.mem_cons, List.not_mem_nil, or_false, forall_eq]
  omega

theorem mpy (m : MulPair) (a : Acc) (x y : DReg) (i j : Prefetch) : Statement (.mpy m a x y i j) := by
  refine ⟨?_, rfl⟩
  have := pair_code m
  have := acc_code a
  have := dreg_code x
  have := dreg_code y
  have := prefetch_code i
  have := prefetch_code j
  simp only [encodeNat, encDsp, List.mem_cons, List.not_mem_nil, or_false, forall_eq]
  omega

theorem msc (m : MulPair) (a : Acc) (x y : DReg) (i j : Prefetch) (wb : WriteBack) : Statement (.msc m a x y i j wb) := by
  refine ⟨?_, rfl⟩
  have := pair_code m
  have := acc_code a
  have := dreg_code x
  have := dreg_code y
  have := prefetch_code i
  have := prefetch_code j
  have := wb_code wb
  simp only [encodeNat, encDsp, List.mem_cons, List.not_mem_nil, or_false, forall_eq]
  omega

theorem mscNoWb (m : MulPair) (a : Acc) (x y : DReg) (i j : Prefetch) : Statement (.mscNoWb m a x y i j) := by
  refine ⟨?_, rfl⟩
  have := pair_code m
  have := acc_code a
  have := dreg_code x
  have := dreg_code y
  have := prefetch_code i
  have := prefetch_code j
  simp only [encodeNat, encDsp, List.mem_cons, List.not_mem_nil, or_false, forall_eq]
  omega

theorem mpyN (m : MulPair) (a : Acc) (x y : DReg) (i j : Prefetch) : Statement (.mpyN m a x y i j) := by
  refine ⟨?_, rfl⟩
  have := pair_code m
  have := acc_code a
  have := dreg_code x
  have := dreg_code y
  have := prefetch_code i
  have := prefetch_code j
  simp only [encodeNat, encDsp, List.mem_cons, List.not_mem_nil, or_false, forall_eq]
  omega

theorem sftacWb (a : Acc) (r : Reg) : Statement (.sftacWb a r) := by
  refine ⟨?_, rfl⟩
  have := acc_code a
  have := r.isLt
  simp only [encodeNat, List.mem_cons, List.not_mem_nil, or_false, forall_eq]
  omega

theorem sftacLit (a : Acc) (k : BitVec 6) : Statement (.sftacLit a k) := by
  refine ⟨?_, rfl⟩
  have := acc_code a
  have := k.isLt
  simp only [encodeNat, List.mem_cons, List.not_mem_nil, or_false, forall_eq]
  omega

theorem addWsoAcc (a : Acc) (w : Reg) (k : BitVec 4) (g : Mode) (r : Reg) : Statement (.addWsoAcc a w k g r) := by
  refine ⟨?_, rfl⟩
  have := acc_code a
  have := w.isLt
  have := k.isLt
  have := mode_code g
  have := r.isLt
  simp only [encodeNat, encAccMove, List.mem_cons, List.not_mem_nil, or_false, forall_eq]
  omega

theorem lac (a : Acc) (w : Reg) (k : BitVec 4) (g : Mode) (r : Reg) : Statement (.lac a w k g r) := by
  refine ⟨?_, rfl⟩
  have := acc_code a
  have := w.isLt
  have := k.isLt
  have := mode_code g
  have := r.isLt
  simp only [encodeNat, encAccMove, List.mem_cons, List.not_mem_nil, or_false, forall_eq]
  omega

theorem addAcc (a : Acc) : Statement (.addAcc a) := by
  refine ⟨?_, rfl⟩
  have := acc_code a
  simp only [encodeNat, List.mem_cons, List.not_mem_nil, or_false, forall_eq]
  omega

theorem sac (a : Acc) (w : Reg) (k : BitVec 4) (h : Mode) (d : Reg) : Statement (.sac a w k h d) := by
  refine ⟨?_, rfl⟩
  have := acc_code a
  have := w.isLt
  have := k.isLt
  have := mode_code h
  have := d.isLt
  simp only [encodeNat, encAccMove, List.mem_cons, List.not_mem_nil, or_false, forall_eq]
  omega

theorem sacR (a : Acc) (w : Reg) (k : BitVec 4) (h : Mode) (d : Reg) : Statement (.sacR a w k h d) := by
  refine ⟨?_, rfl⟩
  have := acc_code a
  have := w.isLt
  have := k.isLt
  have := mode_code h
  have := d.isLt
  simp only [encodeNat, encAccMove, List.mem_cons, List.not_mem_nil, or_false, forall_eq]
  omega

theorem slWsWd (b : Size) (q : Mode6) (d : Reg) (p : Mode6) (r : Reg) : Statement (.slWsWd b q d p r) := by
  refine ⟨?_, rfl⟩
  have := size_code b
  have := mode6_code q
  have := d.isLt
  have := mode6_code p
  have := r.isLt
  simp only [encodeNat, encTwo, List.mem_cons, List.not_mem_nil, or_false, forall_eq]
  omega

theorem lsrWsWd (b : Size) (q : Mode6) (d : Reg) (p : Mode6) (r : Reg) : Statement (.lsrWsWd b q d p r) := by
  refine ⟨?_, rfl⟩
  have := size_code b
  have := mode6_code q
  have := d.isLt
  have := mode6_code p
  have := r.isLt
  simp only [encodeNat, encTwo, List.mem_cons, List.not_mem_nil, or_false, forall_eq]
  omega

theorem asrWsWd (b : Size) (q : Mode6) (d : Reg) (p : Mode6) (r : Reg) : Statement (.asrWsWd b q d p r) := by
  refine ⟨?_, rfl⟩
  have := size_code b
  have := mode6_code q
  have := d.isLt
  have := mode6_code p
  have := r.isLt
  simp only [encodeNat, encTwo, List.mem_cons, List.not_mem_nil, or_false, forall_eq]
  omega

theorem slF (b : Size) (t : FDest) (f : BitVec 13) : Statement (.slF b t f) := by
  refine ⟨?_, rfl⟩
  have := size_code b
  have := fdest_code t
  have := f.isLt
  simp only [encodeNat, encFile, List.mem_cons, List.not_mem_nil, or_false, forall_eq]
  omega

theorem lsrF (b : Size) (t : FDest) (f : BitVec 13) : Statement (.lsrF b t f) := by
  refine ⟨?_, rfl⟩
  have := size_code b
  have := fdest_code t
  have := f.isLt
  simp only [encodeNat, encFile, List.mem_cons, List.not_mem_nil, or_false, forall_eq]
  omega

theorem asrF (b : Size) (t : FDest) (f : BitVec 13) : Statement (.asrF b t f) := by
  refine ⟨?_, rfl⟩
  have := size_code b
  have := fdest_code t
  have := f.isLt
  simp only [encodeNat, encFile, List.mem_cons, List.not_mem_nil, or_false, forall_eq]
  omega

theorem divS (dbl : Bool) (m : Reg) (n : Reg) : Statement (.divS dbl m n) := by
  cases dbl <;>
        (refine ⟨?_, rfl⟩; have := m.isLt; have := n.isLt; simp only [encodeNat, encDiv, List.mem_cons, List.not_mem_nil, or_false, forall_eq]; omega)

theorem divU (dbl : Bool) (m : Reg) (n : Reg) : Statement (.divU dbl m n) := by
  cases dbl <;>
        (refine ⟨?_, rfl⟩; have := m.isLt; have := n.isLt; simp only [encodeNat, encDiv, List.mem_cons, List.not_mem_nil, or_false, forall_eq]; omega)

theorem divF (m : Reg) (n : Reg) : Statement (.divF m n) := by
  refine ⟨?_, rfl⟩
  have := m.isLt
  have := n.isLt
  simp only [encodeNat, List.mem_cons, List.not_mem_nil, or_false, forall_eq]
  omega

theorem slWns (w : Reg) (d : Reg) (r : Reg) : Statement (.slWns w d r) := by
  refine ⟨?_, rfl⟩
  have := w.isLt
  have := d.isLt
  have := r.isLt
  simp only [encodeNat, encWD, List.mem_cons, List.not_mem_nil, or_false, forall_eq]
  omega

theorem slLit4 (w : Reg) (d : Reg) (k : BitVec 4) : Statement (.slLit4 w d k) := by
  refine ⟨?_, rfl⟩
  have := w.isLt
  have := d.isLt
  have := k.isLt
  simp only [encodeNat, encWD, List.mem_cons, List.not_mem_nil, or_false, forall_eq]
  omega

theorem lsrWns (w : Reg) (d : Reg) (r : Reg) : Statement (.lsrWns w d r) := by
  refine ⟨?_, rfl⟩
  have := w.isLt
  have := d.isLt
  have := r.isLt
  simp only [encodeNat, encWD, List.mem_cons, List.not_mem_nil, or_false, forall_eq]
  omega

theorem lsrLit4 (w : Reg) (d : Reg) (k : BitVec 4) : Statement (.lsrLit4 w d k) := by
  refine ⟨?_, rfl⟩
  have := w.isLt
  have := d.isLt
  have := k.isLt
  simp only [encodeNat, encWD, List.mem_cons, List.not_mem_nil, or_false, forall_eq]
  omega

theorem asrWns (w : Reg) (d : Reg) (r : Reg) : Statement (.asrWns w d r) := by
  refine ⟨?_, rfl⟩
  have := w.isLt
  have := d.isLt
  have := r.isLt
  simp only [encodeNat, encWD, List.mem_cons, List.not_mem_nil, or_false, forall_eq]
  omega

theorem asrLit4 (w : Reg) (d : Reg) (k : BitVec 4) : Statement (.asrLit4 w d k) := by
  refine ⟨?_, rfl⟩
  have := w.isLt
  have := d.isLt
  have := k.isLt
  simp only [encodeNat, encWD, List.mem_cons, List.not_mem_nil, or_false, forall_eq]
  omega

theorem macSq (m : DReg) (a : Acc) (x y : DReg) (i j : Prefetch) : Statement (.macSq m a x y i j) := by
  refine ⟨?_, rfl⟩
  have := dreg_code m
  have := acc_code a
  have := dreg_code x
  have := dreg_code y
  have := prefetch_code i
  have := prefetch_code j
  simp only [encodeNat, encDsp, List.mem_cons, List.not_mem_nil, or_false, forall_eq]
  omega

theorem mpySq (m : DReg) (a : Acc) (x y : DReg) (i j : Prefetch) : Statement (.mpySq m a x y i j) := by
  refine ⟨?_, rfl⟩
  have := dreg_code m
  have := acc_code a
  have := dreg_code x
  have := dreg_code y
  have := prefetch_code i
  have := prefetch_code j
  simp only [encodeNat, encDsp, List.mem_cons, List.not_mem_nil, or_false, forall_eq]
  omega

theorem edac (m : DReg) (a : Acc) (x : DReg) (i j : Prefetch) : Statement (.edac m a x i j) := by
  refine ⟨?_, rfl⟩
  have := dreg_code m
  have := acc_code a
  have := dreg_code x
  have := prefetch_code i
  have := prefetch_code j
  simp only [encodeNat, encDsp, List.mem_cons, List.not_mem_nil, or_false, forall_eq]
  omega

theorem ed (m : DReg) (a : Acc) (x : DReg) (i j : Prefetch) : Statement (.ed m a x i j) := by
  refine ⟨?_, rfl⟩
  have := dreg_code m
  have := acc_code a
  have := dreg_code x
  have := prefetch_code i
  have := prefetch_code j
  simp only [encodeNat, encDsp, List.mem_cons, List.not_mem_nil, or_false, forall_eq]
  omega

theorem lnk (k : BitVec 13) : Statement (.lnk k) := by
  refine ⟨?_, rfl⟩
  have := k.isLt
  simp only [encodeNat, List.mem_cons, List.not_mem_nil, or_false, forall_eq]
  omega

theorem ulnk : Statement (.ulnk) := by
  refine ⟨?_, rfl⟩
  simp only [encodeNat, List.mem_cons, List.not_mem_nil, or_false, forall_eq]
  omega

theorem se (d : Reg) (p : Mode6) (r : Reg) : Statement (.se d p r) := by
  refine ⟨?_, rfl⟩
  have := d.isLt
  have := mode6_code p
  have := r.isLt
  simp only [encodeNat, List.mem_cons, List.not_mem_nil, or_false, forall_eq]
  omega

theorem ze (d : Reg) (p : Mode6) (r : Reg) : Statement (.ze d p r) := by
  refine ⟨?_, rfl⟩
  have := d.isLt
  have := mode6_code p
  have := r.isLt
  simp only [encodeNat, List.mem_cons, List.not_mem_nil, or_false, forall_eq]
  omega

theorem disi (k : BitVec 14) : Statement (.disi k) := by
  refine ⟨?_, rfl⟩
  have := k.isLt
  simp only [encodeNat, List.mem_cons, List.not_mem_nil, or_false, forall_eq]
  omega

theorem reset : Statement (.reset) := by
  refine ⟨?_, rfl⟩
  simp only [encodeNat, List.mem_cons, List.not_mem_nil, or_false, forall_eq]
  omega

theorem pwrsav (k : BitVec 1) : Statement (.pwrsav k) := by
  refine ⟨?_, rfl⟩
  have := k.isLt
  simp only [encodeNat, List.mem_cons, List.not_mem_nil, or_false, forall_eq]
  omega

theorem popS : Statement (.popS) := by
  refine ⟨?_, rfl⟩
  simp only [encodeNat, List.mem_cons, List.not_mem_nil, or_false, forall_eq]
  omega

theorem pushS : Statement (.pushS) := by
  refine ⟨?_, rfl⟩
  simp only [encodeNat, List.mem_cons, List.not_mem_nil, or_false, forall_eq]
  omega

theorem ctxtswpLit (k : BitVec 3) : Statement (.ctxtswpLit k) :=
  ⟨by simp [encodeNat], rfl⟩

theorem ctxtswpWn (r : Reg) : Statement (.ctxtswpWn r) :=
  ⟨by simp [encodeNat], rfl⟩

theorem bootswp : Statement (.bootswp) :=
  ⟨by simp [encodeNat], rfl⟩

theorem callLWn (n : Reg) : Statement (.callLWn n) :=
  ⟨by simp [encodeNat], rfl⟩

theorem rcallWn (n : Reg) : Statement (.rcallWn n) :=
  ⟨by simp [encodeNat], rfl⟩

theorem mulwUU (w : Reg) (d : Reg) (y : MulSrc) (r : Reg) : Statement (.mulwUU w d y r) :=
  ⟨by simp [encodeNat], rfl⟩

theorem mulwUS (w : Reg) (d : Reg) (p : Mode6) (r : Reg) : Statement (.mulwUS w d p r) :=
  ⟨by simp [encodeNat], rfl⟩

theorem mulwSU (w : Reg) (d : Reg) (y : MulSrc) (r : Reg) : Statement (.mulwSU w d y r) :=
  ⟨by simp [encodeNat], rfl⟩

theorem mulwSS (w : Reg) (d : Reg) (p : Mode6) (r : Reg) : Statement (.mulwSS w d p r) :=
  ⟨by simp [encodeNat], rfl⟩

theorem mulAcc (x : MulSign) (w : Reg) (p : Mode6) (r : Reg) (a : Acc) : Statement (.mulAcc x w p r a) :=
  ⟨by simp [encodeNat], rfl⟩

theorem trap : Statement (.trap) :=
  ⟨by simp [encodeNat], rfl⟩

theorem fex : Statement (.fex) :=
  ⟨by simp [encodeNat], rfl⟩

theorem sstep : Statement (.sstep) :=
  ⟨by simp [encodeNat], rfl⟩

theorem urun : Statement (.urun) :=
  ⟨by simp [encodeNat], rfl⟩

theorem compareSkip : Statement (.compareSkip) :=
  ⟨by simp [encodeNat], rfl⟩

end Sys2Proof.Laws.EncodeShape
end

