-- ==== Sys2Proof/Tests/Slice0.lean ====
section
/-!
SUPPORT. Tests: words written out from the spec's encodings (95_test_vectors.md), one step each; ill-formed terms; states that
meet the statements' hypotheses. Expected results are the vectors' (V numbers) or computed by hand from the rule named.
-/

namespace Sys2Proof.Tests

open Sys2Proof.Machine

set_option Elab.async false

/-- The reset state with some registers written. -/
def regs (l : List (Reg × Nat)) : State :=
  l.foldl (fun s p => s.setW p.1 (BitVec.ofNat 16 p.2)) State.reset

/-- A state with some words of data memory written. -/
def words (l : List (Nat × Nat)) (s : State) : State :=
  l.foldl (fun s p => s.setMem (s.mem.writeWord p.1 (BitVec.ofNat 16 p.2))) s

/-- A state with program words from an address on. -/
def image (a : Nat) (l : List Nat) (s : State) : State :=
  { s with prog := (l.zipIdx.foldl (fun p x => p.write (a / 2 + x.2) (BitVec.ofNat 24 x.1)) s.prog) }

/-- The outcome is a next state with a property. -/
def ran (o : Out) (p : State → Bool) : Bool :=
  match o with
  | .next t => p t
  | _ => false

/-- The outcome is this refusal. -/
def stops (o : Out) (r : Refusal) : Bool :=
  match o with
  | .refused x => x == r
  | _ => false

/-- The outcome is this fault. -/
def faults (o : Out) (r : Fault) : Bool :=
  match o with
  | .fault x => x == r
  | _ => false

/-- What the decoder reads from a word alone. -/
def reads (w : Nat) (i : Instr) : Bool := decide (decodeTableWord 24 w = some i)

/-- The record of a divide `m` / `n` about to run its last iteration. -/
def lastDivide (k : DivKind) (m n : Reg) (a : Nat) (d : Word) : DivRec :=
  { kind := k, m := m, n := n, born := 0, dividend := BitVec.ofNat 32 a, divisor := d, done := 17, intact := true
    last := 0, ctx := 0
    w0 := 0, w1 := 0, wm := 0, wm1 := 0, wn := 0 }

/-- The state that runs it, at address 0. -/
def dividing (k : DivKind) (m n : Reg) (a : Nat) (d : Word) : State :=
  { State.reset with sr := { State.reset.sr with ra := true }, div := some (lastDivide k m n a d) }

/-- A loop at 0x20 that was interrupted, all working registers 0: the place of its words, RCOUNT, the draws by then, the record. -/
def heldLoop (frame rcount : Word) (since : Nat) (d : Option DivRec) : Interrupted :=
  { frame := frame, target := 0x20#23, rcount := rcount, bank := State.reset.w, since := since, loop := true, div := d }

/-! ## Words written out from the encodings of spec/opcode_table.json and 95_test_vectors.md -/

theorem test_decode_mov_ws_wd : reads 0x780080 (.movWsWd 0 .word .direct 1 .direct 0) = true := by decide
theorem test_decode_mov_store : reads 0x780880 (.movWsWd 0 .word .ind 1 .direct 0) = true := by decide
theorem test_decode_push : reads 0x781F80 (.movWsWd 0 .word .postInc 15 .direct 0) = true := by decide
theorem test_decode_pop : reads 0x78004F (.movWsWd 0 .word .direct 0 .preDec 15) = true := by decide
theorem test_decode_movb : reads 0x784880 (.movWsWd 0 .byte .ind 1 .direct 0) = true := by decide
theorem test_decode_add_ind : reads 0x400294 (.addWbWsWd 0 .word .direct 5 .ind 4) = true := by decide
theorem test_decode_add_reg : reads 0x400101 (.addWbWsWd 0 .word .direct 2 .direct 1) = true := by decide
theorem test_decode_addb_reg : reads 0x404101 (.addWbWsWd 0 .byte .direct 2 .direct 1) = true := by decide
theorem test_decode_add_pre : reads 0x400151 (.addWbWsWdPre 0 .word .direct 2 .preInc 1) = true := by decide
theorem test_decode_add_lit5 : reads 0x4080E1 (.addWbLit5 1 .word .direct 1 1) = true := by decide
theorem test_decode_add_lit10 : reads 0xB00010 (.addLit10 .word 1 0) = true := by decide
theorem test_decode_add_f : reads 0xB43100 (.addF .word .file 0x1100) = true := by decide
theorem test_decode_add_f_wreg : reads 0xB41100 (.addF .word .wreg 0x1100) = true := by decide
theorem test_decode_mov_wreg_f : reads 0xB7B100 (.movWregF .word 0x1100) = true := by decide
theorem test_decode_mov_f : reads 0xBFB100 (.movF .word .file 0x1100) = true := by decide
theorem test_decode_mov_f_wnd : reads 0x80002A (.movFWnd 2 10) = true := by decide
theorem test_decode_mov_wns_f : reads 0x880030 (.movWnsF 3 0) = true := by decide
theorem test_decode_mov_lit16 : reads 0x25A5A0 (.movLit16 0x5A5A 0) = true := by decide
theorem test_decode_movb_lit8 : reads 0xB3C101 (.movbLit8 0x10 1) = true := by decide
theorem test_decode_movd_load : reads 0xBE0202 (.movDLoad 2 .direct 2) = true := by decide
theorem test_decode_movd_store : reads 0xBE9984 (.movDStore .postInc 3 2) = true := by decide
theorem test_decode_tblrdl : reads 0xBA0111 (.tblrdl .word .direct 2 .ind 1) = true := by decide
theorem test_decode_tblrdh : reads 0xBA8191 (.tblrdh .word .direct 3 .ind 1) = true := by decide
theorem test_decode_tblwtl : reads 0xBB0880 (.tblwtl .word .ind 1 .direct 0) = true := by decide
theorem test_decode_tblwth : reads 0xBB8880 (.tblwth .word .ind 1 .direct 0) = true := by decide
theorem test_decode_lnk : reads 0xFA0004 (.lnk 2) = true := by decide
theorem test_decode_ulnk : reads 0xFA8000 (.ulnk) = true := by decide
theorem test_decode_push_s : reads 0xFEA000 (.pushS) = true := by decide
theorem test_decode_pop_s : reads 0xFE8000 (.popS) = true := by decide
theorem test_decode_se : reads 0xFB0080 (.se 1 .direct 0) = true := by decide
theorem test_decode_ze : reads 0xFB8080 (.ze 1 .direct 0) = true := by decide
theorem test_decode_asr_lit : reads 0xDE80C2 (.asrLit4 0 1 2) = true := by decide
theorem test_decode_lsr_lit : reads 0xDE00C2 (.lsrLit4 0 1 2) = true := by decide
theorem test_decode_sl_lit : reads 0xDD00C4 (.slLit4 0 1 4) = true := by decide
theorem test_decode_sl_wns : reads 0xDD0083 (.slWns 0 1 3) = true := by decide
theorem test_decode_lsr_wns : reads 0xDE0083 (.lsrWns 0 1 3) = true := by decide
theorem test_decode_asr_wns : reads 0xDE8083 (.asrWns 0 1 3) = true := by decide
theorem test_decode_sl_ws : reads 0xD00080 (.slWsWd .word .direct 1 .direct 0) = true := by decide
theorem test_decode_lsr_ws : reads 0xD10080 (.lsrWsWd .word .direct 1 .direct 0) = true := by decide
theorem test_decode_asr_ws : reads 0xD18080 (.asrWsWd .word .direct 1 .direct 0) = true := by decide
theorem test_decode_sl_f : reads 0xD43100 (.slF .word .file 0x1100) = true := by decide
theorem test_decode_lsr_f : reads 0xD53100 (.lsrF .word .file 0x1100) = true := by decide
theorem test_decode_asr_f : reads 0xD5B100 (.asrF .word .file 0x1100) = true := by decide
theorem test_decode_bset_f : reads 0xA87200 (.bsetF 3 0x900) = true := by decide
theorem test_decode_btsc_f : reads 0xAF2042 (.btscF 1 0x21) = true := by decide
theorem test_decode_btsc_ws : reads 0xA70000 (.btscWs 0 .direct 0) = true := by decide
theorem test_decode_bset_ws : reads 0xA03005 (.bsetWs 3 .word .direct 5) = true := by decide
theorem test_decode_mul_uu : reads 0xB80101 (.mulUU 0 2 .direct 1) = true := by decide
theorem test_decode_mul_uu_pre : reads 0xB80151 (.mulUUPre 0 2 .preInc 1) = true := by decide
theorem test_decode_mul_uu_lit : reads 0xB80162 (.mulUULit5 0 2 2) = true := by decide
theorem test_decode_mul_ss : reads 0xB98101 (.mulSS 0 2 .direct 1) = true := by decide
theorem test_decode_mul_su : reads 0xB90101 (.mulSU 0 2 .direct 1) = true := by decide
theorem test_decode_mul_su_pre : reads 0xB90151 (.mulSUPre 0 2 .preInc 1) = true := by decide
theorem test_decode_mul_su_lit : reads 0xB90162 (.mulSULit5 0 2 2) = true := by decide
theorem test_decode_mul_us : reads 0xB88101 (.mulUS 0 2 .direct 1) = true := by decide
theorem test_decode_mul_f : reads 0xBC1100 (.mulF .word 0x1100) = true := by decide
theorem test_decode_bra : reads 0x37FFFF (.bra 0xFFFF) = true := by decide
theorem test_decode_bra_z : reads 0x320007 (.braZ 7) = true := by decide
theorem test_decode_rcall : reads 0x070007 (.rcall 7) = true := by decide
theorem test_decode_ret : reads 0x060000 (.ret) = true := by decide
theorem test_decode_retfie : reads 0x064000 (.retfie) = true := by decide
theorem test_decode_retlw : reads 0x050031 (.retlw .word 3 1) = true := by decide
theorem test_decode_call_wn : reads 0x010003 (.callWn 3) = true := by decide
theorem test_decode_mac : reads 0xC00112 (.macNoWb .w4w5 .acca .w4 .w4 .none .none) = true := by decide
theorem test_decode_mac_prefetch : reads 0xC00446 (.macNoWb .w4w5 .acca .w4 .w5 (.ptr false .plus2) (.ptr false .plus2)) = true := by decide
theorem test_decode_mac_wb : reads 0xC00111 (.mac .w4w5 .acca .w4 .w4 .none .none .w13Inc) = true := by decide
theorem test_decode_mac_sq : reads 0xF28110 (.macSq .w6 .accb .w4 .w4 .none .none) = true := by decide
theorem test_decode_msc : reads 0xC04112 (.mscNoWb .w4w5 .acca .w4 .w4 .none .none) = true := by decide
theorem test_decode_msc_wb : reads 0xC04110 (.msc .w4w5 .acca .w4 .w4 .none .none .w13) = true := by decide
theorem test_decode_mpy : reads 0xC00113 (.mpy .w4w5 .acca .w4 .w4 .none .none) = true := by decide
theorem test_decode_mpy_n : reads 0xC04113 (.mpyN .w4w5 .acca .w4 .w4 .none .none) = true := by decide
theorem test_decode_mpy_sq : reads 0xF20111 (.mpySq .w6 .acca .w4 .w4 .none .none) = true := by decide
theorem test_decode_add_acc : reads 0xCB0000 (.addAcc .acca) = true := by decide
theorem test_decode_lac : reads 0xCA0000 (.lac .acca 0 0 .direct 0) = true := by decide
theorem test_decode_sac : reads 0xCC0001 (.sac .acca 0 0 .direct 1) = true := by decide
theorem test_decode_sac_r : reads 0xCD0001 (.sacR .acca 0 0 .direct 1) = true := by decide
theorem test_decode_add_wso : reads 0xC98001 (.addWsoAcc .accb 0 0 .direct 1) = true := by decide
theorem test_decode_sftac_lit : reads 0xC80078 (.sftacLit .acca 0x38) = true := by decide
theorem test_decode_sftac_wb : reads 0xC80003 (.sftacWb .acca 3) = true := by decide
theorem test_decode_ed : reads 0xF04047 (.ed .w4 .acca .w4 (.ptr false .plus2) (.ptr false .plus2)) = true := by decide
theorem test_decode_edac : reads 0xF04046 (.edac .w4 .acca .w4 (.ptr false .plus2) (.ptr false .plus2)) = true := by decide
theorem test_decode_div_uw : reads 0xD88103 (.divU false 2 3) = true := by decide
theorem test_decode_div_sd : reads 0xD82A43 (.divS true 4 3) = true := by decide
theorem test_decode_div_sw : reads 0xD80103 (.divS false 2 3) = true := by decide
theorem test_decode_divf : reads 0xD92005 (.divF 4 5) = true := by decide
theorem test_decode_repeat_lit : reads 0x090011 (.repeatLit 17) = true := by decide
theorem test_decode_repeat_wn : reads 0x098002 (.repeatWn 2) = true := by decide
theorem test_decode_disi : reads 0xFC0003 (.disi 3) = true := by decide
theorem test_decode_reset : reads 0xFE0000 (.reset) = true := by decide
theorem test_decode_pwrsav : reads 0xFE4001 (.pwrsav 1) = true := by decide
theorem test_decode_nop : reads 0x00ABCD (.nop) = true := by decide
theorem test_decode_bra_oa : reads 0x0C0007 (.braOA 7) = true := by decide
theorem test_decode_bra_ob : reads 0x0D0007 (.braOB 7) = true := by decide
theorem test_decode_bra_sa : reads 0x0E0007 (.braSA 7) = true := by decide
theorem test_decode_bra_sb : reads 0x0F0007 (.braSB 7) = true := by decide
theorem test_decode_bra_ov : reads 0x300007 (.braOV 7) = true := by decide
theorem test_decode_bra_c : reads 0x310007 (.braC 7) = true := by decide
theorem test_decode_bra_n : reads 0x330007 (.braN 7) = true := by decide
theorem test_decode_bra_le : reads 0x340007 (.braLE 7) = true := by decide
theorem test_decode_bra_lt : reads 0x350007 (.braLT 7) = true := by decide
theorem test_decode_bra_leu : reads 0x360007 (.braLEU 7) = true := by decide
theorem test_decode_bra_nov : reads 0x380007 (.braNOV 7) = true := by decide
theorem test_decode_bra_nc : reads 0x390007 (.braNC 7) = true := by decide
theorem test_decode_bra_nz : reads 0x3A0007 (.braNZ 7) = true := by decide
theorem test_decode_bra_nn : reads 0x3B0007 (.braNN 7) = true := by decide
theorem test_decode_bra_gt : reads 0x3C0007 (.braGT 7) = true := by decide
theorem test_decode_bra_ge : reads 0x3D0007 (.braGE 7) = true := by decide
theorem test_decode_bra_gtu : reads 0x3E0007 (.braGTU 7) = true := by decide
theorem test_decode_goto : decodeTableWord 48 0x000000040200 = some (.goto 0x100) := by decide
theorem test_decode_call : decodeTableWord 48 0x000001022346 = some (.call 0x91A3) := by decide
theorem test_decode_do_lit : decodeTableWord 48 0x000001080002 = some (.doLit 2 1) := by decide
theorem test_decode_do_wn : decodeTableWord 48 0x000007088003 = some (.doWn 3 7) := by decide

/-- Words that match no row, hold a field value that is not valid, or a wrong second word, are refused by name. -/
theorem test_decode_no_row : decode 0xFFFFFF 0 = .error .noRow := by rfl
theorem test_decode_reserved_mode : decode 0xD00060 0 = .error .reservedField := by rfl
theorem test_decode_reserved_pair : decode 0xC30112 0 = .error .reservedField := by rfl
theorem test_decode_second_word : decode 0x040200 0x800000 = .error .secondWord := by rfl


/-! ## One step on a small state; each comment names the vector or rule the expected result is from -/

/-- V20. -/
theorem test_mov_lit : ran (exec (.movLit16 0x5A5A 0) (State.reset)) (fun t => t.getW 0 == 0x5A5A#16 && t.isInit 0 && t.srWord == 0x0000#16) = true := by decide +kernel
/-- V4 (R25). -/
theorem test_mov_dominates : ran (exec (.movWsWd 0 .word .postInc 2 .direct 1) (regs [(1, 0x1234), (2, 0x4)])) (fun t => t.getW 2 == 0x1236#16 && t.getW 1 == 0x1234#16 && t.mem == []) = true := by decide +kernel
/-- V21. -/
theorem test_movb_store : ran (exec (.movWsWd 0 .byte .ind 1 .direct 0) (regs [(0, 0x12AB), (1, 0x1801)])) (fun t => t.mem.readWord 0x1800 == 0xAB00#16) = true := by decide +kernel
/-- V22. -/
theorem test_mov_misaligned : ran (exec (.movWsWd 0 .word .direct 2 .ind 1) (regs [(1, 0x1801)])) (fun t => t.pend.address && t.pc == 2#23) = true := by decide +kernel
/-- V23. -/
theorem test_mov_uninit : ran (exec (.movWsWd 0 .word .direct 2 .ind 1) (regs [(0, 0x7)])) (fun t => t.getW 0 == 0#16 && !t.isInit 0 && t.w15 == 0x1000#16) = true := by decide +kernel
/-- V24. -/
theorem test_movd_load : ran (exec (.movDLoad 2 .direct 2) (regs [(2, 0x1111), (3, 0x2222)])) (fun t => t.getW 4 == 0x1111#16 && t.getW 5 == 0x2222#16) = true := by decide +kernel
/-- R165, R142. -/
theorem test_movd_load_ind : ran (exec (.movDLoad 2 .postInc 6) (words [(0x1800, 0x1111), (0x1802, 0x2222)] (regs [(6, 0x1800)]))) (fun t => t.getW 4 == 0x1111#16 && t.getW 5 == 0x2222#16 && t.getW 6 == 0x1804#16) = true := by decide +kernel
/-- R165. -/
theorem test_movd_store : ran (exec (.movDStore .preDec 6 1) (regs [(6, 0x1804), (2, 0x1111), (3, 0x2222)])) (fun t => t.mem.readWord 0x1800 == 0x1111#16 && t.mem.readWord 0x1802 == 0x2222#16 && t.getW 6 == 0x1800#16) = true := by decide +kernel
/-- V25. -/
theorem test_mov_wns_f : ran (exec (.movWnsF 3 0) (regs [(0, 0xBEEF)])) (fun t => t.getW 3 == 0xBEEF#16 && t.isInit 3) = true := by decide +kernel
/-- V3. -/
theorem test_mov_f_wnd : ran (exec (.movFWnd 2 10) (regs [(2, 0xAA)])) (fun t => t.getW 10 == 0x00AA#16) = true := by decide +kernel
/-- V26. -/
theorem test_page_one : ran (exec (.movWsWd 0 .word .direct 2 .ind 1) (words [(0x9000, 0x4321)] (regs [(1, 0x9000)]))) (fun t => t.getW 2 == 0x4321#16) = true := by decide +kernel
/-- V27. -/
theorem test_psv_low : ran (exec (.movWsWd 0 .word .direct 2 .ind 1) ({ image 0x200 [0x123456] (regs [(1, 0x8200)]) with dsrpag := 0x200#10 })) (fun t => t.getW 2 == 0x3456#16) = true := by decide +kernel
/-- V28. -/
theorem test_psv_high : ran (exec (.movWsWd 0 .word .direct 2 .ind 1) ({ image 0x200 [0x123456] (regs [(1, 0x8200)]) with dsrpag := 0x300#10 })) (fun t => t.getW 2 == 0x0012#16) = true := by decide +kernel
/-- V29. -/
theorem test_page_zero : ran (exec (.movWsWd 0 .word .direct 2 .ind 1) ({ regs [(1, 0x8000)] with dsrpag := 0#10 })) (fun t => t.pend.address) = true := by decide +kernel
/-- V31. -/
theorem test_tblrdl : ran (exec (.tblrdl .word .direct 2 .ind 1) (image 0x200 [0x123456] (regs [(1, 0x200)]))) (fun t => t.getW 2 == 0x3456#16) = true := by decide +kernel
/-- V31. -/
theorem test_tblrdh : ran (exec (.tblrdh .word .direct 3 .ind 1) (image 0x200 [0x123456] (regs [(1, 0x200)]))) (fun t => t.getW 3 == 0x0012#16) = true := by decide +kernel
/-- V2. -/
theorem test_mov_wreg_f : ran (exec (.movWregF .word 0x1100) (regs [(0, 0x1234)])) (fun t => t.mem.readWord 0x1100 == 0x1234#16 && t.srWord == 0x0000#16) = true := by decide +kernel
/-- R163. -/
theorem test_mov_f_flags : ran (exec (.movF .word .wreg 0x1100) (words [(0x1100, 0x8000)] State.reset)) (fun t => t.getW 0 == 0x8000#16 && t.srWord == 0x0008#16) = true := by decide +kernel
/-- V23 (R29). -/
theorem test_movb_lit : ran (exec (.movbLit8 0x10 1) (State.reset)) (fun t => t.getW 1 == 0x0010#16 && !t.isInit 1) = true := by decide +kernel
/-- R189. -/
theorem test_table_write : stops (exec (.tblwtl .word .ind 1 .direct 0) State.reset) .tableWrite = true := by decide +kernel
/-- V33. -/
theorem test_push_w15 : ran (exec (.movWsWd 0 .word .postInc 15 .direct 15) (State.reset)) (fun t => t.mem.readWord 0x1000 == 0x1000#16 && t.w15 == 0x1002#16) = true := by decide +kernel
/-- V6. -/
theorem test_pop : ran (exec (.movWsWd 0 .word .direct 3 .preDec 15) (words [(0x1002, 0x3636)] ((State.reset).setW15 0x1004#16))) (fun t => t.getW 3 == 0x3636#16 && t.w15 == 0x1002#16) = true := by decide +kernel
/-- V7. -/
theorem test_splim_trap : ran (exec (.movWsWd 0 .word .postInc 15 .direct 0) ({ (regs [(0, 0x77)]).setW15 0x2000#16 with splim := 0x1FFE#16, splimEn := true })) (fun t => t.pend.stack && t.mem.readWord 0x2000 == 0x0077#16 && t.w15 == 0x2002#16) = true := by decide +kernel
/-- V7 (R55). -/
theorem test_splim_write : ran (exec (.movWnsF 0x10 0) (regs [(0, 0x1FFF)])) (fun t => t.splimEn && t.splim == 0x1FFE#16) = true := by decide +kernel
/-- V34. -/
theorem test_lnk : ran (exec (.lnk 2) (regs [(14, 0x0)])) (fun t => t.mem.readWord 0x1000 == 0x0000#16 && t.getW 14 == 0x1002#16 && t.w15 == 0x1006#16 && t.corconWord == 0x0024#16 && !t.pend.stack) = true := by decide +kernel
/-- V36. -/
theorem test_lnk_trap : ran (exec (.lnk 2) ((regs [(14, 0x0)]).setSfa true)) (fun t => t.pend.stack && t.getW 14 == 0x1002#16) = true := by decide +kernel
/-- V35. -/
theorem test_ulnk : ran (exec (.ulnk) ((regs [(14, 0x1002), (15, 0x1006)]).setSfa true)) (fun t => t.w15 == 0x1000#16 && t.getW 14 == 0x0000#16 && t.corconWord == 0x0020#16 && !t.pend.stack) = true := by decide +kernel
/-- V38. -/
theorem test_push_s : ran (exec (.pushS) ((regs [(0, 0x1), (1, 0x2), (2, 0x3), (3, 0x4)]).setSr { State.reset.sr with dc := true, z := true, c := true })) (fun t => t.shadow == ⟨1, 2, 3, 4, true, false, false, true, true⟩) = true := by decide +kernel
/-- V39. -/
theorem test_pop_s : ran (exec (.popS) ({ (regs [(0, 0x9), (1, 0x9), (2, 0x9), (3, 0x9)]).setSr { State.reset.sr with ipl := 7, n := true } with shadow := ⟨1, 2, 3, 4, true, false, false, true, true⟩ })) (fun t => t.getW 0 == 0x0001#16 && t.getW 3 == 0x0004#16 && t.srWord == 0x01E3#16) = true := by decide +kernel
/-- V40. -/
theorem test_add_carry : ran (exec (.addWbWsWd 0 .word .direct 2 .direct 1) (regs [(0, 0xFFFF), (1, 0x1)])) (fun t => t.getW 2 == 0x0000#16 && t.srWord == 0x0103#16) = true := by decide +kernel
/-- V41. -/
theorem test_add_overflow : ran (exec (.addWbWsWd 0 .word .direct 2 .direct 1) (regs [(0, 0x7FFF), (1, 0x1)])) (fun t => t.getW 2 == 0x8000#16 && t.srWord == 0x010C#16) = true := by decide +kernel
/-- V42 with a pre-modified source. -/
theorem test_addb : ran (exec (.addWbWsWdPre 0 .byte .direct 2 .preInc 1) (words [(0x1800, 0x8000)] (regs [(0, 0x1280), (1, 0x1800), (2, 0xAB55)]))) (fun t => t.getW 2 == 0xAB00#16 && t.srWord == 0x0007#16 && t.getW 1 == 0x1801#16) = true := by decide +kernel
/-- V43. -/
theorem test_add_lit5 : ran (exec (.addWbLit5 1 .word .direct 1 1) (regs [(1, 0xF)])) (fun t => t.getW 1 == 0x0010#16 && t.srWord == 0x0000#16) = true := by decide +kernel
/-- V44. -/
theorem test_add_lit10 : ran (exec (.addLit10 .word 1 0) (regs [(0, 0xFF)])) (fun t => t.getW 0 == 0x0100#16 && t.srWord == 0x0100#16) = true := by decide +kernel
/-- V45. -/
theorem test_add_f : ran (exec (.addF .word .file 0x1100) (words [(0x1100, 0xFFFD)] (regs [(0, 0x3)]))) (fun t => t.mem.readWord 0x1100 == 0x0000#16 && t.getW 0 == 0x0003#16 && t.srWord == 0x0103#16) = true := by decide +kernel
/-- V46. -/
theorem test_se : ran (exec (.se 1 .direct 0) (regs [(0, 0x1280)])) (fun t => t.getW 1 == 0xFF80#16 && t.srWord == 0x0008#16) = true := by decide +kernel
/-- V47. -/
theorem test_ze : ran (exec (.ze 1 .direct 0) (regs [(0, 0x1280)])) (fun t => t.getW 1 == 0x0080#16 && t.srWord == 0x0001#16) = true := by decide +kernel
/-- V48. -/
theorem test_asr_lit : ran (exec (.asrLit4 0 1 2) (regs [(0, 0x8004)])) (fun t => t.getW 1 == 0xE001#16 && t.srWord == 0x0008#16) = true := by decide +kernel
/-- V49. -/
theorem test_lsr_lit : ran (exec (.lsrLit4 0 1 2) (regs [(0, 0x8004)])) (fun t => t.getW 1 == 0x2001#16 && t.srWord == 0x0000#16) = true := by decide +kernel
/-- V50. -/
theorem test_sl_ws : ran (exec (.slWsWd .word .direct 1 .direct 0) (regs [(0, 0x8004)])) (fun t => t.getW 1 == 0x0008#16 && t.srWord == 0x0001#16) = true := by decide +kernel
/-- R216. -/
theorem test_lsr_ws : ran (exec (.lsrWsWd .word .direct 1 .direct 0) (regs [(0, 0x8005)])) (fun t => t.getW 1 == 0x4002#16 && t.srWord == 0x0001#16) = true := by decide +kernel
/-- R215, byte. -/
theorem test_asr_ws : ran (exec (.asrWsWd .byte .direct 1 .direct 0) (regs [(0, 0x8081), (1, 0x5500)])) (fun t => t.getW 1 == 0x55C0#16 && t.srWord == 0x0009#16) = true := by decide +kernel
/-- V51. -/
theorem test_sl_lit : ran (exec (.slLit4 0 1 4) (regs [(0, 0x1234)])) (fun t => t.getW 1 == 0x2340#16 && t.srWord == 0x0000#16) = true := by decide +kernel
/-- R217, k = 16. -/
theorem test_sl_wns : ran (exec (.slWns 0 1 3) (regs [(0, 0x1234), (3, 0x10)])) (fun t => t.getW 1 == 0x0000#16 && t.srWord == 0x0002#16) = true := by decide +kernel
/-- R214, count 15. -/
theorem test_lsr_wns : ran (exec (.lsrWns 0 1 3) (regs [(0, 0x8000), (3, 0x2F)])) (fun t => t.getW 1 == 0x0001#16 && t.srWord == 0x0000#16) = true := by decide +kernel
/-- R215, k = 31. -/
theorem test_asr_wns : ran (exec (.asrWns 0 1 3) (regs [(0, 0x8000), (3, 0x1F)])) (fun t => t.getW 1 == 0xFFFF#16 && t.srWord == 0x0008#16) = true := by decide +kernel
/-- R217. -/
theorem test_sl_f : ran (exec (.slF .word .file 0x1100) (words [(0x1100, 0x8001)] State.reset)) (fun t => t.mem.readWord 0x1100 == 0x0002#16 && t.srWord == 0x0001#16) = true := by decide +kernel
/-- R216, odd byte. -/
theorem test_lsr_f : ran (exec (.lsrF .byte .file 0x1101) (words [(0x1100, 0x03FF)] State.reset)) (fun t => t.mem.readWord 0x1100 == 0x01FF#16 && t.srWord == 0x0001#16) = true := by decide +kernel
/-- R215. -/
theorem test_asr_f : ran (exec (.asrF .word .wreg 0x1100) (words [(0x1100, 0x8002)] State.reset)) (fun t => t.getW 0 == 0xC001#16 && t.srWord == 0x0008#16) = true := by decide +kernel
/-- V52. -/
theorem test_bset_f : ran (exec (.bsetF 3 0x900) (State.reset)) (fun t => t.mem.readWord 0x1200 == 0x0008#16 && t.srWord == 0x0000#16) = true := by decide +kernel
/-- R220. -/
theorem test_bset_ws : ran (exec (.bsetWs 9 .word .postInc 5) (regs [(5, 0x1200)])) (fun t => t.mem.readWord 0x1200 == 0x0200#16 && t.getW 5 == 0x1202#16) = true := by decide +kernel
/-- V53. -/
theorem test_btsc_falls : ran (exec (.btscF 1 0x21) ({ State.reset with pc := 0x206#23, sr := { State.reset.sr with z := true } })) (fun t => t.pc == 0x000208#23) = true := by decide +kernel
/-- V53. -/
theorem test_btsc_skips : ran (exec (.btscF 1 0x21) ({ State.reset with pc := 0x206#23 })) (fun t => t.pc == 0x00020A#23) = true := by decide +kernel
/-- V54. -/
theorem test_btsc_ws : ran (exec (.btscWs 0 .direct 0) ({ State.reset with pc := 0x200#23 })) (fun t => t.pc == 0x000204#23) = true := by decide +kernel
/-- V55. -/
theorem test_mul_uu : ran (exec (.mulUU 0 2 .direct 1) (regs [(0, 0xFFFF), (1, 0x2)])) (fun t => t.getW 2 == 0xFFFE#16 && t.getW 3 == 0x0001#16 && t.srWord == 0x0000#16) = true := by decide +kernel
/-- V55. -/
theorem test_mul_ss : ran (exec (.mulSS 0 2 .direct 1) (regs [(0, 0xFFFF), (1, 0x2)])) (fun t => t.getW 2 == 0xFFFE#16 && t.getW 3 == 0xFFFF#16 && t.srWord == 0x0000#16) = true := by decide +kernel
/-- V55. -/
theorem test_mul_su : ran (exec (.mulSU 0 2 .direct 1) (regs [(0, 0xFFFF), (1, 0x2)])) (fun t => t.getW 2 == 0xFFFE#16 && t.getW 3 == 0xFFFF#16 && t.srWord == 0x0000#16) = true := by decide +kernel
/-- V55. -/
theorem test_mul_us : ran (exec (.mulUS 0 2 .direct 1) (regs [(0, 0xFFFF), (1, 0x2)])) (fun t => t.getW 2 == 0xFFFE#16 && t.getW 3 == 0x0001#16 && t.srWord == 0x0000#16) = true := by decide +kernel
/-- V55. -/
theorem test_mul_su_lit : ran (exec (.mulSULit5 0 2 2) (regs [(0, 0xFFFF), (1, 0x2)])) (fun t => t.getW 2 == 0xFFFE#16 && t.getW 3 == 0xFFFF#16 && t.srWord == 0x0000#16) = true := by decide +kernel
/-- V55. -/
theorem test_mul_uu_lit : ran (exec (.mulUULit5 0 2 2) (regs [(0, 0xFFFF), (1, 0x2)])) (fun t => t.getW 2 == 0xFFFE#16 && t.getW 3 == 0x0001#16 && t.srWord == 0x0000#16) = true := by decide +kernel
/-- R226. -/
theorem test_mul_uu_pre : ran (exec (.mulUUPre 0 2 .preInc 1) (words [(0x1802, 3)] (regs [(0, 0xFFFF), (1, 0x1800)]))) (fun t => t.getW 2 == 0xFFFD#16 && t.getW 3 == 0x0002#16 && t.getW 1 == 0x1802#16) = true := by decide +kernel
/-- R226. -/
theorem test_mul_su_pre : ran (exec (.mulSUPre 0 2 .preDec 1) (words [(0x1802, 3)] (regs [(0, 0xFFFF), (1, 0x1804)]))) (fun t => t.getW 2 == 0xFFFD#16 && t.getW 3 == 0xFFFF#16) = true := by decide +kernel
/-- V56. -/
theorem test_mul_ss_min : ran (exec (.mulSS 0 2 .direct 1) (regs [(0, 0x8000), (1, 0x8000)])) (fun t => t.getW 2 == 0x0000#16 && t.getW 3 == 0x4000#16) = true := by decide +kernel
/-- R227. -/
theorem test_mul_f : ran (exec (.mulF .byte 0x1100) (words [(0x1100, 0x1203)] (regs [(0, 0xFF05), (3, 0x7)]))) (fun t => t.getW 2 == 0x000F#16 && t.getW 3 == 0x0007#16) = true := by decide +kernel
/-- V57. -/
theorem test_mulw_uu : ran (exec (.mulwUU 0 2 (.ws .direct) 1) (regs [(0, 0x102), (1, 0x100)])) (fun t => t.getW 2 == 0x0200#16) = true := by decide +kernel
/-- V57. -/
theorem test_mulw_us : ran (exec (.mulwUS 0 2 .direct 1) (regs [(0, 0x102), (1, 0x100)])) (fun t => t.getW 2 == 0x0200#16) = true := by decide +kernel
/-- V57. -/
theorem test_mulw_su : ran (exec (.mulwSU 0 2 (.ws .direct) 1) (regs [(0, 0x102), (1, 0x100)])) (fun t => t.getW 2 == 0x0200#16) = true := by decide +kernel
/-- V57. -/
theorem test_mulw_ss : ran (exec (.mulwSS 0 2 .direct 1) (regs [(0, 0x102), (1, 0x100)])) (fun t => t.getW 2 == 0x0200#16) = true := by decide +kernel
/-- R229. -/
theorem test_mul_acc : ran (exec (.mulAcc .us 0 .direct 1 .accb) (regs [(0, 0x2), (1, 0xFFFF)])) (fun t => t.accb == 0xFFFFFFFFFE#40 && t.srWord == 0x0000#16) = true := by decide +kernel
/-- V58. -/
theorem test_goto : ran (exec (.goto 0x100) (State.reset)) (fun t => t.pc == 0x000200#23) = true := by decide +kernel
/-- V59. -/
theorem test_bra_z : ran (exec (.braZ 7) ({ State.reset with pc := 0x210#23, sr := { State.reset.sr with z := true } })) (fun t => t.pc == 0x000220#23) = true := by decide +kernel
/-- V59. -/
theorem test_bra_z_not : ran (exec (.braZ 7) ({ State.reset with pc := 0x210#23 })) (fun t => t.pc == 0x000212#23) = true := by decide +kernel
/-- V65. -/
theorem test_bra_self : ran (exec (.bra 0xFFFF) ({ State.reset with pc := 0x20C#23 })) (fun t => t.pc == 0x00020C#23) = true := by decide +kernel
/-- V61. -/
theorem test_call : ran (exec (.call 0x91A3) ({ State.reset with pc := 0x204#23 })) (fun t => t.mem.readWord 0x1000 == 0x0208#16 && t.mem.readWord 0x1002 == 0x0000#16 && t.w15 == 0x1004#16 && t.pc == 0x012346#23) = true := by decide +kernel
/-- V62. -/
theorem test_rcall : ran (exec (.rcall 7) (({ State.reset with pc := 0x300#23 }).setSfa true)) (fun t => t.mem.readWord 0x1000 == 0x0303#16 && t.mem.readWord 0x1002 == 0x0000#16 && !t.cor.sfa && t.pc == 0x000310#23) = true := by decide +kernel
/-- R326. -/
theorem test_call_wn : ran (exec (.callWn 3) (regs [(3, 0x1235)])) (fun t => t.pc == 0x001234#23 && t.mem.readWord 0x1000 == 0x0002#16) = true := by decide +kernel
/-- R327. -/
theorem test_call_l : ran (exec (.callLWn 2) (regs [(2, 0x1235), (3, 0x81)])) (fun t => t.pc == 0x011234#23) = true := by decide +kernel
/-- R329. -/
theorem test_rcall_wn : ran (exec (.rcallWn 2) ({ regs [(2, 0xFFFF)] with pc := 0x300#23 })) (fun t => t.pc == 0x000300#23 && t.mem.readWord 0x1000 == 0x0302#16) = true := by decide +kernel
/-- V63. -/
theorem test_ret : ran (exec (.ret) (words [(0x1000, 0x0209), (0x1002, 1)] (State.reset.setW15 0x1004#16))) (fun t => t.pc == 0x010208#23 && t.cor.sfa && t.w15 == 0x1000#16) = true := by decide +kernel
/-- R336. -/
theorem test_retlw : ran (exec (.retlw .byte 0x12 5) (words [(0x1000, 0x0208)] ((regs [(5, 0xAA00)]).setW15 0x1004#16))) (fun t => t.pc == 0x000208#23 && t.getW 5 == 0xAA12#16) = true := by decide +kernel
/-- V64. -/
theorem test_retfie : ran (exec (.retfie) (words [(0x1010, 0x2345), (0x1012, 0x2901)] ((State.reset.setW15 0x1014#16).setSr { State.reset.sr with ipl := 5 }))) (fun t => t.pc == 0x012344#23 && t.srWord == 0x0029#16 && !t.cor.ipl3 && t.cor.sfa && t.w15 == 0x1010#16) = true := by decide +kernel
/-- R340. -/
theorem test_nop : ran (exec (.nop) (State.reset)) (fun t => t.pc == 0x000002#23) = true := by decide +kernel
/-- R322. -/
theorem test_bra_oa : ran (exec (.braOA 7) (State.reset.setSr { State.reset.sr with oa := true })) (fun t => t.pc == 0x000010#23) = true := by decide +kernel
/-- R322. -/
theorem test_bra_ob : ran (exec (.braOB 7) (State.reset.setSr { State.reset.sr with ob := true })) (fun t => t.pc == 0x000010#23) = true := by decide +kernel
/-- R322. -/
theorem test_bra_sa : ran (exec (.braSA 7) (State.reset.setSr { State.reset.sr with sa := true })) (fun t => t.pc == 0x000010#23) = true := by decide +kernel
/-- R322. -/
theorem test_bra_sb : ran (exec (.braSB 7) (State.reset.setSr { State.reset.sr with sb := true })) (fun t => t.pc == 0x000010#23) = true := by decide +kernel
/-- R322. -/
theorem test_bra_ov : ran (exec (.braOV 7) (State.reset.setSr { State.reset.sr with ov := true })) (fun t => t.pc == 0x000010#23) = true := by decide +kernel
/-- R322. -/
theorem test_bra_c : ran (exec (.braC 7) (State.reset.setSr { State.reset.sr with c := true })) (fun t => t.pc == 0x000010#23) = true := by decide +kernel
/-- R322. -/
theorem test_bra_n : ran (exec (.braN 7) (State.reset.setSr { State.reset.sr with n := true })) (fun t => t.pc == 0x000010#23) = true := by decide +kernel
/-- R322. -/
theorem test_bra_le : ran (exec (.braLE 7) (State.reset)) (fun t => t.pc == 0x000002#23) = true := by decide +kernel
/-- R322. -/
theorem test_bra_lt : ran (exec (.braLT 7) (State.reset)) (fun t => t.pc == 0x000002#23) = true := by decide +kernel
/-- R322. -/
theorem test_bra_leu : ran (exec (.braLEU 7) (State.reset)) (fun t => t.pc == 0x000010#23) = true := by decide +kernel
/-- R322. -/
theorem test_bra_nov : ran (exec (.braNOV 7) (State.reset)) (fun t => t.pc == 0x000010#23) = true := by decide +kernel
/-- R322. -/
theorem test_bra_nc : ran (exec (.braNC 7) (State.reset)) (fun t => t.pc == 0x000010#23) = true := by decide +kernel
/-- R322. -/
theorem test_bra_nz : ran (exec (.braNZ 7) (State.reset)) (fun t => t.pc == 0x000010#23) = true := by decide +kernel
/-- R322. -/
theorem test_bra_nn : ran (exec (.braNN 7) (State.reset)) (fun t => t.pc == 0x000010#23) = true := by decide +kernel
/-- R322. -/
theorem test_bra_gt : ran (exec (.braGT 7) (State.reset)) (fun t => t.pc == 0x000010#23) = true := by decide +kernel
/-- R322. -/
theorem test_bra_ge : ran (exec (.braGE 7) (State.reset)) (fun t => t.pc == 0x000010#23) = true := by decide +kernel
/-- R322. -/
theorem test_bra_gtu : ran (exec (.braGTU 7) (State.reset)) (fun t => t.pc == 0x000002#23) = true := by decide +kernel
/-- V70. -/
theorem test_mac : ran (exec (.macNoWb .w4w5 .acca .w4 .w4 .none .none) (regs [(4, 0x4000), (5, 0x2000)])) (fun t => t.acca == 0x0010000000#40 && t.srWord == 0x0000#16) = true := by decide +kernel
/-- V71. -/
theorem test_mac_prefetch : ran (exec (.macNoWb .w4w5 .acca .w4 .w5 (.ptr false .plus2) (.ptr false .plus2)) (words [(0x1800, 0x1111), (0x2800, 0x2222)] (regs [(4, 0x4000), (5, 0x2000), (8, 0x1800), (10, 0x2800)]))) (fun t => t.acca == 0x0010000000#40 && t.getW 4 == 0x1111#16 && t.getW 5 == 0x2222#16 && t.getW 8 == 0x1802#16 && t.getW 10 == 0x2802#16) = true := by decide +kernel
/-- R264, V84. -/
theorem test_mac_wb : ran (exec (.mac .w4w5 .acca .w4 .w4 .none .none .w13Inc) ({ regs [(13, 0x1800)] with accb := 0x0000018000#40 })) (fun t => t.mem.readWord 0x1800 == 0x0002#16 && t.getW 13 == 0x1802#16 && t.accb == 0x0000018000#40) = true := by decide +kernel
/-- V72. -/
theorem test_mac_sq : ran (exec (.macSq .w6 .accb .w4 .w4 .none .none) ({ regs [(6, 0xFFFD)] with cor := { State.reset.cor with ifm := true }, accb := 1#40 })) (fun t => t.accb == 10#40) = true := by decide +kernel
/-- V73. -/
theorem test_msc : ran (exec (.mscNoWb .w4w5 .acca .w4 .w4 .none .none) ({ regs [(4, 0x2), (5, 0x3)] with cor := { State.reset.cor with ifm := true } })) (fun t => t.acca == 0xFFFFFFFFFA#40 && t.srWord == 0x0000#16) = true := by decide +kernel
/-- R264, V85. -/
theorem test_msc_wb : ran (exec (.msc .w4w5 .acca .w4 .w4 .none .none .w13) ({ regs [(4, 0x2), (5, 0x3)] with accb := 0x0000028000#40 })) (fun t => t.getW 13 == 0x0002#16 && t.acca == 0xFFFFFFFFF4#40) = true := by decide +kernel
/-- V74. -/
theorem test_mpy : ran (exec (.mpy .w4w5 .acca .w4 .w4 .none .none) (regs [(4, 0xC000), (5, 0x4000)])) (fun t => t.acca == 0xFFE0000000#40) = true := by decide +kernel
/-- V77. -/
theorem test_mpy_sat : ran (exec (.mpy .w4w5 .acca .w4 .w4 .none .none) ({ regs [(4, 0x8000), (5, 0x8000)] with cor := { State.reset.cor with sata := true } })) (fun t => t.acca == 0x007FFFFFFF#40 && t.sr.sa && !t.sr.oa) = true := by decide +kernel
/-- V76. -/
theorem test_mpy_sq : ran (exec (.mpySq .w4 .acca .w4 .w4 .none .none) (regs [(4, 0x8000)])) (fun t => t.acca == 0x0080000000#40 && t.sr.oa && !t.sr.sa) = true := by decide +kernel
/-- V75. -/
theorem test_mpy_n : ran (exec (.mpyN .w4w5 .acca .w4 .w4 .none .none) ({ regs [(4, 0x2), (5, 0x3)] with cor := { State.reset.cor with ifm := true } })) (fun t => t.acca == 0xFFFFFFFFFA#40) = true := by decide +kernel
/-- V79 (b). -/
theorem test_add_acc_wrap : ran (exec (.addAcc .acca) ({ State.reset with acca := 0x7FFFFFFFFF#40, accb := 1#40, intc := { State.reset.intc with covte := true } })) (fun t => t.acca == 0x8000000000#40 && t.sr.sa && t.sr.oa && t.pend.math && t.intc.covaerr && !t.intc.ovaerr) = true := by decide +kernel
/-- V80. -/
theorem test_add_acc_ovate : ran (exec (.addAcc .acca) ({ State.reset with acca := 0x007FFFFFFF#40, accb := 1#40, intc := { State.reset.intc with ovate := true } })) (fun t => t.acca == 0x0080000000#40 && t.sr.oa && t.pend.math && t.intc.ovaerr) = true := by decide +kernel
/-- V81. -/
theorem test_lac : ran (exec (.lac .acca 0 0 .direct 0) (regs [(0, 0x8000)])) (fun t => t.acca == 0xFF80000000#40) = true := by decide +kernel
/-- R261, shift -1. -/
theorem test_add_wso : ran (exec (.addWsoAcc .accb 0 0xF .direct 0) ({ regs [(0, 0x1)] with accb := 0x10000#40 })) (fun t => t.accb == 0x30000#40) = true := by decide +kernel
/-- V82. -/
theorem test_sac : ran (exec (.sac .acca 0 0 .direct 1) ({ State.reset with acca := 0x0123456789#40 })) (fun t => t.getW 1 == 0x7FFF#16 && t.acca == 0x0123456789#40) = true := by decide +kernel
/-- V82. -/
theorem test_sac_satdw_off : ran (exec (.sac .acca 0 0 .direct 1) ({ State.reset with acca := 0x0123456789#40, cor := { State.reset.cor with satdw := false } })) (fun t => t.getW 1 == 0x2345#16) = true := by decide +kernel
/-- V85. -/
theorem test_sac_r : ran (exec (.sacR .acca 0 0 .direct 1) ({ State.reset with acca := 0x0000028000#40, cor := { State.reset.cor with rnd := true } })) (fun t => t.getW 1 == 0x0003#16) = true := by decide +kernel
/-- V85. -/
theorem test_sac_r_conv : ran (exec (.sacR .acca 0 0 .direct 1) ({ State.reset with acca := 0x0000028000#40 })) (fun t => t.getW 1 == 0x0002#16) = true := by decide +kernel
/-- V87. -/
theorem test_sftac_left : ran (exec (.sftacLit .acca 0x38) ({ State.reset with acca := 0x10000#40 })) (fun t => t.acca == 0x1000000#40) = true := by decide +kernel
/-- V89. -/
theorem test_sftac_range : ran (exec (.sftacLit .acca 17) ({ State.reset with acca := 0x10000#40 })) (fun t => t.acca == 0x10000#40 && t.intc.sftacerr && t.pend.math) = true := by decide +kernel
/-- V88. -/
theorem test_sftac_wb : ran (exec (.sftacWb .acca 2) ({ regs [(2, 0x10)] with acca := 0x10000#40 })) (fun t => t.acca == 1#40) = true := by decide +kernel
/-- V96. -/
theorem test_ed : ran (exec (.ed .w4 .acca .w4 (.ptr false .plus2) (.ptr false .plus2)) (words [(0x1800, 9), (0x2800, 2)] ({ regs [(4, 0x5), (8, 0x1800), (10, 0x2800)] with cor := { State.reset.cor with ifm := true } }))) (fun t => t.acca == 25#40 && t.getW 4 == 0x0007#16 && t.getW 8 == 0x1802#16 && t.getW 10 == 0x2802#16) = true := by decide +kernel
/-- R251, R262. -/
theorem test_edac : ran (exec (.edac .w4 .accb .w5 .offset .offset) (words [(0x1800, 9), (0x2800, 2)] ({ regs [(4, 0x5), (9, 0x1700), (11, 0x2700), (12, 0x100)] with cor := { State.reset.cor with ifm := true }, accb := 1#40 }))) (fun t => t.accb == 26#40 && t.getW 5 == 0x0007#16 && t.getW 9 == 0x1700#16) = true := by decide +kernel
/-- R46. -/
theorem test_dsp_us11 : stops (exec (.mpy .w4w5 .acca .w4 .w4 .none .none) { State.reset with cor := { State.reset.cor with us := 3#2 } }) .reservedUs = true := by decide +kernel
/-- V90, last iteration. -/
theorem test_div_uw : ran (exec (.divU false 2 3) (dividing .uw 2 3 0x64 0x7)) (fun t => t.getW 0 == 0x000E#16 && t.getW 1 == 0x0002#16 && !t.sr.n && !t.sr.z && !t.sr.ov) = true := by decide +kernel
/-- V91, last iteration. -/
theorem test_div_sd : ran (exec (.divS true 4 3) (dividing .sd 4 3 0xFFFFFF9C 0x7)) (fun t => t.getW 0 == 0xFFF2#16 && t.getW 1 == 0xFFFE#16 && t.sr.n && !t.sr.z && !t.sr.ov) = true := by decide +kernel
/-- V92, last iteration. -/
theorem test_divf : ran (exec (.divF 4 5) (dividing .f 4 5 0x2000 0x4000)) (fun t => t.getW 0 == 0x4000#16 && t.getW 1 == 0x0000#16 && t.sr.z && !t.sr.ov) = true := by decide +kernel
/-- V94, last iteration. -/
theorem test_div_sw_overflow : ran (exec (.divS false 2 3) (dividing .sw 2 3 0x8000 0xFFFF)) (fun t => t.sr.ov) = true := by decide +kernel
/-- V93, first iteration. -/
theorem test_div_zero : ran (exec (.divU true 2 4) (regs [(2, 0x5), (4, 0x0)])) (fun t => t.intc.div0err && t.pend.math) = true := by decide +kernel
/-- V100. -/
theorem test_repeat : ran (exec (.repeatLit 3) ({ State.reset with pc := 0x200#23 })) (fun t => t.rcount == 3#16 && t.srWord == 0x0010#16 && t.pc == 0x000202#23) = true := by decide +kernel
/-- V101. -/
theorem test_repeat_zero : ran (exec (.repeatLit 0) (State.reset)) (fun t => t.rcount == 0#16 && t.srWord == 0x0000#16) = true := by decide +kernel
/-- V103. -/
theorem test_repeat_wn : ran (exec (.repeatWn 2) (regs [(2, 0xFFFF)])) (fun t => t.rcount == 0xFFFF#16 && t.sr.ra) = true := by decide +kernel
/-- P2. -/
theorem test_do : ran (exec (.doLit 2 1) ({ State.reset with pc := 0x204#23 })) (fun t => t.dcount == 2#16 && addrOf t.dostart == 0x208#23 && addrOf t.doend == 0x20A#23 && t.corconWord == 0x0120#16 && t.srWord == 0x0200#16 && t.pc == 0x000208#23) = true := by decide +kernel
/-- V106. -/
theorem test_do_overflow : ran (exec (.doLit 1 5) ({ State.reset with cor := { State.reset.cor with dl := 4#3 } })) (fun t => t.intc.doOvr && t.pend.soft && t.cor.dl == 4#3 && t.dcount == 0#16 && t.pc == 0x000004#23) = true := by decide +kernel
/-- V105 (R371). -/
theorem test_do_wn : ran (exec (.doWn 3 7) ({ regs [(3, 0x9)] with dostart := 1#22, doend := 2#22, dcount := 3#16, cor := { State.reset.cor with dl := 1#3 } })) (fun t => t.dcount == 9#16 && t.cor.dl == 2#3 && t.doStack[0] == ⟨1#22, 2#22, 3#16⟩) = true := by decide +kernel
/-- R384. -/
theorem test_do_length : stops (exec (.doLit 2 0) State.reset) .doLength = true := by decide +kernel
/-- V110. -/
theorem test_ctxtswp : ran (exec (.ctxtswpLit 1) (regs [(0, 0xAA)])) (fun t => t.ctxtstatWord == 0x0101#16 && t.getW 0 == 0x0000#16 && (t.w[0]).val == 0xAA#16) = true := by decide +kernel
/-- R402. -/
theorem test_ctxtswp_wn : ran (exec (.ctxtswpWn 0) (regs [(0, 0xFA)])) (fun t => t.ctxtstatWord == 0x0202#16) = true := by decide +kernel
/-- V111. -/
theorem test_ctxtswp_absent : stops (exec (.ctxtswpLit 3) { State.reset with dev := { Device.default with nAlt := 2 } }) .contextAbsent = true := by decide +kernel
/-- V112. -/
theorem test_disi : ran (exec (.disi 3) (State.reset)) (fun t => t.disicnt == 3#14) = true := by decide +kernel
/-- V124. -/
theorem test_reset : ran (exec (.reset) ({ regs [(0, 0x1)] with pc := 0x300#23 })) (fun t => t.getW 0 == 0x0000#16 && !t.isInit 0 && t.pc == 0x000000#23 && t.corconWord == 0x0020#16) = true := by decide +kernel
/-- R44, no race with SAB written 1. -/
theorem test_sr_race : ran (exec (.movWnsF 0x21 0) (regs [(0, 0x2C00)])) (fun t => t.sr.sa && !t.sr.sb) = true := by decide +kernel
/-- V100. -/
theorem test_step_repeat : ran (step (image 0x202 [0x400081] { regs [(0, 0x2), (1, 0x2)] with pc := 0x202#23, rcount := 3#16, sr := { State.reset.sr with ra := true } })) (fun t => t.getW 1 == 4#16 && t.rcount == 2#16 && t.sr.ra && t.pc == 0x202#23) = true := by decide +kernel
/-- V100. -/
theorem test_step_repeat_last : ran (step (image 0x202 [0x400081] { regs [(0, 0x2), (1, 0x6)] with pc := 0x202#23, rcount := 0#16, sr := { State.reset.sr with ra := true } })) (fun t => t.getW 1 == 8#16 && !t.sr.ra && t.pc == 0x204#23) = true := by decide +kernel
/-- P2. -/
theorem test_step_do_back : ran (step (image 0x20A [0x4080E1] { regs [(1, 0x1)] with pc := 0x20A#23, dcount := 2#16, dostart := 0x104#22, doend := 0x105#22, cor := { State.reset.cor with dl := 1#3 } })) (fun t => t.dcount == 1#16 && t.pc == 0x208#23) = true := by decide +kernel
/-- P2. -/
theorem test_step_do_end : ran (step (image 0x20A [0x4080E1] { regs [(1, 0x1)] with pc := 0x20A#23, dostart := 0x104#22, doend := 0x105#22, cor := { State.reset.cor with dl := 1#3 } })) (fun t => t.corconWord == 0x20#16 && t.pc == 0x20C#23) = true := by decide +kernel
/-- V105. -/
theorem test_step_do_pop : ran (step (image 0x20C [0x410161] { regs [(2, 0x1)] with pc := 0x20C#23, dostart := 0x105#22, doend := 0x106#22, doStack := State.reset.doStack.set 0 ⟨0x102#22, 0x109#22, 1#16⟩, cor := { State.reset.cor with dl := 2#3 } })) (fun t => t.cor.dl == 1#3 && addrOf t.doend == 0x212#23 && t.dcount == 1#16 && t.pc == 0x20E#23) = true := by decide +kernel
/-- V112. -/
theorem test_step_disi : ran (step (image 0 [0x000000] { State.reset with disicnt := 3#14 })) (fun t => t.disicnt == 2#14) = true := by decide +kernel
/-- V120. -/
theorem test_step_interrupt : ran (step (image 0x1A [0x300] { State.reset.setW15 0x1010#16 with pc := 0x12344#23, sr := { State.reset.sr with ipl := 1, n := true, c := true }, cor := { State.reset.cor with sfa := true }, ext := [.irq 3 5] })) (fun t => t.mem.readWord 0x1010 == 0x2345#16 && t.mem.readWord 0x1012 == 0x2901#16 && t.w15 == 0x1014#16 && t.srWord == 0x00A9#16 && !t.cor.sfa && t.pc == 0x300#23) = true := by decide +kernel
/-- V121. -/
theorem test_step_held : ran (step (image 0 [0x000000] { State.reset with sr := { State.reset.sr with ipl := 3 }, ext := [.irq 3 3] })) (fun t => t.pc == 2#23) = true := by decide +kernel
/-- V122 with log 1's level 11. -/
theorem test_step_trap : ran (step (image 0xC [0x400] { State.reset with pc := 0x210#23, pend := { State.reset.pend with math := true }, intc := { State.reset.intc with sftacerr := true } })) (fun t => t.mem.readWord 0x1000 == 0x0210#16 && t.mem.readWord 0x1002 == 0#16 && t.cor.ipl3 && t.sr.ipl == 3#3 && t.intc.sftacerr && !t.pend.math && t.active == [.math] && t.pc == 0x400#23) = true := by decide +kernel
/-- R367. -/
theorem test_step_repeat_target : stops (step (image 0 [0x060000] { State.reset with sr := { State.reset.sr with ra := true } })) .repeatTarget = true := by decide +kernel
/-- R383. -/
theorem test_step_do_tail : stops (step (image 0x20A [0x320007] { State.reset with pc := 0x20A#23, dostart := 0x104#22, doend := 0x105#22, cor := { State.reset.cor with dl := 1#3 } })) .doLastTwo = true := by decide +kernel
/-- V107 (a). -/
theorem test_step_edt : ran (step (image 0x208 [0x880220] { regs [(0, 0x820)] with pc := 0x208#23, dostart := 0x104#22, doend := 0x106#22, dcount := 100#16, cor := { State.reset.cor with dl := 1#3 } })) (fun t => t.edtPending && !t.edtLate) = true := by decide +kernel
/-- V107 (b). -/
theorem test_step_edt_late : ran (step (image 0x20A [0x880220] { regs [(0, 0x820)] with pc := 0x20A#23, dostart := 0x104#22, doend := 0x106#22, dcount := 100#16, cor := { State.reset.cor with dl := 1#3 } })) (fun t => !t.edtPending && t.edtLate) = true := by decide +kernel
/-- D12. -/
theorem test_fetch_outside : faults (step { State.reset with dev := { Device.default with progWords := 0 } }) .fetchOutside = true := by decide +kernel
/-- R496. -/
theorem test_splim_hazard : stops (step (image 0 [0x78004F] { State.reset with trk := ⟨false, false, false, true, false, false, false⟩ })) .splimHazard = true := by decide +kernel
/-- R226, R228. -/
theorem test_mulw_su_lit : ran (exec (.mulwSU 0 2 (.lit 31) 0) (regs [(0, 0xFFFF)])) (fun t => t.getW 2 == 0xFFE1#16 && t.getW 3 == 0#16) = true := by decide +kernel
/-- R304: a zero divisor sets OV. -/
theorem test_divf_zero : ran (exec (.divF 4 5) (dividing .f 4 5 0x2000 0)) (fun t => t.sr.ov) = true := by decide +kernel
/-- R302: a divide whose loop ends after five iterations spoils those that had their last execution before it started, no others. -/
theorem test_div_spoilt : (repeatEnd { State.reset with sr := { State.reset.sr with ra := true } }
      { dividing .ud 2 4 9 3 with
        div := some { lastDivide .ud 2 4 9 3 with done := 5, born := 7 }
        held := [heldLoop 0 0 8 (some { lastDivide .uw 2 3 9 3 with last := 8 }), heldLoop 4 0 7 (some { lastDivide .uw 2 3 9 3 with last := 7 })] }).held
    = [heldLoop 0 0 8 (some { lastDivide .uw 2 3 9 3 with last := 8 }),
        heldLoop 4 0 7 (some { lastDivide .uw 2 3 9 3 with last := 7, intact := false })] := by
  decide +kernel
/-- R302, R365: an interrupted divide is held and resumed; of two loops of one routine the one at these stacked words goes on, and
one whose divide has not started spoils nothing. -/
theorem test_div_resumed : ran (takeException ⟨.irq 3, 5⟩ { dividing .uw 2 3 9 3 with pc := 0x20#23, dev := { Device.default with vectors := [(0x1A, 0x300#23)] } })
      (fun t => t.div == none && t.held == [heldLoop 0x1000 0 0 (some (lastDivide .uw 2 3 9 3))]) = true
    ∧ ran (exec .retfie (words [(0x1000, 0x20), (0x1002, 0x1000)] ({ State.reset.setW15 0x1004#16 with
        rcount := 12#16, held := [heldLoop 0x1800 17 9 none, heldLoop 0x1000 12 5 (some { lastDivide .uw 2 3 9 3 with done := 5 })] })))
      (fun t => t.sr.ra && t.div == some { lastDivide .uw 2 3 9 3 with done := 5 } && t.held == [heldLoop 0x1800 17 9 none]) = true := by
  decide +kernel
/-- The return of a handler that interrupted another handler at 0x80 with W0 = 6 while a divide was held, last executed at `k`. -/
def nested (k : Nat) (s : State) : State :=
  words [(0x1100, 0x80)] { s with
    w15 := 0x1104#16
    held := [{ heldLoop 0x1100 0 7 none with target := 0x80#23, loop := false, bank := (regs [(0, 6)]).w },
      heldLoop 0x1000 0 5 (some { lastDivide .uw 2 4 9 3 with last := k })] }
/-- R302: every handler between two executions has the duty, the one that returns to another handler too: W0 left as 5 where it was
found as 6 spoils the divide; left as found, or changed in another context or after an execution, it does not. -/
theorem test_div_nested : ran (exec .retfie (nested 4 (regs [(0, 5)]))) (fun u => u.pc == 0x80#23
        && u.held == [heldLoop 0x1000 0 5 (some { lastDivide .uw 2 4 9 3 with last := 4, intact := false })]) = true
    ∧ ran (exec .retfie (nested 4 (regs [(0, 6)]))) (fun u => u.held == [heldLoop 0x1000 0 5 (some { lastDivide .uw 2 4 9 3 with last := 4 })]) = true
    ∧ ran (exec .retfie (nested 4 (({ regs [(0, 6)] with cctxi := 1 } : State).setW 0 5))) (fun u => u.held == [heldLoop 0x1000 0 5 (some { lastDivide .uw 2 4 9 3 with last := 4 })]) = true
    ∧ ran (exec .retfie (nested 8 (regs [(0, 5)]))) (fun u => u.held == [heldLoop 0x1000 0 5 (some { lastDivide .uw 2 4 9 3 with last := 8 })]) = true := by
  decide +kernel
/-- R362, R367: a forbidden target after `REPEAT` #0. -/
theorem test_step_repeat_zero : stops (step (image 0 [0x090000, 0x060000] State.reset)) .repeatTarget = true := by decide +kernel
/-- R381, R499: the end of an inner loop that is the instruction before the penultimate one of the outer loop. -/
theorem test_step_outer_ipl : stops (step (image 0x206 [0x880210] { regs [(0, 0x20)] with pc := 0x206#23, dostart := 0x101#22, doend := 0x103#22, doStack := State.reset.doStack.set 0 ⟨0x100#22, 0x105#22, 1#16⟩, cor := { State.reset.cor with dl := 2#3 } })) .doIplChange = true := by decide +kernel
/-- R448: the trap of which the handler leaves a status bit set is requested again (93_implementation_defined.md), though the
handler has lowered the level (R53, R457); another handler's return does not request it. -/
theorem test_retfie_again : ran (exec .retfie ({ State.reset.setW15 0x1014#16 with active := [.math, .soft], intc := { State.reset.intc with sftacerr := true, doOvr := true } })) (fun t => t.pend.math && !t.pend.soft && t.active == [.soft]) = true
    ∧ ran (exec .retfie ({ State.reset.setW15 0x1014#16 with active := [.irq 3, .math], intc := { State.reset.intc with sftacerr := true } })) (fun t => !t.pend.math) = true := by decide +kernel
/-- R381, R384: a loop made too short by a write of DOEND. -/
theorem test_step_short_loop : stops (step (image 0x208 [0] { State.reset with pc := 0x208#23, dcount := 2#16, dostart := 0x104#22, doend := 0x104#22, cor := { State.reset.cor with dl := 1#3 } })) .doLength = true := by decide +kernel
/-- R497: a read of DOENDL in the second instruction after a `DO` draws a free value, in the third one it does not. -/
theorem test_step_doend_open : ran (step (image 0 [0x8001F0] { State.reset with trk := ⟨false, true, false, false, false, false, false⟩ })) (fun t => t.fresh == 1 && t.pc == 2#23) = true
    ∧ ran (step (image 0 [0x8001F0] State.reset)) (fun t => t.fresh == 0 && t.getW 0 == 0#16) = true := by decide +kernel
/-- R496. -/
theorem test_table_hazard : stops (exec (.tblrdl .word .direct 2 .ind 15) { State.reset with trk := ⟨true, false, false, false, false, false, false⟩ }) .splimHazard = true := by decide +kernel
/-- R74, R427: addresses of the default map. -/
theorem test_default_map : Device.default.wf = true ∧ ({ Device.default with sfrAddr := sfrDefault.take 29 } : Device).wf = true
    ∧ ({ Device.default with sfrAddr := sfrDefault.tail } : Device).wf = false ∧ ({ Device.default with levelDma := 9#4 } : Device).wf = false
    ∧ [0x1E, 0x20, 0x2C, 0x2E, 0x32, 0x36, 0x3E, 0x42, 0x44, 0x46, 0x54, 0x56, 0x58, 0x8C4].map (sfrAt Device.default)
      = [some (.w 15), some .splim, some (.accU .accb), some .pcl, some .dsrpag, some .rcount, some .doendl, some .sr, some .corcon,
        some .modcon, some .tblpag, none, some .mstrpr, some .intcon3] := by decide +kernel

/-! ## Ill-formed terms that WellFormed refuses, one for each check -/

theorem test_illformed_retlw : (Instr.retlw .byte 0x100 0).wellFormed = false := by decide
theorem test_illformed_add_lit10 : (Instr.addLit10 .byte 0x3FF 0).wellFormed = false := by decide
theorem test_illformed_bset : (Instr.bsetWs 8 .byte .direct 0).wellFormed = false := by decide
theorem test_illformed_mul : (Instr.mulUU 0 1 .direct 2).wellFormed = false := by decide
theorem test_illformed_movd_load : (Instr.movDLoad 0 .direct 1).wellFormed = false := by decide
theorem test_illformed_movd_store : (Instr.movDStore .direct 15 0).wellFormed = false := by decide
theorem test_illformed_div : (Instr.divS true 1 2).wellFormed = false := by decide
theorem test_illformed_ed : (Instr.ed .w4 .acca .w4 .none (.ptr false .zero)).wellFormed = false := by decide
theorem test_illformed_edac : (Instr.edac .w4 .acca .w4 (.ptr false .zero) .none).wellFormed = false := by decide
theorem test_illformed_mulw : (Instr.mulwUU 0 1 (.lit 3) 2).wellFormed = false := by decide
theorem test_illformed_calll : (Instr.callLWn 15).wellFormed = false := by decide

/-! ## States and operands that meet the hypotheses of the statements, at the bounds of their ranges -/

theorem witness_decode_one : (Instr.retlw .byte 0xFF 3).wellFormed = true ∧ (encode (.retlw .byte 0xFF 3)).length = 1 := by decide
theorem witness_decode_two : (Instr.goto 0x3FFFFF).wellFormed = true ∧ (encode (.goto 0x3FFFFF)).length = 2 := by decide
theorem witness_decode_none : (Instr.callLWn 14).wellFormed = true ∧ encode (.callLWn 14) = [] := by decide
theorem witness_decoded : decode 0x08800F#24 0x7FFF#24 = .ok (.doWn 15 0x7FFF) := by decide

/-- A state with a `NOP` at the pc. -/
def atNop : State := image 0 [0x000000] State.reset

theorem witness_inv : Inv atNop ∧ ran (step atNop) (fun _ => true) = true :=
  ⟨⟨rfl, rfl, rfl, rfl, rfl, by decide, by decide, by decide, rfl, rfl, rfl, rfl, rfl, rfl⟩, by decide +kernel⟩

theorem witness_step_one : nextRequest atNop = none ∧ fetches atNop .nop ∧ checkBefore .nop (beginStep atNop) = none := by
  unfold fetches; decide +kernel

/-- A state with a `GOTO` in the last two program words. -/
def atGoto : State := image 0x7FFFFC [0x040200, 0x000000] { State.reset with pc := 0x7FFFFC#23 }

theorem witness_step_two : nextRequest atGoto = none ∧ fetches atGoto (.goto 0x100) ∧ checkBefore (.goto 0x100) (beginStep atGoto) = none := by
  unfold fetches; decide +kernel

/-- Running at `a` in a loop at level `l` with a count, from 0x208 to 0x20A. -/
def loopAt (a : PAddr) (l : BitVec 3) (n : Word) : State :=
  { State.reset with pc := a, dcount := n, dostart := 0x104#22, doend := 0x105#22, cor := { State.reset.cor with dl := l } }

/-- The last instruction of such a loop. -/
def inLoop (l : BitVec 3) (n : Word) : State := loopAt 0x20A#23 l n

theorem witness_outside_loops : State.reset.sr.ra = false ∧ noLoopEnd .nop atNop.pc atNop ∧ atNop.cor.dl = 0#3 :=
  ⟨rfl, .inl rfl, rfl⟩
theorem witness_inside_loop : (loopAt 0x208#23 2 1).sr.ra = false ∧ noLoopEnd .nop 0x208#23 (loopAt 0x208#23 2 1)
    ∧ checkAfter .nop (loopAt 0x208#23 2 1) { loopAt 0x208#23 2 1 with disicnt := 1#14 } = none :=
  ⟨rfl, .inr (.inl (by decide)), by decide +kernel⟩
theorem witness_return_at_end : noLoopEnd .ret 0x20A#23 (inLoop 4 1) ∧ checkAfter .nop (inLoop 4 1) (inLoop 4 1) = none :=
  ⟨.inr (.inr (.inr (.inl rfl))), by decide +kernel⟩

/-- Requests of levels 6 and 7 presented while DISICNT counts and the CPU stands at level 6. -/
def asked : State :=
  { State.reset with disicnt := 1#14, sr := { State.reset.sr with ipl := 6 }, ext := [.irq 0 6, .irq 5 7, .irq 245 7] }

theorem witness_request : nextRequest asked = some ⟨.irq 5, 7⟩ ∧ nextRequest atNop = none
    ∧ nextRequest { asked with ext := [.irq 5 7, .soft] } = some ⟨.soft, 9⟩
    ∧ nextRequest { asked with ext := [.irq 5 7, .dma, .oscillator] } = some ⟨.oscillator, 15⟩ := by decide +kernel
theorem witness_presents : presents asked ⟨.irq 245, 7⟩ ∧ presents asked ⟨.irq 0, 6⟩ ∧ asked.cpuIpl < (7 : BitVec 4) ∧ (7 : BitVec 4) ≤ 7 ∧ 6 < (7 : BitVec 4) :=
  ⟨⟨7, by decide, rfl⟩, ⟨6, by decide, rfl⟩, by decide +kernel⟩

/-- The stack at the end of data memory, SPLIM at its last word. -/
def atTop : State := { image 0x10 [0x400] State.reset with w15 := 0xFFFA#16, splim := 0xFFFC#16, splimEn := true }

theorem witness_push2 : push2Ok atTop ∧ contextUnique atTop.dev 9 ∧ contextUnique atTop.dev atTop.cpuIpl
    ∧ handlerOf .soft atTop = some 0x400#23 ∧ atTop.w15.toNat + 4 < 65536 ∧ atTop.pc.getLsbD 0 = false
    ∧ atTop.trk.splimPrev = false := by
  unfold push2Ok pushOk ramAt stackOk contextUnique; decide +kernel

/-- SPLIM between the two words an exception pushes, and a trap pending with its status bit set. -/
def overTop : State :=
  { image 0x0A [0x400] atTop with
    splim := 0xFFFA#16, intc := { State.reset.intc with sftacerr := true }, pend := { State.reset.pend with math := true } }

theorem witness_entry_trips : ramAt overTop .word overTop.w15 ∧ ramAt overTop .word (overTop.w15 + 2#16) ∧ entryTrips overTop = true
    ∧ contextUnique overTop.dev 12 ∧ handlerOf .stack overTop = some 0x400#23 ∧ handlerOf .soft overTop = some 0x400#23 := by
  unfold ramAt contextUnique; decide +kernel

/-- Pointers into data memory: W1, W2 even, W3 odd, W4 the last unpaged word, W6 past it, W8 and W10 for prefetches; W12 an
offset, W13 for a write-back. -/
def ptrs : State :=
  words [(0x1800, 0x8001), (0x2800, 2)] (regs [(1, 0x1800), (2, 0x1000), (3, 0x1801), (4, 0x7FFE), (5, 1), (6, 0x1802), (8, 0x1800),
    (10, 0x2800), (12, 2), (13, 0x1A00)])

theorem witness_mov_operands : (srcOk .postInc .word 1 0 ptrs ∧ dstOk .offset .word 2 12 (srcNext .postInc .word 1 ptrs))
    ∧ (srcOk .preDec .word 6 0 ptrs ∧ dstOk .direct .word 15 0 (srcNext .preDec .word 6 ptrs))
    ∧ (srcOk .ind .byte 3 0 ptrs ∧ dstOk .ind .byte 3 0 (srcNext .ind .byte 3 ptrs))
    ∧ (srcOk .direct .word 0 0 ptrs ∧ dstOk .postInc .word 15 0 (srcNext .direct .word 0 ptrs)) := by
  unfold srcOk dstOk pointerOk ramAt stackOk
  refine ⟨⟨?_, ?_⟩, ⟨?_, ?_⟩, ⟨?_, ?_⟩, ?_, ?_⟩ <;> decide +kernel

theorem witness_push : pushOk State.reset ∧ pushOk { atTop with w15 := 0xFFFC#16 } := by unfold pushOk ramAt stackOk; decide +kernel
theorem witness_pop : popOk { State.reset with w15 := 0x1002#16 } ∧ pop2Ok { State.reset with w15 := 0x1004#16 } := by
  unfold pop2Ok popOk ramAt stackOk; decide +kernel
theorem witness_push_over : ramAt { atTop with w15 := 0xFFFE#16 } .word 0xFFFE#16 ∧ atTop.splimEn = true ∧ atTop.splim < 0xFFFE#16
    ∧ atTop.modcon.getLsbD 15 = false ∧ atTop.modcon.getLsbD 14 = false
    ∧ bitReversedApplies atTop .postInc .word 15 = false := by unfold ramAt; decide +kernel
theorem witness_push_below : (14 : Reg).val < 15 ∧ ({ State.reset with w15 := 0x1C#16 } : State).w15.toNat = 2 * (14 : Reg).val
    ∧ ({ State.reset with w15 := 0#16 } : State).w15.toNat = 2 * (0 : Reg).val ∧ State.reset.modcon = 0#16 := by decide +kernel
theorem witness_pop_over : ramAt { atTop with w15 := 0#16 } .word (0#16 - 2#16)
    ∧ ramAt { atTop with splim := 0x1000#16 } .word (atTop.w15 - 2#16) ∧ atTop.trk.splimPrev = false ∧ atTop.splimEn = true
    ∧ 0x1000#16 < atTop.w15 - 2#16 := by unfold ramAt; decide +kernel

theorem witness_file : fileOk .word (wordFileAddr 0x800) ptrs ∧ fileOk .word (wordFileAddr 0x7FFF) ptrs
    ∧ fileOk .word (fileAddr 0x1000) ptrs ∧ fileOk .byte (fileAddr 0x1FFF) ptrs := by unfold fileOk ramAt; decide +kernel
theorem witness_bit_file : fileOk .byte (BitVec.ofNat 16 (2 * (0x800#12).toNat + (15#4).toNat / 8)) ptrs := by
  unfold fileOk ramAt; decide +kernel

theorem witness_pair : pairOk .postInc 1 ptrs ∧ pairOk .direct 14 ptrs ∧ pairOk .ind 15 State.reset
    ∧ pairOk .preDec 15 { State.reset with w15 := 0x1004#16 } := by
  unfold pairOk pointerOk ramAt stackOk
  refine ⟨?_, ?_, ?_, ?_⟩ <;> decide +kernel

theorem witness_mov_literal : (0 : Reg) ≠ 15 := by decide

theorem witness_store_onto : (2 : Reg).val < 15 ∧ (1 : Reg) ≠ 2 ∧ (regs [(2, 4)]).isInit 2 = true
    ∧ (regs [(2, 4)]).modcon.getLsbD 15 = false ∧ (regs [(2, 4)]).modcon.getLsbD 14 = false
    ∧ bitReversedApplies (regs [(2, 4)]) .postInc .word 2 = false ∧ (regs [(2, 4)]).getW 2 = BitVec.ofNat 16 (2 * 2) := by
  decide +kernel
theorem witness_misaligned : (3 : Reg) ≠ 15 ∧ ptrs.isInit 3 = true ∧ ptrs.modcon.getLsbD 15 = false
    ∧ ptrs.modcon.getLsbD 14 = false ∧ (ptrs.getW 3).getLsbD 0 = true := by decide +kernel
theorem witness_uninit : Mode.ind ≠ .direct ∧ State.reset.isInit 0 = false := by decide +kernel

/-- W1 points above 0x8000, with page registers and memory to go with it. -/
def paged (r w : Nat) : State :=
  { regs [(1, 0xFFFE)] with
    dsrpag := BitVec.ofNat 10 r, dswpag := BitVec.ofNat 9 w, dev := { Device.default with edsEnd := 0xFFFFFF#24 } }

theorem witness_paged : (1 : Reg).val < 14 ∧ (paged 0x1FF 0x1FF).isInit 1 = true ∧ ((paged 0x1FF 0x1FF).getW 1).msb = true
    ∧ ((paged 0x1FF 0x1FF).getW 1).getLsbD 0 = false ∧ (paged 0x1FF 0x1FF).modcon = 0#16
    ∧ placeOf (paged 0x1FF 0x1FF).dev (0x1FF * 32768 + 32766) = .ram
    ∧ placeOf (paged 0x1FF 0x1FF).dev (0x1FF * 32768 + 32767) = .ram := by decide +kernel
theorem witness_psv : 0x200 ≤ (paged 0x2FF 1).dsrpag.toNat ∧ 0x200 ≤ (paged 0x3FF 1).dsrpag.toNat
    ∧ 0xFF * 16384 + 16383 < (paged 0x2FF 1).dev.progWords := by decide +kernel
theorem witness_page_zero : (paged 0 0).isInit 1 = true ∧ ((paged 0 0).getW 1).msb = true ∧ (paged 0 0).modcon = 0#16
    ∧ (paged 0 0).dsrpag = 0#10 ∧ (paged 0 0).dswpag = 0#9 := by decide +kernel

theorem witness_mapped : placeOf State.reset.dev (wordFileAddr 0x11).toNat = .sfr (.accL .acca)
    ∧ placeOf State.reset.dev (wordFileAddr 0x17).toNat = .sfr .pcl ∧ openBits .pcl State.reset ≠ 0#16
    ∧ placeOf State.reset.dev (wordFileAddr 0x462).toNat = .sfr .intcon3 ∧ openBits .sr State.reset = 0#16
    ∧ placeOf State.reset.dev (wordFileAddr 0x1F).toNat = .sfr .doendl ∧ openBits .doendl State.reset = 0#16
    ∧ placeOf State.reset.dev (wordFileAddr 0x29).toNat = .sfr .disicnt := by decide +kernel
theorem witness_mapped_byte : placeOf State.reset.dev (fileAddr 0x27).toNat = .sfr (.accU .acca)
    ∧ sfrStoredByte (.accU .acca) true 0xFF State.reset = some State.reset
    ∧ placeOf State.reset.dev (fileAddr 0x1E).toNat = .sfr (.w 15) ∧ openBits (.w 15) State.reset = 0#16
    ∧ placeOf State.reset.dev (fileAddr 0x42).toNat = .sfr .sr ∧ placeOf State.reset.dev (fileAddr 0x43).toNat = .sfr .sr
    ∧ placeOf State.reset.dev (fileAddr 0x44).toNat = .sfr .corcon ∧ placeOf State.reset.dev (fileAddr 0x45).toNat = .sfr .corcon := by
  decide +kernel

theorem witness_write_sr : placeOf State.reset.dev (wordFileAddr 0x21).toNat = .sfr .sr ∧ State.reset.intc.nstdis = false ∧ (regs [(0, 0x3400)]).getW 0 = 0x3400#16
    ∧ ((regs [(0, 0x3400)]).getW 0).getLsbD 10 = true ∧ ((regs [(0, 0x3400)]).getW 0).getLsbD 15 = false
    ∧ ((regs [(0, 0x3400)]).getW 0).getLsbD 14 = false := by decide +kernel
theorem witness_write_corcon : placeOf State.reset.dev (wordFileAddr 0x22).toNat = .sfr .corcon ∧ ((regs [(0, 0x800)]).getW 0).getLsbD 11 = true
    ∧ ({ regs [(0, 0x800)] with cor := { State.reset.cor with dl := 1#3 } } : State).cor.dl ≠ 0#3
    ∧ ((regs [(0, 8)]).getW 0).getLsbD 3 = true ∧ (0x45#13).getLsbD 0 = true ∧ State.reset.cor.dl = 0#3 := by decide +kernel
theorem witness_frames : pushOk { regs [(14, 0)] with w15 := 0xFFFE#16 }
    ∧ popOk ((regs [(14, 0x1002)]).setW15 (clearBit0 ((regs [(14, 0x1002)]).getW 14))) := by
  unfold pushOk popOk ramAt stackOk; decide +kernel

theorem witness_table : Mode6.postInc ≠ .direct ∧ ptrs.isInit 4 = true ∧ ptrs.modcon = 0#16
    ∧ bitReversedApplies ptrs .postInc .word 4 = false ∧ ({ ptrs with tblpag := 127#8 } : State).tblpag.toNat < 128
    ∧ 127 * 32768 + (effAddr .postInc 4 4 (stepOf .word) ptrs).toNat / 2 < ptrs.dev.progWords
    ∧ dstOk .ind .word 1 1 (modifyPtr .postInc 4 (stepOf .word) (ptrs.setTrk { ptrs.trk with psvRd := true })) := by
  unfold dstOk pointerOk ramAt stackOk; decide +kernel

theorem witness_add : srcOk PostMode.ind.toMode .word 4 4 ptrs ∧ srcOk PreMode.preDec.toMode .word 6 6 ptrs
    ∧ dstOk Mode6.preInc.toMode .word 1 1 (srcNext PostMode.ind.toMode .word 4 ptrs)
    ∧ dstOk Mode6.direct.toMode .byte 15 15 (srcNext PreMode.preDec.toMode .byte 6 ptrs) := by
  unfold srcOk dstOk pointerOk ramAt stackOk
  refine ⟨?_, ?_, ?_, ?_⟩ <;> decide +kernel
theorem witness_table_w15 : Mode6.ind ≠ .direct ∧ (15 : Reg) = 15 ∧ State.reset.trk.splimPrev = false
    ∧ dstOk Mode6.direct.toMode .word 0 0 (State.reset.setTrk { State.reset.trk with psvRd := true }) :=
  ⟨nofun, rfl, rfl, .inl rfl⟩
/-- R424: a table read through W15 below 0x1000, above SPLIM, and from an address that wrapped, requests StackError and is made; one
within the limits does not. -/
theorem test_table_stack : (∀ v ∈ [(0x0200#16, Mode6.ind), (0x2002#16, .postInc), (0xFFFE#16, .preInc)],
      ran (exec (.tblrdl .word .direct 2 v.2 15) { State.reset with w15 := v.1, splim := 0x2000#16, splimEn := true })
        (fun t => t.pend.stack && t.getW 2 == 0xFFFF#16) = true)
    ∧ ran (exec (.tblrdh .word .direct 2 .postDec 15) { State.reset with w15 := 0x2000#16, splim := 0x2000#16, splimEn := true })
      (fun t => !t.pend.stack && t.getW 2 == 0xFF#16 && t.w15 == 0x1FFE#16) = true := by decide +kernel
/-- R424, R103: W15 as the offset register: a load above SPLIM and a store with a carry request StackError, and are not paged. -/
theorem test_offset_stack : ran (exec (.movWsWd 15 .word .direct 3 .offset 1) (words [(0x9000, 0x1234)] { regs [(1, 0x8000)] with
        splim := 0x8FFE#16, splimEn := true, dsrpag := 0#10 })) (fun t => t.pend.stack && !t.pend.address && t.getW 3 == 0x1234#16) = true
    ∧ ran (exec (.movWsWd 15 .byte .offset 1 .direct 2) { regs [(1, 0xF001), (2, 0x77)] with
        w15 := 0x2000#16, splim := 0x8FFE#16, splimEn := true }) (fun t => t.pend.stack && t.mem.read 0x1001 == 0x77#8) = true
    ∧ ran (exec (.movWsWd 15 .word .direct 3 .offset 1) (words [(0x9000, 0x1234)] (regs [(1, 0x8000)])))
      (fun t => !t.pend.stack && t.getW 3 == 0x1234#16) = true := by decide +kernel
theorem witness_offset : (1 : Reg).val < 15 ∧ ramAt (regs [(1, 0x8000)]) .word ((regs [(1, 0x8000)]).getW 1 + State.reset.w15)
    ∧ (regs [(1, 0x8000)]).isInit 1 = true ∧ (0x8FFE#16) < 0x8000#16 + State.reset.w15 ∧ 65536 ≤ (0xF001#16).toNat + (0x2000#16).toNat := by
  unfold ramAt; decide +kernel
theorem witness_byte_source : srcOk Mode6.postDec.toMode .byte 3 3 ptrs ∧ srcOk Mode6.direct.toMode .byte 0 0 ptrs := by
  unfold srcOk pointerOk ramAt stackOk; decide +kernel

/-- Prefetches in both spaces, in fractional mode and unsigned. -/
def dsp : State := { ptrs with cor := { State.reset.cor with us := 2#2 }, dev := { Device.default with ramEnd := 0x2801#16 } }

theorem witness_dsp : dsp.cor.us ≠ 3#2 ∧ prefetched 8 (.ptr false .plus2) dsp = some 0x8001#16
    ∧ prefetched 10 (.ptr false .minus6) dsp = some 2#16 := by decide +kernel
theorem witness_dsp_x : xOk (.ptr false .plus2) dsp ∧ xOk .none dsp ∧ xOk .offset { dsp with w := (regs [(9, 0x17FE), (12, 2)]).w } := by
  refine ⟨?_, ?_, ?_⟩ <;> intro n h <;> simp only [prefetchReg, Option.some.injEq, reduceCtorEq] at h <;>
    (subst h; unfold pointerFree ramAt; decide +kernel)
theorem witness_dsp_y : yOk (.ptr false .minus6) dsp ∧ yOk .none dsp := by
  refine ⟨fun n h => ?_, fun n h => nomatch h⟩
  simp only [prefetchReg, Option.some.injEq] at h
  subst h; unfold pointerFree; decide +kernel
theorem witness_dsp_wb : writeBackOk (some .w13Inc) dsp ∧ writeBackOk none dsp := by
  refine ⟨fun _ => ?_, fun h => nomatch h⟩
  unfold dstOk pointerOk ramAt stackOk; decide +kernel
theorem witness_prefetch_first : (8 : Reg) = 8 ∧ (10 : Reg) ≠ 8 ∧ DReg.w4 ≠ DReg.w5 := by decide
theorem witness_us : (∀ u : BitVec 2, u = 0#2 ∨ u = 1#2 ∨ u = 2#2 ∨ u = 3#2) ∧ dsp.cor.us = 2#2 := by decide

theorem witness_sftac : (16#6).toInt = 16 ∧ (0x30#6).toInt = -16 ∧ (17#6).toInt = 17 ∧ (0x2F#6).toInt = -17 ∧ (0#6).toInt = 0 := by
  decide

theorem witness_divide : (dividing .ud 2 4 0xFFFFFFFF 1).sr.ra = true
    ∧ (dividing .ud 2 4 0xFFFFFFFF 1).div = some (lastDivide .ud 2 4 0xFFFFFFFF 1)
    ∧ (lastDivide .ud 2 4 0xFFFFFFFF 1).done = 17 ∧ (lastDivide .ud 2 4 0xFFFFFFFF 1).intact = true
    ∧ dutyKept (lastDivide .ud 2 4 0xFFFFFFFF 1) (dividing .ud 2 4 0xFFFFFFFF 1)
    ∧ dutyKept (lastDivide .sw 2 4 0x8000 0xFFFF) (dividing .sw 2 4 0x8000 0xFFFF)
    ∧ dutyKept (lastDivide .f 2 4 0x3FFF 0x4000) (dividing .f 2 4 0x3FFF 0x4000) := by unfold dutyKept; decide +kernel
theorem witness_divide_zero : (lastDivide .f 2 4 0x3FFF 0).divisor = 0#16
    ∧ dutyKept (lastDivide .f 2 4 0x3FFF 0) (dividing .f 2 4 0x3FFF 0) := by unfold dutyKept; decide +kernel
theorem witness_divide_first : ({ dividing .uw 2 4 1 1 with div := none, rcount := 17#16 } : State).sr.ra = true
    ∧ (dividing .uw 2 4 1 1).getW 4 = 0#16 ∧ (regs [(4, 3)]).getW 4 ≠ 0#16 := by decide +kernel
theorem witness_divide_alone : (regs [(2, 5)]).sr.ra = false ∧ (regs [(2, 5)]).getW 4 = 0#16 := by decide +kernel
theorem witness_divide_again : (lastDivide .uw 2 4 9 3).kind ≠ .sw ∧ (lastDivide .uw 2 4 9 3).m ≠ 3
    ∧ 18 ≤ ({ lastDivide .uw 2 4 9 3 with done := 18 } : DivRec).done := by decide

theorem witness_branch : branchOf (.braGTU 0x8000) = some (fun f => f.c && !f.z, 0x8000#16) ∧ State.reset.pc.getLsbD 0 = false :=
  ⟨rfl, rfl⟩
theorem witness_calls : push2Ok { atTop with splimEn := false } ∧ (14 : Reg).val < 15 ∧ (0x7FFFFE#23).getLsbD 0 = false := by
  unfold push2Ok pushOk ramAt stackOk; decide +kernel
theorem witness_returns : pop2Ok { State.reset with w15 := 0x1004#16 }
    ∧ pop2Ok (({ State.reset with w15 := 0x1004#16 } : State).regWrite .byte 0 0xFF#16) ∧ contextUnique Device.default 15
    ∧ returnPend (some .math) { overTop with pend := State.reset.pend } = overTop.pend ∧ returnPend none overTop = overTop.pend := by
  unfold pop2Ok popOk ramAt stackOk contextUnique; decide +kernel

theorem witness_repeat : (0x7FFF#16).toNat = (0x7FFF#15).toNat ∧ (0#16).toNat = (0#15).toNat := by decide
/-- A return to a loop of which a divide was under way, with one of a handler's left uncompleted or with none. -/
def returning (r : DivRec) (l : List Interrupted) : State :=
  words [(0x1000, 0x20), (0x1002, 0x1000)] { State.reset with w15 := 0x1004#16, held := l ++ [heldLoop 0x1000 0 5 (some r)] }

theorem witness_returns_loop : pop2Ok (returning (lastDivide .uw 2 4 9 3) []) ∧ (top1 (returning (lastDivide .uw 2 4 9 3) [])).getLsbD 12 = true
    ∧ ran (exec .retfie (returning (lastDivide .uw 2 4 9 3) [])) (fun u => u.sr.ra && u.pc == 0x20#23 && u.w15 == 0x1000#16
      && u.div == some (lastDivide .uw 2 4 9 3) && u.held == []) = true
    ∧ ran (exec .retfie (returning (lastDivide .uw 2 4 9 3) [{ heldLoop 0x1004 0 9 (some { lastDivide .uw 2 4 1 1 with done := 3, born := 5 }) with target := 0x40#23 }]))
      (fun u => u.div == some { lastDivide .uw 2 4 9 3 with intact := false } && u.held.length == 1) = true
    ∧ ran (exec .retfie { returning (lastDivide .uw 2 4 9 3) [] with held := [] }) (fun u => u.sr.ra && u.div == none) = true := by
  unfold pop2Ok popOk ramAt stackOk; decide +kernel
/-- The state such a return leaves, as far as telling the loop needs it. -/
def returned : State := { dividing .uw 2 4 9 3 with w15 := 0x1000#16, pc := 0x20#23 }
/-- The loop whose words were popped goes on, though RCOUNT is now as another task's loop had it. -/
theorem witness_returns_here :
    heldHere returned (heldLoop 0x1000 0 5 (some (lastDivide .uw 2 4 9 3))) ∧ ¬heldHere returned (heldLoop 0x1800 17 9 none)
    ∧ ran (exec .retfie { returning (lastDivide .uw 2 4 9 3) [heldLoop 0x1800 17 9 none] with rcount := 17#16 })
      (fun u => u.div == some (lastDivide .uw 2 4 9 3) && u.held.length == 1) = true := by
  unfold heldHere fitsPopped; decide +kernel
/-- A handler has rewritten RCOUNT and left the registers: the newest loop of the place goes on with its result, though an older one
there that never returned has the RCOUNT that now stands (R302). A handler that leaves another W0 spoils it at this return. -/
theorem witness_returns_duty :
    ran (exec .retfie { returning (lastDivide .uw 2 4 9 3) [] with
        rcount := 17#16, held := (returning (lastDivide .uw 2 4 9 3) []).held ++ [heldLoop 0x1000 17 3 none] })
      (fun u => u.div == some (lastDivide .uw 2 4 9 3) && u.held == [heldLoop 0x1000 17 3 none]) = true
    ∧ ran (exec .retfie ((returning (lastDivide .uw 2 4 9 3) []).setW 0 5))
      (fun u => u.div == some { lastDivide .uw 2 4 9 3 with intact := false } && u.held == []) = true := by
  decide +kernel
/-- The words of the loop were moved: the one of the target that stands as it was left goes on with its result, whatever other loop
of the target never returned, older or newer; where none stands so, the newest, spoilt if its registers changed. -/
theorem witness_returns_moved :
    ¬heldHere returned (heldLoop 0x1800 0 5 none) ∧ fitsPopped returned (heldLoop 0x1800 0 5 none)
    ∧ standsAsLeft returned (heldLoop 0x1800 0 5 none) ∧ ¬standsAsLeft returned (heldLoop 0x1900 3 2 none)
    ∧ ran (exec .retfie { returning (lastDivide .uw 2 4 9 3) [] with
        held := [heldLoop 0x1800 0 5 (some (lastDivide .uw 2 4 9 3)), heldLoop 0x1900 3 2 none] })
      (fun u => u.div == some (lastDivide .uw 2 4 9 3) && u.held == [heldLoop 0x1900 3 2 none]) = true
    ∧ ran (exec .retfie { returning (lastDivide .uw 2 4 9 3) [] with
        held := [heldLoop 0x1900 3 9 none, heldLoop 0x1800 0 5 (some (lastDivide .uw 2 4 9 3))] })
      (fun u => u.div == some (lastDivide .uw 2 4 9 3) && u.held == [heldLoop 0x1900 3 9 none]) = true
    ∧ ran (exec .retfie (({ returning (lastDivide .uw 2 4 9 3) [] with
        held := [heldLoop 0x1800 0 5 (some (lastDivide .uw 2 4 9 3)), heldLoop 0x1900 3 2 none] } : State).setW 1 5))
      (fun u => u.div == some { lastDivide .uw 2 4 9 3 with intact := false }) = true := by
  refine ⟨fun h => absurd h.1 (by decide), ⟨rfl, fun _ => rfl⟩, ⟨rfl, nofun⟩, fun h => absurd h.1 (by decide), ?_⟩
  decide +kernel
/-- Without RA: a handler of this place has changed its stacked address, or nothing was stacked here or at the target. -/
theorem witness_returns_plain :
    ¬heldHere { returned with sr := State.reset.sr } { heldLoop 0x1000 0 5 none with target := 0x1E#23, loop := false }
    ∧ ran (exec .retfie (words [(0x1000, 0x20)] { returning (lastDivide .uw 2 4 9 3) [] with
        held := [{ heldLoop 0x1000 0 5 none with target := 0x1E#23, loop := false }] })) (fun u => u.held == []) = true
    ∧ ran (exec .retfie (words [(0x1000, 0x40)] { nested 4 State.reset with w15 := 0x1204#16 })) (fun u => u.held.length == 2) = true := by
  refine ⟨fun h => absurd h.2.1 (by decide), ?_⟩
  decide +kernel
/-- R301, R302: a handler that ends a loop whose divide is not completed, by clearing the stacked RA, spoils the older one. -/
theorem witness_returns_left : ran (exec .retfie (words [(0x1000, 0x20)] { State.reset with
      w15 := 0x1004#16
      held := [heldLoop 0x1000 0 9 (some { lastDivide .uw 2 4 1 1 with done := 3, born := 5, last := 8 }),
        heldLoop 0x1800 0 5 (some { lastDivide .uw 2 4 9 3 with last := 5 })] }))
    (fun u => u.held == [heldLoop 0x1800 0 5 (some { lastDivide .uw 2 4 9 3 with last := 5, intact := false })]) = true := by
  decide +kernel
theorem witness_entry_loop : ({ dividing .uw 2 4 9 3 with w15 := 0x1000#16 } : State).sr.ra = true
    ∧ dutyKept (lastDivide .uw 2 4 9 3) (dividing .uw 2 4 9 3) ∧ push2Ok (dividing .uw 2 4 9 3)
    ∧ ¬dutyKept (lastDivide .uw 2 4 9 3) ((dividing .uw 2 4 9 3).setW 0 5) ∧ push2Ok ((dividing .uw 2 4 9 3).setW 0 5) := by
  unfold dutyKept push2Ok pushOk ramAt stackOk; decide +kernel
theorem witness_repeat_end : (lastDivide .uw 2 4 9 3).done ≠ 18 ∧ ({ lastDivide .uw 2 4 9 3 with done := 18 } : DivRec).done = 18 := by decide
theorem witness_repeat_step : (dividing .uw 2 4 1 1).sr.ra = true ∧ (dividing .uw 2 4 1 1).cor.dl = 0#3
    ∧ noLoopEnd .nop 0#23 (dividing .uw 2 4 1 1) ∧ (dividing .uw 2 4 1 1).rcount = 0#16
    ∧ ({ dividing .uw 2 4 1 1 with rcount := 1#16 } : State).rcount ≠ 0#16 := ⟨rfl, rfl, .inl rfl, rfl, by decide⟩

/-- `REPEAT` running inside a `DO` loop. -/
def repeating (n : Word) : State :=
  { loopAt 0x204#23 1 5 with rcount := n, sr := { State.reset.sr with ra := true }, dostart := 0x100#22 }

theorem witness_repeat_inside : (repeating 1).sr.ra = true ∧ (repeating 1).cor.dl ≠ 0#3 ∧ (repeating 1).rcount ≠ 0#16
    ∧ checkAfter .nop (repeating 1) (repeating 1) = none ∧ (repeating 0).rcount = 0#16 ∧ noLoopEnd .nop 0x204#23 (repeating 0)
    ∧ checkAfter .nop (repeating 0) { repeating 0 with disicnt := 3#14 } = none :=
  ⟨rfl, by decide, by decide, by decide +kernel, rfl, .inr (.inl (by decide)), by decide +kernel⟩
theorem witness_do : (3#3 < 4#3) ∧ ¬(4#3 < 4#3) ∧ (0x7FFF#16).toNat = (0x7FFF#15).toNat
    ∧ (0#23 + 4#23 + BitVec.ofInt 23 (2 * (1#16).toInt) ≠ 0#23 + 4#23)
    ∧ (0#23 + 4#23 + BitVec.ofInt 23 (2 * (0xFFFD#16).toInt) ≠ 0#23) := by decide

theorem witness_plain : ¬flowControl .nop ∧ ¬returns .nop := by
  simp [flowControl, returns, branchOf]
theorem witness_do_end : (inLoop 4 1).sr.ra = false
    ∧ (inLoop 4 1).cor.dl ≠ 0#3 ∧ (inLoop 4 1).cor.dl.toNat ≤ 4 ∧ (inLoop 4 1).pc = (inLoop 4 1).doend ++ 0#1
    ∧ checkAfter .nop (inLoop 4 1) { inLoop 4 1 with disicnt := 1#14 } = none ∧ (inLoop 4 1).edtPending = false
    ∧ (inLoop 4 1).dcount ≠ 0#16 ∧ (inLoop 1 0).dcount = 0#16 ∧ (inLoop 1 0).cor.dl = 1#3 := by decide +kernel
theorem witness_do_edt : ({ inLoop 2 5 with edtPending := true } : State).edtPending = true ∧ (inLoop 2 5).sr.ra = false ∧ (inLoop 2 5).cor.dl ≠ 0#3
    ∧ (inLoop 2 5).pc = ({ inLoop 2 5 with edtPending := true } : State).doend ++ 0#1
    ∧ checkAfter .nop (inLoop 2 5) { inLoop 2 5 with edtPending := true } = none
    ∧ ran (conclude .nop (inLoop 2 5) (.next { inLoop 2 5 with edtPending := true })) (fun u => u.cor.dl == 1#3 && !u.edtPending) = true := by
  decide +kernel

theorem witness_system : (4 : Fin 5) ≤ Device.default.nAlt ∧ Device.default.nAlt.val < (5#3).toNat
    ∧ ((regs [(0, 0xFFFC)]).getW 0).toNat % 8 = 4 ∧ Device.default.nAlt.val < ((regs [(0, 0xFFFD)]).getW 0).toNat % 8
    ∧ Device.default.resetPc.getLsbD 0 = false := by decide +kernel

theorem witness_undecoded : nextRequest State.reset = none ∧ State.reset.pc.toNat / 2 < State.reset.dev.progWords
    ∧ twoWord (State.reset.prog.read 0) = false ∧ decode (State.reset.prog.read 0) 0#24 = .error .noRow := by decide +kernel

/-- `ULNK` as the target of `REPEAT`, and a write of IPL in a `DO` loop's instruction before the penultimate one. -/
def atUlnk : State := image 0 [0xFA8000] { State.reset with sr := { State.reset.sr with ra := true } }
def atIpl : State := image 0x206 [0x880210] { regs [(0, 0x20)] with pc := 0x206#23, doend := 0x105#22, cor := { State.reset.cor with dl := 1#3 } }

theorem witness_refused_before : nextRequest atUlnk = none ∧ fetches atUlnk .ulnk
    ∧ checkBefore .ulnk (beginStep atUlnk) = some .repeatTarget := by unfold fetches; decide +kernel
theorem witness_refused_after : nextRequest atIpl = none ∧ fetches atIpl (.movWnsF 0x21 0)
    ∧ checkBefore (.movWnsF 0x21 0) (beginStep atIpl) = none
    ∧ ran (exec (.movWnsF 0x21 0) (beginStep atIpl)) (fun t => checkAfter (.movWnsF 0x21 0) (beginStep atIpl) t == some .doIplChange) = true := by
  unfold fetches; decide +kernel
theorem witness_repeat_target : atUlnk.sr.ra = true ∧ repeatForbidden .ulnk :=
  ⟨rfl, .inr (.inr (.inr (.inr (.inr (.inr (.inl rfl))))))⟩
theorem witness_loop_tail : (inLoop 1 1).cor.dl ≠ 0#3 ∧ (inLoop 1 1).sr.ra = false ∧ (inLoop 1 1).pc = addrOf (inLoop 1 1).doend
    ∧ startsLoop (.repeatLit 0) ∧ (Instr.goto 0).words = 2 ∧ (loopAt 0x206#23 1 1).pc = addrOf (loopAt 0x206#23 1 1).doend - 4#23
    ∧ ¬repeatForbidden .nop :=
  ⟨by decide, rfl, by decide, .inl ⟨0, rfl⟩, rfl, by decide, by simp [repeatForbidden, flowControl, returns, startsLoop, branchOf]⟩
theorem witness_checked_after : (loopAt 0x206#23 1 1).cor.dl ≠ 0#3 ∧ (loopAt 0x206#23 1 1).pc = addrOf (loopAt 0x206#23 1 1).doend - 4#23
    ∧ (1#3) ≠ (loopAt 0x206#23 1 1).sr.ipl ∧ (loopAt 0x208#23 1 1).pc = addrOf (loopAt 0x208#23 1 1).dostart
    ∧ (loopAt 0x208#23 1 1).pc ≠ addrOf (loopAt 0x208#23 1 1).doend - 4#23
    ∧ ({ loopAt 0x208#23 1 1 with doend := 0x104#22 } : State).pc = addrOf (0x104#22)
    ∧ addrOf (0x104#22) = addrOf (loopAt 0x208#23 1 1).dostart ∧ (loopAt 0x208#23 1 1).trk.psvRd = false := by decide +kernel
theorem witness_repeat_before : State.reset.sr.ra = false ∧ State.reset.cor.dl = 0#3
    ∧ fetches { image 2 [0x060000] State.reset with pc := 0#23 + 2#23 } .ret ∧ repeatForbidden .ret
    ∧ (0x200#23 ≠ addrOf (loopAt 0x206#23 1 1).doend - 4#23) :=
  ⟨rfl, rfl, by unfold fetches; decide +kernel, .inr (.inl (.inl rfl)), by decide⟩
theorem witness_early_tail : atEarlyTail .nop (loopAt 0x206#23 1 1)
    ∧ atEarlyTail .nop { loopAt 0x206#23 2 1 with doend := 0x103#22, doStack := State.reset.doStack.set 0 ⟨0x100#22, 0x105#22, 1#16⟩ } :=
  ⟨⟨_, .inl rfl, .inl ⟨fun h => absurd h.2 (by decide +kernel), by decide⟩⟩,
    ⟨0x105#22, .inr ⟨0, by decide, rfl⟩, .inl ⟨fun h => absurd h.2 (by decide +kernel), by decide⟩⟩⟩
/-- R381: an instruction of two words before the penultimate one, and one of one word before a penultimate one of two. -/
theorem witness_early_tail_two : atEarlyTail (.call 0) (loopAt 0x204#23 1 1)
    ∧ atEarlyTail .nop (image 0x206 [0x040200] (loopAt 0x204#23 1 1)) :=
  ⟨⟨_, .inl rfl, .inl ⟨fun h => absurd h.2 (by decide +kernel), by decide⟩⟩,
    ⟨_, .inl rfl, .inr ⟨by unfold twoWordsAt; decide +kernel, by decide⟩⟩⟩
/-- R381: a two-word `CALL` before the penultimate instruction of the loop whose push onto SR changes IPL (SR mapped at W15). -/
theorem test_step_call_ipl : stops (step (image 0x2E4 [0x020300, 0x000000] { State.reset with
      pc := 0x2E4#23, w15 := 0x42#16, dostart := 0x170#22, doend := 0x175#22, cor := { State.reset.cor with dl := 1#3 } })) .doIplChange = true
    ∧ stops (step (image 0x2E4 [0x020300, 0x000000] { State.reset with
      pc := 0x2E4#23, w15 := 0x42#16, dostart := 0x170#22, doend := 0x177#22, cor := { State.reset.cor with dl := 1#3 } })) .doIplChange = false := by
  decide +kernel
theorem witness_modulo : ({ ptrs with modcon := 0x4000#16 } : State).isInit 8 = true
    ∧ ({ ptrs with modcon := 0x4000#16 } : State).modcon.getLsbD 14 = true ∧ prefetchReg 8 (.ptr false .zero) = some 8
    ∧ ptrs.cor.us ≠ 3#2 ∧ Mode.offset ≠ .direct := by decide +kernel
theorem witness_bit_reversed : ({ ptrs with xbrev := 0x8000#16, modcon := 0x0100#16 } : State).isInit 1 = true
    ∧ (0x0100#16).getLsbD 15 = false ∧ (0x0100#16).getLsbD 14 = false ∧ (0x8000#16).getLsbD 15 = true
    ∧ (0x0100#16).toNat / 256 % 16 = (1 : Reg).val := by decide +kernel
theorem witness_breaches : (regs [(0, 0)]).isInit 0 = true ∧ 128 ≤ (128#8).toNat ∧ State.reset.modcon = 0#16
    ∧ ({ State.reset.cor with us := 3#2 } : Corcon).us = 3#2 ∧ State.reset.cor.dl < 4#3
    ∧ (beginStep { State.reset with trk := ⟨false, false, false, true, false, false, false⟩ }).trk.splimPrev = true := by decide +kernel

end Sys2Proof.Tests
end

section
/-!
PROOFS. Bits and bytes as arithmetic: what the bit operations of the model do to the numbers words stand for.
-/

namespace Sys2Proof.Machine

/-- A value set before another is multiplied by the other's range. -/
theorem toNat_append_mul {n m : Nat} (x : BitVec n) (y : BitVec m) : (x ++ y).toNat = x.toNat * 2 ^ m + y.toNat := by
  rw [BitVec.toNat_append, ← Nat.shiftLeft_add_eq_or_of_lt y.isLt, Nat.shiftLeft_eq]

theorem toNat_extract {n : Nat} (x : BitVec n) (i m : Nat) : (x.extractLsb' i m).toNat = x.toNat / 2 ^ i % 2 ^ m := by
  rw [BitVec.extractLsb'_toNat, Nat.shiftRight_eq_div_pow]

theorem extract_eq_ofNat {m : Nat} (x : BitVec m) (i n : Nat) : x.extractLsb' i n = BitVec.ofNat n (x.toNat / 2 ^ i) := by
  apply BitVec.eq_of_toNat_eq
  rw [toNat_extract, BitVec.toNat_ofNat]

theorem bitAt_eq (k : Nat) (b : Bool) : bitAt k b = 2 ^ k * b.toNat := by cases b <;> simp [bitAt]

theorem word16_toNat (b15 b14 b13 b12 b11 b10 b9 b8 b7 b6 b5 b4 b3 b2 b1 b0 : Bool) :
    (word16 b15 b14 b13 b12 b11 b10 b9 b8 b7 b6 b5 b4 b3 b2 b1 b0).toNat =
      bitAt 15 b15 + bitAt 14 b14 + bitAt 13 b13 + bitAt 12 b12 + bitAt 11 b11 + bitAt 10 b10 + bitAt 9 b9 + bitAt 8 b8
        + bitAt 7 b7 + bitAt 6 b6 + bitAt 5 b5 + bitAt 4 b4 + bitAt 3 b3 + bitAt 2 b2 + bitAt 1 b1 + bitAt 0 b0 := by
  simp only [word16, toNat_append_mul, BitVec.toNat_ofBool, bitAt_eq]
  ring

/-- The lowest bit and those above it. -/
theorem getLsbD_append_ofBool {n : Nat} (x : BitVec n) (b : Bool) (i : Nat) :
    (x ++ BitVec.ofBool b).getLsbD i = if i = 0 then b else x.getLsbD (i - 1) := by
  rw [BitVec.getLsbD_append]
  cases i with
  | zero => cases b <;> rfl
  | succ j => simp

/-- The bits of a word, lowest first. -/
theorem word16_getLsbD (b15 b14 b13 b12 b11 b10 b9 b8 b7 b6 b5 b4 b3 b2 b1 b0 : Bool) (i : Nat) :
    (word16 b15 b14 b13 b12 b11 b10 b9 b8 b7 b6 b5 b4 b3 b2 b1 b0).getLsbD i =
      [b0, b1, b2, b3, b4, b5, b6, b7, b8, b9, b10, b11, b12, b13, b14, b15].getD i false := by
  have hd : ∀ (b : Bool) (l : List Bool) (i : Nat), (b :: l).getD i false = if i = 0 then b else l.getD (i - 1) false := by
    intro b l i
    cases i <;> rfl
  have h1 : ∀ (b : Bool) (i : Nat), (BitVec.ofBool b).getLsbD i = if i = 0 then b else false := by
    intro b i
    cases b <;> cases i <;> simp
  simp only [word16, getLsbD_append_ofBool, hd, h1, List.getD_nil]

/-- Three bits and two as numbers. -/
theorem bits3 : ∀ p : BitVec 3, p.toNat = 4 * (p[2]).toNat + 2 * (p[1]).toNat + (p[0]).toNat := by decide

theorem bits2 : ∀ p : BitVec 2, p.toNat = 2 * (p[1]).toNat + (p[0]).toNat := by decide

/-- A word is known by its number. -/
theorem eq_ofNat {n k : Nat} {x : BitVec n} (h : x.toNat = k) : x = BitVec.ofNat n k := by
  rw [← h, BitVec.ofNat_toNat, BitVec.setWidth_eq]

theorem loByte_toNat (v : Word) : (loByte v).toNat = v.toNat % 256 := by
  rw [loByte, BitVec.extractLsb'_toNat, Nat.shiftRight_zero]

theorem hiByte_toNat (v : Word) : (hiByte v).toNat = v.toNat / 256 := by
  have := v.isLt
  rw [hiByte, BitVec.extractLsb'_toNat, Nat.shiftRight_eq_div_pow, Nat.mod_eq_of_lt (by omega)]

theorem mkWord_toNat (hi lo : Byte) : (mkWord hi lo).toNat = hi.toNat * 256 + lo.toNat := toNat_append_mul hi lo

theorem loByte_mkWord (hi lo : Byte) : loByte (mkWord hi lo) = lo := by
  apply BitVec.eq_of_toNat_eq
  rw [loByte_toNat, mkWord_toNat]
  omega

theorem hiByte_mkWord (hi lo : Byte) : hiByte (mkWord hi lo) = hi := by
  apply BitVec.eq_of_toNat_eq
  rw [hiByte_toNat, mkWord_toNat]
  omega

/-- Bit 0 cleared is the largest even number not above (R27). -/
theorem clearBit0_eq (v : Word) : clearBit0 v = BitVec.ofNat 16 (v.toNat / 2 * 2) := by
  have h : clearBit0 v = v.extractLsb' 1 15 ++ 0#1 := by
    apply BitVec.eq_of_getLsbD_eq
    intro k hk
    interval_cases k <;> simp only [clearBit0, BitVec.getLsbD_and, BitVec.getLsbD_append] <;> simp
  apply eq_ofNat
  have := v.isLt
  rw [h, toNat_append_mul, toNat_extract, BitVec.toNat_ofNat]
  omega

/-- Clearing bit 0 of an even address changes nothing (R33). -/
theorem evenPc_of_even {a : PAddr} (h : a.getLsbD 0 = false) : evenPc a = a := by
  apply BitVec.eq_of_getLsbD_eq
  intro k hk
  rw [evenPc, BitVec.getLsbD_and]
  interval_cases k
  · rw [h]; rfl
  all_goals exact Bool.and_true _

/-- MODCON without its two unimplemented bits (R64). -/
theorem modcon_stored (m : Word) : m &&& 0xCFFF#16 = BitVec.ofNat 16 (m.toNat / 2 ^ 14 * 2 ^ 14 + m.toNat % 2 ^ 12) := by
  have h : m &&& 0xCFFF#16 = m.extractLsb' 14 2 ++ 0#2 ++ m.extractLsb' 0 12 := by
    apply BitVec.eq_of_getLsbD_eq
    intro k hk
    interval_cases k <;> simp only [BitVec.getLsbD_and, BitVec.getLsbD_append] <;> simp
  apply eq_ofNat
  have := m.isLt
  rw [h, toNat_append_mul, toNat_append_mul, toNat_extract, toNat_extract, BitVec.toNat_ofNat]
  omega

/-- MSTRPR has three bits (R68). -/
theorem mstrpr_stored (m : Word) :
    m &&& 0x0029#16 = BitVec.ofNat 16 (m.toNat / 32 % 2 * 32 + m.toNat / 8 % 2 * 8 + m.toNat % 2) := by
  have h : m &&& 0x0029#16 = 0#10 ++ m.extractLsb' 5 1 ++ 0#1 ++ m.extractLsb' 3 1 ++ 0#2 ++ m.extractLsb' 0 1 := by
    apply BitVec.eq_of_getLsbD_eq
    intro k hk
    interval_cases k <;> simp only [BitVec.getLsbD_and, BitVec.getLsbD_append] <;> simp
  apply eq_ofNat
  simp only [h, toNat_append_mul, toNat_extract, BitVec.toNat_ofNat]
  omega

/-- XMODEND and YMODEND have bit 0 set (R65). -/
theorem setBit0_eq (m : Word) : m ||| 1#16 = BitVec.ofNat 16 (m.toNat / 2 * 2 + 1) := by
  have h : m ||| 1#16 = m.extractLsb' 1 15 ++ 1#1 := by
    apply BitVec.eq_of_getLsbD_eq
    intro k hk
    interval_cases k <;> simp only [BitVec.getLsbD_or, BitVec.getLsbD_append] <;> simp
  apply eq_ofNat
  have := m.isLt
  rw [h, toNat_append_mul, toNat_extract, BitVec.toNat_ofNat]
  omega

end Sys2Proof.Machine
end

section
/-!
PROOFS. The invariant (R27, R33, R48, R54, R55, R64, R65, R68 and the canonical form of memory): one lemma per update, one per shared
operation, one per instruction, then the step.
-/

namespace Sys2Proof.Machine

variable {s t : State}

/-! ## Outcomes and partial results -/

/-- A next state, if the outcome is one, meets the invariant. -/
def OutInv (o : Out) : Prop := ∀ t, o = .next t → Inv t

/-- A partial result has the property, or the outcome that ends the instruction meets the invariant. -/
def Res.Ends {α : Type} (Q : α → State → Prop) : Res α → Prop
  | .val v s => Q v s
  | .stop o => OutInv o

/-- A partial result whose state meets the invariant. -/
abbrev Res.Keeps {α : Type} (r : Res α) : Prop := r.Ends fun _ s => Inv s

theorem OutInv.next (h : Inv s) : OutInv (.next s) := fun _ e => by cases e; exact h

theorem OutInv.refused (r : Refusal) : OutInv (.refused r) := fun _ e => by cases e

theorem OutInv.fault (r : Fault) : OutInv (.fault r) := fun _ e => by cases e

theorem refuse_ends {α : Type} {Q : α → State → Prop} (r : Refusal) : (refuse r : Res α).Ends Q := OutInv.refused r

theorem fault_ends {α : Type} {Q : α → State → Prop} (r : Fault) : (fault r : Res α).Ends Q := OutInv.fault r

theorem Res.Ends.bind {α β : Type} {r : Res α} {f : α → State → Res β} {Q : α → State → Prop} {Q' : β → State → Prop}
    (h : r.Ends Q) (hf : ∀ v s, Q v s → (f v s).Ends Q') : (r.bind f).Ends Q' := by
  cases r with
  | val v s => exact hf v s h
  | stop o => exact h

theorem Res.Ends.next {α : Type} {r : Res α} {f : α → State → State} {Q : α → State → Prop} (h : r.Ends Q)
    (hf : ∀ v s, Q v s → Inv (f v s)) : OutInv (r.next f) := by
  cases r with
  | val v s => exact OutInv.next (hf v s h)
  | stop o => exact h

/-! ## Bits that are fixed -/

theorem clearBit0_bit0 (v : Word) : (clearBit0 v).getLsbD 0 = false := by simp [clearBit0]

theorem evenPc_bit0 (a : PAddr) : (evenPc a).getLsbD 0 = false := by simp [evenPc]

theorem addrOf_bit0 (a : BitVec 22) : (addrOf a).getLsbD 0 = false := by
  rw [addrOf, BitVec.getLsbD_append]; rfl

theorem poppedPc_bit0 (hi lo : Word) : (poppedPc hi lo).getLsbD 0 = false := by
  rw [poppedPc, BitVec.getLsbD_append]; rfl

/-- The pc stays even when an even number is added (R33). -/
theorem add_even_bit0 {a : PAddr} (h : a.getLsbD 0 = false) (k : Nat) : (a + BitVec.ofNat 23 (2 * k)).getLsbD 0 = false := by
  rw [BitVec.getLsbD_add (by decide), h, BitVec.getLsbD_ofNat]
  simp

/-! ## The named updates -/

theorem Inv.setPc (h : Inv s) {a : PAddr} (ha : a.getLsbD 0 = false) : Inv (s.setPc a) := { h with pc := ha }
theorem Inv.advance (h : Inv s) {k : Nat} : Inv (s.advance k) := h.setPc (add_even_bit0 h.pc k)
theorem Inv.setSr (h : Inv s) {v : Status} : Inv (s.setSr v) := { h with }
theorem Inv.setCor (h : Inv s) {v : Corcon} (hd : v.dl.toNat ≤ 4) : Inv (s.setCor v) := { h with dl := hd }
theorem Inv.setBank (h : Inv s) {v : Vector WReg 75} : Inv (s.setBank v) := { h with }
theorem Inv.setW15 (h : Inv s) {v : Word} : Inv (s.setW15 (clearBit0 v)) := { h with w15 := clearBit0_bit0 v }
theorem Inv.setMem (h : Inv s) {m : Memory} (hm : m.wf = true) : Inv (s.setMem m) := { h with mem := hm }
theorem Inv.setPend (h : Inv s) {v : Pending} : Inv (s.setPend v) := { h with }
theorem Inv.setIntc (h : Inv s) {v : IntCon} : Inv (s.setIntc v) := { h with }
theorem Inv.setTrk (h : Inv s) {v : StepInfo} : Inv (s.setTrk v) := { h with }
theorem Inv.drawn (h : Inv s) : Inv s.drawn := { h with }
theorem Inv.setRcount (h : Inv s) {v : Word} : Inv (s.setRcount v) := { h with }
theorem Inv.setDisicnt (h : Inv s) {v : BitVec 14} : Inv (s.setDisicnt v) := { h with }
theorem Inv.setCctxi (h : Inv s) {k : Fin 5} (hk : k ≤ s.dev.nAlt) : Inv (s.setCctxi k) := { h with cctxi := hk }
theorem Inv.setDiv (h : Inv s) {d : Option DivRec} : Inv (s.setDiv d) := { h with }
theorem Inv.setHeld (h : Inv s) {l : List Interrupted} : Inv (s.setHeld l) := { h with }
theorem Inv.setActive (h : Inv s) {l : List Source} : Inv (s.setActive l) := { h with }
theorem Inv.setDo (h : Inv s) {c : Word} {a e : BitVec 22} : Inv (s.setDo c a e) := { h with }

theorem Inv.setAcc (h : Inv s) {x : Acc} {v : Acc40} : Inv (s.setAcc x v) := by
  cases x <;> exact { h with }

theorem Inv.setW (h : Inv s) {n : Reg} {v : Word} : Inv (s.setW n v) := by
  unfold State.setW
  split
  · exact h.setBank
  · exact h.setW15

theorem Inv.setWKeep (h : Inv s) {n : Reg} {v : Word} : Inv (s.setWKeep n v) := by
  unfold State.setWKeep
  split
  · exact h.setBank
  · exact h.setW15

theorem Inv.regWrite (h : Inv s) {z : Size} {n : Reg} {v : Word} : Inv (s.regWrite z n v) := by
  cases z
  · exact h.setW
  · exact h.setWKeep

theorem Inv.setFlags (h : Inv s) {o : AluOut} : Inv (s.setFlags o) := h.setSr
theorem Inv.setNZC (h : Inv s) {o : AluOut} : Inv (s.setNZC o) := h.setSr
theorem Inv.setNZ (h : Inv s) {o : AluOut} : Inv (s.setNZ o) := h.setSr
theorem Inv.setSfa (h : Inv s) {b : Bool} : Inv (s.setSfa b) := h.setCor h.dl
theorem Inv.setIpl (h : Inv s) {l : BitVec 4} : Inv (s.setIpl l) := h.setSr.setCor h.dl

/-- Settles O5. -/
theorem resetInv : Obligations.ResetInv where
  mem := rfl
  prog := rfl
  pc := rfl
  w15 := rfl
  splim := rfl
  dl := Nat.zero_le _
  cctxi := Fin.zero_le _
  mctxi := Fin.zero_le _
  modcon := BitVec.zero_and
  xmodsrt := rfl
  xmodend := show (1#16).getLsbD 0 = true by decide
  ymodsrt := rfl
  ymodend := show (1#16).getLsbD 0 = true by decide
  mstrpr := BitVec.zero_and

/-- A device reset gives the reset values; the device and the program stay (R480). -/
theorem Inv.deviceReset (h : Inv s) : Inv s.deviceReset :=
  { resetInv with prog := h.prog, pc := evenPc_bit0 _, cctxi := Fin.zero_le _, mctxi := Fin.zero_le _ }

/-- The end of a meaning whose instruction does not write the pc. -/
theorem done_inv {r : Res Unit} (h : r.Keeps) : OutInv r.done := h.next fun _ _ h => h.advance

theorem ite_inv {c : Prop} [Decidable c] {a b : State} (ha : Inv a) (hb : Inv b) : Inv (if c then a else b) := by
  split
  · exact ha
  · exact hb

/-! ## Special registers -/

theorem sfrRead_inv (h : Inv s) (r : Sfr) : Inv (sfrRead r s).2 := by
  cases r with
  | pcl | intcon1 | intcon3 => exact h.drawn
  | doendl | doendh =>
    simp only [sfrRead]
    split
    · exact h.drawn
    · exact h
  | _ => exact h

theorem writeSrHigh_inv (h : Inv s) (v : Word) : Inv (writeSrHigh v s) := by
  unfold writeSrHigh
  refine ite_inv (Inv.setSr ?_) (Inv.drawn (Inv.drawn (Inv.setSr ?_))) <;>
    exact ite_inv h.setSr (Inv.drawn (Inv.drawn (Inv.setSr h)))

theorem writeEdt_inv (h : Inv s) : Inv (writeEdt s) := ite_inv h (ite_inv { h with } { h with })

theorem writeCorHigh_inv (h : Inv s) (v : Word) : Inv (writeCorHigh v s) := by
  unfold writeCorHigh
  have h1 : Inv (s.setCor { s.cor with us := v.extractLsb' 12 2 }) := h.setCor h.dl
  split
  · exact writeEdt_inv h1
  · exact h1

theorem byLanes_inv {hi lo : State → State} (hh : ∀ s, Inv s → Inv (hi s)) (hl : ∀ s, Inv s → Inv (lo s)) (l : Lanes)
    (h : Inv s) : Inv (byLanes l hi lo s) := by
  cases l
  · exact hl _ (hh _ h)
  · exact hl _ h
  · exact hh _ h

/-- A data write keeps every register's fixed bits (R27, R48, R55, R64, R65, R68). -/
theorem sfrWrite_keeps (h : Inv s) (r : Sfr) (l : Lanes) (v : Word) : (sfrWrite r l v s).Keeps := by
  cases r with
  | w n =>
    cases l
    · exact h.setW
    · exact h.setWKeep
    · exact h.setWKeep
  | accL x | accH x | accU x => exact h.setAcc
  | splim => exact { h with splim := clearBit0_bit0 _ }
  | pcl | pch | disicnt => exact refuse_ends _
  | dostartl | dostarth | ctxtstat => exact h
  | sr => exact byLanes_inv (fun _ h => writeSrHigh_inv h v) (lo := writeSrLow v) (fun _ h => h.setSr) l h
  | corcon => exact byLanes_inv (fun _ h => writeCorHigh_inv h v) (lo := writeCorLow v) (fun _ h => h.setCor h.dl) l h
  | modcon => exact { h with modcon := by simp [BitVec.and_assoc] }
  | mstrpr => exact { h with mstrpr := by simp [BitVec.and_assoc] }
  | xmodsrt => exact { h with xmodsrt := clearBit0_bit0 _ }
  | ymodsrt => exact { h with ymodsrt := clearBit0_bit0 _ }
  | xmodend => exact { h with xmodend := by simp }
  | ymodend => exact { h with ymodend := by simp }
  | intcon1 => exact byLanes_inv (hi := writeIntcon1High v) (lo := writeIntcon1Low v) (fun _ h => h.setIntc) (fun _ h => h.setIntc) l h
  | intcon3 =>
    cases l
    · exact h.setIntc
    · exact h.setIntc
    · exact h
  | dsrpag | dswpag | rcount | dcount | doendl | doendh | xbrev | tblpag => exact { h with }

/-! ## Data accesses -/

/-- Memory lies within the 24 bits of data space (R94, R104). -/
theorem lt_of_placeOf_ram {d : Device} {a : Nat} (h : placeOf d a = .ram) : a < 2 ^ 24 := by
  have := d.edsEnd.isLt
  unfold placeOf at h
  split at h
  · split at h <;> cases h
  · split at h
    · omega
    · split at h
      · omega
      · cases h

theorem noPlace_ends {α : Type} {Q : α → State → Prop} (p : Place) : (noPlace p : Res α).Ends Q := by
  cases p
  case absent => exact fault_ends _
  all_goals exact refuse_ends _

theorem readDataWord_keeps (h : Inv s) (a : Nat) : (readDataWord a s).Keeps := by
  unfold readDataWord
  split
  · exact sfrRead_inv h _
  · exact h
  · exact noPlace_ends _
  · exact noPlace_ends _

theorem readDataByte_keeps (h : Inv s) (a : Nat) : (readDataByte a s).Keeps := by
  unfold readDataByte
  split
  · exact sfrRead_inv h _
  · exact h
  · exact noPlace_ends _

theorem writeDataWord_keeps (h : Inv s) (a : Nat) (v : Word) : (writeDataWord a v s).Keeps := by
  unfold writeDataWord
  split
  · exact sfrWrite_keeps h _ _ _
  · next hp => exact h.setMem (Memory.wf_writeWord h.mem (lt_of_placeOf_ram hp))
  · exact noPlace_ends _
  · exact noPlace_ends _

theorem writeDataByte_keeps (h : Inv s) (a : Nat) (v : Word) : (writeDataByte a v s).Keeps := by
  unfold writeDataByte
  split
  · exact sfrWrite_keeps h _ _ _
  · next hp => exact h.setMem (Memory.wf_write h.mem (lt_of_placeOf_ram hp))
  · exact noPlace_ends _

theorem progWord_keeps (h : Inv s) (k : Nat) : (progWord s k).Keeps := by
  unfold progWord
  split
  · exact h
  · exact fault_ends _

theorem readPsv_keeps (h : Inv s) (k : Nat) (u : Bool) (z : Size) (ea : Word) : (readPsv k u z ea s).Keeps :=
  (progWord_keeps h k).bind fun _ _ h => h.setTrk

theorem stackCheck_inv (h : Inv s) (b : Base) (ea : Word) (wr : Bool) : Inv (stackCheck b ea wr s) := by
  exact ite_inv h.setPend h

theorem readAt_keeps (h : Inv s) (b : Base) (z : Size) (ea : Word) (wr : Bool) : (readAt b z ea wr s).Keeps := by
  have h1 := stackCheck_inv h b ea wr
  unfold readAt
  simp only
  split
  · exact refuse_ends _
  · split
    · exact h1.drawn.setPend
    · split
      · exact h1.drawn.setPend
      · exact readPsv_keeps h1 _ _ _ _
      · cases z
        · exact readDataWord_keeps h1 _
        · exact readDataByte_keeps h1 _

theorem writeAt_keeps (h : Inv s) (b : Base) (z : Size) (ea : Word) (wr : Bool) (v : Word) : (writeAt b z ea wr v s).Keeps := by
  have h1 := stackCheck_inv h b ea wr
  unfold writeAt
  simp only
  split
  · exact h1.setPend
  · split
    · exact h1.setPend
    · cases z
      · exact writeDataWord_keeps (ite_inv (Inv.setTrk h1) h1) _ _
      · exact writeDataByte_keeps (ite_inv (Inv.setTrk h1) h1) _ _

/-! ## Operands -/

theorem pointerCheck_keeps (h : Inv s) (m : Mode) (z : Size) (n : Reg) : (pointerCheck m z n s).Keeps := by
  unfold pointerCheck
  split
  · exact OutInv.next h.deviceReset
  · split
    · exact refuse_ends _
    · split
      · exact refuse_ends _
      · exact h

theorem Inv.modifyPtr (h : Inv s) {m : Mode} {n : Reg} {k : Word} : Inv (modifyPtr m n k s) := by
  rcases modifyPtr_eq m n k s with e | ⟨v, e⟩ <;> rw [e]
  · exact h
  · exact h.setW

theorem readSrc_keeps (h : Inv s) (m : Mode) (z : Size) (n w : Reg) : (readSrc m z n w s).Keeps := by
  unfold readSrc
  split
  · exact h
  · refine (pointerCheck_keeps h m z n).bind fun _ s h => ?_
    simp only
    split
    · exact readAt_keeps h.modifyPtr _ _ _ _
    · exact (readAt_keeps h _ _ _ _).bind fun _ _ h => h.modifyPtr

theorem writeDst_keeps (h : Inv s) (m : Mode) (z : Size) (n w : Reg) (v : Word) : (writeDst m z n w v s).Keeps := by
  unfold writeDst
  split
  · exact h.regWrite
  · exact (pointerCheck_keeps h m z n).bind fun _ _ h => (writeAt_keeps h _ _ _ _ _).bind fun _ _ h => h.modifyPtr

theorem modifyOperand_keeps (h : Inv s) (m : Mode) (z : Size) (n : Reg) (f : Word → Word) : (modifyOperand m z n f s).Keeps := by
  unfold modifyOperand
  split
  · exact h.regWrite
  · exact (pointerCheck_keeps h m z n).bind fun _ _ h => (readAt_keeps h _ _ _ _).bind fun _ _ h =>
      (writeAt_keeps h _ _ _ _ _).bind fun _ _ h => h.modifyPtr

theorem readSrcD_keeps (h : Inv s) (m : Mode6) (n : Reg) : (readSrcD m n s).Keeps := by
  unfold readSrcD
  simp only
  split
  · exact h
  · refine (pointerCheck_keeps h _ _ _).bind fun _ s h => ?_
    split
    · exact (readAt_keeps h.modifyPtr _ _ _ _).bind fun _ _ h => (readAt_keeps h _ _ _ _).bind fun _ _ h => h
    · exact (readAt_keeps h _ _ _ _).bind fun _ _ h => (readAt_keeps h _ _ _ _).bind fun _ _ h => h.modifyPtr

theorem writeDstD_keeps (h : Inv s) (m : Mode6) (n : Reg) (lo hi : Word) : (writeDstD m n lo hi s).Keeps := by
  unfold writeDstD
  simp only
  split
  · exact h.setW.setW
  · exact (pointerCheck_keeps h _ _ _).bind fun _ _ h => (writeAt_keeps h _ _ _ _ _).bind fun _ _ h =>
      (writeAt_keeps h _ _ _ _ _).bind fun _ _ h => h.modifyPtr

theorem readFile_keeps (h : Inv s) (z : Size) (f : Word) : (readFile z f s).Keeps := readAt_keeps h _ _ _ _

theorem writeFile_keeps (h : Inv s) (z : Size) (f v : Word) : (writeFile z f v s).Keeps := writeAt_keeps h _ _ _ _ _

theorem writeFileDest_keeps (h : Inv s) (b : Size) (t : FDest) (f v : Word) : (writeFileDest b t f v s).Keeps := by
  cases t
  · exact h.regWrite
  · exact writeFile_keeps h _ _ _

/-! ## The stack, calls and returns -/

theorem push_keeps (h : Inv s) (v : Word) : (push v s).Keeps := (writeAt_keeps h _ _ _ _ _).bind fun _ _ h => h.setW

theorem pop_keeps (h : Inv s) : (pop s).Keeps := readAt_keeps h.setW _ _ _ _

theorem pushPcCall_keeps (h : Inv s) (ret : PAddr) : (pushPcCall ret s).Keeps :=
  (push_keeps h _).bind fun _ _ h => (push_keeps h _).bind fun _ _ h => h.setSfa

/-- The popped address is even (R33, R173). -/
theorem popPc_ends (h : Inv s) : (popPc s).Ends fun a t => a.getLsbD 0 = false ∧ Inv t :=
  (pop_keeps h).bind fun _ _ h => (pop_keeps h).bind fun _ _ h => ⟨poppedPc_bit0 _ _, h.setSfa⟩

theorem callTo_inv (h : Inv s) (ret target : PAddr) : OutInv (callTo ret target s) :=
  (pushPcCall_keeps h ret).next fun _ _ h => h.setPc (evenPc_bit0 _)

theorem returnFrom_inv (h : Inv s) : OutInv (returnFrom s) := (popPc_ends h).next fun _ _ h => h.2.setPc h.1

/-! ## Exceptions -/

theorem contextsAt_le {d : Device} {l : BitVec 4} {n : Fin 5} (h : n ∈ contextsAt d l) : n ≤ d.nAlt := by
  obtain ⟨p, hp, rfl⟩ := List.mem_map.1 h
  have hq := (List.mem_filter.1 hp).2
  simp only [Bool.and_eq_true, decide_eq_true_eq] at hq
  exact hq.1.2

theorem selectContext_keeps (h : Inv s) (l : BitVec 4) {other : Fin 5} (ho : other ≤ s.dev.nAlt) :
    (selectContext l other s).Keeps := by
  unfold selectContext
  split
  · exact h.setCctxi ho
  · next n e => exact h.setCctxi (contextsAt_le (l := l) (by rw [e]; exact List.mem_singleton.2 rfl))
  · exact refuse_ends _

theorem noMatchContext_le (h : Inv s) : noMatchContext s ≤ s.dev.nAlt := by
  unfold noMatchContext
  split
  · exact h.cctxi
  · exact Fin.zero_le _

theorem vectorOf_ends (h : Inv s) (src : Source) : (vectorOf src s).Ends fun a t => a.getLsbD 0 = false ∧ Inv t := by
  unfold vectorOf
  split
  · exact ⟨evenPc_bit0 _, h⟩
  · exact (progWord_keeps h _).bind fun _ _ h => ⟨evenPc_bit0 _, h⟩

theorem hold_inv (h : Inv s) : Inv (hold s) := h.setHeld.setDiv

theorem takeException_inv (h : Inv s) (r : Request) : OutInv (takeException r s) := by
  refine Res.Ends.next (Q := fun a t => a.getLsbD 0 = false ∧ Inv t)
    ((push_keeps (hold_inv h) _).bind fun _ _ h => (push_keeps h _).bind fun _ s2 h => ?_)
    fun _ _ h => h.2.setPend.setActive.setPc h.1
  have h3 : Inv (((s2.setSr { s2.sr with ra := false }).setSfa false).setIpl (entryLevel s2 r.level)) :=
    Inv.setIpl (Inv.setSfa (Inv.setSr h))
  exact (selectContext_keeps (other := noMatchContext s2) h3 _ (noMatchContext_le h)).bind fun _ _ h => vectorOf_ends h _

theorem endInterruption_inv (h : Inv s) : Inv (endInterruption s) := by
  obtain ⟨d, l, e, -⟩ := endInterruption_eq s
  rw [e]
  exact h.setHeld.setDiv

theorem restoreFrom_inv (h : Inv s) (hi lo : Word) : Inv (restoreFrom hi lo s) :=
  { h with pc := poppedPc_bit0 hi lo }

theorem returnFromException_inv (h : Inv s) : OutInv (returnFromException s) :=
  Res.Ends.next
    ((pop_keeps h).bind fun hi _ h => (pop_keeps h).bind fun lo _ h =>
      have h3 := restoreFrom_inv h hi lo
      selectContext_keeps (Inv.setPend (Inv.setActive h3)) _ h3.mctxi)
    fun _ _ h => endInterruption_inv h

/-! ## Divides -/

theorem writeResult_inv (h : Inv s) (q r : Word) : Inv (writeResult q r s) := h.setW.setW

theorem freeResult_inv (h : Inv s) : Inv (freeResult s) := (writeResult_inv h _ _).drawn.drawn

theorem freeFlags_inv (h : Inv s) : Inv (freeFlags s) := h.setSr.drawn.drawn.drawn.drawn

theorem resultFlags_inv (h : Inv s) (k : DivKind) (rem : Word) (ov : Bool) : Inv (resultFlags k rem ov s) := h.setSr.drawn

theorem divideResult_inv (h : Inv s) (r : DivRec) : Inv (divideResult r s) := by
  have ht := freeResult_inv h
  unfold divideResult
  simp only
  split
  · exact freeFlags_inv ht
  · split
    · exact resultFlags_inv ht.drawn _ _ _
    · split
      · exact resultFlags_inv ht _ _ _
      · exact resultFlags_inv (writeResult_inv h _ _) _ _ _

theorem checkDivisor_inv (h : Inv s) (n : Reg) : Inv (checkDivisor n s) := ite_inv (Inv.setPend (Inv.setIntc h)) h

theorem iterate_inv (h : Inv s) (r : DivRec) : Inv (iterate r s) := by
  unfold iterate
  simp only
  split
  · exact (freeFlags_inv (freeResult_inv h)).setDiv
  · exact (divideResult_inv h _).setDiv

theorem leaveDiv_inv (h : Inv s) : Inv (leaveDiv s) := by
  obtain ⟨l, e, -⟩ := leaveDiv_eq s
  rw [e]
  exact h.setHeld

theorem divideStep_inv (h : Inv s) (k : DivKind) (m n : Reg) : Inv (divideStep k m n s) := by
  unfold divideStep
  split
  · split
    · exact iterate_inv (checkDivisor_inv h n) _
    · split
      · exact iterate_inv h _
      · exact iterate_inv (checkDivisor_inv (leaveDiv_inv h) n) _
  · exact (freeFlags_inv (freeResult_inv (checkDivisor_inv h n))).setHeld

/-! ## The multiplies and the DSP engine -/

theorem Inv.writePair (h : Inv s) {d : Reg} {p : BitVec 32} : Inv (writePair d p s) := h.setW.setW

theorem mulTo_inv (h : Inv s) (x : MulSign) (w d : Reg) (m : Mode) (r : Reg) : OutInv (mulTo x w d m r s) :=
  done_inv ((readSrc_keeps h m .word r r).bind fun _ _ h => h.writePair)

theorem mulwTo_inv (h : Inv s) (x : MulSign) (w d : Reg) (p : Mode6) (r : Reg) : OutInv (mulwTo x w d p r s) :=
  done_inv ((readSrc_keeps h _ .word r r).bind fun _ _ h => h.setW)

theorem mulwSrc_inv (h : Inv s) (x : MulSign) (w d : Reg) (y : MulSrc) (r : Reg) : OutInv (mulwSrc x w d y r s) := by
  cases y
  · exact mulwTo_inv h _ _ _ _ _
  · exact OutInv.next h.setW.advance

theorem Inv.setAccStatus (h : Inv s) {x : Acc} {o st : Bool} : Inv (s.setAccStatus x o st) := by
  cases x <;> exact h.setSr

theorem Inv.raiseOverflow (h : Inv s) {x : Acc} : Inv (raiseOverflow x s) := by
  cases x <;> exact h.setIntc.setPend

theorem Inv.raiseCatastrophic (h : Inv s) {x : Acc} : Inv (raiseCatastrophic x s) := by
  cases x <;> exact h.setIntc.setPend

theorem Inv.accUpdate (h : Inv s) {x : Acc} {v : Int} : Inv (accUpdate x v s) := by
  unfold Machine.accUpdate
  have h1 : Inv ((s.setAcc x (accStored (satOf s x) s.cor.accsat v)).setAccStatus x (accOver (satOf s x) s.cor.accsat v)
    (accSticky (satOf s x) s.cor.accsat v)) := h.setAcc.setAccStatus
  exact ite_inv (Inv.raiseCatastrophic (ite_inv h1.raiseOverflow h1)) (ite_inv h1.raiseOverflow h1)

theorem multiply_keeps (h : Inv s) (m n : DReg) : (multiply m n s).Keeps := by
  unfold multiply
  split
  · exact h
  · exact refuse_ends _

theorem prefetchCheck_keeps (h : Inv s) (first : Reg) (i : Prefetch) : (prefetchCheck first i s).Keeps := by
  unfold prefetchCheck
  split
  · exact h
  · exact pointerCheck_keeps h _ _ _

theorem readX_keeps (h : Inv s) (i : Prefetch) : (readX i s).Keeps := by
  unfold readX
  split
  · exact h
  · exact (readAt_keeps h _ _ _ _).bind fun _ _ h => h

theorem readY_keeps (h : Inv s) (j : Prefetch) : (readY j s).Keeps := by
  unfold readY
  split
  · exact h
  · simp only
    split
    · exact refuse_ends _
    · split
      · exact h.drawn.setPend
      · exact h

theorem loadReg_inv (h : Inv s) (r : DReg) (v : Option Word) : Inv (loadReg r v s) := by
  cases v
  · exact h
  · exact h.setW

theorem loadPrefetch_inv (h : Inv s) (x y : DReg) (vx vy : Option Word) : Inv (loadPrefetch x y vx vy s) := by
  have h1 := loadReg_inv (loadReg_inv h x vx) y vy
  unfold loadPrefetch
  split
  · split
    · exact h.setW.drawn
    · exact h1
  · exact h1

theorem stepPointer_inv (h : Inv s) (first : Reg) (i : Prefetch) : Inv (stepPointer first i s) := by
  unfold stepPointer
  split
  · simp only
    split
    · exact h
    · exact h.setW
  · exact h

theorem writeBackOpt_keeps (h : Inv s) (wb : Option WriteBack) (a : Acc) : (writeBackOpt wb a s).Keeps :=
  match wb with
  | none => h
  | some .w13 => h.setW
  | some .w13Inc => writeDst_keeps h .postInc .word 13 13 _

theorem writeBackCheck_keeps (h : Inv s) (wb : Option WriteBack) : (writeBackCheck wb s).Keeps := by
  unfold writeBackCheck
  split
  · exact pointerCheck_keeps h _ _ _
  · exact h

theorem dspFetch_keeps (h : Inv s) (m n : DReg) (i j : Prefetch) (wb : Option WriteBack) : (dspFetch m n i j wb s).Keeps :=
  (multiply_keeps h m n).bind fun _ _ h => (prefetchCheck_keeps h _ _).bind fun _ _ h => (prefetchCheck_keeps h _ _).bind fun _ _ h =>
    (writeBackCheck_keeps h wb).bind fun _ _ h => (readX_keeps h i).bind fun _ _ h => (readY_keeps h j).bind fun _ _ h => h

theorem multiplyClass_inv (h : Inv s) (m n : DReg) (a : Acc) (f : Int → Int → Int) (x y : DReg) (i j : Prefetch)
    (wb : Option WriteBack) : OutInv (multiplyClass m n a f x y i j wb s) :=
  done_inv ((dspFetch_keeps h m n i j wb).bind fun _ _ h => (writeBackOpt_keeps h.accUpdate wb a).bind fun _ _ h =>
    stepPointer_inv (stepPointer_inv (loadPrefetch_inv h _ _ _ _) _ _) _ _)

theorem distanceClass_inv (h : Inv s) (m : DReg) (a : Acc) (f : Int → Int → Int) (x : DReg) (i j : Prefetch) :
    OutInv (distanceClass m a f x i j s) :=
  done_inv ((dspFetch_keeps h m m i j none).bind fun _ _ h =>
    stepPointer_inv (stepPointer_inv (loadReg_inv h.accUpdate _ _) _ _) _ _)

theorem shiftAcc_inv (h : Inv s) (a : Acc) (k : Int) : Inv (shiftAcc a k s) := ite_inv (Inv.setPend (Inv.setIntc h)) h.accUpdate

/-! ## The other shared meanings -/


theorem addTo_keeps (h : Inv s) (b : Size) (x y : Word) (q : Mode6) (d : Reg) : (addTo b x y q d s).Keeps :=
  writeDst_keeps h.setFlags _ _ _ _ _

theorem shiftTo_inv (h : Inv s) (f : Size → Word → AluOut) (b : Size) (q : Mode6) (d : Reg) (p : Mode6) (r : Reg) :
    OutInv (shiftTo f b q d p r s) :=
  done_inv ((readSrc_keeps h _ b r r).bind fun _ _ h => writeDst_keeps h.setNZC _ _ _ _ _)

theorem shiftFile_inv (h : Inv s) (f : Size → Word → AluOut) (b : Size) (t : FDest) (a : BitVec 13) :
    OutInv (shiftFile f b t a s) :=
  done_inv ((readFile_keeps h b _).bind fun _ _ h => writeFileDest_keeps h.setNZC _ _ _ _)

theorem shiftReg_inv (h : Inv s) (r : Word) (d : Reg) : OutInv (shiftReg r d s) := OutInv.next h.setNZ.setW.advance

theorem branchIf_inv (h : Inv s) (c : Bool) (n : Word) : OutInv (branchIf c n s) :=
  OutInv.next (ite_inv (h.setPc (evenPc_bit0 _)) h.advance)

theorem tableWord_keeps (h : Inv s) (b : Size) (p : Mode6) (r : Reg) : (tableWord b p r s).Keeps := by
  unfold tableWord
  split
  · exact refuse_ends _
  · refine (pointerCheck_keeps h _ _ _).bind fun _ s h => ?_
    simp only
    split
    · exact refuse_ends _
    · split
      · exact refuse_ends _
      · exact (progWord_keeps h _).bind fun _ _ h => (stackCheck_inv h _ _ _).modifyPtr.setTrk

theorem contextNo_le {d : Device} {k : BitVec 3} {c : Fin 5} (h : contextNo d k = some c) : c ≤ d.nAlt := by
  unfold contextNo at h
  split at h
  · split at h
    · next hk => cases h; exact hk
    · cases h
  · cases h

theorem switchContext_inv (h : Inv s) (k : BitVec 3) : OutInv (switchContext k s) := by
  unfold switchContext
  split
  · exact OutInv.refused _
  · next c hc =>
    have hs : Inv { s with cctxi := c, mctxi := c } := { h with cctxi := contextNo_le hc, mctxi := contextNo_le hc }
    exact OutInv.next hs.advance

/-! ## Loops -/

theorem repeatWith_inv (h : Inv s) (k : Word) : OutInv (repeatWith k s) :=
  OutInv.next (Inv.advance (ite_inv h.setRcount (Inv.setDiv (Inv.setSr h.setRcount))))

theorem saveLoop_eq (s : State) : ∃ v, saveLoop s = { s with doStack := v } := by
  unfold saveLoop
  split <;> exact ⟨_, rfl⟩

theorem restoreLoop_eq (t : State) : ∃ c a e, restoreLoop t = t.setDo c a e := by
  unfold restoreLoop
  split <;> exact ⟨_, _, _, rfl⟩

theorem doWith_inv (h : Inv s) (count n : Word) : OutInv (doWith count n s) := by
  unfold doWith
  split
  · exact OutInv.next h.setIntc.setPend.setTrk.advance
  · next hd =>
    simp only
    split
    · exact OutInv.refused _
    · obtain ⟨v, e⟩ := saveLoop_eq s
      have h1 : Inv (saveLoop s) := by rw [e]; exact { h with }
      have hdl : (saveLoop s).cor.dl = s.cor.dl := by rw [e]
      refine OutInv.next (h1.setDo.setCor ?_).setTrk.advance
      simp only [State.setDo_cor, hdl]
      bv_omega

theorem repeatEnd_inv (hs : Inv s) (ht : Inv t) : Inv (repeatEnd s t) :=
  ite_inv (ite_inv (Inv.setSr (Inv.setDiv (leaveDiv_inv ht))) (ht.setRcount.setPc hs.pc)) ht

theorem doEnd_inv (ht : Inv t) {a : PAddr} (ha : a.getLsbD 0 = false) : Inv (doEnd a t) := by
  unfold doEnd
  split
  · next hd =>
    split
    · obtain ⟨c, b, e, he⟩ := restoreLoop_eq t
      simp only [he]
      have h1 : Inv { t.setDo c b e with edtPending := false, edtLate := false } := { ht with }
      refine (h1.setCor ?_).setPc (add_even_bit0 ha 1)
      have := ht.dl
      have := hd.1
      simp only [State.setDo_cor]
      bv_omega
    · exact { ht with pc := addrOf_bit0 _ }
  · exact ht

theorem disiCount_inv (h : Inv t) (i : Instr) : Inv (disiCount i t) := ite_inv h h.setDisicnt

theorem finishStep_inv (hs : Inv s) (ht : Inv t) (i : Instr) : Inv (finishStep i s t) := by
  have h1 := repeatEnd_inv hs ht
  exact disiCount_inv (ite_inv h1 (doEnd_inv h1 hs.pc)) i

/-! ## Every instruction -/

/-- Every instruction keeps the invariant. -/
theorem exec_inv (h : Inv s) (i : Instr) : OutInv (exec i s) := by
  cases i with
  | nop => exact OutInv.next h.advance
  | callWn | call | rcall | callLWn | rcallWn => exact callTo_inv h _ _
  | goto => exact OutInv.next (h.setPc (addrOf_bit0 _))
  | retlw => exact returnFrom_inv h.regWrite
  | ret => exact returnFrom_inv h
  | retfie => exact returnFromException_inv h
  | doLit | doWn => exact doWith_inv h _ _
  | repeatLit | repeatWn => exact repeatWith_inv h _
  | braOA | braOB | braSA | braSB | braOV | braC | braZ | braN | braLE | braLT | braLEU | bra | braNOV | braNC | braNZ | braNN
  | braGT | braGE | braGTU => exact branchIf_inv h _ _
  | movLit16 => exact OutInv.next h.setW.advance
  | movbLit8 => exact OutInv.next h.setWKeep.advance
  | addWbWsWd | addWbWsWdPre => exact done_inv ((readSrc_keeps h _ _ _ _).bind fun _ _ h => addTo_keeps h _ _ _ _ _)
  | addWbLit5 => exact done_inv (addTo_keeps h _ _ _ _ _)
  | addLit10 => exact OutInv.next h.setFlags.regWrite.advance
  | addF => exact done_inv ((readFile_keeps h _ _).bind fun _ _ h => writeFileDest_keeps h.setFlags _ _ _ _)
  | movWsWd => exact done_inv ((readSrc_keeps h _ _ _ _).bind fun _ _ h => writeDst_keeps h _ _ _ _ _)
  | movFWnd => exact done_inv ((readFile_keeps h _ _).bind fun _ _ h => h.setW)
  | movWnsF | movWregF => exact done_inv (writeFile_keeps h _ _ _)
  | movF => exact done_inv ((readFile_keeps h _ _).bind fun _ _ h => writeFileDest_keeps h.setNZ _ _ _ _)
  | movDLoad => exact done_inv ((readSrcD_keeps h _ _).bind fun _ _ h => h.setW.setW)
  | movDStore => exact done_inv (writeDstD_keeps h _ _ _ _)
  | bsetWs => exact done_inv (modifyOperand_keeps h _ _ _ _)
  | btscWs => exact (readSrc_keeps h _ _ _ _).next fun _ _ h => h.advance
  | bsetF => exact done_inv ((readFile_keeps h _ _).bind fun _ _ h => writeFile_keeps h _ _ _)
  | btscF => exact (readFile_keeps h _ _).next fun _ _ h => h.advance
  | mulUU | mulUUPre | mulUS | mulSU | mulSUPre | mulSS => exact mulTo_inv h _ _ _ _ _
  | mulUULit5 | mulSULit5 => exact OutInv.next h.writePair.advance
  | mulF b =>
    refine done_inv ((readFile_keeps h _ _).bind fun _ _ h => ?_)
    cases b
    · exact h.writePair
    · exact h.setW
  | mulwUU | mulwSU => exact mulwSrc_inv h _ _ _ _ _
  | mulwUS | mulwSS => exact mulwTo_inv h _ _ _ _ _
  | mulAcc => exact done_inv ((readSrc_keeps h _ _ _ _).bind fun _ _ h => h.setAcc)
  | tblrdl | tblrdh => exact done_inv ((tableWord_keeps h _ _ _).bind fun _ _ h => writeDst_keeps h _ _ _ _ _)
  | mac | macNoWb | mpy | msc | mscNoWb | mpyN | macSq | mpySq => exact multiplyClass_inv h _ _ _ _ _ _ _ _ _
  | ed | edac => exact distanceClass_inv h _ _ _ _ _ _
  | sftacWb | sftacLit => exact OutInv.next (shiftAcc_inv h _ _).advance
  | addWsoAcc | lac => exact done_inv ((readSrc_keeps h _ _ _ _).bind fun _ _ h => h.accUpdate)
  | addAcc => exact OutInv.next h.accUpdate.advance
  | sac | sacR => exact done_inv (writeDst_keeps h _ _ _ _ _)
  | slWsWd | lsrWsWd | asrWsWd => exact shiftTo_inv h _ _ _ _ _ _
  | slF | lsrF | asrF => exact shiftFile_inv h _ _ _ _
  | slWns | slLit4 | lsrWns | lsrLit4 | asrWns | asrLit4 => exact shiftReg_inv h _ _
  | divS | divU | divF => exact OutInv.next (divideStep_inv h _ _ _).advance
  | lnk =>
    have h0 : Inv (if s.cor.sfa then s.raiseStack else s) := ite_inv h.setPend h
    exact done_inv ((push_keeps h0 _).bind fun _ _ h => h.setW.setW.setSfa)
  | ulnk =>
    have h0 : Inv (if s.cor.sfa then s else s.raiseStack) := ite_inv h h.setPend
    exact done_inv ((pop_keeps h0.setW).bind fun _ _ h => h.setW.setSfa)
  | se | ze => exact done_inv ((readSrc_keeps h _ _ _ _).bind fun _ _ h => h.setNZC.setW)
  | disi => exact OutInv.next h.setDisicnt.advance
  | reset => exact OutInv.next h.deviceReset
  | popS => exact OutInv.next h.setW.setW.setW.setW.setSr.advance
  | pushS => exact OutInv.next { h with pc := add_even_bit0 h.pc 1 }
  | ctxtswpLit | ctxtswpWn => exact switchContext_inv h _
  | compareSkip => exact OutInv.next h.drawn.advance
  | tblwtl | tblwth | pwrsav | bootswp | trap | fex | sstep | urun => exact OutInv.refused _

/-! ## The step -/

/-- What a step does after its instruction keeps the invariant. -/
theorem conclude_inv (h : Inv s) (i : Instr) {o : Out} (ho : OutInv o) : OutInv (conclude i s o) := by
  unfold conclude
  split
  · split
    · exact OutInv.refused _
    · exact OutInv.next (finishStep_inv h (ho _ rfl) i)
  · exact OutInv.fault _
  · exact OutInv.refused _

/-- A fetch that fails gives no next state. -/
theorem fetchDecode_error {o : Out} (h : fetchDecode s = .error o) : OutInv o := by
  unfold fetchDecode at h
  split at h
  · cases h; exact OutInv.fault _
  · split at h
    · split at h
      · cases h; exact OutInv.fault _
      · split at h <;> cases h
        exact OutInv.refused _
    · split at h <;> cases h
      exact OutInv.refused _

theorem step_inv (h : Inv s) : OutInv (step s) := by
  unfold step
  split
  · exact takeException_inv h _
  · split
    · next e => exact fetchDecode_error e
    · split
      · exact OutInv.refused _
      · have hb : Inv (beginStep s) := h.setTrk
        exact conclude_inv hb _ (exec_inv hb _)

/-- Settles O4: each update, each shared operation and so each instruction keeps the invariant, and what a step does around it too. -/
theorem stepKeepsInv : Obligations.StepKeepsInv := fun _ t h e => step_inv h t e

end Sys2Proof.Machine
end

section
/-!
PROOFS. Moves through registers and ordinary memory, the address arithmetic of the operand forms (R142), the pointers that stop a move
(R29, R109), a store onto the pointer itself (R25), and the shadows (R30).
-/

namespace Sys2Proof.Machine

variable {s : State}

/-! ## Addresses as arithmetic -/

theorem lt_15_iff {n : Reg} : n.val < 15 ↔ n ≠ 15 := by
  rw [ne_eq, Fin.ext_iff]
  have := n.isLt
  show n.val < 15 ↔ ¬n.val = 15
  omega

/-- What a register holds after a word write of `v` (R27). -/
theorem getW_setW_asReg (s : State) (n : Reg) (v : Word) : (s.setW n v).getW n = asReg n v := by
  rw [State.getW_setW_self, asReg]
  simp only [lt_15_iff, ite_not]

/-- W15 holds even values only, every other register any (R27). -/
theorem asReg_eq (n : Reg) (v : Word) : asReg n v = if n = 15 then BitVec.ofNat 16 (v.toNat / 2 * 2) else v := by
  rw [asReg, clearBit0_eq]

/-! ## Moves with ordinary operands -/

/-- `MOV` with ordinary operands stores the source value and modifies both pointers (R161). -/
theorem exec_movWsWd {w : Reg} {b : Size} {h : Mode} {d : Reg} {g : Mode} {r : Reg} (hs : srcOk g b r w s)
    (hd : dstOk h b d w (srcNext g b r s)) :
    exec (.movWsWd w b h d g r) s = .next ((dstNext h b d w (srcValue g b r w s) (srcNext g b r s)).advance 1) := by
  show ((readSrc g b r w s).bind fun v s => writeDst h b d w v s).done = _
  rw [readSrc_ok hs, Res.bind_val, writeDst_ok hd, Res.done_val]

/-- Settles O11: the ordinary operands' own lemmas, and the equation of each form. -/
theorem movResult : Obligations.MovResult := by
  refine ⟨fun w b h d g r s hs hd => ⟨exec_movWsWd hs hd, ?_, ?_⟩, ⟨rfl, rfl⟩, fun n w k s => ?_⟩
  · refine (((Frame.srcNext g b r s).trans (Frame.dstNext h b d w _ _)).trans (Frame.advance _ 1)).mono ?_ ?_
    · rintro x (hx | hx)
      · exact hx
      · exact hx.elim
    · rintro a ((ha | ha) | ha)
      · exact ha.elim
      · exact ha
      · exact ha.elim
  · simp
  · simp only [← asReg_eq]
    refine ⟨?_, rfl, rfl, rfl, ?_, ?_, ?_, fun m => ⟨Frame.modifyPtr m n k s, modifyPtr_sr m n k s⟩⟩
    · rintro m (rfl | rfl | rfl) <;> rfl
    · rintro m (rfl | rfl) <;> exact getW_setW_asReg s n _
    · rintro m (rfl | rfl) <;> exact getW_setW_asReg s n _
    · rintro m (rfl | rfl | rfl) <;> rfl

/-! ## Pointers that stop an instruction -/

theorem pointerCheck_uninit {m : Mode} {z : Size} {n : Reg} (h : s.isInit n = false) :
    pointerCheck m z n s = .stop (.next s.deviceReset) := by
  simp [pointerCheck, h]

theorem readSrc_stop {m : Mode} {z : Size} {n w : Reg} {o : Out} (hm : m ≠ .direct) (h : pointerCheck m z n s = .stop o) :
    readSrc m z n w s = .stop o := by
  rw [readSrc, if_neg hm, h, Res.bind_stop]

theorem writeDst_stop {m : Mode} {z : Size} {n w : Reg} {v : Word} {o : Out} (hm : m ≠ .direct)
    (h : pointerCheck m z n s = .stop o) : writeDst m z n w v s = .stop o := by
  rw [writeDst, if_neg hm, h, Res.bind_stop]

/-- What stops at the pointer stops the load and the store through it. -/
theorem exec_mov_stop {m : Mode} {b : Size} {r : Reg} {o : Out} (hm : m ≠ .direct) (h : pointerCheck m b r s = .stop o)
    (w d : Reg) : exec (.movWsWd w b .direct d m r) s = o ∧ exec (.movWsWd w b m r .direct d) s = o := by
  constructor
  · show ((readSrc m b r w s).bind fun v s => writeDst .direct b d w v s).done = o
    rw [readSrc_stop hm h, Res.bind_stop, Res.done_stop]
  · show ((Res.val (s.regRead b d) s).bind fun v s => writeDst m b r w v s).done = o
    rw [Res.bind_val, writeDst_stop hm h, Res.done_stop]

/-- Settles O19. -/
theorem uninitialisedPointerResets : Obligations.UninitialisedPointerResets :=
  fun w _ _ d _ _ hm h => exec_mov_stop hm (pointerCheck_uninit h) w d

/-! ## Special registers in data space -/

theorem pointerCheck_pass {m : Mode} {z : Size} {n : Reg} (hi : s.isInit n = true) (h15 : s.modcon.getLsbD 15 = false)
    (h14 : s.modcon.getLsbD 14 = false) (hb : bitReversedApplies s m z n = false) : pointerCheck m z n s = .val () s := by
  rw [pointerCheck, hi, h15, h14, hb]
  rfl

/-- W0 to W15 stand at 0x0000 to 0x001F (R24). -/
theorem placeOf_reg (d : Device) (n : Reg) : placeOf d (2 * n.val) = .sfr (.w n) := by
  have hn := n.isLt
  have h2 : 2 * n.val / 2 * 2 = 2 * n.val := by omega
  have h1 : sfrAt d (2 * n.val / 2 * 2) = some (.w n) := by
    rw [sfrAt, if_pos (by omega), h2, Nat.mul_div_cancel_left _ (by decide), Fin.ofNat_eq_cast, Fin.cast_val_eq_self]
  rw [placeOf, if_pos (by omega), h1]

/-- A write at a flat, aligned address that meets no stack check: the mark of a write of DOEND (R497), then the data write. -/
theorem writeAt_flat {b : Base} {z : Size} {ea v : Word} {wr : Bool} (hb : b.formedFrom 15 = false) (he : misaligned z ea = false)
    (hp : isPaged s b ea = false) : writeAt b z ea wr v s =
      (if z = .word then writeDataWord else writeDataByte) ea.toNat v
        (if isDoendFile s.dev b ea then s.setTrk { s.trk with doendWr := true } else s) := by
  have hs : stackCheck b ea wr s = s := stackCheck_ok fun h => by rw [hb] at h; cases h
  unfold writeAt
  simp only [hs, he, Bool.false_eq_true, if_false, writeTarget_flat hp]
  cases z <;> rfl

theorem writeDataWord_sfr {a : Nat} {v : Word} {x : Sfr} (hx : placeOf s.dev a = .sfr x) :
    writeDataWord a v s = sfrWrite x .both v s := by
  rw [writeDataWord, hx]

theorem writeDataByte_sfr {a : Nat} {v : Word} {x : Sfr} (hx : placeOf s.dev a = .sfr x) :
    writeDataByte a v s = sfrWrite x (if a % 2 = 0 then .low else .high) (mkWord (loByte v) (loByte v)) s := by
  rw [writeDataByte, hx]

theorem State.setW_setW (s : State) (n : Reg) (v v' : Word) : (s.setW n v).setW n v' = s.setW n v' := by
  by_cases h : n.val < 15
  · simp only [State.setW, h, dite_true, State.putReg, State.setBank, Vector.set_set]
  · simp only [State.setW, h, dite_false, State.setW15]

/-- Settles O17: the write is that of the register itself, and the step is then applied to what it holds (R25). -/
theorem storeOntoPointer : Obligations.StoreOntoPointer := by
  intro w n r s hn hr hi h15 h14 hb ha
  refine ⟨?_, ?_, ?_⟩
  · have hnat : (s.getW n).toNat = 2 * n.val := by rw [ha, BitVec.toNat_ofNat, Nat.mod_eq_of_lt (by omega)]
    have heven : (s.getW n).getLsbD 0 = false := by simp [BitVec.getLsbD, hnat]
    have hflat : isPaged s (baseOf .postInc n w) (s.getW n) = false := by
      simp only [isPaged, BitVec.msb_eq_decide, hnat]
      rw [decide_eq_false (by omega)]
      rfl
    have hbase : (baseOf .postInc n w).formedFrom 15 = false := by
      rw [Bool.eq_false_iff, ne_eq, baseOf_formedFrom]
      simp [lt_15_iff.1 hn]
    have hw : writeAt (baseOf .postInc n w) .word (s.getW n) false (s.getW r) s = .val () (s.setW n (s.getW r)) := by
      rw [writeAt_flat (z := .word) hbase heven hflat]
      exact writeDataWord_sfr (x := .w n) (by rw [hnat]; exact placeOf_reg s.dev n)
    show (writeDst .postInc .word n w (s.getW r) s).done = _
    rw [writeDst, if_neg (by decide), pointerCheck_pass hi h15 h14 hb]
    simp only [Res.bind_val, effAddr, effWraps, hw]
    simp only [modifyPtr, stepOf, State.getW_setW_self, hn, if_true, State.setW_setW, Res.done_val]
  · exact ((Frame.setW s n _).trans (Frame.advance _ 1)).mono (fun x hx => hx.elim id False.elim) fun a ha => ha.elim id id
  · simp

/-! ## The shadows -/

/-- The state `POP.S` leaves (R184). -/
def popSNext (s : State) : State :=
  ((((((s.setW 0 s.shadow.w0).setW 1 s.shadow.w1).setW 2 s.shadow.w2).setW 3 s.shadow.w3).setSr
    { s.sr with dc := s.shadow.dc, n := s.shadow.n, ov := s.shadow.ov, z := s.shadow.z, c := s.shadow.c }).advance 1)

theorem exec_popS (s : State) : exec .popS s = .next (popSNext s) := by
  show execPopS s = _
  simp [execPopS, popSNext]

theorem popSNext_frame (s : State) : Frame (fun x => x.val < 4) noBytes s (popSNext s) := by
  refine ((((((Frame.setW s 0 _).trans (Frame.setW _ 1 _)).trans (Frame.setW _ 2 _)).trans (Frame.setW _ 3 _)).trans
    (Frame.setSr _ _)).trans (Frame.advance _ 1)).mono ?_ ?_
  · rintro x (((((rfl | rfl) | rfl) | rfl) | h) | h)
    · decide
    · decide
    · decide
    · decide
    · exact h.elim
    · exact h.elim
  · rintro a (((((h | h) | h) | h) | h) | h) <;> exact h

theorem State.isInit_advance (s : State) (k : Nat) (n : Reg) : (s.advance k).isInit n = s.isInit n := rfl

/-- Settles O24. -/
theorem shadows : Obligations.Shadows := by
  refine fun s => ⟨rfl, popSNext s, ⟨exec_popS s, popSNext_frame s, rfl⟩, ?_, ?_, ?_, ?_, ?_, ?_, ?_, ?_, ?_⟩ <;>
    simp [popSNext, State.getW_setW_ne, State.isInit_setW_self, State.isInit_setW_ne, State.isInit_advance, State.advance_pc]

end Sys2Proof.Machine
end

section
/-!
PROOFS. The flags of an addition (R202, R203), the start of a `DO` loop (R371, R375), and the system instructions (R331, R402 to R407)
with the reset state (R480).
-/

namespace Sys2Proof.Machine

variable {s : State}

/-! ## The flags of an addition -/

section
variable {k : Nat} (a b : BitVec k)

/-- C is the carry out of the top bit. -/
theorem addBits_c_iff : (addBits a b).c = true ↔ 2 ^ k ≤ a.toNat + b.toNat := decide_eq_true_iff

/-- DC is the carry out of the lower half. -/
theorem addBits_dc_iff :
    (addBits a b).dc = true ↔ 2 ^ (k / 2) ≤ a.toNat % 2 ^ (k / 2) + b.toNat % 2 ^ (k / 2) := decide_eq_true_iff

theorem addBits_z_iff : (addBits a b).z = true ↔ (a.toNat + b.toNat) % 2 ^ k = 0 := by
  rw [addBits, beq_iff_eq, ← BitVec.toNat_inj, BitVec.toNat_add, BitVec.toNat_ofNat, Nat.zero_mod]

theorem addBits_n_iff : (addBits a b).n = true ↔ 2 ^ (k - 1) ≤ (a.toNat + b.toNat) % 2 ^ k := by
  rw [addBits, BitVec.msb_eq_decide, decide_eq_true_iff, BitVec.toNat_add]

/-- OV says that the signed sum does not fit. -/
theorem addBits_ov_iff :
    (addBits a b).ov = true ↔ a.toInt + b.toInt < -2 ^ (k - 1) ∨ 2 ^ (k - 1) ≤ a.toInt + b.toInt := by
  have h : (addBits a b).ov = a.saddOverflow b := (BitVec.saddOverflow_eq a b).symm
  rw [h, BitVec.saddOverflow, Bool.or_eq_true, decide_eq_true_iff, decide_eq_true_iff, or_comm]

end

/-- Settles O27: in both sizes the flags are those of `addBits` at the width of the operation. -/
theorem addFlags : Obligations.AddFlags := by
  refine fun a b => ⟨⟨?_, rfl, addBits_z_iff a b, addBits_c_iff a b, addBits_dc_iff a b, ?_⟩, ?_, ?_, ?_, ?_, ?_, ?_⟩
  · exact BitVec.setWidth_eq _
  · refine (addBits_ov_iff a b).trans ?_
    norm_num
    omega
  · show ((loByte a + loByte b).setWidth 16).toNat = _
    rw [BitVec.toNat_setWidth, BitVec.toNat_add, loByte_toNat, loByte_toNat]
    omega
  · refine (addBits_n_iff (loByte a) (loByte b)).trans ?_
    rw [loByte_toNat, loByte_toNat]
    omega
  · refine (addBits_z_iff (loByte a) (loByte b)).trans ?_
    rw [loByte_toNat, loByte_toNat]
    omega
  · refine (addBits_c_iff (loByte a) (loByte b)).trans ?_
    rw [loByte_toNat, loByte_toNat]
    rfl
  · refine (addBits_dc_iff (loByte a) (loByte b)).trans ?_
    rw [loByte_toNat, loByte_toNat]
    omega
  · refine (addBits_ov_iff (loByte a) (loByte b)).trans ?_
    norm_num
    omega

/-! ## The start of a `DO` loop -/

/-- An entry stacked at a place. -/
theorem doStack_set (s : State) (l : Nat) (hl : l < 3) (k : Fin 3) :
    (s.doStack.set l s.doEntry)[k] = if l + 1 = k.val + 1 then ⟨s.dostart, s.doend, s.dcount⟩ else s.doStack[k] := by
  rw [Fin.getElem_fin, Vector.getElem_set]
  simp only [Nat.add_right_cancel_iff]
  rfl

/-- The running loop goes to the entry of its level, and to no other (R63, R371). -/
theorem saveLoop_spec (s : State) : ∃ v : Vector DoEntry 3, saveLoop s = { s with doStack := v }
    ∧ ∀ k : Fin 3, v[k] = if s.cor.dl.toNat = k.val + 1 then ⟨s.dostart, s.doend, s.dcount⟩ else s.doStack[k] := by
  unfold saveLoop
  split
  · next h => exact ⟨_, rfl, fun k => by rw [h]; exact doStack_set s 0 _ k⟩
  · next h => exact ⟨_, rfl, fun k => by rw [h]; exact doStack_set s 1 _ k⟩
  · next h => exact ⟨_, rfl, fun k => by rw [h]; exact doStack_set s 2 _ k⟩
  · next h1 h2 h3 =>
    refine ⟨s.doStack, rfl, fun k => ?_⟩
    rw [if_neg]
    intro h
    fin_cases k
    · exact h1 h
    · exact h2 h
    · exact h3 h

theorem doWith_full {count n : Word} (h : 4#3 ≤ s.cor.dl) :
    doWith count n s = .next ((raiseDoOvr s).markDo.advance 2) := by
  rw [doWith, if_pos h]

theorem shortLoop_iff (a e : PAddr) : shortLoop a e = true ↔ e = a ∨ e = a - 2#23 ∨ e = a - 4#23 := decide_eq_true_iff

theorem doWith_short {count n : Word} (h : s.cor.dl < 4#3) (hl : shortLoop (s.pc + 4#23) (loopEnd (s.pc + 4#23) n) = true) :
    doWith count n s = .refused .doLength := by
  rw [doWith, if_neg (BitVec.not_le.2 h)]
  simp only [hl, if_true]

theorem doWith_starts {count n : Word} (h : s.cor.dl < 4#3)
    (hl : shortLoop (s.pc + 4#23) (loopEnd (s.pc + 4#23) n) = false) :
    ∃ v : Vector DoEntry 3,
      doWith count n s = .next { s with
        dcount := count, dostart := bitsOf (s.pc + 4#23), doend := bitsOf (loopEnd (s.pc + 4#23) n)
        cor := { s.cor with dl := s.cor.dl + 1#3 }, doStack := v, trk := { s.trk with doWr := true }, pc := s.pc + 4#23 }
      ∧ ∀ k : Fin 3, v[k] = if s.cor.dl.toNat = k.val + 1 then ⟨s.dostart, s.doend, s.dcount⟩ else s.doStack[k] := by
  obtain ⟨v, e, hv⟩ := saveLoop_spec s
  refine ⟨v, ?_, hv⟩
  rw [doWith, if_neg (BitVec.not_le.2 h)]
  simp only [hl, e, Bool.false_eq_true, if_false]
  rfl

/-- Both forms of `DO` are one meaning with a count (R371, R372). -/
theorem exec_do {i : Instr} {count n : Word} (h : (∃ k : BitVec 15, i = .doLit k n ∧ count.toNat = k.toNat)
    ∨ (∃ r, i = .doWn r n ∧ count = s.getW r &&& s.dev.doWnMask)) : exec i s = doWith count n s := by
  obtain ⟨k, rfl, hk⟩ | ⟨r, rfl, rfl⟩ := h
  · have : count = k.setWidth 16 := BitVec.eq_of_toNat_eq (by rw [hk, BitVec.toNat_setWidth, Nat.mod_eq_of_lt (by omega)])
    rw [this]
    rfl
  · rfl

/-- Settles O56. -/
theorem doStarts : Obligations.DoStarts := by
  intro i count n s hi
  rw [exec_do hi]
  refine ⟨fun hd e he h0 h2 h4 => ?_, fun hd => doWith_full hd⟩
  have hl : shortLoop (s.pc + 4#23) (loopEnd (s.pc + 4#23) n) = false := by
    rw [loopEnd, ← he, Bool.eq_false_iff, ne_eq, shortLoop_iff]
    bv_omega
  obtain ⟨v, ht, hv⟩ := doWith_starts (count := count) hd hl
  rw [loopEnd, ← he] at ht
  exact ⟨_, ht, rfl, hv⟩

/-! ## Contexts and reset -/

theorem contextNo_of_le {d : Device} {c : Fin 5} (h : c ≤ d.nAlt) {k : BitVec 3} (hk : k.toNat = c.val) : contextNo d k = some c := by
  rw [contextNo, dif_pos (by omega), if_pos (by rw [hk]; exact h)]
  simp only [hk]

theorem contextNo_of_lt {d : Device} {k : BitVec 3} (h : d.nAlt.val < k.toNat) : contextNo d k = none := by
  unfold contextNo
  split
  · rw [if_neg (by omega)]
  · rfl

theorem switchContext_ok {c : Fin 5} (h : c ≤ s.dev.nAlt) {k : BitVec 3} (hk : k.toNat = c.val) :
    switchContext k s = .next { s with cctxi := c, mctxi := c, pc := s.pc + 2#23 } := by
  rw [switchContext, contextNo_of_le h hk]
  rfl

theorem switchContext_absent {k : BitVec 3} (h : s.dev.nAlt.val < k.toNat) : switchContext k s = .refused .contextAbsent := by
  rw [switchContext, contextNo_of_lt h]

/-- Every register of every context is zero and uninitialised after a reset (R29, R72). -/
theorem deviceReset_bankReg (s : State) (c : Fin 5) (n : Reg) (h : n.val < 15) : s.deviceReset.bankReg c n h = ⟨0#16, false⟩ := by
  simp [State.bankReg, State.deviceReset, State.reset]

theorem deviceReset_getW (s : State) (n : Reg) : s.deviceReset.getW n = if n = 15 then 0x1000#16 else 0#16 := by
  unfold State.getW
  split
  · next h => rw [deviceReset_bankReg, if_neg (lt_15_iff.1 h)]
  · next h => rw [if_pos (not_not.1 (mt lt_15_iff.2 h))]; rfl

theorem deviceReset_isInit (s : State) (n : Reg) : s.deviceReset.isInit n = decide (n = 15) := by
  unfold State.isInit
  split
  · next h => rw [deviceReset_bankReg, decide_eq_false (lt_15_iff.1 h)]
  · next h => rw [decide_eq_true (not_not.1 (mt lt_15_iff.2 h))]

theorem deviceReset_srWord (s : State) : s.deviceReset.srWord = 0#16 := by
  show State.reset.srWord = 0#16
  decide

theorem deviceReset_corconWord (s : State) : s.deviceReset.corconWord = 0x0020#16 := by
  show State.reset.corconWord = 0x0020#16
  decide

theorem deviceReset_ctxtstatWord (s : State) : s.deviceReset.ctxtstatWord = 0#16 := by
  show State.reset.ctxtstatWord = 0#16
  decide

/-- Settles O58. -/
theorem systemInstructions : Obligations.SystemInstructions := by
  intro s
  have low3 : ∀ v : Word, (v.setWidth 3 : BitVec 3).toNat = v.toNat % 8 := fun v => BitVec.toNat_setWidth ..
  refine ⟨?switches, fun k hk => switchContext_absent hk, ?absent, fun k => rfl, ?resets, s.freeBit, ?skips⟩
  case switches =>
    refine fun k hk => ⟨switchContext_ok hk ?_, fun r hr => switchContext_ok hk ?_⟩
    · rw [BitVec.toNat_ofNat, Nat.mod_eq_of_lt (by omega)]
    · rw [low3, hr]
  case absent =>
    refine fun r hr => switchContext_absent ?_
    rw [low3]
    exact hr
  case resets =>
    exact ⟨rfl, deviceReset_getW s, deviceReset_isInit s, deviceReset_bankReg s, rfl, rfl, rfl, deviceReset_srWord s,
      deviceReset_corconWord s, deviceReset_ctxtstatWord s, rfl, rfl, rfl, rfl, rfl, rfl, rfl, rfl, rfl, rfl, rfl, rfl, rfl, rfl,
      evenPc_of_even⟩
  case skips =>
    show Host.Outcome.next (skipIf s.freeBit s.drawn) = _
    cases s.freeBit <;> rfl

end Sys2Proof.Machine
end

section
/-!
PROOFS. The special registers at their data addresses (R24 to R69, R74, R96): the bits of a word as arithmetic, what a read gives, what a
word and a byte write do, and the rules of SR (R44) and CORCON (R53).
-/

namespace Sys2Proof.Machine

variable {s : State}

/-! ## What the registers hold -/

theorem srWord_eq (s : State) : s.srWord = sfrWord .sr s := by
  apply eq_ofNat
  simp only [State.srWord, State.da, word16_toNat, bitAt_eq, bits3 s.sr.ipl]
  ring

theorem corconWord_eq (s : State) : s.corconWord = sfrWord .corcon s := by
  apply eq_ofNat
  simp only [State.corconWord, word16_toNat, bitAt_eq, bits3 s.cor.dl, bits2 s.cor.us, Bool.toNat_false]
  ring

theorem addrLow_eq (a : BitVec 22) : addrLow a = BitVec.ofNat 16 (2 * a.toNat) := by
  apply BitVec.eq_of_toNat_eq
  rw [addrLow, toNat_append_mul, BitVec.toNat_setWidth, BitVec.toNat_ofNat, BitVec.toNat_ofNat]
  omega

theorem addrHigh_eq (a : BitVec 22) : addrHigh a = BitVec.ofNat 16 (2 * a.toNat / 65536) := by
  apply eq_ofNat
  have := a.isLt
  rw [addrHigh, BitVec.toNat_setWidth, toNat_extract]
  omega

theorem accH_eq (a : Acc40) : a.extractLsb' 16 16 = BitVec.ofNat 16 (a.toNat / 2 ^ 16) := extract_eq_ofNat a 16 16

/-- The upper byte, sign-extended, is the signed quotient (R32). -/
theorem accU_eq (a : Acc40) : (a.extractLsb' 32 8).signExtend 16 = BitVec.ofInt 16 (a.toInt / 2 ^ 32) := by
  have := a.isLt
  rw [BitVec.signExtend]
  congr 1
  rw [BitVec.toInt_eq_toNat_cond, BitVec.toInt_eq_toNat_cond, toNat_extract]
  split <;> split <;> omega

theorem pch_eq (a : PAddr) : (a.extractLsb' 16 7).setWidth 16 = BitVec.ofNat 16 (a.toNat / 65536) := by
  apply eq_ofNat
  have := a.isLt
  rw [BitVec.toNat_setWidth, toNat_extract]
  omega

theorem ctxtstatWord_eq (s : State) : s.ctxtstatWord = sfrWord .ctxtstat s := by
  rw [State.ctxtstatWord, sfrWord, Nat.mul_comm]

theorem intcon1_eq (i : IntCon) : intcon1Word i 0#16 = BitVec.ofNat 16 (bitAt 15 i.nstdis + bitAt 14 i.ovaerr + bitAt 13 i.ovberr
    + bitAt 12 i.covaerr + bitAt 11 i.covberr + bitAt 10 i.ovate + bitAt 9 i.ovbte + bitAt 8 i.covte + bitAt 7 i.sftacerr
    + bitAt 6 i.div0err) := by
  apply eq_ofNat
  simp [intcon1Word, word16_toNat, bitAt]

theorem intcon3_eq (i : IntCon) : intcon3Word i 0#16 = BitVec.ofNat 16 (bitAt 4 i.doOvr) := by
  apply eq_ofNat
  simp [intcon3Word, word16_toNat, bitAt]

/-- Where no bit is open, a read gives the register and changes nothing (R101). -/
theorem sfrRead_closed {x : Sfr} (h : openBits x s = 0#16) : sfrRead x s = (sfrWord x s, s) := by
  cases x with
  | pcl | intcon1 | intcon3 => exact absurd h (by simp [openBits])
  | doendl =>
    have ho : s.trk.doendOpen = false := by simpa [openBits] using h
    simp only [sfrRead, ho, addrLow_eq]
    rfl
  | doendh =>
    have ho : s.trk.doendOpen = false := by simpa [openBits] using h
    simp only [sfrRead, ho, addrHigh_eq]
    rfl
  | accL a | dsrpag | dswpag | disicnt | tblpag => simp only [sfrRead, sfrWord, BitVec.ofNat_toNat]
  | accH a => simp only [sfrRead, sfrWord, accH_eq]
  | accU a => simp only [sfrRead, sfrWord, accU_eq]
  | pch => simp only [sfrRead, sfrWord, pch_eq]
  | dostartl => simp only [sfrRead, sfrWord, addrLow_eq]
  | dostarth => simp only [sfrRead, sfrWord, addrHigh_eq]
  | sr => simp only [sfrRead, srWord_eq]
  | corcon => simp only [sfrRead, corconWord_eq]
  | ctxtstat => simp only [sfrRead, ctxtstatWord_eq]
  | w | splim | rcount | dcount | modcon | xmodsrt | xmodend | ymodsrt | ymodend | xbrev | mstrpr => rfl

/-- Where bits are open, a read draws one free value and gives the others (R34, R427, R497). -/
theorem sfrRead_open {x : Sfr} (h : openBits x s ≠ 0#16) :
    ∃ v : Word, v &&& ~~~openBits x s = sfrWord x s &&& ~~~openBits x s ∧ sfrRead x s = (v, s.drawn) := by
  cases x with
  | pcl => exact ⟨_, by simp [openBits, sfrWord, clearBit0, BitVec.and_assoc], rfl⟩
  | intcon1 =>
    refine ⟨_, ?_, rfl⟩
    rw [sfrWord, ← intcon1_eq, BitVec.and_comm, BitVec.and_comm (intcon1Word _ _)]
    apply BitVec.eq_of_getLsbD_eq
    intro k hk
    interval_cases k <;> simp only [BitVec.getLsbD_and, openBits, intcon1Word, word16_getLsbD] <;> rfl
  | intcon3 =>
    refine ⟨_, ?_, rfl⟩
    rw [sfrWord, ← intcon3_eq, BitVec.and_comm, BitVec.and_comm (intcon3Word _ _)]
    apply BitVec.eq_of_getLsbD_eq
    intro k hk
    interval_cases k <;> simp only [BitVec.getLsbD_and, openBits, intcon3Word, word16_getLsbD] <;> rfl
  | doendl =>
    by_cases ho : s.trk.doendOpen = true
    · exact ⟨s.freeWord, by simp [openBits, ho], by simp only [sfrRead, ho, if_true]⟩
    · exact absurd (if_neg ho) h
  | doendh =>
    by_cases ho : s.trk.doendOpen = true
    · exact ⟨s.freeWord, by simp [openBits, ho], by simp only [sfrRead, ho, if_true]⟩
    · exact absurd (if_neg ho) h
  | _ => exact absurd rfl h

/-! ## What a write does -/

/-- The bytes a byte write reaches: the high one at an odd address (R96). -/
def laneOf (odd : Bool) : Lanes := if odd then .high else .low

/-- The byte written, in both halves. -/
theorem mergeLanes_byte (odd : Bool) (old : Word) (b : Byte) :
    mergeLanes (laneOf odd) old (mkWord b b) = withByte odd old b.toNat := by
  apply eq_ofNat
  cases odd
  · show (mkWord (hiByte old) (loByte (mkWord b b))).toNat = old.toNat / 256 * 256 + b.toNat
    rw [loByte_mkWord, mkWord_toNat, hiByte_toNat]
  · show (mkWord (hiByte (mkWord b b)) (loByte old)).toNat = b.toNat * 256 + old.toNat % 256
    rw [hiByte_mkWord, mkWord_toNat, loByte_toNat]

/-- Each bit of a write comes from the value in the bytes it reaches, else from the register. -/
theorem mergeLanes_getLsbD (l : Lanes) (old v : Word) {i : Nat} (hi : i < 16) :
    (mergeLanes l old v).getLsbD i =
      if l = .both ∨ (l = .low ∧ i < 8) ∨ (l = .high ∧ 8 ≤ i) then v.getLsbD i else old.getLsbD i := by
  have hm : ∀ a b : Word, (mkWord (hiByte a) (loByte b)).getLsbD i = if i < 8 then b.getLsbD i else a.getLsbD i := by
    intro a b
    rw [mkWord, BitVec.getLsbD_append, hiByte, loByte, BitVec.getLsbD_extractLsb', BitVec.getLsbD_extractLsb']
    by_cases h : i < 8
    · simp [h]
    · simp [h, show i - 8 < 8 by omega, show 8 + (i - 8) = i by omega]
  cases l
  · rfl
  · rw [mergeLanes, hm]; simp
  · rw [mergeLanes, hm]
    by_cases h : i < 8
    · simp [h]
    · simp [h, Nat.le_of_not_lt h]

/-- The parts of an accumulator that a write of its low word, high word or upper byte replaces (R32). -/
theorem accL_stored (a : Acc40) (m : Word) : a.extractLsb' 16 24 ++ m = BitVec.ofNat 40 (a.toNat / 2 ^ 16 * 2 ^ 16 + m.toNat) := by
  apply eq_ofNat
  have := a.isLt
  rw [toNat_append_mul, toNat_extract]
  omega

theorem accH_stored (a : Acc40) (m : Word) : (a.extractLsb' 32 8 ++ m) ++ (a.setWidth 16 : Word) =
    BitVec.ofNat 40 (a.toNat / 2 ^ 32 * 2 ^ 32 + m.toNat * 2 ^ 16 + a.toNat % 2 ^ 16) := by
  apply eq_ofNat
  have := a.isLt
  rw [toNat_append_mul, toNat_append_mul, toNat_extract, BitVec.toNat_setWidth]
  omega

theorem accU_stored (a : Acc40) (m : Word) : m.extractLsb' 0 8 ++ (a.setWidth 32 : BitVec 32) =
    BitVec.ofNat 40 (m.toNat % 256 * 2 ^ 32 + a.toNat % 2 ^ 32) := by
  apply eq_ofNat
  rw [toNat_append_mul, toNat_extract, BitVec.toNat_setWidth]
  omega

theorem doendl_stored (a : BitVec 22) (m : Word) : a.extractLsb' 15 7 ++ m.extractLsb' 1 15 =
    BitVec.ofNat 22 (a.toNat / 2 ^ 15 * 2 ^ 15 + m.toNat / 2) := by
  apply eq_ofNat
  have := a.isLt
  have := m.isLt
  rw [toNat_append_mul, toNat_extract, toNat_extract]
  omega

theorem doendh_stored (a : BitVec 22) (m : Word) : m.extractLsb' 0 7 ++ (a.setWidth 15 : BitVec 15) =
    BitVec.ofNat 22 (m.toNat % 128 * 2 ^ 15 + a.toNat % 2 ^ 15) := by
  apply eq_ofNat
  rw [toNat_append_mul, toNat_extract, BitVec.toNat_setWidth]
  omega

/-- The mark of a file register write of DOEND (R497); a write of another register sets none. -/
def doendMark (x : Sfr) (s : State) : State :=
  if x = .doendl ∨ x = .doendh then s.setTrk { s.trk with doendWr := true } else s

theorem sfrWrite_stored {x : Sfr} {l : Lanes} {v : Word} {t : State} (hw : x.isW = false) (hx : x ≠ .splim)
    (h : sfrStored x (mergeLanes l (sfrWord x s) v) s = some t) : sfrWrite x l v (doendMark x s) = .val () t := by
  cases x with
  | w => cases hw
  | splim => exact absurd rfl hx
  | pcl | pch | disicnt | sr | corcon => cases h
  | dostartl | dostarth | ctxtstat | rcount | dcount | xbrev => cases h; rfl
  | accL a => cases h; rw [← accL_stored, sfrWord, BitVec.ofNat_toNat]; rfl
  | accH a => cases h; rw [← accH_stored, sfrWord, ← accH_eq]; rfl
  | accU a => cases h; rw [← accU_stored, sfrWord, ← accU_eq]; rfl
  | dsrpag | dswpag | tblpag => cases h; simp only [sfrWord, BitVec.ofNat_toNat]; rfl
  | doendl => cases h; rw [← doendl_stored, sfrWord, ← addrLow_eq]; rfl
  | doendh => cases h; rw [← doendh_stored, sfrWord, ← addrHigh_eq]; rfl
  | modcon => cases h; rw [← modcon_stored]; rfl
  | mstrpr => cases h; rw [← mstrpr_stored]; rfl
  | xmodsrt | ymodsrt => cases h; rw [← clearBit0_eq]; rfl
  | xmodend | ymodend => cases h; rw [← setBit0_eq]; rfl
  | intcon1 =>
    cases h
    rw [sfrWord, ← intcon1_eq]
    cases l <;> simp [mergeLanes_getLsbD, intcon1Word, word16_getLsbD, -BitVec.getLsbD_eq_getElem] <;> rfl
  | intcon3 =>
    cases h
    rw [sfrWord, ← intcon3_eq]
    cases l <;> simp [mergeLanes_getLsbD, intcon3Word, word16_getLsbD, -BitVec.getLsbD_eq_getElem] <;> rfl

theorem sfrWrite_w (n : Reg) (odd : Bool) (b : Byte) :
    sfrWrite (.w n) (laneOf odd) (mkWord b b) s = .val () (s.setWKeep n (withByte odd (s.getW n) b.toNat)) := by
  rw [← mergeLanes_byte]
  cases odd <;> rfl

/-- A word written to a register. -/
theorem sfrWrite_word {x : Sfr} {v : Word} {t : State} (h : sfrStored x v s = some t) :
    sfrWrite x .both v (doendMark x s) = .val () t := by
  by_cases hw : x.isW = true
  · cases x <;> cases hw
    cases h; rfl
  by_cases hx : x = .splim
  · subst hx
    cases h
    show Res.val () { s with splim := clearBit0 v, splimEn := s.splimEn || true, trk := { s.trk with splimWr := true } } = _
    rw [clearBit0_eq, Bool.or_true]
  · exact sfrWrite_stored (l := .both) (Bool.eq_false_iff.2 hw) hx h

/-- A byte written to a register. -/
theorem sfrWrite_byte {x : Sfr} {odd : Bool} {b : Byte} {t : State} (h : sfrStoredByte x odd b.toNat s = some t) :
    sfrWrite x (laneOf odd) (mkWord b b) (doendMark x s) = .val () t := by
  by_cases hw : x.isW = true
  · cases x <;> cases hw
    cases h
    exact sfrWrite_w _ odd b
  by_cases hx : x = .splim
  · subst hx
    cases h
    have hl : decide (laneOf odd = .both) = false := by cases odd <;> rfl
    show Res.val () { s with
      splim := clearBit0 (mergeLanes (laneOf odd) s.splim (mkWord b b)), splimEn := s.splimEn || decide (laneOf odd = .both)
      trk := { s.trk with splimWr := true } } = _
    rw [mergeLanes_byte, clearBit0_eq, hl, Bool.or_false]
  · refine sfrWrite_stored (Bool.eq_false_iff.2 hw) hx ?_
    rw [mergeLanes_byte, ← h]
    cases x with
    | w => exact absurd rfl hw
    | splim => exact absurd rfl hx
    | _ => rfl

/-! ## The file register moves at a special register -/

theorem isDoendFile_sfr {d : Device} {ea : Word} {x : Sfr} (hx : placeOf d ea.toNat = .sfr x) :
    isDoendFile d .file ea = true ↔ x = .doendl ∨ x = .doendh := by
  simp [isDoendFile, hx]

theorem laneOf_bit0 (ea : Word) : (if ea.toNat % 2 = 0 then Lanes.low else .high) = laneOf (ea.getLsbD 0) := by
  rw [laneOf, BitVec.getLsbD, Nat.testBit_zero]
  rcases Nat.mod_two_eq_zero_or_one ea.toNat with h | h <;> simp [h]

theorem readFile_sfr_word {ea : Word} {x : Sfr} (he : ea.getLsbD 0 = false) (hx : placeOf s.dev ea.toNat = .sfr x) :
    readFile .word ea s = .val (sfrRead x s).1 (sfrRead x s).2 := by
  have hs : stackCheck .file ea false s = s := stackCheck_ok nofun
  rw [readFile, readAt, if_neg nofun]
  simp only [hs, misaligned, he, Bool.false_eq_true, if_false, readTarget_flat (isPaged_file s ea), readDataWord, hx]

theorem readFile_sfr_byte {ea : Word} {x : Sfr} (hx : placeOf s.dev ea.toNat = .sfr x) :
    readFile .byte ea s = .val
      (zext16 (if ea.toNat % 2 = 0 then loByte (sfrRead x s).1 else hiByte (sfrRead x s).1)) (sfrRead x s).2 := by
  have hs : stackCheck .file ea false s = s := stackCheck_ok nofun
  rw [readFile, readAt, if_neg nofun]
  simp only [hs, misaligned, Bool.false_eq_true, if_false, readTarget_flat (isPaged_file s ea), readDataByte, hx]

theorem writeFile_sfr_word {ea v : Word} {x : Sfr} (he : ea.getLsbD 0 = false) (hx : placeOf s.dev ea.toNat = .sfr x) :
    writeFile .word ea v s = sfrWrite x .both v (doendMark x s) := by
  rw [writeFile, writeAt_flat (z := .word) rfl he (isPaged_file s ea), if_pos rfl, writeDataWord_sfr (by split <;> exact hx)]
  simp only [isDoendFile_sfr hx, doendMark]

theorem writeFile_sfr_byte {ea v : Word} {x : Sfr} (hx : placeOf s.dev ea.toNat = .sfr x) :
    writeFile .byte ea v s = sfrWrite x (laneOf (ea.getLsbD 0)) (mkWord (loByte v) (loByte v)) (doendMark x s) := by
  rw [writeFile, writeAt_flat rfl rfl (isPaged_file s ea), if_neg nofun, writeDataByte_sfr (by split <;> exact hx), laneOf_bit0]
  simp only [isDoendFile_sfr hx, doendMark]

theorem wordFileAddr_even (f : BitVec 15) : (wordFileAddr f).getLsbD 0 = false := by
  rw [wordFileAddr, BitVec.getLsbD_append]; rfl

theorem fileAddr_bit0 (f : BitVec 13) : (fileAddr f).getLsbD 0 = f.getLsbD 0 := by
  rw [fileAddr, BitVec.getLsbD_setWidth]; rfl

theorem exec_movFWnd_sfr {f : BitVec 15} {x : Sfr} (hx : placeOf s.dev (wordFileAddr f).toNat = .sfr x) (r : Reg) :
    exec (.movFWnd f r) s = .next (((sfrRead x s).2.setW r (sfrRead x s).1).advance 1) := by
  show ((readFile .word (wordFileAddr f) s).bind fun v s => .val () (s.setW r v)).done = _
  rw [readFile_sfr_word (wordFileAddr_even f) hx]
  rfl

theorem exec_movWnsF_sfr {f : BitVec 15} {x : Sfr} (hx : placeOf s.dev (wordFileAddr f).toNat = .sfr x) (r : Reg) :
    exec (.movWnsF f r) s = (sfrWrite x .both (s.getW r) (doendMark x s)).done := by
  show (writeFile .word (wordFileAddr f) (s.getW r) s).done = _
  rw [writeFile_sfr_word (wordFileAddr_even f) hx]

theorem loByte_zext16 (b : Byte) : loByte (zext16 b) = b := by
  apply BitVec.eq_of_toNat_eq
  rw [loByte_toNat, zext16, BitVec.toNat_setWidth]
  omega

theorem exec_movWregF_sfr {f : BitVec 13} {x : Sfr} (hx : placeOf s.dev (fileAddr f).toNat = .sfr x) :
    exec (.movWregF .byte f) s =
      (sfrWrite x (laneOf (f.getLsbD 0)) (mkWord (loByte (s.getW 0)) (loByte (s.getW 0))) (doendMark x s)).done := by
  show (writeFile .byte (fileAddr f) (zext16 (loByte (s.getW 0))) s).done = _
  rw [writeFile_sfr_byte hx, fileAddr_bit0, loByte_zext16]

/-- The byte of a word at an even or an odd address (R96). -/
def byteOf (odd : Bool) (v : Word) : Byte := if odd then hiByte v else loByte v

theorem byteOf_toNat (odd : Bool) (v : Word) : (byteOf odd v).toNat = if odd then v.toNat / 256 else v.toNat % 256 := by
  cases odd
  · exact loByte_toNat v
  · exact hiByte_toNat v

theorem exec_movF_sfr {f : BitVec 13} {x : Sfr} (hx : placeOf s.dev (fileAddr f).toNat = .sfr x) (ho : openBits x s = 0#16) :
    exec (.movF .byte .wreg f) s = .next (((s.setNZ (plainOut (byteOf (f.getLsbD 0) (sfrWord x s)) false)).setWLow 0
      (byteOf (f.getLsbD 0) (sfrWord x s))).advance 1) := by
  have hb : (if (fileAddr f).toNat % 2 = 0 then loByte (sfrWord x s) else hiByte (sfrWord x s)) = byteOf (f.getLsbD 0) (sfrWord x s) := by
    rw [← fileAddr_bit0, byteOf, BitVec.getLsbD, Nat.testBit_zero]
    rcases Nat.mod_two_eq_zero_or_one (fileAddr f).toNat with h | h <;> simp [h]
  show ((readFile .byte (fileAddr f) s).bind fun v s => writeFileDest .byte .wreg (fileAddr f) v (s.setNZ (aluPass .byte v))).done = _
  rw [readFile_sfr_byte hx, sfrRead_closed ho]
  simp only [hb, Res.bind_val, writeFileDest, Res.done_val, State.regWrite, aluPass, loByte_zext16]

/-- N and Z of a byte (R163). -/
theorem plainOut_byte (b : Byte) (c : Bool) : plainOut b c =
    { val := b.setWidth 16, n := decide (128 ≤ b.toNat), z := decide (b.toNat = 0), c := c, dc := false, ov := false } := by
  have hz : (b == 0#8) = decide (b.toNat = 0) := by rw [Bool.eq_iff_iff, beq_iff_eq, decide_eq_true_iff, ← BitVec.toNat_inj]; rfl
  rw [plainOut, hz, BitVec.msb_eq_decide]

/-- Settles O16: at the address of a register the moves are its read and its write. -/
theorem registersMapped : Obligations.RegistersMapped := by
  refine fun x s => ⟨fun f r hx => ⟨?readClosed, ?readOpen, ?write, ?writePc, ?writeDisicnt⟩,
    fun f hx => ⟨?readByte, ?writeByte⟩⟩
  case readClosed =>
    refine fun ho => ⟨?_, ?_, ?_⟩
    · rw [exec_movFWnd_sfr hx, sfrRead_closed ho]
    · exact ((Frame.setW s r _).trans (Frame.advance _ 1)).mono (fun y hy => hy.elim id False.elim) fun a ha => ha.elim id id
    · simp
  case readOpen =>
    intro ho
    obtain ⟨v, hv, hr⟩ := sfrRead_open ho
    exact ⟨v, hv, by rw [exec_movFWnd_sfr hx, hr]⟩
  case write =>
    intro t ht
    rw [exec_movWnsF_sfr hx, sfrWrite_word ht, Res.done_val]
  case writePc => rintro (rfl | rfl) <;> exact exec_movWnsF_sfr hx r
  case writeDisicnt =>
    rintro rfl
    exact exec_movWnsF_sfr hx r
  case readByte =>
    refine fun ho => ⟨?_, ?_, ?_⟩
    · have hb := byteOf_toNat (f.getLsbD 0) (sfrWord x s)
      rw [exec_movF_sfr hx ho, plainOut_byte, hb, eq_ofNat hb]
      rfl
    · exact (((Frame.setSr s _).trans (Frame.setWKeep _ 0 _)).trans (Frame.advance _ 1)).mono
        (fun y hy => hy.elim (fun h => h.elim False.elim id) False.elim) fun a ha => ha.elim (fun h => h.elim id id) id
    · simp [State.setWLow]
  case writeByte =>
    intro t ht
    rw [exec_movWregF_sfr hx, sfrWrite_byte (by rw [loByte_toNat]; exact ht), Res.done_val]

end Sys2Proof.Machine
end

section
/-!
PROOFS. What a data write does to SR (R44, D9) and to CORCON (R47, R53, R380), and what their reads derive (R38, R39).
-/

namespace Sys2Proof.Machine

variable {s : State}

/-! ## Bytes in both halves of a word -/

theorem twice_getLsbD (v : Word) {i : Nat} (hi : i < 16) : (mkWord (loByte v) (loByte v)).getLsbD i = v.getLsbD (i % 8) := by
  rw [mkWord, BitVec.getLsbD_append, loByte, BitVec.getLsbD_extractLsb', BitVec.getLsbD_extractLsb']
  by_cases h : i < 8
  · simp [h, Nat.mod_eq_of_lt h]
  · simp [h, show i - 8 < 8 by omega, show i % 8 = i - 8 by omega]

theorem twice_extract (v : Word) {i n : Nat} (h : i % 8 + n ≤ 8) (hi : i + n ≤ 16) :
    (mkWord (loByte v) (loByte v)).extractLsb' i n = v.extractLsb' (i % 8) n := by
  apply BitVec.eq_of_getLsbD_eq
  intro k hk
  rw [BitVec.getLsbD_extractLsb', BitVec.getLsbD_extractLsb', twice_getLsbD v (by omega), show (i + k) % 8 = i % 8 + k by omega]

/-! ## SR -/

/-- SA, SB and DC as a write of SRH leaves them (R44, D9). -/
def writeSat (v : Word) (s : State) : State :=
  if v[10] || (!v[13] && !v[12]) then s.setSr { s.sr with sa := v[13], sb := v[12], dc := v[8] }
  else (s.setSr { s.sr with sa := s.freeBit, sb := s.drawn.freeBit, dc := v[8] }).drawn.drawn

/-- OA and OB as it leaves them. -/
def writeOver (v : Word) (s : State) : State :=
  if v[11] || (!v[15] && !v[14]) then s.setSr { s.sr with oa := v[15], ob := v[14] }
  else (s.setSr { s.sr with oa := s.freeBit, ob := s.drawn.freeBit }).drawn.drawn

theorem writeSrHigh_eq (v : Word) (s : State) : writeSrHigh v s = writeOver v (writeSat v s) := rfl

theorem writeSat_spec (v : Word) (s : State) : ∃ (sa sb : Bool) (k : Nat),
    writeSat v s = { s with sr := { s.sr with sa := sa, sb := sb, dc := v.getLsbD 8 }, fresh := k }
    ∧ (v.getLsbD 10 = true ∨ (v.getLsbD 13 = false ∧ v.getLsbD 12 = false) → sa = v.getLsbD 13 ∧ sb = v.getLsbD 12) := by
  have hc : (v[10] || (!v[13] && !v[12])) = true ↔ v.getLsbD 10 = true ∨ (v.getLsbD 13 = false ∧ v.getLsbD 12 = false) := by simp
  rw [← hc, writeSat]
  split
  · exact ⟨_, _, s.fresh, rfl, fun _ => ⟨rfl, rfl⟩⟩
  · next h => exact ⟨s.freeBit, s.drawn.freeBit, s.fresh + 1 + 1, rfl, fun h' => absurd h' h⟩

theorem writeOver_spec (v : Word) (s : State) : ∃ (oa ob : Bool) (k : Nat),
    writeOver v s = { s with sr := { s.sr with oa := oa, ob := ob }, fresh := k }
    ∧ (v.getLsbD 11 = true ∨ (v.getLsbD 15 = false ∧ v.getLsbD 14 = false) → oa = v.getLsbD 15 ∧ ob = v.getLsbD 14) := by
  have hc : (v[11] || (!v[15] && !v[14])) = true ↔ v.getLsbD 11 = true ∨ (v.getLsbD 15 = false ∧ v.getLsbD 14 = false) := by simp
  rw [← hc, writeOver]
  split
  · exact ⟨_, _, s.fresh, rfl, fun _ => ⟨rfl, rfl⟩⟩
  · next h => exact ⟨s.freeBit, s.drawn.freeBit, s.fresh + 1 + 1, rfl, fun h' => absurd h' h⟩

/-- SRH as written: DC is taken, the accumulator bits unless the write contradicts itself (R44, D9); nothing else but free values
drawn changes. -/
theorem writeSrHigh_spec (v : Word) (s : State) : ∃ (oa ob sa sb : Bool) (k : Nat),
    writeSrHigh v s = { s with sr := { s.sr with oa := oa, ob := ob, sa := sa, sb := sb, dc := v.getLsbD 8 }, fresh := k }
    ∧ (v.getLsbD 10 = true ∨ (v.getLsbD 13 = false ∧ v.getLsbD 12 = false) → sa = v.getLsbD 13 ∧ sb = v.getLsbD 12)
    ∧ (v.getLsbD 11 = true ∨ (v.getLsbD 15 = false ∧ v.getLsbD 14 = false) → oa = v.getLsbD 15 ∧ ob = v.getLsbD 14) := by
  obtain ⟨sa, sb, k, h1, hsat⟩ := writeSat_spec v s
  obtain ⟨oa, ob, k', h2, hov⟩ := writeOver_spec v (writeSat v s)
  rw [h1] at h2
  exact ⟨oa, ob, sa, sb, k', by rw [writeSrHigh_eq, h1, h2], hsat, hov⟩

/-- A byte written to SRL (R44). -/
theorem writeSrLow_twice (b : Word) (s : State) : writeSrLow (mkWord (loByte b) (loByte b)) s = s.setSr { s.sr with
    ipl := if s.intc.nstdis then s.sr.ipl else BitVec.ofNat 3 (b.toNat / 32)
    n := b.getLsbD 3, ov := b.getLsbD 2, z := b.getLsbD 1, c := b.getLsbD 0 } := by
  have hipl : (mkWord (loByte b) (loByte b)).extractLsb' 5 3 = BitVec.ofNat 3 (b.toNat / 32) := by
    rw [twice_extract b (by decide) (by decide), extract_eq_ofNat]
    rfl
  simp only [writeSrLow, hipl, ← BitVec.getLsbD_eq_getElem, twice_getLsbD, Nat.reduceLT, Nat.reduceMod]

/-- Settles O21. -/
theorem writeSr : Obligations.WriteSr := by
  refine fun s => ⟨fun f r hx => ?_, fun f hx => ?_⟩
  · obtain ⟨oa, ob, sa, sb, k, hw, hsat, hov⟩ := writeSrHigh_spec (s.getW r) s
    have he : exec (.movWnsF f r) s = .next ((writeSrLow (s.getW r) (writeSrHigh (s.getW r) s)).advance 1) := exec_movWnsF_sfr hx r
    rw [hw] at he
    refine ⟨_, he, rfl, rfl, rfl, rfl, rfl, rfl, rfl, fun h => ?_, fun h => ?_, hsat, hov⟩
    · exact if_pos h
    · show (if s.intc.nstdis = true then s.sr.ipl else (s.getW r).extractLsb' 5 3).toNat = _
      rw [if_neg (by simp [h]), toNat_extract]
      rfl
  · have he := exec_movWregF_sfr hx
    intro b
    split
    · next ho =>
      obtain ⟨oa, ob, sa, sb, k, hw, hsat, hov⟩ := writeSrHigh_spec (mkWord (loByte b) (loByte b)) s
      simp only [twice_getLsbD, Nat.reduceLT, Nat.reduceMod] at hw hsat hov
      have he' : exec (.movWregF .byte f) s = .next ((writeSrHigh (mkWord (loByte b) (loByte b)) s).advance 1) := by
        rw [he, ho]
        rfl
      rw [hw] at he'
      exact ⟨_, he', rfl, hsat, hov⟩
    · next ho =>
      have he' : exec (.movWregF .byte f) s = .next ((writeSrLow (mkWord (loByte b) (loByte b)) s).advance 1) := by
        rw [he, Bool.eq_false_iff.2 ho]
        rfl
      rw [he', writeSrLow_twice]
      rfl

/-! ## CORCON -/

/-- EDT as written: which of the two latches a 1 sets (R380, D14). -/
theorem writeEdt_spec (s : State) : ∃ p l : Bool, writeEdt s = { s with edtPending := p, edtLate := l }
    ∧ (s.cor.dl = 0#3 → p = s.edtPending ∧ l = s.edtLate)
    ∧ (s.cor.dl ≠ 0#3 → if s.pc = addrOf s.doend ∨ s.pc = addrOf s.doend - 2#23 then l = true ∧ p = s.edtPending
        else p = true ∧ l = s.edtLate) := by
  unfold writeEdt
  split
  · next h => exact ⟨s.edtPending, s.edtLate, rfl, fun _ => ⟨rfl, rfl⟩, fun h' => absurd h h'⟩
  · next h =>
    split
    · exact ⟨s.edtPending, true, rfl, fun h' => absurd h' h, fun _ => ⟨rfl, rfl⟩⟩
    · exact ⟨true, s.edtLate, rfl, fun h' => absurd h' h, fun _ => ⟨rfl, rfl⟩⟩

/-- The high byte of CORCON as written: US and the EDT latches (R47, R53). -/
theorem writeCorHigh_spec (v : Word) (s : State) : ∃ p l : Bool,
    writeCorHigh v s = { s with cor := { s.cor with us := v.extractLsb' 12 2 }, edtPending := p, edtLate := l }
    ∧ (v.getLsbD 11 = false ∨ s.cor.dl = 0#3 → p = s.edtPending ∧ l = s.edtLate)
    ∧ (v.getLsbD 11 = true → s.cor.dl ≠ 0#3 →
        if s.pc = addrOf s.doend ∨ s.pc = addrOf s.doend - 2#23 then l = true ∧ p = s.edtPending
        else p = true ∧ l = s.edtLate) := by
  have hc : v[11] = v.getLsbD 11 := rfl
  unfold writeCorHigh
  rw [hc]
  cases h11 : v.getLsbD 11
  · exact ⟨s.edtPending, s.edtLate, rfl, fun _ => ⟨rfl, rfl⟩, nofun⟩
  · obtain ⟨p, l, h1, h0, hn⟩ := writeEdt_spec (s.setCor { s.cor with us := v.extractLsb' 12 2 })
    exact ⟨p, l, h1, fun h => h0 (h.resolve_left nofun), fun _ h => hn h⟩

/-- A byte written to the low half of CORCON (R53). -/
theorem writeCorLow_twice (b : Word) (s : State) : writeCorLow (mkWord (loByte b) (loByte b)) s = s.setCor { s.cor with
    sata := b.getLsbD 7, satb := b.getLsbD 6, satdw := b.getLsbD 5, accsat := b.getLsbD 4
    ipl3 := s.cor.ipl3 && b.getLsbD 3, rnd := b.getLsbD 1, ifm := b.getLsbD 0 } := by
  simp only [writeCorLow, ← BitVec.getLsbD_eq_getElem, twice_getLsbD, Nat.reduceLT, Nat.reduceMod]

/-- Settles O22. -/
theorem writeCorcon : Obligations.WriteCorcon := by
  refine fun s => ⟨fun f r hx => ?_, fun f hx => ?_⟩
  · obtain ⟨p, l, hw, h0, hn⟩ := writeCorHigh_spec (s.getW r) s
    have he : exec (.movWnsF f r) s = .next ((writeCorLow (s.getW r) (writeCorHigh (s.getW r) s)).advance 1) := exec_movWnsF_sfr hx r
    rw [hw] at he
    exact ⟨_, he, rfl, rfl, rfl, rfl, toNat_extract _ 12 2, rfl, rfl, rfl, rfl, rfl, rfl, h0, hn⟩
  · have he := exec_movWregF_sfr hx
    intro b
    split
    · next ho =>
      obtain ⟨p, l, hw, h0, hn⟩ := writeCorHigh_spec (mkWord (loByte b) (loByte b)) s
      simp only [twice_getLsbD, Nat.reduceLT, Nat.reduceMod] at h0 hn
      have he' : exec (.movWregF .byte f) s = .next ((writeCorHigh (mkWord (loByte b) (loByte b)) s).advance 1) := by
        rw [he, ho]
        rfl
      have hus : (mkWord (loByte b) (loByte b)).extractLsb' 12 2 = BitVec.ofNat 2 (b.toNat / 16) := by
        rw [twice_extract b (by decide) (by decide), extract_eq_ofNat]
        rfl
      rw [hw, hus] at he'
      exact ⟨_, he', rfl, h0, hn⟩
    · next ho =>
      have he' : exec (.movWregF .byte f) s = .next ((writeCorLow (mkWord (loByte b) (loByte b)) s).advance 1) := by
        rw [he, Bool.eq_false_iff.2 ho]
        rfl
      rw [he', writeCorLow_twice]
      rfl

/-! ## What the reads derive -/

theorem srWord_da (s : State) : s.srWord.getLsbD 9 = decide (s.cor.dl ≠ 0#3) := by
  rw [State.srWord, word16_getLsbD]
  rfl

/-- RA and DL stand at their places (R35, R45). -/
theorem srWord_ra (s : State) : s.srWord.extractLsb' 4 1 = BitVec.ofBool s.sr.ra := by
  apply BitVec.eq_of_getLsbD_eq
  intro k hk
  interval_cases k
  rw [BitVec.getLsbD_extractLsb', State.srWord, word16_getLsbD]
  cases s.sr.ra <;> rfl

theorem corconWord_dl (s : State) : s.corconWord.extractLsb' 8 3 = s.cor.dl := by
  apply BitVec.eq_of_getLsbD_eq
  intro k hk
  rw [BitVec.getLsbD_extractLsb', State.corconWord, word16_getLsbD]
  interval_cases k <;> rfl

/-- Settles O23. -/
theorem derivedBits : Obligations.DerivedBits := by
  have hdl : ∀ d : BitVec 3, decide (d ≠ 0#3) = (d[2] || d[1] || d[0]) := by decide
  refine fun s => ⟨?_, ?_, ?_, srWord_da s, ?_, ?_, ?_, fun f r hx => ?_⟩
  · rw [State.srWord, word16_getLsbD]; rfl
  · rw [State.srWord, word16_getLsbD]; rfl
  · rw [srWord_da, hdl, State.corconWord, word16_getLsbD, word16_getLsbD, word16_getLsbD]; rfl
  · rw [State.corconWord, word16_getLsbD]; rfl
  · rw [← BitVec.toNat_ofBool, ← srWord_ra, toNat_extract]
    omega
  · conv_rhs => rw [← corconWord_dl, toNat_extract]
    rfl
  · obtain ⟨oa, ob, sa, sb, k, hw, -⟩ := writeSrHigh_spec (s.getW r) s
    have he : exec (.movWnsF f r) s = .next ((writeSrLow (s.getW r) (writeSrHigh (s.getW r) s)).advance 1) := exec_movWnsF_sfr hx r
    rw [hw] at he
    exact ⟨_, he, by rw [srWord_da, srWord_da]; rfl⟩

end Sys2Proof.Machine
end

section
/-!
PROOFS. Words outside the table and breaches of the software rules stop by name (R46, R109, R147, R188, R367, R381 to R384, R496, R500):
what the fetch, the checks around an instruction, the pointer checks and the reads through W15 answer.
-/

namespace Sys2Proof.Machine

variable {s : State}

/-! ## The fetch and the step -/

/-- Words that decode to no instruction (R144, R147). -/
theorem fetchDecode_undecoded {e : Reject} {w1 w2 : PWord} (hp : s.pc.toNat / 2 < s.dev.progWords)
    (h1 : s.prog.read (s.pc.toNat / 2) = w1)
    (h2 : twoWord w1 = true → (s.pc + 2#23).toNat / 2 < s.dev.progWords ∧ s.prog.read ((s.pc + 2#23).toNat / 2) = w2)
    (hd : decode w1 (if twoWord w1 then w2 else 0#24) = .error e) : fetchDecode s = .error (.refused (.undecoded e)) := by
  have hf : fetchWord s s.pc = some w1 := by rw [fetchWord, if_pos hp, h1]
  rw [fetchDecode, hf]
  simp only
  by_cases hw : twoWord w1 = true
  · obtain ⟨hp2, hr2⟩ := h2 hw
    have hf2 : fetchWord s (s.pc + 2#23) = some w2 := by rw [fetchWord, if_pos hp2, hr2]
    rw [if_pos hw] at hd
    simp only [hw, if_true, hf2, hd]
  · rw [if_neg hw] at hd
    simp only [hw, Bool.false_eq_true, if_false, hd]

/-- What the checks before an instruction find, the step refuses. -/
theorem step_refuses {i : Instr} {r : Refusal} (hn : nextRequest s = none) (hf : fetchDecode s = .ok i)
    (hc : checkBefore i (beginStep s) = some r) : step s = .refused r := by
  rw [step, hn]
  simp only [hf, hc]

theorem step_concludes {i : Instr} (hn : nextRequest s = none) (hf : fetchDecode s = .ok i)
    (hc : checkBefore i (beginStep s) = none) : step s = conclude i (beginStep s) (exec i (beginStep s)) := by
  rw [step, hn]
  simp only [hf, hc]

/-! ## The checks before an instruction -/

theorem checkBefore_target {i : Instr} (hr : s.sr.ra = true) (hb : badTarget i = true) : checkBefore i s = some .repeatTarget := by
  rw [checkBefore, hr, hb]
  rfl

theorem checkBefore_tail {i : Instr} (hr : (s.sr.ra && badTarget i) = false) (hb : badLoopTail i s = true) :
    checkBefore i s = some .doLastTwo := by
  rw [checkBefore, hr, hb]
  rfl

/-- The places and the kinds of instructions of R383. -/
theorem badLoopTail_iff (i : Instr) (s : State) : badLoopTail i s = true ↔ s.cor.dl ≠ 0#3
    ∧ (((s.pc = addrOf s.doend ∨ s.pc = addrOf s.doend - 2#23)
          ∧ (isFlow i = true ∨ isLoop i = true ∨ isDisi i = true ∨ i.words = 2 ∨ s.sr.ra = true))
        ∨ (s.pc = addrOf s.doend - 4#23 ∧ (i.words = 2 ∨ isRepeat i = true))) := by
  simp only [badLoopTail, Bool.and_eq_true, Bool.or_eq_true, decide_eq_true_eq, or_assoc]

theorem isRepeat_iff (i : Instr) : ((∃ k, i = .repeatLit k) ∨ ∃ r, i = .repeatWn r) ↔ isRepeat i = true := by
  constructor
  · rintro (⟨_, rfl⟩ | ⟨_, rfl⟩) <;> rfl
  · intro h
    cases i with
    | repeatLit k => exact .inl ⟨k, rfl⟩
    | repeatWn r => exact .inr ⟨r, rfl⟩
    | _ => exact absurd h Bool.false_ne_true

/-- A `REPEAT` before a forbidden target (R367). -/
theorem checkBefore_repeat {i j : Instr} (hr : s.sr.ra = false) (hi : isRepeat i = true)
    (hp : s.cor.dl = 0#3 ∨ s.pc ≠ addrOf s.doend ∧ s.pc ≠ addrOf s.doend - 2#23 ∧ s.pc ≠ addrOf s.doend - 4#23)
    (hf : fetchDecode (s.setPc (s.pc + 2#23)) = .ok j) (hj : badTarget j = true) : checkBefore i s = some .repeatTarget := by
  have ht : badLoopTail i s = false := by
    rw [Bool.eq_false_iff, ne_eq, badLoopTail_iff]
    rintro ⟨hd, ⟨h | h, -⟩ | ⟨h, -⟩⟩
    · exact (hp.resolve_left hd).1 h
    · exact (hp.resolve_left hd).2.1 h
    · exact (hp.resolve_left hd).2.2 h
  have hb : badRepeat i s = true := by simp only [badRepeat, hi, hf, hj, Bool.and_self]
  rw [checkBefore, hr, ht, hb]
  rfl

/-! ## The checks after it -/

/-- The word at an address is there and is the first of two (R131). -/
theorem twoWordsAt_iff (s : State) (a : PAddr) : ((fetchWord s a).map twoWord).getD false = true ↔ twoWordsAt s a := by
  unfold fetchWord twoWordsAt
  split
  · next h => simp [h]
  · next h => simp [h]

/-- The ends of the loops that run (R62, R63, R374). -/
theorem mem_loopEnds (s : State) (a : PAddr) : a ∈ s.loopEnds ↔ ∃ e, runsTo s e ∧ a = addrOf e := by
  have hs : ∀ e, e ∈ (s.doStack.toList.take (s.cor.dl.toNat - 1)).map DoEntry.fin
      ↔ ∃ k : Fin 3, k.val + 2 ≤ s.cor.dl.toNat ∧ e = s.doStack[k].fin := by
    intro e
    rw [List.mem_map]
    constructor
    · rintro ⟨x, hx, rfl⟩
      obtain ⟨k, hk, rfl⟩ := List.mem_take_iff_getElem.1 hx
      have hl : k < 3 := by simpa using (Nat.lt_min.1 hk).2
      exact ⟨⟨k, hl⟩, by have := (Nat.lt_min.1 hk).1; simp only; omega, by simp⟩
    · rintro ⟨k, hk, rfl⟩
      exact ⟨s.doStack[k], List.mem_take_iff_getElem.2 ⟨k, by simp; omega, by simp⟩, rfl⟩
  unfold State.loopEnds runsTo
  simp only [List.mem_map, List.mem_cons, ← hs]
  constructor
  · rintro ⟨e, he, rfl⟩
    exact ⟨e, by simpa using he, rfl⟩
  · rintro ⟨e, he, rfl⟩
    exact ⟨e, by simpa using he, rfl⟩

/-- The model's test for the place before the penultimate instruction is the statements' (R381). -/
theorem beforePenultimate_iff (i : Instr) (s : State) : beforePenultimate i s = true ↔ atEarlyTail i s := by
  have hp : ∀ (b : PAddr) (e : BitVec 22), b = penultimate s (addrOf e) ↔
      (¬twoWordsAt s (addrOf e - 4#23) ∧ b = addrOf e - 2#23) ∨ (twoWordsAt s (addrOf e - 4#23) ∧ b = addrOf e - 4#23) := by
    intro b e
    unfold penultimate
    rw [← twoWordsAt_iff]
    split
    · next h => simp [h]
    · next h => simp [h]
  simp only [beforePenultimate, List.any_eq_true, beq_iff_eq, mem_loopEnds, atEarlyTail]
  constructor
  · rintro ⟨_, ⟨e, he, rfl⟩, h⟩
    exact ⟨e, he, (hp _ e).1 h⟩
  · rintro ⟨e, he, h⟩
    exact ⟨_, ⟨e, he, rfl⟩, (hp _ e).2 h⟩

section
variable {i : Instr} {t : State} (hs : s.cor.dl ≠ 0#3) (ht : t.cor.dl ≠ 0#3)
include hs ht

/-- The IPL changed before the penultimate instruction (R381, R499). -/
theorem checkAfter_ipl (h : atEarlyTail i s) (hi : t.sr.ipl ≠ s.sr.ipl) : checkAfter i s t = some .doIplChange := by
  rw [checkAfter, if_neg (not_or.2 ⟨ht, hs⟩), if_pos ⟨(beforePenultimate_iff i s).2 h, hi⟩]

/-- Without that, the two checks of the places follow (R382, R384, R500). -/
theorem checkAfter_places (h : ¬atEarlyTail i s ∨ t.sr.ipl = s.sr.ipl) : checkAfter i s t =
    if s.dev.pfu3Cycle ∧ s.pc = addrOf s.dostart ∧ t.trk.psvRd then some .doFirstPfu
    else if s.pc = addrOf t.doend ∧ shortLoop (addrOf t.dostart) (addrOf t.doend) then some .doLength else none := by
  rw [checkAfter, if_neg (not_or.2 ⟨ht, hs⟩), if_neg]
  rw [beforePenultimate_iff]
  rintro ⟨h1, h2⟩
  exact h.elim (fun h => h h1) h2

end

/-! ## Loop lengths -/

/-- The three lengths R384 forbids. -/
theorem shortLoop_of_length {n : Word} (hn : n = 0#16 ∨ n = 0xFFFF#16 ∨ n = 0xFFFE#16) (a : PAddr) :
    shortLoop a (loopEnd a n) = true := by
  rw [shortLoop_iff, loopEnd]
  rcases hn with rfl | rfl | rfl
  · exact .inl (BitVec.add_zero a)
  · refine .inr (.inl ?_)
    rw [BitVec.sub_eq_add_neg]
    rfl
  · refine .inr (.inr ?_)
    rw [BitVec.sub_eq_add_neg]
    rfl

/-! ## Reads through W15 right after a write of SPLIM -/

theorem readAt_hazard {o : Reg} {z : Size} {ea : Word} {wr : Bool} (h : s.trk.splimPrev = true) :
    readAt (.reg 15 o) z ea wr s = refuse .splimHazard := by
  rw [readAt, if_pos ⟨reg_isThrough.2 rfl, h⟩]

theorem pop_hazard (h : s.trk.splimPrev = true) : pop s = refuse .splimHazard :=
  readAt_hazard (by rw [State.setW_trk]; exact h)

/-- W15 always serves as a pointer, with linear addressing (R29, R109). -/
theorem pointerCheck_w15 {m : Mode} {z : Size} (hm : m ≠ .postInc ∧ m ≠ .preInc) (h15 : s.modcon.getLsbD 15 = false)
    (h14 : s.modcon.getLsbD 14 = false) : pointerCheck m z 15 s = .val () s :=
  pointerCheck_pass rfl h15 h14 (by simp [bitReversedApplies, hm.1, hm.2])

theorem readSrc_hazard {z : Size} {w : Reg} (h : s.trk.splimPrev = true) (h15 : s.modcon.getLsbD 15 = false)
    (h14 : s.modcon.getLsbD 14 = false) : readSrc .preDec z 15 w s = refuse .splimHazard := by
  rw [readSrc, if_neg (by decide), pointerCheck_w15 (by decide) h15 h14]
  exact readAt_hazard (by rw [(modifyPtr_fields _ _ _ _).2.2.2.2.2.2.1]; exact h)

/-! ## Table reads -/

/-- What stops the read of the word stops both table reads. -/
theorem exec_table_stop {b : Size} {p : Mode6} {r : Reg} {o : Out} (h : tableWord b p r s = .stop o) (q : Mode6) (d : Reg) :
    exec (.tblrdl b q d p r) s = o ∧ exec (.tblrdh b q d p r) s = o := by
  constructor
  · show ((tableWord b p r s).bind _).done = o
    rw [h, Res.bind_stop, Res.done_stop]
  · show ((tableWord b p r s).bind _).done = o
    rw [h, Res.bind_stop, Res.done_stop]

theorem tableWord_hazard {b : Size} (h : s.trk.splimPrev = true) (h15 : s.modcon.getLsbD 15 = false)
    (h14 : s.modcon.getLsbD 14 = false) : tableWord b .ind 15 s = refuse .splimHazard := by
  rw [tableWord, if_neg (by decide), Mode6.toMode, pointerCheck_w15 (by decide) h15 h14]
  simp only [Res.bind_val, h, and_self, if_true]

theorem tableWord_config {b : Size} {r : Reg} (hr : r ≠ 15) (hi : s.isInit r = true) (h15 : s.modcon.getLsbD 15 = false)
    (h14 : s.modcon.getLsbD 14 = false) (ht : 128 ≤ s.tblpag.toNat) : tableWord b .ind r s = refuse .configSpace := by
  have hm : s.tblpag.msb = true := by rw [BitVec.msb_eq_decide]; exact decide_eq_true ht
  rw [tableWord, if_neg nofun, Mode6.toMode, pointerCheck_pass hi h15 h14 (by simp [bitReversedApplies])]
  simp only [Res.bind_val, hr, false_and, if_false, hm, if_true]

/-! ## Modulo and bit-reversed addressing, the reserved multiplier mode -/

theorem pointerCheck_modulo {m : Mode} {z : Size} {n : Reg} (hi : s.isInit n = true)
    (h : s.modcon.getLsbD 15 = true ∨ s.modcon.getLsbD 14 = true) : pointerCheck m z n s = refuse .moduloAddressing := by
  rw [pointerCheck, hi, if_neg nofun, if_pos (by simpa using h)]

theorem pointerCheck_bitReversed {m : Mode} {n : Reg} (hi : s.isInit n = true) (h15 : s.modcon.getLsbD 15 = false)
    (h14 : s.modcon.getLsbD 14 = false) (hb : bitReversedApplies s m .word n = true) :
    pointerCheck m .word n s = refuse .bitReversed := by
  rw [pointerCheck, hi, h15, h14, hb]
  rfl

theorem bitReversedApplies_of {m : Mode} {n : Reg} (hx : s.xbrev.getLsbD 15 = true) (h15 : s.modcon.toNat / 256 % 16 ≠ 15)
    (hn : s.modcon.toNat / 256 % 16 = n.val) (hm : m = .postInc ∨ m = .preInc) : bitReversedApplies s m .word n = true := by
  have hb : (s.modcon.extractLsb' 8 4).toNat = s.modcon.toNat / 256 % 16 := toNat_extract ..
  rw [bitReversedApplies, hx, hb, decide_eq_true h15, decide_eq_true hn, decide_eq_true hm]
  rfl

/-- Every multiplier mode but the reserved one gives a product (R244). -/
theorem operandSigned_isSome : ∀ (us : BitVec 2) (r : DReg), us ≠ 3#2 → (operandSigned us r).isSome = true := by
  intro us r
  cases r <;> revert us <;> decide

theorem multiply_val (m n : DReg) (h : s.cor.us ≠ 3#2) : ∃ p, multiply m n s = .val p s := by
  obtain ⟨a, ha⟩ := Option.isSome_iff_exists.1 (operandSigned_isSome s.cor.us m h)
  obtain ⟨b, hb⟩ := Option.isSome_iff_exists.1 (operandSigned_isSome s.cor.us n h)
  exact ⟨dspMul s.cor.ifm (s.getW m.toReg) a (s.getW n.toReg) b, by simp only [multiply, ha, hb]⟩

theorem multiply_reserved (m n : DReg) (h : s.cor.us = 3#2) : multiply m n s = refuse .reservedUs := by
  rw [multiply, h]
  rfl

theorem exec_mpy_stop {q : MulPair} {a : Acc} {x y : DReg} {i j : Prefetch} {o : Out}
    (h : dspFetch q.left q.right i j none s = .stop o) : exec (.mpy q a x y i j) s = o := by
  show ((dspFetch q.left q.right i j none s).bind _).done = o
  rw [h, Res.bind_stop, Res.done_stop]

theorem dspFetch_modulo {m n : DReg} {i j : Prefetch} {r : Reg} (hus : s.cor.us ≠ 3#2) (hp : prefetchReg 8 i = some r)
    (hi : s.isInit r = true) (h : s.modcon.getLsbD 15 = true ∨ s.modcon.getLsbD 14 = true) :
    dspFetch m n i j none s = refuse .moduloAddressing := by
  obtain ⟨p, hm⟩ := multiply_val m n hus
  rw [dspFetch, hm, Res.bind_val, prefetchCheck, hp]
  simp only [pointerCheck_modulo hi h]
  rfl

/-- Settles O60: each check finds its breach, and `step` refuses by the check's name. -/
theorem breachesRefused : Obligations.BreachesRefused := by
  intro s
  refine ⟨?undecoded, ?found, ?target, ?loopTail, ?repeatBefore, ?repeatTail, ?after, ?length, ?hazard, ?config, ?modulo, ?bitReversed,
    ?reserved⟩
  case undecoded =>
    intro e w1 w2 hn hp h1 h2 hd
    rw [step, hn]
    simp only [fetchDecode_undecoded hp h1 h2 hd]
  case found =>
    rintro i f hn hf (hc | ⟨hc, t, ht, ha⟩)
    · exact step_refuses hn (fetchDecode_ok hf) hc
    · rw [step_concludes hn (fetchDecode_ok hf) hc, ht, conclude, ha]
  case target => exact fun i hr hb => checkBefore_target hr ((badTarget_iff i).1 hb)
  case loopTail =>
    intro i hd hr h
    rw [isFlow_iff, isLoop_iff, isDisi_iff, isRepeat_iff] at h
    refine checkBefore_tail (by rw [hr]; rfl) ((badLoopTail_iff i s).2 ⟨hd, ?_⟩)
    exact h.imp_left (And.imp_right fun h => h.imp_right (Or.imp_right (Or.imp_right Or.inl)))
  case repeatBefore =>
    exact fun i j hr hi hp hf hj =>
      checkBefore_repeat hr ((isRepeat_iff i).1 hi) hp (fetchDecode_ok hf) ((badTarget_iff j).1 hj)
  case repeatTail =>
    intro i hd hr hb hp
    have hb : badTarget i = false := Bool.eq_false_iff.2 (mt (badTarget_iff i).2 hb)
    exact checkBefore_tail (by rw [hr, hb]; rfl) ((badLoopTail_iff i s).2 ⟨hd, .inl ⟨hp, .inr (.inr (.inr (.inr hr)))⟩⟩)
  case after =>
    refine fun i t hs ht => ⟨checkAfter_ipl hs ht, fun h hpfu hpc hpsv => ?_, fun h hpsv hpc hlen => ?_⟩
    · rw [checkAfter_places hs ht h, if_pos ⟨hpfu, hpc, hpsv⟩]
    · rw [checkAfter_places hs ht h, if_neg (by rw [hpsv]; exact fun hq => Bool.false_ne_true hq.2.2),
        if_pos ⟨hpc, (shortLoop_iff _ _).2 hlen⟩]
  case length => rintro i n (⟨k, rfl⟩ | ⟨r, rfl⟩) hd hn <;> exact doWith_short hd (shortLoop_of_length hn _)
  case hazard =>
    refine fun h h15 h14 => ⟨fun w n => ?_, fun b q d => exec_table_stop (tableWord_hazard h h15 h14) q d, ?_, ?_, ?_⟩
    · show ((readSrc .preDec .word 15 w s).bind _).done = _
      rw [readSrc_hazard h h15 h14]
      rfl
    · show ((pop ((if s.cor.sfa then s else s.raiseStack).setW 15 _)).bind _).done = _
      rw [pop_hazard (by rw [State.setW_trk]; split <;> exact h)]
      rfl
    · show (popPc s).next _ = _
      rw [popPc, pop_hazard h]
      rfl
    · show ((pop s).bind _).next _ = _
      rw [pop_hazard h]
      rfl
  case config => exact fun b q d r hr hi h15 h14 ht => exec_table_stop (tableWord_config hr hi h15 h14 ht) q d
  case modulo =>
    exact fun r hi h => ⟨fun w b m d hm => exec_mov_stop hm (pointerCheck_modulo hi h) w d,
      fun q a x y i j hus hp => exec_mpy_stop (dspFetch_modulo hus hp hi h)⟩
  case bitReversed =>
    intro r w m d hi h15 h14 hx hb hr hm
    exact exec_mov_stop (by rcases hm with rfl | rfl <;> decide)
      (pointerCheck_bitReversed hi h15 h14 (bitReversedApplies_of hx hb hr hm)) w d
  case reserved =>
    intro m a x y hus
    refine exec_mpy_stop ?_
    rw [dspFetch, multiply_reserved _ _ hus]
    rfl

end Sys2Proof.Machine
end

section
/-!
PROOFS. Values in ordinary memory as arithmetic (R96, R97), and the moves between a register and a file register there (R162, R163).
-/

namespace Sys2Proof.Machine

variable {s : State}

/-! ## Bytes of words in memory -/

theorem Memory.readWord_toNat (m : Memory) (a : Nat) :
    (m.readWord a).toNat = (m.read a).toNat + 256 * (m.read (a + 1)).toNat := by
  rw [Memory.readWord, mkWord_toNat]
  omega

theorem Memory.read_writeWord_toNat (m : Memory) (a k : Nat) (v : Word) : ((m.writeWord a v).read k).toNat =
    if k = a then v.toNat % 256 else if k = a + 1 then v.toNat / 256 else (m.read k).toNat := by
  rw [Memory.read_writeWord]
  by_cases h : k = a
  · rw [if_neg (by omega), if_pos h, if_pos h, loByte_toNat]
  · rw [if_neg h, if_neg h]
    split
    · exact hiByte_toNat v
    · rfl

theorem Memory.read_write_loByte_toNat (m : Memory) (a k : Nat) (v : Word) :
    ((m.write a (loByte v)).read k).toNat = if k = a then v.toNat % 256 else (m.read k).toNat := by
  rw [Memory.read_write]
  split
  · exact loByte_toNat v
  · rfl

theorem zext16_toNat (b : Byte) : (zext16 b).toNat = b.toNat :=
  BitVec.toNat_setWidth_of_le (by decide)

/-- A store to ordinary memory changes memory only. -/
theorem memStore_mem (z : Size) (ea v : Word) (s : State) : memStore z ea v s = { s with mem := (memStore z ea v s).mem } := by
  cases z <;> rfl

/-! ## N and Z of a value moved -/

/-- A byte in the low half of a word has the word's bit 7 on top, and is 0 with it. -/
theorem aluPass_zext16 (b : Byte) : (aluPass .byte (zext16 b)).n = (zext16 b).getLsbD 7
    ∧ (aluPass .byte (zext16 b)).z = decide (zext16 b = 0#16) := by
  rw [aluPass, loByte_zext16]
  constructor
  · rw [plainOut, zext16, BitVec.getLsbD_setWidth, BitVec.msb_eq_getLsbD_last]
    rfl
  · rw [plainOut, Bool.eq_iff_iff, beq_iff_eq, decide_eq_true_iff, ← BitVec.toNat_inj, ← BitVec.toNat_inj, zext16_toNat]
    rfl

/-- N and Z of a value of ordinary memory that is moved (R163). -/
theorem setNZ_memValue (b : Size) (ea : Word) (s : State) : s.setNZ (aluPass b (memValue b ea s)) = s.setSr { s.sr with
    n := if b = .word then (memValue b ea s).msb else (memValue b ea s).getLsbD 7
    z := decide (memValue b ea s = 0#16) } := by
  cases b with
  | word => rfl
  | byte =>
    obtain ⟨hn, hz⟩ := aluPass_zext16 (s.mem.read ea.toNat)
    rw [State.setNZ, memValue, hn, hz]
    rfl

/-! ## The moves -/

/-- The pc advanced after an update leaves what the update leaves. -/
theorem Frame.thenAdvance {R : Reg → Prop} {M : Nat → Prop} {t : State} (h : Frame R M s t) (k : Nat) :
    Frame R M s (t.advance k) :=
  (h.trans (Frame.advance t k)).mono (fun _ hx => hx.elim id False.elim) fun _ ha => ha.elim id False.elim

/-- Flags written before an update leave what the update leaves. -/
theorem Frame.afterSr {R : Reg → Prop} {M : Nat → Prop} {f : Status} {t : State} (h : Frame R M (s.setSr f) t) :
    Frame R M s t :=
  ((Frame.setSr s f).trans h).mono (fun _ hx => hx.elim False.elim id) fun _ ha => ha.elim False.elim id

theorem exec_movFWnd {f : BitVec 15} (h : fileOk .word (wordFileAddr f) s) (d : Reg) :
    exec (.movFWnd f d) s = .next ((s.setW d (memValue .word (wordFileAddr f) s)).advance 1) := by
  show ((readFile .word (wordFileAddr f) s).bind fun v s => .val () (s.setW d v)).done = _
  rw [readFile_ok h, Res.bind_val, Res.done_val]

theorem exec_movWnsF {f : BitVec 15} (h : fileOk .word (wordFileAddr f) s) (r : Reg) :
    exec (.movWnsF f r) s = .next ((memStore .word (wordFileAddr f) (s.getW r) s).advance 1) := by
  show (writeFile .word (wordFileAddr f) (s.getW r) s).done = _
  rw [writeFile_ok h, Res.done_val]

theorem exec_movWregF {b : Size} {f : BitVec 13} (h : fileOk b (fileAddr f) s) :
    exec (.movWregF b f) s = .next ((memStore b (fileAddr f) (s.regRead b 0) s).advance 1) := by
  show (writeFile b (fileAddr f) (s.regRead b 0) s).done = _
  rw [writeFile_ok h, Res.done_val]

theorem exec_movF {b : Size} {f : BitVec 13} (h : fileOk b (fileAddr f) s) (t : FDest) : exec (.movF b t f) s =
    .next ((fileDestNext b t (fileAddr f) (memValue b (fileAddr f) s)
      (s.setNZ (aluPass b (memValue b (fileAddr f) s)))).advance 1) := by
  show ((readFile b (fileAddr f) s).bind fun v s => writeFileDest b t (fileAddr f) v (s.setNZ (aluPass b v))).done = _
  rw [readFile_ok h, Res.bind_val, writeFileDest_ok (s := s.setNZ _) fun _ => h, Res.done_val]

/-- Settles O13: the bytes of a word as arithmetic, and each move by the ordinary file register access it makes. -/
theorem movFile : Obligations.MovFile := by
  refine fun s => ⟨fun a k v => ⟨s.mem.readWord_toNat a, s.mem.read_writeWord_toNat a k v⟩,
    ?values, ?load, ?store, ?storeWreg, ?move⟩
  case values =>
    exact fun ea v k => ⟨s.mem.readWord_toNat ea.toNat, zext16_toNat _, s.mem.read_writeWord_toNat ea.toNat k v,
      s.mem.read_write_loByte_toNat ea.toNat k v, fun b => memStore_mem b ea v s⟩
  case load => exact fun f d h => ⟨exec_movFWnd h d, (Frame.setW s d _).thenAdvance 1, State.setW_sr s d _⟩
  case store => exact fun f r h => ⟨exec_movWnsF h r, (Frame.memStore .word _ _ s).thenAdvance 1,
      memStore_sr .word (wordFileAddr f) (s.getW r) s⟩
  case storeWreg => exact fun b f h => ⟨exec_movWregF h, (Frame.memStore b _ _ s).thenAdvance 1,
      memStore_sr b (fileAddr f) (s.regRead b 0) s⟩
  case move =>
    intro b t f h v fl
    have hx := exec_movF h t
    rw [setNZ_memValue] at hx
    exact ⟨hx, ((Frame.fileDestNext b t _ v (s.setSr fl)).afterSr).thenAdvance 1, fileDestNext_sr b t _ v (s.setSr fl)⟩

end Sys2Proof.Machine
end

section
/-!
PROOFS. Moves through a plain pointer outside base data memory: at an odd address (R98, R423), and paged (R102 to R107).
-/

namespace Sys2Proof.Machine

variable {s : State}

/-! ## A move through a plain pointer is one access at what the pointer holds -/

theorem exec_load_ind {b : Size} {r : Reg} (hi : s.isInit r = true) (h15 : s.modcon.getLsbD 15 = false)
    (h14 : s.modcon.getLsbD 14 = false) (w d : Reg) : exec (.movWsWd w b .direct d .ind r) s =
      ((readAt (.reg r r) b (s.getW r) false s).bind fun v t => .val () (t.regWrite b d v)).done := by
  have hb : bitReversedApplies s .ind b r = false := by simp [bitReversedApplies]
  show ((readSrc .ind b r w s).bind fun v t => .val () (t.regWrite b d v)).done = _
  rw [readSrc, if_neg nofun, pointerCheck_pass hi h15 h14 hb]
  show (((readAt (.reg r r) b (s.getW r) false s).bind fun v t => .val v t).bind _).done = _
  cases readAt (.reg r r) b (s.getW r) false s <;> rfl

theorem exec_store_ind {b : Size} {r : Reg} (hi : s.isInit r = true) (h15 : s.modcon.getLsbD 15 = false)
    (h14 : s.modcon.getLsbD 14 = false) (w d : Reg) : exec (.movWsWd w b .ind r .direct d) s =
      (writeAt (.reg r r) b (s.getW r) false (s.regRead b d) s).done := by
  have hb : bitReversedApplies s .ind b r = false := by simp [bitReversedApplies]
  show (writeDst .ind b r w (s.regRead b d) s).done = _
  rw [writeDst, if_neg nofun, pointerCheck_pass hi h15 h14 hb]
  show ((writeAt (.reg r r) b (s.getW r) false (s.regRead b d) s).bind fun _ t => .val () t).done = _
  cases writeAt (.reg r r) b (s.getW r) false (s.regRead b d) s <;> rfl

/-! ## Accesses not through W15, by where they go -/

theorem stackCheck_ne {r : Reg} (hr : r ≠ 15) (ea : Word) (wr : Bool) (s : State) : stackCheck (.reg r r) ea wr s = s :=
  stackCheck_ok fun h => absurd (reg_formedFrom.1 h) hr

/-- A read at an odd word address raises AddressError and gives an open value (R98, R423). -/
theorem readAt_misaligned {r : Reg} {z : Size} {ea : Word} {wr : Bool} (hr : r ≠ 15) (he : misaligned z ea = true) :
    readAt (.reg r r) z ea wr s = .val s.freeWord s.drawn.raiseAddress := by
  rw [readAt, if_neg fun h => hr (reg_isThrough.1 h.1), stackCheck_ne hr]
  simp only [he, if_true]

theorem readAt_data {r : Reg} {z : Size} {ea : Word} {wr : Bool} {a : Nat} (hr : r ≠ 15) (he : misaligned z ea = false)
    (ht : readTarget s (.reg r r) ea = .data a) :
    readAt (.reg r r) z ea wr s = (if z = .word then readDataWord else readDataByte) a s := by
  rw [readAt, if_neg fun h => hr (reg_isThrough.1 h.1), stackCheck_ne hr]
  simp only [he, Bool.false_eq_true, if_false, ht]
  cases z <;> rfl

theorem readAt_psv {r : Reg} {z : Size} {ea : Word} {wr : Bool} {k : Nat} {u : Bool} (hr : r ≠ 15) (he : misaligned z ea = false)
    (ht : readTarget s (.reg r r) ea = .psv k u) : readAt (.reg r r) z ea wr s = readPsv k u z ea s := by
  rw [readAt, if_neg fun h => hr (reg_isThrough.1 h.1), stackCheck_ne hr]
  simp only [he, Bool.false_eq_true, if_false, ht]

/-- A read with a page register holding 0 raises AddressError and gives an open value (R105). -/
theorem readAt_pageZero {r : Reg} {z : Size} {ea : Word} {wr : Bool} (hr : r ≠ 15) (he : misaligned z ea = false)
    (ht : readTarget s (.reg r r) ea = .pageZero) : readAt (.reg r r) z ea wr s =
      .val (if z = .word then s.freeWord else zext16 (loByte s.freeWord)) s.drawn.raiseAddress := by
  rw [readAt, if_neg fun h => hr (reg_isThrough.1 h.1), stackCheck_ne hr]
  simp only [he, Bool.false_eq_true, if_false, ht]
  cases z <;> rfl

/-- A write at an odd word address, or with a page register holding 0, raises AddressError and stores nothing (R98, R105, R423). -/
theorem writeAt_raises {r : Reg} {z : Size} {ea v : Word} {wr : Bool} (hr : r ≠ 15)
    (h : misaligned z ea = true ∨ writeTarget s (.reg r r) ea = none) :
    writeAt (.reg r r) z ea wr v s = .val () s.raiseAddress := by
  rw [writeAt, stackCheck_ne hr]
  by_cases he : misaligned z ea = true
  · simp only [he, if_true]
  · simp only [he, Bool.false_eq_true, if_false, h.resolve_left he]

theorem writeAt_data {r : Reg} {z : Size} {ea v : Word} {wr : Bool} {a : Nat} (hr : r ≠ 15) (he : misaligned z ea = false)
    (ht : writeTarget s (.reg r r) ea = some a) :
    writeAt (.reg r r) z ea wr v s = (if z = .word then writeDataWord else writeDataByte) a v s := by
  rw [writeAt, stackCheck_ne hr]
  simp only [he, Bool.false_eq_true, if_false, ht]
  cases z <;> rfl

/-! ## Odd addresses -/

/-- Settles O18: the access raises the request at the alignment check. -/
theorem misalignedMove : Obligations.MisalignedMove := by
  intro w d r s hr hi h15 h14 ho
  constructor
  · rw [exec_load_ind hi h15 h14, readAt_misaligned hr (z := .word) ho]
    rfl
  · rw [exec_store_ind hi h15 h14, writeAt_raises hr (z := .word) (.inl ho)]
    rfl

/-! ## Where a paged access goes -/

/-- Bit 15 of an address formed from W0 to W13 pages it (R102, R103). -/
theorem isPaged_reg {r : Reg} {ea : Word} (hr : r.val < 14) (he : ea.msb = true) : isPaged s (.reg r r) ea = true := by
  have h15 : r ≠ 15 := fun h => absurd (congrArg Fin.val h) (by omega)
  have h14 : r ≠ 14 := fun h => absurd (congrArg Fin.val h) (by omega)
  simp [isPaged, he, Base.formedFrom, h15, h14]

section Paged

variable {b : Base} {ea : Word} (hp : isPaged s b ea = true)
include hp

theorem readTarget_pageZero (h : s.dsrpag = 0#10) : readTarget s b ea = .pageZero := by
  simp [readTarget, hp, h]

theorem readTarget_extended (h1 : 1 ≤ s.dsrpag.toNat) (h2 : s.dsrpag.toNat ≤ 0x1FF) :
    readTarget s b ea = .data (s.dsrpag.toNat * 32768 + ea.toNat % 32768) := by
  rw [readTarget, if_pos hp, if_neg (by omega), if_pos (by omega), pageAddr, Nat.mod_eq_of_lt (by omega)]

theorem readTarget_psv (h : 0x200 ≤ s.dsrpag.toNat) :
    readTarget s b ea = .psv (s.dsrpag.toNat % 256 * 16384 + ea.toNat % 32768 / 2) (decide (0x300 ≤ s.dsrpag.toNat)) := by
  rw [readTarget, if_pos hp, if_neg (by omega), if_neg (by omega)]

theorem writeTarget_pageZero (h : s.dswpag = 0#9) : writeTarget s b ea = none := by
  simp [writeTarget, hp, h]

theorem writeTarget_extended (h : 1 ≤ s.dswpag.toNat) :
    writeTarget s b ea = some (s.dswpag.toNat * 32768 + ea.toNat % 32768) := by
  rw [writeTarget, if_pos hp, if_neg (by omega), pageAddr, Nat.mod_eq_of_lt s.dswpag.isLt]

end Paged

/-! ## What stands there -/

theorem readDataWord_ram {a : Nat} (h : placeOf s.dev a = .ram) (h' : placeOf s.dev (a + 1) = .ram) :
    readDataWord a s = .val (s.mem.readWord a) s := by
  rw [readDataWord, h, h']

theorem readDataByte_ram {a : Nat} (h : placeOf s.dev a = .ram) : readDataByte a s = .val (zext16 (s.mem.read a)) s := by
  rw [readDataByte, h]

theorem writeDataWord_ram {a : Nat} {v : Word} (h : placeOf s.dev a = .ram) (h' : placeOf s.dev (a + 1) = .ram) :
    writeDataWord a v s = .val () (s.setMem (s.mem.writeWord a v)) := by
  rw [writeDataWord, h, h']

theorem writeDataByte_ram {a : Nat} {v : Word} (h : placeOf s.dev a = .ram) :
    writeDataByte a v s = .val () (s.setMem (s.mem.write a (loByte v))) := by
  rw [writeDataByte, h]

/-- What the PSV window shows of a program word by DSRPAG: the low word, or the upper byte from 0x300 on (R107). -/
def psvView (page : Nat) (w : PWord) : Nat := if page < 0x300 then w.toNat % 65536 else w.toNat / 65536

theorem psvView_lt (page : Nat) (w : PWord) : psvView page w < 65536 := by
  have := w.isLt
  unfold psvView
  split <;> omega

/-- The model's selection of the view is that value. -/
theorem psvView_eq (page : Nat) (w : PWord) :
    (if decide (0x300 ≤ page) then (w.extractLsb' 16 8).setWidth 16 else w.setWidth 16 : Word)
      = BitVec.ofNat 16 (psvView page w) := by
  have hw := w.isLt
  apply eq_ofNat
  unfold psvView
  by_cases h : 0x300 ≤ page
  · rw [if_pos (decide_eq_true h), if_neg (by omega), BitVec.toNat_setWidth, toNat_extract]
    omega
  · rw [if_neg (by simpa using h), if_pos (by omega), BitVec.toNat_setWidth]

theorem hiByte_ofNat {k : Nat} (h : k < 65536) : hiByte (BitVec.ofNat 16 k) = BitVec.ofNat 8 (k / 256) := by
  rw [hiByte, extract_eq_ofNat, BitVec.toNat_ofNat, Nat.mod_eq_of_lt h]
  rfl

theorem loByte_eq_ofNat (v : Word) : loByte v = BitVec.ofNat 8 v.toNat := by
  rw [loByte, extract_eq_ofNat, Nat.pow_zero, Nat.div_one]

theorem loByte_ofNat {k : Nat} (h : k < 65536) : loByte (BitVec.ofNat 16 k) = BitVec.ofNat 8 k := by
  rw [loByte_eq_ofNat, BitVec.toNat_ofNat, Nat.mod_eq_of_lt h]

theorem readPsv_word {k : Nat} (hk : k < s.dev.progWords) (page : Nat) (ea : Word) :
    readPsv k (decide (0x300 ≤ page)) .word ea s =
      .val (BitVec.ofNat 16 (psvView page (s.prog.read k))) (s.setTrk { s.trk with psvRd := true }) := by
  rw [readPsv, progWord, if_pos hk, Res.bind_val, psvView_eq]

theorem readPsv_byte {k : Nat} (hk : k < s.dev.progWords) (page : Nat) (ea : Word) :
    readPsv k (decide (0x300 ≤ page)) .byte ea s =
      .val (zext16 (BitVec.ofNat 8 (if ea.getLsbD 0 then psvView page (s.prog.read k) / 256 else psvView page (s.prog.read k))))
        (s.setTrk { s.trk with psvRd := true }) := by
  rw [readPsv, progWord, if_pos hk, Res.bind_val, psvView_eq]
  simp only [hiByte_ofNat (psvView_lt _ _), loByte_ofNat (psvView_lt _ _), apply_ite (BitVec.ofNat 8)]

/-! ## The paged moves -/

/-- A memory byte changed, and the pc. -/
theorem frame_writeByte (a : Nat) (v : Byte) : Frame noRegs (fun k => k = a) s ((s.setMem (s.mem.write a v)).advance 1) := by
  refine (Frame.setMem s _ _ fun k hk => ?_).thenAdvance 1
  rw [Memory.read_write, if_neg hk]

theorem frame_writeWord (a : Nat) (v : Word) :
    Frame noRegs (fun k => k = a ∨ k = a + 1) s ((s.setMem (s.mem.writeWord a v)).advance 1) := by
  refine (Frame.setMem s _ _ fun k hk => ?_).thenAdvance 1
  rw [Memory.read_writeWord, if_neg fun h => hk (.inr h), if_neg fun h => hk (.inl h)]

/-- Settles O20: each move is one access, which the page register sends to one of four places. -/
theorem movPaged : Obligations.MovPaged := by
  intro w d r s hr hi h15 h14 hm trapped view
  have hp : isPaged s (.reg r r) (s.getW r) = true := isPaged_reg hr hm
  have hne : r ≠ 15 := fun h => absurd (congrArg Fin.val h) (by omega)
  have hload := fun b => exec_load_ind (b := b) hi h15 h14 w d
  have hstore := fun b => exec_store_ind (b := b) hi h15 h14 w d
  refine ⟨fun he => ⟨?psvWord, ?loadWord, ?storeWord, ?loadWordZero⟩, ?psvByte, ?loadByte, ?storeByte, ?loadByteZero, ?storeZero⟩
  case psvWord =>
    rintro k rfl hpag hk
    rw [hload, readAt_psv hne (z := .word) he (readTarget_psv hp hpag), readPsv_word hk]
    rfl
  case loadWord =>
    rintro a rfl h1 h2 ha ha'
    refine ⟨?_, (Frame.setW s d _).thenAdvance 1, State.setW_sr s d _⟩
    rw [hload, readAt_data hne (z := .word) he (readTarget_extended hp h1 h2), if_pos rfl, readDataWord_ram ha ha']
    rfl
  case storeWord =>
    rintro a rfl h1 ha ha'
    refine ⟨?_, frame_writeWord _ _, rfl⟩
    rw [hstore, writeAt_data hne (z := .word) he (writeTarget_extended hp h1), if_pos rfl, writeDataWord_ram ha ha']
    rfl
  case loadWordZero =>
    intro h0
    rw [hload, readAt_pageZero hne (z := .word) he (readTarget_pageZero hp h0), if_pos rfl]
    rfl
  case psvByte =>
    rintro k rfl hpag hk
    rw [hload, readAt_psv hne rfl (readTarget_psv hp hpag), readPsv_byte hk, Res.bind_val, Res.done_val, State.regWrite,
      loByte_zext16]
    rfl
  case loadByte =>
    rintro a rfl h1 h2 ha
    refine ⟨?_, (Frame.setWKeep s d _).thenAdvance 1, State.setWKeep_sr s d _⟩
    rw [hload, readAt_data hne rfl (readTarget_extended hp h1 h2), if_neg nofun, readDataByte_ram ha, Res.bind_val, Res.done_val,
      State.regWrite, loByte_zext16]
  case storeByte =>
    rintro a rfl h1 ha
    refine ⟨?_, frame_writeByte _ _, rfl⟩
    rw [hstore, writeAt_data hne rfl (writeTarget_extended hp h1), if_neg nofun, writeDataByte_ram ha, Res.done_val, State.regRead,
      loByte_zext16, loByte_eq_ofNat]
  case loadByteZero =>
    intro h0
    rw [hload, readAt_pageZero hne rfl (readTarget_pageZero hp h0), if_neg nofun, Res.bind_val, Res.done_val, State.regWrite,
      loByte_zext16, loByte_eq_ofNat]
    rfl
  case storeZero =>
    intro h0 b
    rw [hstore, writeAt_raises hne (.inr (writeTarget_pageZero hp h0))]
    rfl

end Sys2Proof.Machine
end

section
/-!
PROOFS. Table reads of user program space (R108, R188), with the stack checks an address formed from W15 meets (R424; log 32).
-/

namespace Sys2Proof.Machine

variable {s : State}

/-! ## The read of the word -/

/-- The stack checks trip on an address formed from `W[r]` (R176, R424). -/
def stackTrips (r : Reg) (ea : Word) (wr : Bool) (s : State) : Bool :=
  decide (r = 15 ∧ (ea < 0x1000#16 ∨ s.splimEn = true ∧ (s.splim < ea ∨ wr = true)))

/-- A stack check requests StackError if it trips, and changes nothing else. -/
theorem stackCheck_reg (r : Reg) (ea : Word) (wr : Bool) (s : State) : stackCheck (.reg r r) ea wr s =
    { s with pend := { s.pend with stack := s.pend.stack || stackTrips r ea wr s } } := by
  rw [stackCheck, stackTrips]
  by_cases h : r = 15 ∧ (ea < 0x1000#16 ∨ s.splimEn = true ∧ (s.splim < ea ∨ wr = true))
  · rw [if_pos ⟨reg_formedFrom.2 h.1, h.2.symm⟩, decide_eq_true h, Bool.or_true]
    rfl
  · rw [if_neg fun hc => h ⟨reg_formedFrom.1 hc.1, hc.2.symm⟩, decide_eq_false h, Bool.or_false]

/-- A pointer modification looks at the registers only, so the marks of a step can be set before it. -/
theorem modifyPtr_setTrk (m : Mode) (n : Reg) (k : Word) (s : State) (t : StepInfo) :
    (modifyPtr m n k s).setTrk t = modifyPtr m n k (s.setTrk t) := by
  have h : ∀ v, (s.setW n v).setTrk t = (s.setTrk t).setW n v := fun v => by
    unfold State.setW
    split <;> rfl
  cases m with
  | direct | ind | offset => rfl
  | postInc | postDec | preInc | preDec => exact h _

/-- The state a table read has made its checks in: its mark (R500), and StackError requested if its address trips (R424). -/
def tableChecked (b : Size) (p : Mode6) (r : Reg) (s : State) : State :=
  (stackCheck (.reg r r) (effAddr p.toMode r r (stepOf b) s) (effWraps p.toMode r r (stepOf b) s) s).setTrk
    { s.trk with psvRd := true }

/-- A table read of user program space takes the word at `{TBLPAG, EA}` and modifies the pointer (R108, R188). -/
theorem tableWord_ok {b : Size} {p : Mode6} {r : Reg} (hp : p ≠ .direct) (hc : pointerCheck p.toMode b r s = .val () s)
    (hw : r = 15 → s.trk.splimPrev = false) (ht : s.tblpag.toNat < 128)
    (hk : s.tblpag.toNat * 32768 + (effAddr p.toMode r r (stepOf b) s).toNat / 2 < s.dev.progWords) :
    tableWord b p r s = .val
      (s.prog.read (s.tblpag.toNat * 32768 + (effAddr p.toMode r r (stepOf b) s).toNat / 2),
        (effAddr p.toMode r r (stepOf b) s).getLsbD 0)
      (modifyPtr p.toMode r (stepOf b) (tableChecked b p r s)) := by
  have hm : s.tblpag.msb = false := by
    rw [BitVec.msb_eq_decide]
    exact decide_eq_false (by omega)
  have hh : ¬(r = 15 ∧ s.trk.splimPrev = true) := fun h => by
    rw [hw h.1] at h
    exact Bool.false_ne_true h.2
  rw [tableWord, if_neg hp, hc]
  simp only [Res.bind_val, if_neg hh, hm, Bool.false_eq_true, if_false, progWord, if_pos hk, modifyPtr_setTrk]
  rw [tableChecked, stackCheck_reg]

/-! ## The datum of the word -/

theorem zext16_ofNat {x : Byte} {k : Nat} (h : x.toNat = k) : zext16 x = BitVec.ofNat 16 k := eq_ofNat ((zext16_toNat x).trans h)

theorem tableLow_eq (b : Size) (w : PWord) (odd : Bool) : tableLow b w odd = BitVec.ofNat 16
    (if b = .word then w.toNat % 65536 else if odd then w.toNat / 256 % 256 else w.toNat % 256) := by
  cases b with
  | word => exact eq_ofNat (BitVec.toNat_setWidth 16 w)
  | byte =>
    cases odd with
    | false => exact zext16_ofNat ((toNat_extract w 0 8).trans (by rw [Nat.pow_zero, Nat.div_one]; rfl))
    | true => exact zext16_ofNat (toNat_extract w 8 8)

theorem tableHigh_eq (b : Size) (w : PWord) (odd : Bool) : tableHigh b w odd = BitVec.ofNat 16
    (if b = .word then w.toNat / 65536 else if odd then 0 else w.toNat / 65536) := by
  have hw := w.isLt
  have hx : (w.extractLsb' 16 8).toNat = w.toNat / 65536 := by
    rw [toNat_extract]
    omega
  cases b with
  | word => exact zext16_ofNat hx
  | byte =>
    cases odd with
    | false => exact zext16_ofNat hx
    | true => rfl

/-! ## The instructions -/

/-- Settles O26: the word read, the datum taken from it, and the ordinary destination it goes to. -/
theorem tableRead : Obligations.TableRead := by
  intro b q d p r s hp hi h15 h14 hb hw ea k trips s0 s1 ht hk hd pw low high
  have hs : tableChecked b p r s = s0 := by
    rw [tableChecked, stackCheck_reg]
    rfl
  have hv := tableWord_ok hp (pointerCheck_pass hi h15 h14 hb) hw ht hk
  rw [hs] at hv
  refine ⟨?low, ?high, fun v => ?frame⟩
  case low =>
    show ((tableWord b p r s).bind fun v s => writeDst q.toMode b d d (tableLow b v.1 v.2) s).done = _
    rw [hv, Res.bind_val, writeDst_ok hd, Res.done_val, tableLow_eq]
  case high =>
    show ((tableWord b p r s).bind fun v s => writeDst q.toMode b d d (tableHigh b v.1 v.2) s).done = _
    rw [hv, Res.bind_val, writeDst_ok hd, Res.done_val, tableHigh_eq]
  case frame =>
    have hf := (Frame.modifyPtr p.toMode r (stepOf b) s0).trans (Frame.dstNext q.toMode b d d v s1)
    exact (hf.mono (fun _ hx => hx) fun _ ha => ha.elim False.elim id).thenAdvance 1

end Sys2Proof.Machine
end

section
/-!
PROOFS. The decoder's answers (R131, R147): each is an instruction the operand rules allow, with a row in the table, of as many words
as the first word tells. One lemma per part of the decoder, in the decoder's order; then the step that runs what is decoded.
-/

namespace Sys2Proof.Machine

/-- The instruction's table row has an encoding, of `n` words. -/
def HasRow (n : Nat) (i : Instr) : Prop := unencoded i = false ∧ i.words = n

/-- Every instruction answered is well-formed and has a row of `n` words. -/
def AnswersRow (n : Nat) (x : Except Reject Instr) : Prop := ∀ i, x = .ok i → i.wellFormed = true ∧ HasRow n i

/-- The number of words the first word tells (R131). -/
def wordsTold (w1 : PWord) : Nat := if twoWord w1 then 2 else 1

variable {n w v c c' : Nat} {x y : Except Reject Instr}

/-! ## What the decoder is made of -/

theorem AnswersRow.error (e : Reject) : AnswersRow n (.error e) := fun _ h => nomatch h

theorem AnswersRow.checked {i : Instr} (h : HasRow n i) : AnswersRow n (checked i) := by
  intro j e
  unfold Sys2Proof.checked at e
  split at e
  · next hw => cases e; exact ⟨hw, h⟩
  · cases e

theorem AnswersRow.ite {p : Prop} [Decidable p] (hx : p → AnswersRow n x) (hy : AnswersRow n y) :
    AnswersRow n (if p then x else y) := by
  split
  · next h => exact hx h
  · exact hy

theorem AnswersRow.fixedBits {b : Bool} (hx : AnswersRow n x) : AnswersRow n (fixedBits b x) := .ite (fun _ => hx) (.error _)

theorem AnswersRow.withMode {f : Mode6 → Instr} (h : ∀ p, HasRow n (f p)) : AnswersRow n (withMode c f) := by
  unfold Sys2Proof.withMode
  split
  · exact .checked (h _)
  · exact .error _

theorem AnswersRow.withModes {f : Mode6 → Mode6 → Instr} (h : ∀ q p, HasRow n (f q p)) : AnswersRow n (withModes c c' f) := by
  unfold Sys2Proof.withModes
  split
  · exact .checked (h _ _)
  · exact .error _

theorem AnswersRow.withPair {f : MulPair → Instr} (h : ∀ m, HasRow n (f m)) : AnswersRow n (withPair c f) := by
  unfold Sys2Proof.withPair
  split
  · exact .checked (h _)
  · exact .error _

theorem decodeTwo_row {f : Size → Mode6 → Reg → Mode6 → Reg → Instr} (h : ∀ b q d p r, HasRow n (f b q d p r)) :
    AnswersRow n (decodeTwo w f) :=
  .withModes fun _ _ => h _ _ _ _ _

theorem decodeDiv_row {f : Bool → Reg → Reg → Instr} (h : ∀ l a r, HasRow n (f l a r)) : AnswersRow n (decodeDiv w f) :=
  .ite (fun _ => .ite (fun _ => .ite (fun _ => .checked (h _ _ _)) (.error _))
    (.ite (fun _ => .checked (h _ _ _)) (.error _))) (.error _)

theorem decodeShift_row {f : Reg → Reg → Reg → Instr} {g : Reg → Reg → BitVec 4 → Instr}
    (hf : ∀ a d r, HasRow n (f a d r)) (hg : ∀ a d k, HasRow n (g a d k)) : AnswersRow n (decodeShift w f g) :=
  .ite (fun _ => .checked (hf _ _ _)) (.fixedBits (.checked (hg _ _ _)))

theorem decodeTarget_row {f : BitVec 22 → Instr} (h : w % 2 = 0 → ∀ t, HasRow n (f t)) : AnswersRow n (decodeTarget w v f) :=
  .ite (fun e => .ite (fun _ => .checked (h e _)) (.error _)) (.error _)

/-! ## The groups of the first hexadecimal digit -/

/-- Words 0x02, 0x04 and 0x08 apart, no first word tells a second one. -/
theorem wordsTold_eq_one {w1 : PWord} (h : ¬(w1.toNat / 65536 = 2 ∨ w1.toNat / 65536 = 4 ∨ w1.toNat / 65536 = 8)) :
    wordsTold w1 = 1 := by
  obtain ⟨h2, h4, h8⟩ : w1.toNat / 65536 ≠ 2 ∧ w1.toNat / 65536 ≠ 4 ∧ w1.toNat / 65536 ≠ 8 := by omega
  simp only [wordsTold, twoWord]
  split <;> simp_all

theorem decode0_row (w1 : PWord) : AnswersRow (wordsTold w1) (decode0 w1.toNat v) := by
  unfold decode0
  split
  case h_3 e | h_4 e => exact decodeTarget_row fun hw _ => ⟨rfl, by simp [wordsTold, twoWord, e, hw, Instr.words]⟩
  case h_8 e =>
    have told (h : w1.toNat % 65536 < 32768 ∨ field w1.toNat 4 12 = 0x800) : wordsTold w1 = 2 := by
      simp [wordsTold, twoWord, e, h]
    refine .ite (fun h => ?_) (.ite (fun h => ?_) (.error _))
    · exact told (.inl h) ▸ .ite (fun _ => .checked ⟨rfl, rfl⟩) (.error _)
    · exact told (.inr h) ▸ .ite (fun _ => .checked ⟨rfl, rfl⟩) (.error _)
  case h_14 => exact .error _
  all_goals rw [wordsTold_eq_one (by omega)]
  case h_2 | h_5 => exact .fixedBits (.checked ⟨rfl, rfl⟩)
  case h_6 => exact .ite (fun _ => .checked ⟨rfl, rfl⟩) (.ite (fun _ => .checked ⟨rfl, rfl⟩) (.error _))
  case h_9 => exact .ite (fun _ => .checked ⟨rfl, rfl⟩) (.fixedBits (.checked ⟨rfl, rfl⟩))
  all_goals exact .checked ⟨rfl, rfl⟩

theorem decode3_row : AnswersRow 1 (decode3 w) := by
  unfold decode3
  split
  case h_16 => exact .error _
  all_goals exact .checked ⟨rfl, rfl⟩

theorem decode4_row : AnswersRow 1 (decode4 w) := by
  refine .ite (fun _ => .withMode fun _ => ?_) (.error _)
  split
  · exact ⟨rfl, rfl⟩
  · split <;> exact ⟨rfl, rfl⟩

theorem decode7_row : AnswersRow 1 (decode7 w) := .fixedBits (.checked ⟨rfl, rfl⟩)

theorem decode8_row : AnswersRow 1 (decode8 w) := .ite (fun _ => .checked ⟨rfl, rfl⟩) (.checked ⟨rfl, rfl⟩)

theorem decodeA_row : AnswersRow 1 (decodeA w) := by
  unfold decodeA
  split
  case h_1 | h_2 => exact .fixedBits (.withMode fun _ => ⟨rfl, rfl⟩)
  case h_3 | h_4 => exact .checked ⟨rfl, rfl⟩
  case h_5 => exact .error _

theorem decodeB_row : AnswersRow 1 (decodeB w) := by
  unfold decodeB
  split
  case h_1 | h_3 | h_16 => exact .checked ⟨rfl, rfl⟩
  case h_2 | h_4 | h_13 => exact .fixedBits (.checked ⟨rfl, rfl⟩)
  case h_5 | h_7 =>
    exact .ite (fun _ => .checked ⟨rfl, rfl⟩) (.ite (fun _ => .checked ⟨rfl, rfl⟩) (.checked ⟨rfl, rfl⟩))
  case h_6 | h_8 => exact .withMode fun _ => ⟨rfl, rfl⟩
  case h_9 | h_10 | h_11 | h_12 => exact decodeTwo_row fun _ _ _ _ _ => ⟨rfl, rfl⟩
  case h_14 | h_15 => exact .fixedBits (.withMode fun _ => ⟨rfl, rfl⟩)
  case h_17 => exact .error _

theorem decodeC_row : AnswersRow 1 (decodeC w) := by
  refine .ite (fun _ => .withPair fun _ => ?_) ?_
  · split <;> split
    · exact ⟨rfl, rfl⟩
    · split <;> exact ⟨rfl, rfl⟩
    · exact ⟨rfl, rfl⟩
    · split <;> exact ⟨rfl, rfl⟩
  · split
    case h_1 => exact .ite (fun _ => .checked ⟨rfl, rfl⟩) (.fixedBits (.checked ⟨rfl, rfl⟩))
    case h_2 | h_3 | h_5 | h_6 => exact .checked ⟨rfl, rfl⟩
    case h_4 => exact .fixedBits (.checked ⟨rfl, rfl⟩)
    case h_7 => exact .error _

theorem decodeD_row : AnswersRow 1 (decodeD w) := by
  unfold decodeD
  split
  case h_1 | h_2 | h_3 => exact decodeTwo_row fun _ _ _ _ _ => ⟨rfl, rfl⟩
  case h_4 | h_5 | h_6 => exact .checked ⟨rfl, rfl⟩
  case h_7 | h_8 => exact decodeDiv_row fun _ _ _ => ⟨rfl, rfl⟩
  case h_9 => exact .fixedBits (.checked ⟨rfl, rfl⟩)
  case h_10 | h_11 | h_12 => exact decodeShift_row (fun _ _ _ => ⟨rfl, rfl⟩) fun _ _ _ => ⟨rfl, rfl⟩
  case h_13 => exact .error _

theorem decodeF_row : AnswersRow 1 (decodeF w) := by
  refine .ite (fun _ => .ite (fun _ => ?square) (.ite (fun _ => ?distance) (.error _))) ?system
  case square | distance =>
    split
    case h_3 => exact .error _
    all_goals exact .checked ⟨rfl, rfl⟩
  case system =>
    split
    case h_1 => exact .ite (fun _ => .fixedBits (.checked ⟨rfl, rfl⟩)) (.fixedBits (.checked ⟨rfl, rfl⟩))
    case h_2 => exact .ite (fun _ => .withMode fun _ => ⟨rfl, rfl⟩) (.fixedBits (.withMode fun _ => ⟨rfl, rfl⟩))
    case h_3 => exact .fixedBits (.checked ⟨rfl, rfl⟩)
    case h_4 =>
      exact .ite (fun _ => .checked ⟨rfl, rfl⟩) (.ite (fun _ => .checked ⟨rfl, rfl⟩)
        (.ite (fun _ => .checked ⟨rfl, rfl⟩) (.fixedBits (.checked ⟨rfl, rfl⟩))))
    case h_5 => exact .error _

/-! ## The decoder -/

theorem decode_row (w1 w2 : PWord) : AnswersRow (wordsTold w1) (decode w1 w2) := by
  unfold decode decodeNat
  split
  case h_1 => exact decode0_row w1
  case h_12 => exact .error _
  all_goals rw [wordsTold_eq_one (by omega)]
  case h_2 => exact .checked ⟨rfl, rfl⟩
  case h_3 => exact decode3_row
  case h_4 => exact decode4_row
  case h_5 => exact decode7_row
  case h_6 => exact decode8_row
  case h_7 => exact decodeA_row
  case h_8 => exact decodeB_row
  case h_9 => exact decodeC_row
  case h_10 => exact decodeD_row
  case h_11 => exact decodeF_row

/-- Settles O2: each row the decoder can answer, in the order it looks for them. -/
theorem decodedIsWellFormed : Obligations.DecodedIsWellFormed := by
  intro w1 w2 i h
  obtain ⟨hw, hu, hn⟩ := decode_row w1 w2 i h
  exact ⟨hw, hu, hn⟩

/-! ## The step -/

/-- Settles O6: the step concludes the run of the instruction its words decode to. -/
theorem stepRunsDecoded : Obligations.StepRunsDecoded := by
  intro i s b hb hn hf hc
  subst hb
  exact step_concludes hn (fetchDecode_ok hf) hc

end Sys2Proof.Machine
end

section
/-!
PROOFS. The decoder reads back what the encoder writes (R131, R138 to R143, R147). The fields of a word are read off its number by
division and remainder; rows of one shape share a lemma, in which the rows differ by the word's fixed bits and the constructor alone.
-/

namespace Sys2Proof.Machine

open Sys2Proof.Laws.EncodeShape (size_code fdest_code acc_code mode_code mode6_code post_code dreg_code pair_code prefetch_code)

/-! ## Reading fields

The hypotheses are about the word's number, where `omega` sees them. -/

theorem preMode_code_lt (p : PreMode) : p.code < 2 := by cases p <;> decide

variable {w lo n : Nat}

theorem field_eq {k : Nat} (h : w / 2 ^ lo % 2 ^ n = k) : field w lo n = k := h

theorem field_ne {k : Nat} (h : w / 2 ^ lo % 2 ^ n ≠ k) : field w lo n ≠ k := h

theorem Size.ofCode_field {b : Size} (h : w / 2 ^ lo % 2 ^ n = b.code) : Size.ofCode (field w lo n) = b := by
  rw [field, h]; cases b <;> rfl

theorem FDest.ofCode_field {t : FDest} (h : w / 2 ^ lo % 2 ^ n = t.code) : FDest.ofCode (field w lo n) = t := by
  rw [field, h]; cases t <;> rfl

theorem Acc.ofCode_field {a : Acc} (h : w / 2 ^ lo % 2 ^ n = a.code) : Acc.ofCode (field w lo n) = a := by
  rw [field, h]; cases a <;> rfl

theorem Mode.ofCode_field {m : Mode} (h : w / 2 ^ lo % 2 ^ n = m.code) : Mode.ofCode (field w lo n) = m := by
  rw [field, h]; cases m <;> rfl

theorem Mode6.ofCode_field {p : Mode6} (h : w / 2 ^ lo % 2 ^ n = p.code) : Mode6.ofCode (field w lo n) = some p := by
  rw [field, h]; cases p <;> rfl

theorem PostMode.ofCode_field {p : PostMode} (h : w / 2 ^ lo % 2 ^ n = p.code) : PostMode.ofCode (field w lo n) = p := by
  rw [field, h]; cases p <;> rfl

theorem PreMode.ofCode_field {p : PreMode} (h : w / 2 ^ lo % 2 ^ n = p.code) : PreMode.ofCode (field w lo n) = p := by
  rw [field, h]; cases p <;> rfl

theorem DReg.ofCode_field {x : DReg} (h : w / 2 ^ lo % 2 ^ n = x.code) : DReg.ofCode (field w lo n) = x := by
  rw [field, h]; cases x <;> rfl

theorem MulPair.ofCode_field {m : MulPair} (h : w / 2 ^ lo % 2 ^ n = m.code) : MulPair.ofCode (field w lo n) = some m := by
  rw [field, h]; cases m <;> rfl


theorem Prefetch.ofCode_field {i : Prefetch} (h : w / 2 ^ lo % 2 ^ n = i.code) : Prefetch.ofCode (field w lo n) = i := by
  rw [field, h]
  rcases i with _ | ⟨b, k⟩ | _
  · rfl
  · cases b <;> cases k <;> rfl
  · rfl

theorem ofNat_eq_of_mod {n x : Nat} {k : BitVec n} (h : x % 2 ^ n = k.toNat) : BitVec.ofNat n x = k :=
  BitVec.eq_of_toNat_eq ((BitVec.toNat_ofNat x n).trans h)

theorem litAt_eq {k : BitVec n} (h : w / 2 ^ lo % 2 ^ n = k.toNat) : litAt n w lo = k := ofNat_eq_of_mod h

theorem regAt_eq {r : Reg} (h : w / 2 ^ lo % 16 = r.val) : regAt w lo = r := Fin.ext h

theorem checked_ok {i : Instr} (h : i.wellFormed = true) : checked i = .ok i := if_pos h

theorem fixedBits_pos {p : Prop} [Decidable p] {x : Except Reject Instr} (h : p) : fixedBits (decide p) x = x :=
  if_pos (decide_eq_true h)

theorem withMode_eq {p : Mode6} {f : Mode6 → Instr} (h : w / 2 ^ lo % 2 ^ n = p.code) :
    withMode (field w lo n) f = checked (f p) := by
  rw [withMode, Mode6.ofCode_field h]

theorem withModes_eq {lo' n' : Nat} {q p : Mode6} {f : Mode6 → Mode6 → Instr} (h : w / 2 ^ lo % 2 ^ n = q.code)
    (h' : w / 2 ^ lo' % 2 ^ n' = p.code) : withModes (field w lo n) (field w lo' n') f = checked (f q p) := by
  rw [withModes, Mode6.ofCode_field h, Mode6.ofCode_field h']

theorem withPair_eq {m : MulPair} {f : MulPair → Instr} (h : w / 2 ^ lo % 2 ^ n = m.code) :
    withPair (field w lo n) f = checked (f m) := by
  rw [withPair, MulPair.ofCode_field h]

/-- The word's first hexadecimal digit, from its bits `k` and up. -/
theorem digit_of_top {k t : Nat} (h : w / 2 ^ k = t) (hk : k ≤ 20) : w / 1048576 = t / 2 ^ (20 - k) := by
  rw [← h, Nat.div_div_eq_div_mul, ← Nat.pow_add, Nat.add_sub_cancel' hk]

theorem byte_of_top {t : Nat} (h : w / 2 ^ 16 = t) : w / 65536 = t := h

/-- A field above bit `k`, from the bits `k` and up. -/
theorem field_of_top {k t : Nat} (h : w / 2 ^ k = t) (hk : k ≤ lo) : field w lo n = t / 2 ^ (lo - k) % 2 ^ n := by
  rw [field, ← h, Nat.div_div_eq_div_mul, ← Nat.pow_add, Nat.add_sub_cancel' hk]

/-! ## Reading back -/

/-- What O1 says of an instruction, of the numbers of its words. -/
def ReadBack (i : Instr) : Prop :=
  i.wellFormed = true →
    match encodeNat i with
    | [w] => i.words = 1 ∧ ∀ v, decodeNat w v = .ok i
    | [w, v] => i.words = 2 ∧ v < 2 ^ 24 ∧ decodeNat w v = .ok i
    | _ => unencoded i = true

theorem ReadBack.one {i : Instr} {x : Nat} (hn : i.words = 1) (he : encodeNat i = [x])
    (h : i.wellFormed = true → ∀ v w, x = w → decodeNat w v = .ok i) : ReadBack i := fun hw => by
  rw [he]
  exact ⟨hn, fun v => h hw v x rfl⟩

theorem ReadBack.two {i : Instr} {x y : Nat} (hn : i.words = 2) (he : encodeNat i = [x, y]) (hy : y < 2 ^ 24)
    (h : i.wellFormed = true → ∀ w, x = w → decodeNat w y = .ok i) : ReadBack i := fun hw => by
  rw [he]
  exact ⟨hn, hy, h hw x rfl⟩

theorem ReadBack.none {i : Instr} (hu : unencoded i = true) (he : encodeNat i = []) : ReadBack i := fun _ => by
  rw [he]
  exact hu

/-! ## Rows of one shape -/

/-- A fixed byte and a literal of 16 bits. -/
theorem ReadBack.lit16 {f : BitVec 16 → Instr} {op : Nat} {n : BitVec 16} (hn : (f n).words = 1)
    (he : encodeNat (f n) = [op + n.toNat]) (hop : op % 65536 = 0)
    (row : ∀ w v, w / 2 ^ 16 = op / 65536 → decodeNat w v = checked (f (litAt 16 w 0))) : ReadBack (f n) := by
  refine .one hn he fun hw v w e => ?_
  rw [row w v (by omega), litAt_eq (k := n) (by omega)]
  exact checked_ok hw

theorem ReadBack.target {f : BitVec 22 → Instr} {op : Nat} {t : BitVec 22} (hn : (f t).words = 2)
    (he : encodeNat (f t) = [op + t.toNat % 32768 * 2, t.toNat / 32768]) (hop : op % 65536 = 0)
    (row : ∀ w v, w / 2 ^ 16 = op / 65536 → decodeNat w v = decodeTarget w v f) : ReadBack (f t) := by
  refine .two hn he (by omega) fun hw w e => ?_
  rw [row w _ (by omega), decodeTarget, if_pos (by omega), if_pos (by omega), field_eq (k := t.toNat % 32768) (by omega),
    ofNat_eq_of_mod (k := t) (by omega)]
  exact checked_ok hw

theorem ReadBack.twoOperand {f : Size → Mode6 → Reg → Mode6 → Reg → Instr} {op : Nat} {b : Size} {q p : Mode6} {d r : Reg}
    (hn : (f b q d p r).words = 1) (he : encodeNat (f b q d p r) = encTwo op b q d p r) (hop : op % 32768 = 0)
    (row : ∀ w v, w / 2 ^ 15 = op / 32768 → decodeNat w v = decodeTwo w f) : ReadBack (f b q d p r) := by
  have hb := size_code b
  have hq := mode6_code q
  have hp := mode6_code p
  refine .one hn he fun hw v w e => ?_
  rw [row w v (by omega), decodeTwo, withModes_eq (q := q) (p := p) (by omega) (by omega), Size.ofCode_field (b := b) (by omega),
    regAt_eq (r := d) (by omega), regAt_eq (r := r) (by omega)]
  exact checked_ok hw

theorem ReadBack.fileDest {f : Size → FDest → BitVec 13 → Instr} {op : Nat} {b : Size} {t : FDest} {k : BitVec 13}
    (hn : (f b t k).words = 1) (he : encodeNat (f b t k) = encFile op b t k) (hop : op % 32768 = 0)
    (row : ∀ w v, w / 2 ^ 15 = op / 32768 → decodeNat w v = decodeFile w f) : ReadBack (f b t k) := by
  have hb := size_code b
  have ht := fdest_code t
  refine .one hn he fun hw v w e => ?_
  rw [row w v (by omega), decodeFile, Size.ofCode_field (b := b) (by omega), FDest.ofCode_field (t := t) (by omega),
    litAt_eq (k := k) (by omega)]
  exact checked_ok hw

theorem ReadBack.accMove {f : Acc → Reg → BitVec 4 → Mode → Reg → Instr} {op : Nat} {a : Acc} {o r : Reg} {k : BitVec 4}
    {g : Mode}
    (hn : (f a o k g r).words = 1) (he : encodeNat (f a o k g r) = encAccMove op a o k g r) (hop : op % 65536 = 0)
    (row : ∀ w v, w / 2 ^ 16 = op / 65536 → decodeNat w v = checked (f (Acc.ofCode (field w 15 1)) (regAt w 11) (litAt 4 w 7)
      (Mode.ofCode (field w 4 3)) (regAt w 0))) : ReadBack (f a o k g r) := by
  have ha := acc_code a
  have hg := mode_code g
  refine .one hn he fun hw v w e => ?_
  rw [row w v (by omega), Acc.ofCode_field (a := a) (by omega), regAt_eq (r := o) (by omega), litAt_eq (k := k) (by omega),
    Mode.ofCode_field (m := g) (by omega), regAt_eq (r := r) (by omega)]
  exact checked_ok hw

/-- The high half of a 32-bit dividend has a number below 16, because the low half's is even (R300). -/
theorem ReadBack.divide {f : Bool → Reg → Reg → Instr} {op : Nat} {l : Bool} {m r : Reg}
    (hd : (f l m r).wellFormed = dividendOk l m) (hn : (f l m r).words = 1) (he : encodeNat (f l m r) = encDiv op l m r)
    (hop : op % 32768 = 0) (row : ∀ w v, w / 2 ^ 15 = op / 32768 → decodeNat w v = decodeDiv w f) : ReadBack (f l m r) := by
  cases l with
  | false =>
    refine .one hn he fun hw v w e => ?_
    rw [row w v (by omega), decodeDiv, if_pos (field_eq (by omega)), if_pos (field_eq (by omega)), if_pos (field_eq (by omega)),
      regAt_eq (r := m) (by omega), regAt_eq (r := r) (by omega)]
    exact checked_ok hw
  | true =>
    refine .one hn he fun hw v w e => ?_
    have hm : m.val % 2 = 0 := by simpa [hd, dividendOk] using hw
    have top : w / 2 ^ 11 = op / 32768 * 16 + (m.val + 1) := by omega
    have high : field w 11 4 = field w 7 4 + 1 := by
      rw [field_eq (k := m.val + 1) (by omega), field_eq (k := m.val) (by omega)]
    rw [row w v (by omega), decodeDiv, if_pos (field_eq (by omega)), if_neg (field_ne (by omega)), if_pos high,
      regAt_eq (r := m) (by omega), regAt_eq (r := r) (by omega)]
    exact checked_ok hw

/-! ## Shifts and multiplies -/

section
variable {op : Nat} {a d r : Reg}

theorem ReadBack.shiftReg {f : Reg → Reg → Reg → Instr} {g : Reg → Reg → BitVec 4 → Instr}
    (hn : (f a d r).words = 1) (he : encodeNat (f a d r) = encWD op a d r.val) (hop : op % 32768 = 0)
    (row : ∀ w v, w / 2 ^ 15 = op / 32768 → decodeNat w v = decodeShift w f g) : ReadBack (f a d r) := by
  refine .one hn he fun hw v w e => ?_
  rw [row w v (by omega), decodeShift, if_pos (field_eq (by omega)), regAt_eq (r := a) (by omega), regAt_eq (r := d) (by omega),
    regAt_eq (r := r) (by omega)]
  exact checked_ok hw

theorem ReadBack.shiftLit4 {f : Reg → Reg → Reg → Instr} {g : Reg → Reg → BitVec 4 → Instr} {k : BitVec 4}
    (hn : (g a d k).words = 1)
    (he : encodeNat (g a d k) = encWD op a d k.toNat) (hop : op % 32768 = 0x40)
    (row : ∀ w v, w / 2 ^ 15 = op / 32768 → decodeNat w v = decodeShift w f g) : ReadBack (g a d k) := by
  refine .one hn he fun hw v w e => ?_
  rw [row w v (by omega), decodeShift, if_neg (field_ne (by omega)), fixedBits_pos (field_eq (by omega)),
    regAt_eq (r := a) (by omega), regAt_eq (r := d) (by omega), litAt_eq (k := k) (by omega)]
  exact checked_ok hw

theorem ReadBack.mulMode6 {f : Reg → Reg → Mode6 → Reg → Instr} {p : Mode6} (hn : (f a d p r).words = 1)
    (he : encodeNat (f a d p r) = encWD op a d (p.code * 2 ^ 4 + r.val)) (hop : op % 32768 = 0)
    (row : ∀ w v, w / 2 ^ 15 = op / 32768 →
      decodeNat w v = withMode (field w 4 3) fun p => f (regAt w 11) (regAt w 7) p (regAt w 0)) : ReadBack (f a d p r) := by
  have hp := mode6_code p
  refine .one hn he fun hw v w e => ?_
  rw [row w v (by omega), withMode_eq (p := p) (by omega), regAt_eq (r := a) (by omega), regAt_eq (r := d) (by omega),
    regAt_eq (r := r) (by omega)]
  exact checked_ok hw

/-- The three rows of `MUL.UU` or of `MUL.SU`, told apart by bits 6:5, in the words of top nine bits `t`. -/
def MulRows (t : Nat) (f : Reg → Reg → PostMode → Reg → Instr) (g : Reg → Reg → PreMode → Reg → Instr)
    (l : Reg → Reg → BitVec 5 → Instr) : Prop :=
  ∀ w v, w / 2 ^ 15 = t → decodeNat w v =
    if field w 6 1 = 0 then checked (f (regAt w 11) (regAt w 7) (PostMode.ofCode (field w 4 2)) (regAt w 0))
    else if field w 5 1 = 0 then checked (g (regAt w 11) (regAt w 7) (PreMode.ofCode (field w 4 1)) (regAt w 0))
    else checked (l (regAt w 11) (regAt w 7) (litAt 5 w 0))

theorem mulUU_rows : MulRows 0x170 .mulUU .mulUUPre .mulUULit5 := fun w v h => by
  simp [decodeNat, digit_of_top h, decodeB, field_of_top h]

theorem mulSU_rows : MulRows 0x172 .mulSU .mulSUPre .mulSULit5 := fun w v h => by
  simp [decodeNat, digit_of_top h, decodeB, field_of_top h]

variable {f : Reg → Reg → PostMode → Reg → Instr} {g : Reg → Reg → PreMode → Reg → Instr}
  {l : Reg → Reg → BitVec 5 → Instr} {t : Nat}

theorem ReadBack.mulPost {p : PostMode} (rows : MulRows t f g l) (hn : (f a d p r).words = 1)
    (he : encodeNat (f a d p r) = encWD (t * 32768) a d (p.code * 2 ^ 4 + r.val)) : ReadBack (f a d p r) := by
  have hp := post_code p
  refine .one hn he fun hw v w e => ?_
  rw [rows w v (by omega), if_pos (field_eq (by omega)), PostMode.ofCode_field (p := p) (by omega), regAt_eq (r := a) (by omega),
    regAt_eq (r := d) (by omega), regAt_eq (r := r) (by omega)]
  exact checked_ok hw

theorem ReadBack.mulPre {p : PreMode} (rows : MulRows t f g l) (hn : (g a d p r).words = 1)
    (he : encodeNat (g a d p r) = encWD (t * 32768 + 0x40) a d (p.code * 2 ^ 4 + r.val)) : ReadBack (g a d p r) := by
  have hp := preMode_code_lt p
  refine .one hn he fun hw v w e => ?_
  rw [rows w v (by omega), if_neg (field_ne (by omega)), if_pos (field_eq (by omega)), PreMode.ofCode_field (p := p) (by omega),
    regAt_eq (r := a) (by omega), regAt_eq (r := d) (by omega), regAt_eq (r := r) (by omega)]
  exact checked_ok hw

theorem ReadBack.mulLit5 {k : BitVec 5} (rows : MulRows t f g l) (hn : (l a d k).words = 1)
    (he : encodeNat (l a d k) = encWD (t * 32768 + 0x60) a d k.toNat) : ReadBack (l a d k) := by
  refine .one hn he fun hw v w e => ?_
  rw [rows w v (by omega), if_neg (field_ne (by omega)), if_neg (field_ne (by omega)), regAt_eq (r := a) (by omega),
    regAt_eq (r := d) (by omega), litAt_eq (k := k) (by omega)]
  exact checked_ok hw

end

/-! ## The multiply class -/

section
variable {op : Nat} {a : Acc} {x y : DReg} {i j : Prefetch}

/-- The fields of a word of the multiply class; `k` is the field at bit 16, and `op` the fixed bits around them. -/
theorem dspFields_eq {f : Acc → DReg → DReg → Prefetch → Prefetch → Instr} {w k : Nat}
    (hop : op % 16384 < 4 ∧ op / 32768 % 2 = 0)
    (e : op + k * 2 ^ 16 + a.code * 2 ^ 15 + x.code * 2 ^ 12 + y.code * 2 ^ 10 + i.code * 2 ^ 6 + j.code * 2 ^ 2 = w) :
    dspFields w f = f a x y i j := by
  have ha := acc_code a
  have hx := dreg_code x
  have hy := dreg_code y
  have hi := prefetch_code i
  have hj := prefetch_code j
  rw [dspFields, Acc.ofCode_field (a := a) (by omega), DReg.ofCode_field (x := x) (by omega), DReg.ofCode_field (x := y) (by omega),
    Prefetch.ofCode_field (i := i) (by omega), Prefetch.ofCode_field (i := j) (by omega)]

/-- A row of the multiply class with two operand registers: bits 14, 1 and 0 tell which. -/
theorem ReadBack.multiply {f : MulPair → Acc → DReg → DReg → Prefetch → Prefetch → Instr} {m : MulPair}
    (hn : (f m a x y i j).words = 1) (he : encodeNat (f m a x y i j) = encDsp op m.code a x.code y.code i j)
    (hop : op / 32768 = 0x180 ∧ op % 16384 < 4)
    (row : ∀ w v, w / 2 ^ 19 = 0x18 → field w 14 1 = op / 16384 % 2 → field w 1 1 = op / 2 % 2 → field w 0 1 = op % 2 →
      decodeNat w v = withPair (field w 16 3) fun m => dspFields w (f m)) : ReadBack (f m a x y i j) := by
  have hm := pair_code m
  have ha := acc_code a
  have hx := dreg_code x
  have hy := dreg_code y
  have hi := prefetch_code i
  have hj := prefetch_code j
  refine .one hn he fun hw v w e => ?_
  rw [row w v (by omega) (field_eq (by omega)) (field_eq (by omega)) (field_eq (by omega)), withPair_eq (m := m) (by omega),
    dspFields_eq (by omega) e]
  exact checked_ok hw

/-- A row of the multiply class that squares: bits 14, 1 and 0 tell which, and for a distance bits 11:10 are 00. -/
theorem ReadBack.square {f : DReg → Acc → DReg → DReg → Prefetch → Prefetch → Instr} {m : DReg}
    (hn : (f m a x y i j).words = 1) (he : encodeNat (f m a x y i j) = encDsp op m.code a x.code y.code i j)
    (hop : op / 32768 = 0x1E0 ∧ op % 16384 < 4)
    (row : ∀ w v, w / 2 ^ 18 = 0x3C → field w 14 1 = op / 16384 % 2 → field w 10 2 = y.code → field w 0 2 = op % 4 →
      decodeNat w v = checked (dspFields w (f (DReg.ofCode (field w 16 2))))) : ReadBack (f m a x y i j) := by
  have hm := dreg_code m
  have ha := acc_code a
  have hx := dreg_code x
  have hy := dreg_code y
  have hi := prefetch_code i
  have hj := prefetch_code j
  refine .one hn he fun hw v w e => ?_
  rw [row w v (by omega) (field_eq (by omega)) (field_eq (by omega)) (field_eq (by omega)), DReg.ofCode_field (x := m) (by omega),
    dspFields_eq (by omega) e]
  exact checked_ok hw

end

/-! ## The other rows -/

section
variable {a d r : Reg} {b : Size} {p q : Mode6} {k4 : BitVec 4}

theorem ReadBack.callWn : ReadBack (.callWn r) := by
  refine .one rfl rfl fun hw v w e => ?_
  have byte : w / 65536 = 1 := by omega
  have digit : w / 1048576 = 0 := by omega
  simp only [decodeNat, digit, decode0, byte]
  rw [fixedBits_pos (by omega), regAt_eq (r := r) (by omega)]
  exact checked_ok hw

theorem ReadBack.retlw {k : BitVec 10} : ReadBack (.retlw b k d) := by
  refine .one rfl rfl fun hw v w e => ?_
  have hb := size_code b
  have byte : w / 65536 = 5 := by omega
  have digit : w / 1048576 = 0 := by omega
  simp only [decodeNat, digit, decode0, byte]
  rw [fixedBits_pos (field_eq (by omega)), Size.ofCode_field (b := b) (by omega), litAt_eq (k := k) (by omega),
    regAt_eq (r := d) (by omega)]
  exact checked_ok hw

theorem ReadBack.doLit {k : BitVec 15} {n : BitVec 16} : ReadBack (.doLit k n) := by
  refine .two rfl rfl (by omega) fun hw w e => ?_
  have byte : w / 65536 = 8 := by omega
  have digit : w / 1048576 = 0 := by omega
  simp only [decodeNat, digit, decode0, byte]
  rw [if_pos (by omega), if_pos (by omega), litAt_eq (k := k) (by omega), ofNat_eq_of_mod (k := n) (by omega)]
  exact checked_ok hw

theorem ReadBack.doWn {n : BitVec 16} : ReadBack (.doWn r n) := by
  refine .two rfl rfl (by omega) fun hw w e => ?_
  have byte : w / 65536 = 8 := by omega
  have digit : w / 1048576 = 0 := by omega
  simp only [decodeNat, digit, decode0, byte]
  rw [if_neg (by omega), if_pos (field_eq (by omega)), if_pos (by omega), regAt_eq (r := r) (by omega),
    ofNat_eq_of_mod (k := n) (by omega)]
  exact checked_ok hw

theorem ReadBack.repeatLit {k : BitVec 15} : ReadBack (.repeatLit k) := by
  refine .one rfl rfl fun hw v w e => ?_
  have byte : w / 65536 = 9 := by omega
  have digit : w / 1048576 = 0 := by omega
  simp only [decodeNat, digit, decode0, byte]
  rw [if_pos (by omega), litAt_eq (k := k) (by omega)]
  exact checked_ok hw

theorem ReadBack.repeatWn : ReadBack (.repeatWn r) := by
  refine .one rfl rfl fun hw v w e => ?_
  have byte : w / 65536 = 9 := by omega
  have digit : w / 1048576 = 0 := by omega
  simp only [decodeNat, digit, decode0, byte]
  rw [if_neg (by omega), fixedBits_pos (field_eq (by omega)), regAt_eq (r := r) (by omega)]
  exact checked_ok hw

theorem ReadBack.movLit16 {k : BitVec 16} : ReadBack (.movLit16 k d) := by
  refine .one rfl rfl fun hw v w e => ?_
  have digit : w / 1048576 = 2 := by omega
  simp only [decodeNat, digit]
  rw [litAt_eq (k := k) (by omega), regAt_eq (r := d) (by omega)]
  exact checked_ok hw

theorem ReadBack.addWbWsWd {p : PostMode} : ReadBack (.addWbWsWd a b q d p r) := by
  have hb := size_code b
  have hq := mode6_code q
  have hp := post_code p
  refine .one rfl rfl fun hw v w e => ?_
  have digit : w / 1048576 = 4 := by omega
  simp only [decodeNat, digit, decode4]
  rw [if_pos (field_eq (by omega)), withMode_eq (p := q) (by omega), if_pos (field_eq (by omega)), regAt_eq (r := a) (by omega),
    Size.ofCode_field (b := b) (by omega), regAt_eq (r := d) (by omega), PostMode.ofCode_field (p := p) (by omega),
    regAt_eq (r := r) (by omega)]
  exact checked_ok hw

theorem ReadBack.addWbWsWdPre {p : PreMode} : ReadBack (.addWbWsWdPre a b q d p r) := by
  have hb := size_code b
  have hq := mode6_code q
  have hp := preMode_code_lt p
  refine .one rfl rfl fun hw v w e => ?_
  have digit : w / 1048576 = 4 := by omega
  simp only [decodeNat, digit, decode4]
  rw [if_pos (field_eq (by omega)), withMode_eq (p := q) (by omega), if_neg (field_ne (by omega)), if_pos (field_eq (by omega)),
    regAt_eq (r := a) (by omega), Size.ofCode_field (b := b) (by omega), regAt_eq (r := d) (by omega),
    PreMode.ofCode_field (p := p) (by omega), regAt_eq (r := r) (by omega)]
  exact checked_ok hw

theorem ReadBack.addWbLit5 {k : BitVec 5} : ReadBack (.addWbLit5 a b q d k) := by
  have hb := size_code b
  have hq := mode6_code q
  refine .one rfl rfl fun hw v w e => ?_
  have digit : w / 1048576 = 4 := by omega
  simp only [decodeNat, digit, decode4]
  rw [if_pos (field_eq (by omega)), withMode_eq (p := q) (by omega), if_neg (field_ne (by omega)), if_neg (field_ne (by omega)),
    regAt_eq (r := a) (by omega), Size.ofCode_field (b := b) (by omega), regAt_eq (r := d) (by omega), litAt_eq (k := k) (by omega)]
  exact checked_ok hw

theorem ReadBack.movWsWd {h g : Mode} : ReadBack (.movWsWd a b h d g r) := by
  have hb := size_code b
  have hh := mode_code h
  have hg := mode_code g
  refine .one rfl rfl fun hw v w e => ?_
  have digit : w / 1048576 = 7 := by omega
  simp only [decodeNat, digit, decode7]
  rw [fixedBits_pos (field_eq (by omega)), regAt_eq (r := a) (by omega), Size.ofCode_field (b := b) (by omega),
    Mode.ofCode_field (m := h) (by omega), regAt_eq (r := d) (by omega), Mode.ofCode_field (m := g) (by omega),
    regAt_eq (r := r) (by omega)]
  exact checked_ok hw

theorem ReadBack.movFWnd {f : BitVec 15} : ReadBack (.movFWnd f d) := by
  refine .one rfl rfl fun hw v w e => ?_
  have digit : w / 1048576 = 8 := by omega
  simp only [decodeNat, digit, decode8]
  rw [if_pos (field_eq (by omega)), litAt_eq (k := f) (by omega), regAt_eq (r := d) (by omega)]
  exact checked_ok hw

theorem ReadBack.movWnsF {f : BitVec 15} : ReadBack (.movWnsF f r) := by
  refine .one rfl rfl fun hw v w e => ?_
  have digit : w / 1048576 = 8 := by omega
  simp only [decodeNat, digit, decode8]
  rw [if_neg (field_ne (by omega)), litAt_eq (k := f) (by omega), regAt_eq (r := r) (by omega)]
  exact checked_ok hw

theorem ReadBack.bsetWs : ReadBack (.bsetWs k4 b p r) := by
  have hb := size_code b
  have hp := mode6_code p
  refine .one rfl rfl fun hw v w e => ?_
  have digit : w / 1048576 = 0xA := by omega
  have sel : field w 16 4 = 0 := field_eq (by omega)
  simp only [decodeNat, digit, decodeA, sel]
  rw [fixedBits_pos ⟨field_eq (by omega), field_eq (by omega)⟩, withMode_eq (p := p) (by omega), litAt_eq (k := k4) (by omega),
    Size.ofCode_field (b := b) (by omega), regAt_eq (r := r) (by omega)]
  exact checked_ok hw

theorem ReadBack.btscWs : ReadBack (.btscWs k4 p r) := by
  have hp := mode6_code p
  refine .one rfl rfl fun hw v w e => ?_
  have digit : w / 1048576 = 0xA := by omega
  have sel : field w 16 4 = 7 := field_eq (by omega)
  simp only [decodeNat, digit, decodeA, sel]
  rw [fixedBits_pos (field_eq (by omega)), withMode_eq (p := p) (by omega), litAt_eq (k := k4) (by omega),
    regAt_eq (r := r) (by omega)]
  exact checked_ok hw

/-- The split bit number of `BSET f` and `BTSC f` (R220). -/
theorem ReadBack.bitFile {g : BitVec 4 → BitVec 12 → Instr} {op : Nat} {f : BitVec 12} (hn : (g k4 f).words = 1)
    (he : encodeNat (g k4 f) = [op + k4.toNat % 8 * 2 ^ 13 + f.toNat * 2 + k4.toNat / 8]) (hop : op % 65536 = 0)
    (row : ∀ w v, w / 2 ^ 16 = op / 65536 → decodeNat w v = checked (g (fileBit w) (litAt 12 w 1))) : ReadBack (g k4 f) := by
  refine .one hn he fun hw v w e => ?_
  have bits : w / 2 ^ 13 = op / 65536 * 8 + k4.toNat % 8 := by omega
  have reg : w / 2 ^ 1 = op / 65536 * 32768 + k4.toNat % 8 * 2 ^ 12 + f.toNat := by omega
  rw [row w v (by omega), fileBit, field_eq (k := k4.toNat / 8) (by omega), field_eq (k := k4.toNat % 8) (by omega),
    ofNat_eq_of_mod (k := k4) (by omega), litAt_eq (k := f) (by omega)]
  exact checked_ok hw

theorem ReadBack.addLit10 {k : BitVec 10} : ReadBack (.addLit10 b k d) := by
  have hb := size_code b
  refine .one rfl rfl fun hw v w e => ?_
  have digit : w / 1048576 = 0xB := by omega
  have sel : field w 15 5 = 0 := field_eq (by omega)
  simp only [decodeNat, digit, decodeB, sel]
  rw [Size.ofCode_field (b := b) (by omega), litAt_eq (k := k) (by omega), regAt_eq (r := d) (by omega)]
  exact checked_ok hw

theorem ReadBack.movbLit8 {k : BitVec 8} : ReadBack (.movbLit8 k d) := by
  refine .one rfl rfl fun hw v w e => ?_
  have digit : w / 1048576 = 0xB := by omega
  have sel : field w 15 5 = 7 := field_eq (by omega)
  simp only [decodeNat, digit, decodeB, sel]
  rw [fixedBits_pos (field_eq (by omega)), litAt_eq (k := k) (by omega), regAt_eq (r := d) (by omega)]
  exact checked_ok hw

theorem ReadBack.movWregF {f : BitVec 13} : ReadBack (.movWregF b f) := by
  have hb := size_code b
  refine .one rfl rfl fun hw v w e => ?_
  have digit : w / 1048576 = 0xB := by omega
  have sel : field w 15 5 = 0xF := field_eq (by omega)
  simp only [decodeNat, digit, decodeB, sel]
  rw [fixedBits_pos (field_eq (by omega)), Size.ofCode_field (b := b) (by omega), litAt_eq (k := f) (by omega)]
  exact checked_ok hw

theorem ReadBack.mulF {f : BitVec 13} : ReadBack (.mulF b f) := by
  have hb := size_code b
  refine .one rfl rfl fun hw v w e => ?_
  have digit : w / 1048576 = 0xB := by omega
  have sel : field w 15 5 = 0x18 := field_eq (by omega)
  simp only [decodeNat, digit, decodeB, sel]
  rw [fixedBits_pos (field_eq (by omega)), Size.ofCode_field (b := b) (by omega), litAt_eq (k := f) (by omega)]
  exact checked_ok hw

theorem ReadBack.movDLoad {d : Fin 8} : ReadBack (.movDLoad d p r) := by
  have hp := mode6_code p
  refine .one rfl rfl fun hw v w e => ?_
  have digit : w / 1048576 = 0xB := by omega
  have sel : field w 15 5 = 0x1C := field_eq (by omega)
  have pair : Fin.ofNat 8 (w / 2 ^ 8) = d := Fin.ext (show w / 2 ^ 8 % 8 = d.val by omega)
  simp only [decodeNat, digit, decodeB, sel]
  rw [fixedBits_pos ⟨field_eq (by omega), field_eq (by omega)⟩, withMode_eq (p := p) (by omega), pair, regAt_eq (r := r) (by omega)]
  exact checked_ok hw

theorem ReadBack.movDStore {r : Fin 8} : ReadBack (.movDStore q d r) := by
  have hq := mode6_code q
  refine .one rfl rfl fun hw v w e => ?_
  have digit : w / 1048576 = 0xB := by omega
  have sel : field w 15 5 = 0x1D := field_eq (by omega)
  have pair : Fin.ofNat 8 (w / 2 ^ 1) = r := Fin.ext (show w / 2 ^ 1 % 8 = r.val by omega)
  simp only [decodeNat, digit, decodeB, sel]
  rw [fixedBits_pos ⟨field_eq (by omega), field_eq (by omega), field_eq (by omega)⟩, withMode_eq (p := q) (by omega),
    regAt_eq (r := d) (by omega), pair]
  exact checked_ok hw

theorem ReadBack.sftacWb {a : Acc} : ReadBack (.sftacWb a r) := by
  have ha := acc_code a
  refine .one rfl rfl fun hw v w e => ?_
  have digit : w / 1048576 = 0xC := by omega
  have sel : field w 16 3 = 0 := field_eq (by omega)
  simp only [decodeNat, digit, decodeC, sel]
  rw [if_neg (field_ne (by omega)), if_pos (field_eq (by omega)), Acc.ofCode_field (a := a) (by omega), regAt_eq (r := r) (by omega)]
  exact checked_ok hw

theorem ReadBack.sftacLit {a : Acc} {k : BitVec 6} : ReadBack (.sftacLit a k) := by
  have ha := acc_code a
  refine .one rfl rfl fun hw v w e => ?_
  have digit : w / 1048576 = 0xC := by omega
  have sel : field w 16 3 = 0 := field_eq (by omega)
  simp only [decodeNat, digit, decodeC, sel]
  rw [if_neg (field_ne (by omega)), if_neg (field_ne (by omega)), fixedBits_pos (field_eq (by omega)),
    Acc.ofCode_field (a := a) (by omega), litAt_eq (k := k) (by omega)]
  exact checked_ok hw

theorem ReadBack.addAcc {a : Acc} : ReadBack (.addAcc a) := by
  have ha := acc_code a
  refine .one rfl rfl fun hw v w e => ?_
  have digit : w / 1048576 = 0xC := by omega
  have sel : field w 16 3 = 3 := field_eq (by omega)
  simp only [decodeNat, digit, decodeC, sel]
  rw [if_neg (field_ne (by omega)), fixedBits_pos (field_eq (by omega)), Acc.ofCode_field (a := a) (by omega)]
  exact checked_ok hw

theorem ReadBack.divF : ReadBack (.divF a r) := by
  refine .one rfl rfl fun hw v w e => ?_
  have digit : w / 1048576 = 0xD := by omega
  have sel : field w 15 5 = 0x12 := field_eq (by omega)
  simp only [decodeNat, digit, decodeD, sel]
  rw [fixedBits_pos (field_eq (by omega)), regAt_eq (r := a) (by omega), regAt_eq (r := r) (by omega)]
  exact checked_ok hw

theorem ReadBack.lnk {k : BitVec 13} : ReadBack (.lnk k) := by
  refine .one rfl rfl fun hw v w e => ?_
  have digit : w / 1048576 = 0xF := by omega
  have sel : field w 16 4 = 0xA := field_eq (by omega)
  simp only [decodeNat, digit, decodeF, sel]
  rw [if_neg (field_ne (by omega)), if_pos (field_eq (by omega)), fixedBits_pos (field_eq (by omega)), litAt_eq (k := k) (by omega)]
  exact checked_ok hw

theorem ReadBack.se : ReadBack (.se d p r) := by
  have hp := mode6_code p
  refine .one rfl rfl fun hw v w e => ?_
  have digit : w / 1048576 = 0xF := by omega
  have sel : field w 16 4 = 0xB := field_eq (by omega)
  simp only [decodeNat, digit, decodeF, sel]
  rw [if_neg (field_ne (by omega)), if_pos (field_eq (by omega)), withMode_eq (p := p) (by omega), regAt_eq (r := d) (by omega),
    regAt_eq (r := r) (by omega)]
  exact checked_ok hw

theorem ReadBack.ze : ReadBack (.ze d p r) := by
  have hp := mode6_code p
  refine .one rfl rfl fun hw v w e => ?_
  have digit : w / 1048576 = 0xF := by omega
  have sel : field w 16 4 = 0xB := field_eq (by omega)
  simp only [decodeNat, digit, decodeF, sel]
  rw [if_neg (field_ne (by omega)), if_neg (field_ne (by omega)), fixedBits_pos (field_eq (by omega)), withMode_eq (p := p) (by omega),
    regAt_eq (r := d) (by omega), regAt_eq (r := r) (by omega)]
  exact checked_ok hw

theorem ReadBack.disi {k : BitVec 14} : ReadBack (.disi k) := by
  refine .one rfl rfl fun hw v w e => ?_
  have digit : w / 1048576 = 0xF := by omega
  have sel : field w 16 4 = 0xC := field_eq (by omega)
  simp only [decodeNat, digit, decodeF, sel]
  rw [if_neg (field_ne (by omega)), fixedBits_pos (field_eq (by omega)), litAt_eq (k := k) (by omega)]
  exact checked_ok hw

theorem ReadBack.pwrsav {k : BitVec 1} : ReadBack (.pwrsav k) := by
  refine .one rfl rfl fun hw v w e => ?_
  have digit : w / 1048576 = 0xF := by omega
  have sel : field w 16 4 = 0xE := field_eq (by omega)
  simp only [decodeNat, digit, decodeF, sel]
  rw [if_neg (field_ne (by omega)), if_neg (field_ne (by omega)), if_pos (field_eq (by omega)), litAt_eq (k := k) (by omega)]
  exact checked_ok hw

end

/-! ## Every instruction -/

theorem readBack (i : Instr) : ReadBack i := by
  cases i with
  | nop | ret | retfie | ulnk | reset | popS | pushS => exact .one rfl rfl fun _ _ _ e => e ▸ rfl
  | callWn => exact .callWn
  | call | goto => exact .target rfl rfl rfl fun w v h => by simp [decodeNat, digit_of_top h, decode0, byte_of_top h]
  | retlw => exact .retlw
  | rcall | braOA | braOB | braSA | braSB =>
    exact .lit16 rfl rfl rfl fun w v h => by simp [decodeNat, digit_of_top h, decode0, byte_of_top h]
  | doLit => exact .doLit
  | doWn => exact .doWn
  | repeatLit => exact .repeatLit
  | repeatWn => exact .repeatWn
  | movLit16 => exact .movLit16
  | braOV | braC | braZ | braN | braLE | braLT | braLEU | bra | braNOV | braNC | braNZ | braNN | braGT | braGE | braGTU =>
    exact .lit16 rfl rfl rfl fun w v h => by simp [decodeNat, digit_of_top h, decode3, field_of_top h]
  | addWbWsWd => exact .addWbWsWd
  | addWbWsWdPre => exact .addWbWsWdPre
  | addWbLit5 => exact .addWbLit5
  | movWsWd => exact .movWsWd
  | movFWnd => exact .movFWnd
  | movWnsF => exact .movWnsF
  | bsetWs => exact .bsetWs
  | btscWs => exact .btscWs
  | bsetF | btscF => exact .bitFile rfl rfl rfl fun w v h => by simp [decodeNat, digit_of_top h, decodeA, field_of_top h]
  | addLit10 => exact .addLit10
  | movbLit8 => exact .movbLit8
  | addF | movF => exact .fileDest rfl rfl rfl fun w v h => by simp [decodeNat, digit_of_top h, decodeB, field_of_top h]
  | movWregF => exact .movWregF
  | mulUU => exact .mulPost mulUU_rows rfl rfl
  | mulUUPre => exact .mulPre mulUU_rows rfl rfl
  | mulUULit5 => exact .mulLit5 mulUU_rows rfl rfl
  | mulSU => exact .mulPost mulSU_rows rfl rfl
  | mulSUPre => exact .mulPre mulSU_rows rfl rfl
  | mulSULit5 => exact .mulLit5 mulSU_rows rfl rfl
  | mulUS | mulSS => exact .mulMode6 rfl rfl rfl fun w v h => by simp [decodeNat, digit_of_top h, decodeB, field_of_top h]
  | tblrdl | tblrdh | tblwtl | tblwth =>
    exact .twoOperand rfl rfl rfl fun w v h => by simp [decodeNat, digit_of_top h, decodeB, field_of_top h]
  | mulF => exact .mulF
  | movDLoad => exact .movDLoad
  | movDStore => exact .movDStore
  | macNoWb | mpy | mscNoWb | mpyN =>
    exact .multiply rfl rfl (by decide) fun w v h h14 h1 h0 => by
      simp [decodeNat, digit_of_top h, decodeC, field_of_top h, h14, h1, h0]
  | mac m a x y i j wb =>
    cases wb <;> exact .multiply (f := fun m a x y i j => .mac m a x y i j _) rfl rfl (by decide) fun w v h h14 h1 h0 => by
      simp [decodeNat, digit_of_top h, decodeC, field_of_top h, h14, h1, h0, WriteBack.code, WriteBack.ofCode]
  | msc m a x y i j wb =>
    cases wb <;> exact .multiply (f := fun m a x y i j => .msc m a x y i j _) rfl rfl (by decide) fun w v h h14 h1 h0 => by
      simp [decodeNat, digit_of_top h, decodeC, field_of_top h, h14, h1, h0, WriteBack.code, WriteBack.ofCode]
  | sftacWb => exact .sftacWb
  | sftacLit => exact .sftacLit
  | addWsoAcc | lac | sac | sacR =>
    exact .accMove rfl rfl rfl fun w v h => by simp [decodeNat, digit_of_top h, decodeC, field_of_top h]
  | addAcc => exact .addAcc
  | slWsWd | lsrWsWd | asrWsWd =>
    exact .twoOperand rfl rfl rfl fun w v h => by simp [decodeNat, digit_of_top h, decodeD, field_of_top h]
  | slF | lsrF | asrF => exact .fileDest rfl rfl rfl fun w v h => by simp [decodeNat, digit_of_top h, decodeD, field_of_top h]
  | divS | divU => exact .divide rfl rfl rfl rfl fun w v h => by simp [decodeNat, digit_of_top h, decodeD, field_of_top h]
  | divF => exact .divF
  | slWns | lsrWns | asrWns =>
    exact .shiftReg rfl rfl rfl fun w v h => by simp [decodeNat, digit_of_top h, decodeD, field_of_top h]; rfl
  | slLit4 | lsrLit4 | asrLit4 =>
    exact .shiftLit4 rfl rfl rfl fun w v h => by simp [decodeNat, digit_of_top h, decodeD, field_of_top h]; rfl
  | macSq | mpySq =>
    exact .square rfl rfl (by decide) fun w v h h14 _ h0 => by simp [decodeNat, digit_of_top h, decodeF, field_of_top h, h14, h0]
  | edac m a x =>
    exact .square (f := fun m a x _ i j => .edac m a x i j) (y := .w4) rfl rfl (by decide) fun w v h h14 h10 h0 => by
      simp [decodeNat, digit_of_top h, decodeF, field_of_top h, h14, h10, h0, DReg.code]
  | ed m a x =>
    exact .square (f := fun m a x _ i j => .ed m a x i j) (y := .w4) rfl rfl (by decide) fun w v h h14 h10 h0 => by
      simp [decodeNat, digit_of_top h, decodeF, field_of_top h, h14, h10, h0, DReg.code]
  | lnk => exact .lnk
  | se => exact .se
  | ze => exact .ze
  | disi => exact .disi
  | pwrsav => exact .pwrsav
  | ctxtswpLit | ctxtswpWn | bootswp | callLWn | rcallWn | mulwUU | mulwUS | mulwSU | mulwSS | mulAcc | trap | fex | sstep | urun
  | compareSkip => exact .none rfl rfl

/-- The word of a number of 24 bits decodes as the number does. -/
theorem decode_ofNat {w : Nat} (h : w < 2 ^ 24) (v : PWord) : decode (BitVec.ofNat 24 w) v = decodeNat w v.toNat := by
  rw [decode, BitVec.toNat_ofNat, Nat.mod_eq_of_lt h]

/-- Only numbers of 24 bits decode. -/
theorem decodeNat_lt {w v : Nat} {i : Instr} (h : decodeNat w v = .ok i) : w < 2 ^ 24 := by
  unfold decodeNat at h
  split at h
  case h_12 => cases h
  all_goals omega

/-- The first word of a decoded instruction tells the words it takes (O2). -/
theorem twoWord_of_decode {w1 w2 : PWord} {i : Instr} (h : decode w1 w2 = .ok i) : twoWord w1 = decide (i.words = 2) := by
  obtain ⟨-, -, hn⟩ := decode_row w1 w2 i h
  cases hw : twoWord w1 <;> simp [hn, wordsTold, hw]

/-- Settles O1: each instruction is read back from the numbers of its words, which are the words' own because they decode. -/
theorem decodeInvertsEncode : Obligations.DecodeInvertsEncode := by
  intro i hw
  have h := readBack i hw
  unfold encode
  generalize encodeNat i = l at h
  match l with
  | [] => exact h
  | [w] =>
    obtain ⟨hn, hd⟩ := h
    have one (w2 : PWord) : decode (BitVec.ofNat 24 w) w2 = .ok i := (decode_ofNat (decodeNat_lt (hd 0)) w2).trans (hd _)
    exact ⟨hn, by simp [twoWord_of_decode (one 0), hn], one⟩
  | [w, v] =>
    obtain ⟨hn, hv, hd⟩ := h
    have two : decode (BitVec.ofNat 24 w) (BitVec.ofNat 24 v) = .ok i := by
      rw [decode_ofNat (decodeNat_lt hd), BitVec.toNat_ofNat, Nat.mod_eq_of_lt hv, hd]
    exact ⟨hn, by simp [twoWord_of_decode two, hn], two⟩
  | _ :: _ :: _ :: _ => exact h

end Sys2Proof.Machine
end

section
/-!
PROOFS. The stack (R171, R172, R176): what a push and a pop in ordinary memory do, with the stack checks an address formed from W15
meets (R424; log 12); `PUSH` and `POP` as moves through W15, and stack frames (R180, R181).
-/

namespace Sys2Proof.Machine

variable {s : State}

/-! ## Even words -/

theorem getLsbD_zero_iff {n : Nat} {v : BitVec n} : v.getLsbD 0 = false ↔ v.toNat % 2 = 0 := by
  rw [show v.getLsbD 0 = v.toNat.testBit 0 from rfl, Nat.testBit_zero, decide_eq_false_iff_not]
  omega

theorem clearBit0_of_even {v : Word} (h : v.getLsbD 0 = false) : clearBit0 v = v := by
  rw [clearBit0_eq, Nat.div_mul_cancel (Nat.dvd_of_mod_eq_zero (getLsbD_zero_iff.1 h)), BitVec.ofNat_toNat, BitVec.setWidth_eq]

theorem add_bit0 {v k : Word} (hv : v.getLsbD 0 = false) (hk : k.getLsbD 0 = false) : (v + k).getLsbD 0 = false := by
  rw [getLsbD_zero_iff] at *
  rw [BitVec.toNat_add]
  omega

/-! ## The stack checks -/

/-- StackError requested if `c` (R424). -/
def State.requestStack (c : Bool) (s : State) : State := s.setPend { s.pend with stack := s.pend.stack || c }

@[simp] theorem State.requestStack_false (s : State) : s.requestStack false = s := by
  rw [State.requestStack, Bool.or_false]
  rfl

@[simp] theorem State.requestStack_true (s : State) : s.requestStack true = s.raiseStack := by
  rw [State.requestStack, Bool.or_true]
  rfl

theorem State.raiseStack_if (c : Bool) (s : State) : (if c then s.raiseStack else s) = s.requestStack c := by
  cases c <;> simp

theorem State.raiseStack_unless (c : Bool) (s : State) : (if c then s else s.raiseStack) = s.requestStack (!c) := by
  cases c <;> simp

/-- The stack checks of an address formed from W15, as base or as offset register (R176, R424). -/
theorem stackCheck_formed {b : Base} (hb : b.formedFrom 15 = true) (ea : Word) (wr : Bool) (s : State) :
    stackCheck b ea wr s = s.requestStack (stackTrips 15 ea wr s) := by
  rw [stackCheck, stackTrips]
  by_cases h : ea < 0x1000#16 ∨ s.splimEn = true ∧ (s.splim < ea ∨ wr = true)
  · rw [if_pos ⟨hb, h.symm⟩, decide_eq_true ⟨rfl, h⟩, State.requestStack_true]
  · rw [if_neg fun hc => h hc.2.symm, decide_eq_false fun hc => h hc.2, State.requestStack_false]

theorem stackTrips_of_ok {ea : Word} {wr : Bool} (h : stackOk ea wr s) : stackTrips 15 ea wr s = false := by
  obtain ⟨hlo, hlim⟩ := h
  rw [stackTrips, decide_eq_false]
  rintro ⟨-, hc | ⟨he, hc | hc⟩⟩
  · exact BitVec.not_lt.2 hlo hc
  · exact BitVec.not_lt.2 (hlim he).1 hc
  · exact Bool.false_ne_true ((hlim he).2.symm.trans hc)

theorem stackTrips_of_limit {ea : Word} {wr : Bool} (he : s.splimEn = true) (h : s.splim < ea ∨ wr = true) :
    stackTrips 15 ea wr s = true := decide_eq_true ⟨rfl, .inr ⟨he, h⟩⟩

/-- In ordinary memory the checks that are left are those of SPLIM. -/
theorem stackTrips_of_ramAt {z : Size} {ea : Word} (h : ramAt s z ea) :
    stackTrips 15 ea false s = (s.splimEn && decide (s.splim < ea)) := by
  have hlo : ¬ea < 0x1000#16 := BitVec.not_lt.2 h.1
  rw [stackTrips, Bool.eq_iff_iff]
  simp [hlo]

/-! ## Accesses through W15 -/

theorem isPaged_formed {b : Base} (hb : b.formedFrom 15 = true) (ea : Word) : isPaged s b ea = false := by
  simp [isPaged, hb]

/-- The places of an access of ordinary memory. -/
theorem ramAt_places {z : Size} {ea : Word} (h : ramAt s z ea) : placeOf s.dev ea.toNat = .ram
    ∧ (z = .word → placeOf s.dev (ea.toNat + 1) = .ram) := by
  obtain ⟨hlo, hhi, -⟩ := h
  cases z with
  | word =>
    rw [bytesOf] at hhi
    exact ⟨placeOf_ram hlo (by omega), fun _ => placeOf_ram (by omega) (by omega)⟩
  | byte =>
    rw [bytesOf] at hhi
    exact ⟨placeOf_ram hlo (by omega), nofun⟩

/-- A read of ordinary memory at an address formed from W15 is made whether or not a stack check trips (D10). -/
theorem readAt_formed {b : Base} {z : Size} {ea : Word} (hb : b.formedFrom 15 = true)
    (ht : b.isThrough 15 = true → s.trk.splimPrev = false) (hr : ramAt s z ea) (wr : Bool) :
    readAt b z ea wr s = .val (memValue z ea s) (s.requestStack (stackTrips 15 ea wr s)) := by
  have hz : ¬(b.isThrough 15 = true ∧ s.trk.splimPrev = true) := fun h => by simp [ht h.1] at h
  obtain ⟨h1, h2⟩ := ramAt_places hr
  rw [readAt, if_neg hz, stackCheck_formed hb]
  simp only [hr.2.2, Bool.false_eq_true, if_false, readTarget_flat (isPaged_formed hb ea)]
  cases z with
  | word => exact readDataWord_ram (s := s.requestStack _) h1 (h2 rfl)
  | byte => exact readDataByte_ram (s := s.requestStack _) h1

/-- An aligned write at an address formed from W15 goes to that address, whether or not a stack check trips (D10). -/
theorem writeAt_formed {b : Base} {z : Size} {ea : Word} (hb : b.formedFrom 15 = true) (he : misaligned z ea = false)
    (wr : Bool) (v : Word) : writeAt b z ea wr v s =
      (if z = .word then writeDataWord else writeDataByte) ea.toNat v (s.requestStack (stackTrips 15 ea wr s)) := by
  have hd : ∀ d, isDoendFile d b ea = false := fun d => by
    cases b with
    | file => cases hb
    | reg n o => rfl
  rw [writeAt, stackCheck_formed hb]
  simp only [he, Bool.false_eq_true, if_false, writeTarget_flat (isPaged_formed hb ea), hd]
  cases z <;> rfl

theorem writeAt_formed_ram {b : Base} {z : Size} {ea : Word} (hb : b.formedFrom 15 = true) (hr : ramAt s z ea)
    (wr : Bool) (v : Word) :
    writeAt b z ea wr v s = .val () (memStore z ea v (s.requestStack (stackTrips 15 ea wr s))) := by
  obtain ⟨h1, h2⟩ := ramAt_places hr
  rw [writeAt_formed hb hr.2.2]
  cases z with
  | word => exact writeDataWord_ram (s := s.requestStack _) h1 (h2 rfl)
  | byte => exact writeDataByte_ram (s := s.requestStack _) h1

/-! ## Push and pop -/

/-- A word at W15, and W15 stepped (R171). -/
def State.pushed (v : Word) (s : State) : State := (s.setMem (s.mem.writeWord s.w15.toNat v)).setW15 (s.w15 + 2#16)

theorem setW15_step {v : Word} (h : v.getLsbD 0 = false) : s.setW 15 v = s.setW15 v := by
  rw [State.setW, dif_neg (by decide), clearBit0_of_even h]

/-- A push in ordinary memory (R171, R176). -/
theorem push_ram (h : ramAt s .word s.w15) (v : Word) :
    push v s = .val () ((s.requestStack (stackTrips 15 s.w15 false s)).pushed v) := by
  rw [push, writeAt_formed_ram rfl h, Res.bind_val]
  exact congrArg _ (setW15_step (add_bit0 h.2.2 rfl))

theorem push_ok (h : pushOk s) (v : Word) : push v s = .val () (s.pushed v) := by
  rw [push_ram h.1, stackTrips_of_ok h.2, State.requestStack_false]

/-- A push at the address of a W register writes that register, and trips the check of the low addresses (R24, R176). -/
theorem push_reg {k : Reg} (hk : k.val < 15) (hw : s.w15.toNat = 2 * k.val) (v : Word) :
    push v s = .val () ((s.raiseStack.setW k v).setW15 (s.w15 + 2#16)) := by
  have he : s.w15.getLsbD 0 = false := getLsbD_zero_iff.2 (by omega)
  have ht : stackTrips 15 s.w15 false s = true :=
    decide_eq_true ⟨rfl, .inl (by rw [BitVec.lt_def, hw]; exact (by omega : 2 * k.val < 4096))⟩
  have hp : placeOf s.raiseStack.dev s.w15.toNat = .sfr (.w k) := by rw [hw]; exact placeOf_reg s.dev k
  have h15 : (s.raiseStack.setW k v).w15 = s.w15 := State.getW_setW_ne s.raiseStack k 15 v (lt_15_iff.1 hk).symm
  rw [push, writeAt_formed (z := .word) rfl he, ht, State.requestStack_true, if_pos rfl, writeDataWord_sfr hp]
  show Res.val () ((s.raiseStack.setW k v).setW 15 ((s.raiseStack.setW k v).w15 + 2#16)) = _
  rw [h15, setW15_step (add_bit0 he rfl)]

/-- A pop in ordinary memory (R172, R176). -/
theorem pop_ram (h : ramAt s .word (s.w15 - 2#16)) (hp : s.trk.splimPrev = false) : pop s = .val (top1 s)
    ((s.setW15 (s.w15 - 2#16)).requestStack (stackTrips 15 (s.w15 - 2#16) (decide (s.w15.toNat < 2)) s)) := by
  rw [pop, setW15_step h.2.2, clearBit0_of_even h.2.2]
  exact readAt_formed (b := .reg 15 15) (s := s.setW15 (s.w15 - 2#16)) rfl (fun _ => hp) h _

theorem pop_ok (h : popOk s) : pop s = .val (top1 s) (s.setW15 (s.w15 - 2#16)) := by
  rw [pop_ram h.1 h.2.2, stackTrips_of_ok h.2.1, State.requestStack_false]

/-! ## `PUSH` and `POP` -/

section
variable (h15 : s.modcon.getLsbD 15 = false) (h14 : s.modcon.getLsbD 14 = false)
include h15 h14

theorem exec_push (hb : bitReversedApplies s .postInc .word 15 = false) (w n : Reg) :
    exec (.movWsWd w .word .postInc 15 .direct n) s = (push (s.getW n) s).done := by
  show (writeDst .postInc .word 15 w (s.getW n) s).done = _
  rw [writeDst, if_neg nofun, pointerCheck_pass rfl h15 h14 hb]
  rfl

theorem exec_pop (w n : Reg) : exec (.movWsWd w .word .direct n .preDec 15) s =
    ((pop s).bind fun v t => .val () (t.setW n v)).done := by
  show ((readSrc .preDec .word 15 w s).bind fun v t => .val () (t.setW n v)).done = _
  rw [readSrc, if_neg nofun, pointerCheck_w15 (by decide) h15 h14]
  rfl

/-- A load and a store with W15 as the offset register, at an address that trips a stack check (R103, R424). -/
theorem exec_offset {z : Size} {r : Reg} (hr : r.val < 15) (hi : s.isInit r = true) (ha : ramAt s z (s.getW r + s.w15))
    (ht : stackTrips 15 (s.getW r + s.w15) (effWraps .offset r 15 (stepOf z) s) s = true) (n : Reg) :
    exec (.movWsWd 15 z .direct n .offset r) s =
      .next ((s.raiseStack.regWrite z n (memValue z (s.getW r + s.w15) s)).advance 1)
    ∧ exec (.movWsWd 15 z .offset r .direct n) s =
      .next ((memStore z (s.getW r + s.w15) (s.regRead z n) s.raiseStack).advance 1) := by
  have hb : (baseOf .offset r 15).formedFrom 15 = true := baseOf_formedFrom.2 (.inr ⟨rfl, rfl⟩)
  have hc : pointerCheck .offset z r s = .val () s := pointerCheck_pass hi h15 h14 (by simp [bitReversedApplies])
  have hl : (baseOf .offset r 15).isThrough 15 = true → s.trk.splimPrev = false :=
    fun h => absurd (baseOf_isThrough.1 h) (lt_15_iff.1 hr)
  have hread := readAt_formed hb hl ha (effWraps .offset r 15 (stepOf z) s)
  have hwrite := writeAt_formed_ram hb ha (effWraps .offset r 15 (stepOf z) s) (s.regRead z n)
  rw [ht, State.requestStack_true] at hread hwrite
  constructor
  · show ((readSrc .offset z r 15 s).bind fun v t => .val () (t.regWrite z n v)).done = _
    rw [readSrc, if_neg nofun, hc]
    show (((readAt (baseOf .offset r 15) z (s.getW r + s.w15) _ s).bind _).bind _).done = _
    rw [hread]
    rfl
  · show (writeDst .offset z r 15 (s.regRead z n) s).done = _
    rw [writeDst, if_neg nofun, hc]
    show ((writeAt (baseOf .offset r 15) z (s.getW r + s.w15) _ _ s).bind _).done = _
    rw [hwrite]
    rfl

end

theorem Frame.setW15 (s : State) (v : Word) : Frame (fun x => x = 15) noBytes s (s.setW15 v) :=
  ⟨rfl, ⟨fun _ _ _ _ => rfl, fun h => absurd rfl h⟩, fun _ _ => rfl⟩

theorem Frame.pushed (v : Word) (s : State) : Frame (fun x => x = 15) (bytesAt .word s.w15) s (s.pushed v) :=
  ((Frame.memStore .word s.w15 v s).trans (Frame.setW15 _ _)).mono (fun _ h => h.elim False.elim id)
    fun _ h => h.elim id False.elim

/-- Settles O12: both are moves through W15, which push and pop a word. -/
theorem pushPop : Obligations.PushPop := by
  intro n w s h15 h14 hb
  refine ⟨?push, ?pop, ?pushOver, ?pushBelow, ?popOver, ?offset⟩
  case push =>
    intro h
    refine ⟨?_, (Frame.pushed _ s).thenAdvance 1, rfl⟩
    rw [exec_push h15 h14 hb, push_ok h]
    rfl
  case pop =>
    intro h
    refine ⟨?_, ?_, State.setW_sr _ n _⟩
    · rw [exec_pop h15 h14, pop_ok h]
      rfl
    · exact (((Frame.setW15 s _).trans (Frame.setW _ n _)).mono (fun _ hx => hx) fun _ ha => ha.elim id id).thenAdvance 1
  case pushOver =>
    intro h he hl
    rw [exec_push h15 h14 hb, push_ram h, stackTrips_of_limit he (.inl hl), State.requestStack_true]
    rfl
  case pushBelow =>
    intro k hk hw
    rw [exec_push h15 h14 hb, push_reg hk hw]
    rfl
  case popOver =>
    intro h hp he hl
    rw [exec_pop h15 h14, pop_ram h hp, stackTrips_of_limit he (hl.imp id decide_eq_true), State.requestStack_true]
    rfl
  case offset =>
    intro z r hr hi ha he hl
    exact exec_offset h15 h14 hr hi ha (stackTrips_of_limit he (hl.imp id decide_eq_true)) n

/-! ## Stack frames -/

/-- The literal of `LNK` is even (R180). -/
theorem lnkLit_eq (k : BitVec 13) : ((k ++ 0#1 : BitVec 14).setWidth 16 : Word) = BitVec.ofNat 16 (2 * k.toNat) := by
  apply eq_ofNat
  rw [BitVec.toNat_setWidth, toNat_append_mul]
  have := k.isLt
  simp
  omega

theorem lnkLit_even (k : BitVec 13) : (BitVec.ofNat 16 (2 * k.toNat)).getLsbD 0 = false := by
  rw [getLsbD_zero_iff, BitVec.toNat_ofNat]
  omega

/-- `LNK` and `ULNK` request StackError where SFA has the value they give it (D10). -/
theorem exec_lnk_eq (k : BitVec 13) (s : State) : exec (.lnk k) s =
    ((push (s.getW 14) (s.requestStack s.cor.sfa)).bind fun _ t => .val () (((t.setW 14 t.w15).setW 15
      ((t.setW 14 t.w15).w15 + ((k ++ 0#1 : BitVec 14).setWidth 16))).setSfa true)).done := by
  show execLnk k s = _
  rw [execLnk, State.raiseStack_if]
  rfl

theorem exec_ulnk_eq (s : State) : exec .ulnk s =
    ((pop ((s.requestStack (!s.cor.sfa)).setW 15 (s.getW 14))).bind fun v t => .val () ((t.setW 14 v).setSfa false)).done := by
  show execUlnk s = _
  rw [execUlnk, State.raiseStack_unless]
  rfl

/-- Settles O25. -/
theorem stackFrames : Obligations.StackFrames := by
  refine fun k s => ⟨fun h => ⟨?_, (Frame.memStore .word s.w15 _ s).2.2⟩, fun h => ?_⟩
  · have he : (s.w15 + 2#16).getLsbD 0 = false := add_bit0 h.1.2.2 rfl
    rw [exec_lnk_eq, push_ok (s := s.requestStack _) h, Res.bind_val, setW15_step, lnkLit_eq]
    · rfl
    · rw [lnkLit_eq]
      exact add_bit0 he (lnkLit_even k)
  · rw [exec_ulnk_eq]
    have hp : pop ((s.requestStack (!s.cor.sfa)).setW 15 (s.getW 14)) = _ :=
      pop_ok (s := (s.requestStack (!s.cor.sfa)).setW15 (clearBit0 (s.getW 14))) h
    rw [hp]
    rfl

end Sys2Proof.Machine
end

section
/-!
PROOFS. Literal and double word moves (R164, R165), words the spec writes out, and the instructions that stop by name.
-/

namespace Sys2Proof.Machine

variable {s : State}

/-! ## Moves of literals -/

/-- The low byte of a register below W15 replaced (R26). -/
theorem getW_setWLow_toNat {d : Reg} (hd : d ≠ 15) (b : Byte) :
    ((s.setWLow d b).getW d).toNat = (s.getW d).toNat / 256 * 256 + b.toNat := by
  rw [State.setWLow, State.getW_setWKeep_self, if_pos (lt_15_iff.2 hd), mkWord_toNat, hiByte_toNat]

/-- Settles O14. -/
theorem movLiteral : Obligations.MovLiteral := by
  refine fun s d k b => ⟨?word, State.isInit_setW_self s d k, ?byte, fun x => State.isInit_setWKeep s d x _,
    fun hd => getW_setWLow_toNat hd b⟩
  case word => exact ⟨rfl, (Frame.setW s d k).thenAdvance 1, State.setW_sr s d k⟩
  case byte => exact ⟨rfl, (Frame.setWKeep s d _).thenAdvance 1, State.setWKeep_sr s d _⟩

/-! ## Moves of two words -/

theorem exec_movDLoad {p : Mode6} {r : Reg} (h : pairOk p r s) (d : Fin 8) : exec (.movDLoad d p r) s =
    .next ((((modifyPtr p.toMode r 4#16 s).setW (pairReg d) (pairValue p r s).1).setW (nextReg (pairReg d))
      (pairValue p r s).2).advance 1) := by
  show ((readSrcD p r s).bind _).done = _
  rw [readSrcD_ok h]
  rfl

theorem exec_movDStore {q : Mode6} {d : Reg} (h : pairOk q d s) (r : Fin 8) : exec (.movDStore q d r) s =
    .next ((pairNext q d (s.getW (pairReg r)) (s.getW (nextReg (pairReg r))) s).advance 1) := by
  show (writeDstD q d _ _ s).done = _
  rw [writeDstD_ok h, Res.done_val]

theorem Frame.setPair (s : State) (n : Reg) (lo hi : Word) :
    Frame (fun x => x = n ∨ x = nextReg n) noBytes s ((s.setW n lo).setW (nextReg n) hi) :=
  ((Frame.setW s n lo).trans (Frame.setW _ _ hi)).mono (fun _ h => h) fun _ h => h.elim id id

/-- The registers and bytes a store of two words changes (R165). -/
theorem Frame.pairNext {q : Mode6} {d : Reg} (h : pairOk q d s) (lo hi : Word) :
    Frame (fun x => dstRegs q.toMode d x ∨ (q = .direct ∧ x = nextReg d))
      (fun a => q ≠ .direct ∧ (bytesAt .word (effAddr q.toMode d d 4#16 s) a
        ∨ bytesAt .word (effAddr q.toMode d d 4#16 s + 2#16) a)) s (pairNext q d lo hi s) := by
  unfold Machine.pairNext
  by_cases hq : q = .direct
  · rw [if_pos hq]
    exact (Frame.setPair s d lo hi).mono
      (fun x hx => hx.imp (fun hx => ⟨hx, .inl (toMode_direct.2 hq)⟩) fun hx => ⟨hq, hx⟩) fun _ ha => ha.elim
  · obtain ⟨-, -, -, -, hl, -⟩ := h.resolve_left hq
    rw [if_neg hq, ← toNat_add_two hl]
    refine (((Frame.memStore .word _ lo s).trans (Frame.memStore .word _ hi _)).trans
      (Frame.modifyPtr q.toMode d 4#16 _)).mono ?_ ?_
    · rintro x ((hx | hx) | hx)
      · exact hx.elim
      · exact hx.elim
      · exact .inl ⟨hx.1, .inr hx.2⟩
    · rintro a (ha | ha)
      · exact ⟨hq, ha⟩
      · exact ha.elim

theorem pairNext_sr (q : Mode6) (d : Reg) (lo hi : Word) (s : State) : (pairNext q d lo hi s).sr = s.sr := by
  unfold pairNext
  split <;> simp

/-- Settles O15. -/
theorem movDouble : Obligations.MovDouble := by
  refine fun s => ⟨fun d p r h => ⟨exec_movDLoad h d, ?_, by simp⟩,
    fun q d r h => ⟨exec_movDStore h r, (Frame.pairNext h _ _).thenAdvance 1, pairNext_sr q d _ _ s⟩⟩
  refine (((Frame.modifyPtr p.toMode r 4#16 s).trans (Frame.setPair _ (pairReg d) _ _)).mono ?_ ?_).thenAdvance 1
  · rintro x (hx | hx | hx)
    · exact .inr (.inr hx)
    · exact .inl hx
    · exact .inr (.inl hx)
  · exact fun _ ha => ha.elim id id

/-! ## Known words and named stops -/

/-- Settles O3: the decoder is evaluated on each word. -/
theorem knownWords : Obligations.KnownWords :=
  ⟨rfl, rfl, rfl, rfl, rfl, rfl, rfl, rfl, rfl, rfl, rfl, rfl, rfl, rfl⟩

/-- Settles O59: the meaning of each of these instructions is its refusal. -/
theorem namedStops : Obligations.NamedStops := fun _ =>
  ⟨fun _ _ _ _ _ => ⟨rfl, rfl⟩, fun _ => rfl, rfl, rfl, rfl, rfl, rfl⟩

end Sys2Proof.Machine
end

section
/-!
PROOFS. Calls and returns (R173, R324 to R338), exception entry (R443 to R452) and what a `RETFIE` goes on with (R302, R365).
-/

namespace Sys2Proof.Machine

variable {s : State}

/-! ## Program addresses as arithmetic -/

theorem evenPc_eq (a : PAddr) : evenPc a = BitVec.ofNat 23 (a.toNat / 2 * 2) := by
  have h : evenPc a = a.extractLsb' 1 22 ++ 0#1 := by
    apply BitVec.eq_of_getLsbD_eq
    intro k hk
    interval_cases k <;> simp only [evenPc, BitVec.getLsbD_and, BitVec.getLsbD_append] <;> simp
  apply eq_ofNat
  have := a.isLt
  rw [h, toNat_append_mul, toNat_extract, BitVec.toNat_ofNat]
  omega

theorem addrOf_eq (t : BitVec 22) : addrOf t = BitVec.ofNat 23 (2 * t.toNat) := by
  apply eq_ofNat
  rw [addrOf, toNat_append_mul, BitVec.toNat_ofNat]
  omega

/-- The target of a relative jump from an even address (R322). -/
theorem relTarget_eq (h : s.pc.getLsbD 0 = false) (n : Word) :
    relTarget s n = s.pc + 2#23 + BitVec.ofInt 23 (2 * n.toInt) := by
  apply evenPc_of_even
  rw [getLsbD_zero_iff] at *
  rw [BitVec.toNat_add, BitVec.toNat_add, BitVec.toNat_ofInt, BitVec.toNat_ofNat]
  omega

/-- The first stacked word of an even address (R173). -/
theorem stackedLow_toNat {ret : PAddr} (h : ret.getLsbD 0 = false) (sfa : Bool) :
    (stackedLow ret sfa).toNat = ret.toNat % 65536 + sfa.toNat := by
  rw [getLsbD_zero_iff] at h
  rw [stackedLow, toNat_append_mul, toNat_extract, BitVec.toNat_ofBool]
  omega

theorem stackedHigh_toNat (ret : PAddr) : (stackedHigh ret).toNat = ret.toNat / 65536 := by
  have := ret.isLt
  rw [stackedHigh, pch_eq, BitVec.toNat_ofNat]
  omega

/-- The second stacked word of an exception: SRL, IPL3 and the upper address bits (R445). -/
theorem stackedHighExc_toNat (s : State) (ret : PAddr) : (stackedHighExc s ret).toNat =
    (32 * s.sr.ipl.toNat + bitAt 4 s.sr.ra + bitAt 3 s.sr.n + bitAt 2 s.sr.ov + bitAt 1 s.sr.z + bitAt 0 s.sr.c) * 256
      + bitAt 7 s.cor.ipl3 + ret.toNat / 65536 := by
  have := ret.isLt
  have hsrl : s.srl.toNat = 32 * s.sr.ipl.toNat + bitAt 4 s.sr.ra + bitAt 3 s.sr.n + bitAt 2 s.sr.ov + bitAt 1 s.sr.z
      + bitAt 0 s.sr.c := by
    rw [State.srl, toNat_extract, State.srWord, word16_toNat, bits3 s.sr.ipl]
    simp only [bitAt_eq]
    have hb : ∀ b : Bool, b.toNat < 2 := Bool.toNat_lt
    have := hb s.sr.ra
    have := hb s.sr.n
    have := hb s.sr.ov
    have := hb s.sr.z
    have := hb s.sr.c
    have := hb s.sr.ipl[0]
    have := hb s.sr.ipl[1]
    have := hb s.sr.ipl[2]
    omega
  rw [stackedHighExc, toNat_append_mul, toNat_append_mul, hsrl, toNat_extract, BitVec.toNat_ofBool, bitAt_eq 7]
  omega

/-! ## Calls -/

theorem add_two_two (v : Word) : v + 2#16 + 2#16 = v + 4#16 := by bv_omega

theorem pushed_pushed (lo hi : Word) (s : State) : (s.pushed lo).pushed hi = { s with
    mem := (s.mem.writeWord s.w15.toNat lo).writeWord (s.w15 + 2#16).toNat hi
    w15 := s.w15 + 4#16 } := by
  rw [← add_two_two]
  rfl

/-- A call with room for its two words (R324). -/
theorem callTo_ok (h : push2Ok s) (ret target : PAddr) :
    callTo ret target s = .next (callNext ret (evenPc target) s) := by
  obtain ⟨h1, h2, h3⟩ := h
  rw [callTo, pushPcCall, push_ok h1, Res.bind_val, push_ok (s := s.pushed _) ⟨h2, h3⟩, pushed_pushed]
  rfl

/-- A relative call from an even address (R328, R329). -/
theorem callTo_rel (h : push2Ok s) (hpc : s.pc.getLsbD 0 = false) (n : Word) : callTo (s.pc + 2#23) (relTarget s n) s =
    .next (callNext (s.pc + 2#23) (s.pc + 2#23 + BitVec.ofInt 23 (2 * n.toInt)) s) := by
  rw [callTo_ok h, ← relTarget_eq hpc, evenPc_of_even (a := relTarget s n) (evenPc_bit0 _)]

/-- Two words stored at W15 change the four bytes there. -/
theorem writeWords_kept (lo hi : Word) (h : (s.w15 + 2#16).toNat = s.w15.toNat + 2) {k : Nat} (hk : ¬stackBytes s k) :
    ((s.mem.writeWord s.w15.toNat lo).writeWord (s.w15 + 2#16).toNat hi).read k = s.mem.read k := by
  simp only [stackBytes, not_and, not_lt] at hk
  rw [h, Memory.read_writeWord, Memory.read_writeWord, if_neg, if_neg, if_neg, if_neg] <;> omega

/-- Where two words can be pushed, the address does not wrap between them. -/
theorem toNat_second (h1 : ramAt s .word s.w15) (h2 : ramAt s .word (s.w15 + 2#16)) :
    (s.w15 + 2#16).toNat = s.w15.toNat + 2 := by
  have hlo := h1.1
  have hlo2 := h2.1
  rw [BitVec.toNat_add, BitVec.toNat_ofNat] at *
  omega

/-- Settles O52: each target by its arithmetic, and the two words by theirs. -/
theorem calls : Obligations.Calls := by
  intro s h hpc
  refine ⟨fun t => ?call, fun n => ?callWn, fun n hn => ?callLWn, fun n => ?rcall, fun n => ?rcallWn, fun ret target =>
    ⟨fun k hk => writeWords_kept _ _ (toNat_second h.1.1 h.2.1) hk, fun hr => ⟨stackedLow_toNat hr _, stackedHigh_toNat ret⟩⟩⟩
  case call =>
    rw [← addrOf_eq, ← evenPc_of_even (addrOf_bit0 t)]
    exact callTo_ok h _ _
  case callWn =>
    rw [← BitVec.toNat_setWidth_of_le (b := s.getW n) (by decide : 16 ≤ 23), ← evenPc_eq]
    exact callTo_ok h _ _
  case callLWn =>
    have ht : (((s.getW (n + 1)).setWidth 7 : BitVec 7) ++ s.getW n).toNat / 2 * 2 =
        (s.getW (n + 1)).toNat % 128 * 65536 + (s.getW n).toNat / 2 * 2 := by
      rw [toNat_append_mul, BitVec.toNat_setWidth]
      omega
    rw [← ht, ← evenPc_eq]
    exact callTo_ok h _ _
  case rcall => exact callTo_rel h hpc n
  case rcallWn => exact callTo_rel h hpc (s.getW n)

/-! ## Returns -/

theorem sub_two_two (v : Word) : v - 2#16 - 2#16 = v - 4#16 := by bv_omega

/-- After the first of two pops the second word is on top, and can be popped. -/
theorem popOk_popped (h : pop2Ok s) : popOk (s.setW15 (s.w15 - 2#16)) := by
  obtain ⟨⟨hr, -, ht⟩, h2, h3⟩ := h
  have hw : decide ((s.w15 - 2#16).toNat < 2) = false := decide_eq_false (by have := hr.1; omega)
  refine ⟨?_, ?_, ht⟩
  · show ramAt s .word (s.w15 - 2#16 - 2#16)
    rw [sub_two_two]
    exact h2
  · show stackOk (s.w15 - 2#16 - 2#16) (decide ((s.w15 - 2#16).toNat < 2)) s
    rw [sub_two_two, hw]
    exact h3

theorem top1_popped (s : State) : top1 (s.setW15 (s.w15 - 2#16)) = top2 s := by
  rw [top1, top2, ← sub_two_two]
  rfl

theorem pop_second (h : pop2Ok s) : pop (s.setW15 (s.w15 - 2#16)) = .val (top2 s) (s.setW15 (s.w15 - 4#16)) := by
  rw [pop_ok (popOk_popped h), top1_popped, ← sub_two_two]
  rfl

/-- A return with its two words on the stack (R173, R335). -/
theorem returnFrom_ok (h : pop2Ok s) : returnFrom s = .next (returnNext s) := by
  rw [returnFrom, popPc, pop_ok h.1, Res.bind_val, pop_second h]
  rfl

/-! ## Contexts by their level -/

/-- The contexts a level is assigned to, as the statements write it (R442). -/
theorem contextsAt_eq (d : Device) (l : BitVec 4) : contextsAt d l = (d.ctxtIpl.filter (assigns d l)).map Prod.fst := by
  unfold contextsAt
  congr 2
  funext p
  have hz : p.1 ≠ 0 ↔ 0 < p.1.val := Fin.pos_iff_ne_zero.symm
  have hl : (p.2.setWidth 4 : BitVec 4) = l ↔ p.2.toNat = l.toNat := by
    rw [← BitVec.toNat_inj, BitVec.toNat_setWidth_of_le (by decide)]
  simp only [assigns, hz, hl]

/-- With at most one context assigned to a level, that one is selected, or else the other (R442). -/
theorem selectContext_ok {l : BitVec 4} (h : contextUnique s.dev l) (other : Fin 5) :
    selectContext l other s = .val () (s.setCctxi (contextOf s.dev l other)) := by
  unfold contextUnique at h
  rw [selectContext, contextsAt_eq, contextOf, ← List.head?_filter]
  cases hf : s.dev.ctxtIpl.filter (assigns s.dev l) with
  | nil => rfl
  | cons p t =>
    rw [hf, List.length_cons] at h
    rw [List.length_eq_zero_iff.1 (by omega : t.length = 0)]
    rfl

/-! ## Exception entry -/

theorem vectorOf_ok {src : Source} {a : PAddr} (h : handlerOf src s = some a) : vectorOf src s = .val a s := by
  unfold handlerOf at h
  unfold vectorOf
  cases hv : s.dev.vectors.find? (fun p => p.1 == src.entry) with
  | some p =>
    rw [hv] at h
    cases h
    rfl
  | none =>
    rw [hv] at h
    by_cases hk : src.entry / 2 < s.dev.progWords
    · simp only [if_pos hk] at h
      cases h
      simp only [progWord, if_pos hk]
      rfl
    · simp only [if_neg hk] at h
      cases h

theorem entryLevel_toNat (r : Request) (s : State) : (entryLevel s r.level).toNat = handlerLevel r s := by
  have hm : r.level.msb = false ↔ r.level.toNat < 8 := by
    rw [BitVec.msb_eq_decide, decide_eq_false_iff_not]
    omega
  rw [entryLevel, handlerLevel]
  simp only [Bool.and_eq_true, Bool.not_eq_true', hm]
  split <;> rfl

theorem entryLevel_ipl (r : Request) (s : State) :
    (entryLevel s r.level).extractLsb' 0 3 = BitVec.ofNat 3 (handlerLevel r s) := by
  rw [extract_eq_ofNat, entryLevel_toNat, Nat.pow_zero, Nat.div_one]

theorem entryLevel_ipl3 (r : Request) (s : State) : (entryLevel s r.level).msb = decide (8 ≤ handlerLevel r s) := by
  rw [BitVec.msb_eq_decide, entryLevel_toNat]

theorem noMatchContext_eq (s : State) : noMatchContext s = if s.dev.noMatch = .keepCurrent then s.cctxi else 0 := by
  unfold noMatchContext
  cases s.dev.noMatch <;> rfl

/-- A CPU trap's own request is removed, and no other (R448). -/
theorem clearPending_eq (src : Source) (p : Pending) : clearPending src p =
    { address := p.address && decide (src ≠ .address)
      stack := p.stack && decide (src ≠ .stack)
      math := p.math && decide (src ≠ .math)
      soft := p.soft && decide (src ≠ .soft) } := by
  obtain ⟨address, stack, math, soft⟩ := p
  cases src <;> simp [clearPending]

/-- The checks of two pushes in ordinary memory (R176, R447). -/
theorem entryTrips_eq (h1 : ramAt s .word s.w15) (h2 : ramAt s .word (s.w15 + 2#16)) :
    entryTrips s = (stackTrips 15 s.w15 false s || stackTrips 15 (s.w15 + 2#16) false s) := by
  rw [stackTrips_of_ramAt h1, stackTrips_of_ramAt h2, entryTrips, Bool.and_or_distrib_left]

/-- Two pushes in ordinary memory, with the stack checks of both. -/
theorem push_twice (h1 : ramAt s .word s.w15) (h2 : ramAt s .word (s.w15 + 2#16)) (lo hi : Word) {α : Type}
    (f : Unit → State → Res α) : (push lo s).bind (fun _ t => (push hi t).bind f) =
      f () (((s.requestStack (entryTrips s)).pushed lo).pushed hi) := by
  have hsecond : push hi ((s.requestStack (stackTrips 15 s.w15 false s)).pushed lo) =
      .val () (((s.requestStack (entryTrips s)).pushed lo).pushed hi) := by
    rw [push_ram (s := (s.requestStack (stackTrips 15 s.w15 false s)).pushed lo) h2, entryTrips_eq h1 h2]
    simp only [State.requestStack, ← Bool.or_assoc]
    rfl
  rw [push_ram h1, Res.bind_val, hsecond, Res.bind_val]

/-- The state after the two pushes of an entry (R445). -/
def entryPushed (s : State) : State :=
  (((hold s).requestStack (entryTrips s)).pushed (stackedLow s.pc s.cor.sfa)).pushed (stackedHighExc s s.pc)

/-- The fields the rest of an entry looks at are those the exception found. -/
theorem entryPushed_fields (s : State) : (entryPushed s).dev = s.dev ∧ (entryPushed s).prog = s.prog
    ∧ (entryPushed s).intc = s.intc ∧ (entryPushed s).cctxi = s.cctxi := by
  simp [entryPushed, State.pushed, State.requestStack, hold]

/-- What an entry does after its pushes, on a state `t` with these fields as the exception found them (R442, R446, R448). -/
theorem enterHandler_ok {r : Request} {a : PAddr} {t : State}
    (ht : t.dev = s.dev ∧ t.prog = s.prog ∧ t.intc = s.intc ∧ t.cctxi = s.cctxi) (hc : contextUnique s.dev r.level)
    (hv : handlerOf r.source s = some a) :
    ((selectContext r.level (noMatchContext t)
        (((t.setSr { t.sr with ra := false }).setSfa false).setIpl (entryLevel t r.level))).bind fun _ u =>
      vectorOf r.source u).next (fun a u => ((u.setPend (clearPending r.source u.pend)).setActive (r.source :: u.active)).setPc a)
    = .next { t with
        sr := { t.sr with ra := false, ipl := BitVec.ofNat 3 (handlerLevel r s) }
        cor := { t.cor with sfa := false, ipl3 := decide (8 ≤ handlerLevel r s) }
        cctxi := contextOf s.dev r.level (if s.dev.noMatch = .keepCurrent then s.cctxi else 0)
        pend := clearPending r.source t.pend
        active := r.source :: t.active
        pc := a } := by
  obtain ⟨hd, hp, hi, hx⟩ := ht
  have hlevel : entryLevel t r.level = entryLevel s r.level := by rw [entryLevel, entryLevel, hi]
  have hother : noMatchContext t = noMatchContext s := by rw [noMatchContext, noMatchContext, hd, hx]
  have hselect : ∀ {u : State}, u.dev = t.dev → ∀ o,
      selectContext r.level o u = .val () (u.setCctxi (contextOf s.dev r.level o)) := fun e o => by
    rw [selectContext_ok (by rw [e, hd]; exact hc), e, hd]
  have hvector : ∀ {u : State}, u.dev = t.dev → u.prog = t.prog → vectorOf r.source u = .val a u := fun e e' =>
    vectorOf_ok (by rw [handlerOf, e, e', hd, hp]; exact hv)
  rw [hselect, Res.bind_val, hvector, ← entryLevel_ipl, ← entryLevel_ipl3, ← noMatchContext_eq, hlevel, hother]
  · simp only [Res.next_val, State.setPc, State.setActive, State.setPend, State.setCctxi, State.setIpl, State.setSfa,
      State.setSr, State.setCor]
  all_goals rfl

/-- Exception entry with memory for its two words (R448). -/
theorem takeException_ok {r : Request} {a : PAddr} (h1 : ramAt s .word s.w15) (h2 : ramAt s .word (s.w15 + 2#16))
    (hc : contextUnique s.dev r.level) (hv : handlerOf r.source s = some a) :
    takeException r s = .next (entryNext r a s) := by
  have ht : entryTrips (hold s) = entryTrips s := rfl
  rw [takeException, push_twice (s := hold s) h1 h2, ht, ← entryPushed, enterHandler_ok (entryPushed_fields s) hc hv]
  rw [entryPushed, pushed_pushed, entryNext,
    ← clearPending_eq r.source { s.pend with stack := s.pend.stack || entryTrips s }]
  simp only [State.requestStack, State.setPend, hold_eq]

/-- Settles O9. -/
theorem entryEffect : Obligations.EntryEffect := fun _ _ s h1 h2 hc hv =>
  ⟨takeException_ok h1 h2 hc hv, fun _ hk => writeWords_kept _ _ (toNat_second h1 h2) hk, fun hpc => stackedLow_toNat hpc _,
    stackedHighExc_toNat s s.pc, rfl, fun _ => rfl⟩

/-! ## `RETFIE` -/

/-- The level the second stacked word of an exception holds (R41, R445). -/
def poppedLevel (hi : Word) : BitVec 4 := BitVec.ofBool (hi.getLsbD 7) ++ hi.extractLsb' 13 3

/-- The state `RETFIE` has restored before the interruption ends (R338, R448, R456). -/
def retfieRestored (s : State) : State :=
  { returnNext s with
    sr := { s.sr with
      ipl := (top1 s).extractLsb' 13 3, ra := (top1 s).getLsbD 12, n := (top1 s).getLsbD 11, ov := (top1 s).getLsbD 10
      z := (top1 s).getLsbD 9, c := (top1 s).getLsbD 8 }
    cor := { s.cor with ipl3 := (top1 s).getLsbD 7, sfa := (top2 s).getLsbD 0 }
    cctxi := contextOf s.dev (poppedLevel (top1 s)) s.mctxi
    active := s.active.tail
    pend := returnPend s.active.head? s }

theorem exec_retfie (h : pop2Ok s) (hc : contextUnique s.dev (poppedLevel (top1 s))) :
    exec .retfie s = .next (endInterruption (retfieRestored s)) := by
  show returnFromException s = _
  rw [returnFromException, pop_ok h.1, Res.bind_val, pop_second h, Res.bind_val]
  exact congrArg (Res.next · fun _ t => endInterruption t) (selectContext_ok (s := reenterTrap s.active.head?
    ((restoreFrom (top1 s) (top2 s) (s.setW15 (s.w15 - 4#16))).setActive s.active.tail)) hc s.mctxi)

section
variable (t : State) (x : Interrupted)

/-- The end of an interruption changes the divide record and what is held only (R365). -/
theorem endInterruption_fields :
    endInterruption t = { t with div := (endInterruption t).div, held := (endInterruption t).held } := by
  obtain ⟨d, l, e, -⟩ := endInterruption_eq t
  rw [e]
  rfl

theorem endInterruption_w15 : (endInterruption t).w15 = t.w15 := by rw [endInterruption_fields]

theorem endInterruption_pc : (endInterruption t).pc = t.pc := by rw [endInterruption_fields]

theorem endInterruption_sr : (endInterruption t).sr = t.sr := by rw [endInterruption_fields]

theorem fitsPopped_endInterruption : fitsPopped (endInterruption t) x ↔ fitsPopped t x := by
  rw [fitsPopped, fitsPopped, endInterruption_pc, endInterruption_sr]

theorem heldHere_endInterruption : heldHere (endInterruption t) x ↔ heldHere t x := by
  rw [heldHere, heldHere, endInterruption_w15, fitsPopped_endInterruption]

theorem standsAsLeft_endInterruption : standsAsLeft (endInterruption t) x ↔ standsAsLeft t x := by
  rw [endInterruption_fields]
  rfl

end

/-- With RA = 0 the divide record stays, and what the model's list tells as interrupted is left (R302; log 19). -/
theorem endInterruption_ra_clear {t : State} (ra : t.sr.ra = false) :
    (endInterruption t).div = t.div
      ∧ (∀ newer h older, t.held = newer ++ h :: older → heldHere t h → (∀ x ∈ newer, ¬heldHere t x) →
        leaves (endInterruption t) newer h older)
      ∧ (∀ newer h older, t.held = newer ++ h :: older → (∀ x ∈ t.held, ¬heldHere t x) → h.frame = t.w15 →
        (∀ x ∈ newer, x.frame ≠ t.w15) → leaves (endInterruption t) newer h older)
      ∧ ((∀ x ∈ t.held, x.frame ≠ t.w15 ∧ x.target ≠ t.pc) → (endInterruption t).held = t.held) := by
  obtain ⟨d, l, e, hd⟩ := endInterruption_eq t
  refine ⟨by rw [e]; exact hd ra, fun newer h older eh hh hn => ?_, fun newer h older eh hn hf hnew => ?_, fun hn => ?_⟩
  · exact (endInterruption_leaves ra (findHeld_here eh hh hn)).2
  · exact (endInterruption_leaves ra (findHeld_changed ra eh hn hf hnew)).2
  · rw [endInterruption_none (findHeld_none (fun x hx => (hn x hx).1) fun x hx hf => (hn x hx).2 hf.1)]
    rfl

/-- With RA restored the loop the model's list tells goes on, and one of another target has no record (R302, R365; log 19). -/
theorem endInterruption_ra_set {t : State} (ra : t.sr.ra = true) :
    (∀ newer h older, t.held = newer ++ h :: older → heldHere t h → (∀ x ∈ newer, ¬heldHere t x) →
      resumes (endInterruption t) newer h older)
    ∧ (∀ newer h older, t.held = newer ++ h :: older → (∀ x ∈ t.held, ¬heldHere t x) → fitsPopped t h →
      (standsAsLeft t h ∧ ∀ x ∈ newer, ¬(fitsPopped t x ∧ standsAsLeft t x))
        ∨ ((∀ x ∈ newer, ¬fitsPopped t x) ∧ ∀ x ∈ t.held, ¬(fitsPopped t x ∧ standsAsLeft t x)) →
      resumes (endInterruption t) newer h older)
    ∧ ((∀ x ∈ t.held, ¬fitsPopped t x) →
      (endInterruption t).div = none ∧ ((∀ x ∈ t.held, x.frame ≠ t.w15) → (endInterruption t).held = t.held)) := by
  refine ⟨fun newer h older eh hh hn => ?_, fun newer h older eh hn hf hs => ?_, fun hn => ⟨?_, fun hp => ?_⟩⟩
  · exact endInterruption_resumes ra hh.2 (findHeld_here eh hh hn)
  · exact endInterruption_resumes ra hf (findHeld_moved ra eh hn hf hs)
  · exact endInterruption_unknown ra hn
  · rw [endInterruption_none (findHeld_none hp hn)]
    rfl

/-- Settles O53: two pops, and for `RETFIE` the end of the interruption by RA. (Primed: `returns` is the class of these
instructions.) -/
theorem returns' : Obligations.Returns := by
  refine fun s => ⟨returnFrom_ok, fun b k d h => returnFrom_ok h, fun h => ?_⟩
  intro hi l hc
  refine ⟨_, exec_retfie h hc, endInterruption_fields (retfieRestored s), ?_⟩
  simp only [heldHere_endInterruption, fitsPopped_endInterruption, standsAsLeft_endInterruption, endInterruption_w15,
    endInterruption_pc, endInterruption_sr]
  exact ⟨endInterruption_ra_clear, endInterruption_ra_set⟩

end Sys2Proof.Machine
end

section
/-!
PROOFS. Additions (R203 to R206), extensions (R210, R211), shifts (R214 to R217) and the bit instructions (R220, R221) with ordinary
operands: the flags and values of `Flags.lean` as arithmetic, then each instruction by its operands.
-/

namespace Sys2Proof.Machine

variable {s : State}

/-! ## A source operand, the flags, a destination operand -/

/-- What a source operand, SR and a destination operand change. -/
theorem srcSrDst_frame (p q : Mode) (b : Size) (r d : Reg) (f : Status) (v : Word) (s : State) :
    Frame (fun x => srcRegs p r x ∨ dstRegs q d x) (dstBytes q b d d (srcNext p b r s)) s
      ((dstNext q b d d v ((srcNext p b r s).setSr f)).advance 1) := by
  have hd : Frame (dstRegs q d) (dstBytes q b d d (srcNext p b r s)) (srcNext p b r s)
      (dstNext q b d d v ((srcNext p b r s).setSr f)) := (Frame.dstNext q b d d v ((srcNext p b r s).setSr f)).afterSr
  exact (((Frame.srcNext p b r s).trans hd).mono (fun _ hx => hx) fun _ ha => ha.elim False.elim id).thenAdvance 1

/-- What a source operand, SR and a working register change. -/
theorem srcSrReg_frame (p : Mode) (b : Size) (r d : Reg) (f : Status) (v : Word) (s : State) :
    Frame (fun x => x = d ∨ srcRegs p r x) noBytes s ((((srcNext p b r s).setSr f).setW d v).advance 1) := by
  have hd : Frame (fun x => x = d) noBytes (srcNext p b r s) (((srcNext p b r s).setSr f).setW d v) :=
    (Frame.setW ((srcNext p b r s).setSr f) d v).afterSr
  exact (((Frame.srcNext p b r s).trans hd).mono (fun _ hx => hx.symm) fun _ ha => ha.elim id id).thenAdvance 1

/-- What SR and the destination of a file register instruction change. -/
theorem srFileDest_frame (b : Size) (t : FDest) (a : Word) (f : Status) (v : Word) (s : State) :
    Frame (fileRegs t) (fileBytes b t a) s ((fileDestNext b t a v (s.setSr f)).advance 1) :=
  ((Frame.fileDestNext b t a v (s.setSr f)).afterSr).thenAdvance 1

/-! ## Additions -/

/-- SR after an addition (R202). -/
def addStatus (o : AluOut) (f : Status) : Status := { f with n := o.n, z := o.z, c := o.c, dc := o.dc, ov := o.ov }

theorem setFlags_eq (o : AluOut) (s : State) : s.setFlags o = s.setSr (addStatus o s.sr) := rfl

theorem addTo_ok {q : Mode6} {b : Size} {d : Reg} (h : dstOk q.toMode b d d s) (x y : Word) : addTo b x y q d s =
    .val () (dstNext q.toMode b d d (aluAdd b x y).val (s.setSr (addStatus (aluAdd b x y) s.sr))) := by
  rw [addTo, setFlags_eq]
  exact writeDst_ok ((dstOk_setSr _).2 h)

/-- A sum of a register and a source operand goes to the destination, whatever forms the row allows. -/
theorem addSrc_ok {p : Mode} {q : Mode6} {b : Size} {d r : Reg} (hs : srcOk p b r r s)
    (hd : dstOk q.toMode b d d (srcNext p b r s)) (x : Word) :
    ((readSrc p b r r s).bind fun y s' => addTo b x y q d s').done =
      .next ((dstNext q.toMode b d d (aluAdd b x (srcValue p b r r s)).val
        ((srcNext p b r s).setSr (addStatus (aluAdd b x (srcValue p b r r s)) s.sr))).advance 1) := by
  rw [readSrc_ok hs, Res.bind_val, addTo_ok hd, Res.done_val, srcNext_sr]

/-- Settles O28. -/
theorem addResult : Obligations.AddResult := by
  refine fun w b q d r s => ⟨fun p hs hd => ?post, fun p hs hd => ?pre, fun k hd => ?lit⟩
  case post => exact ⟨addSrc_ok hs hd (s.regRead b w), srcSrDst_frame p.toMode q.toMode b r d _ _ s, dstNext_sr ..⟩
  case pre => exact ⟨addSrc_ok hs hd (s.regRead b w), srcSrDst_frame p.toMode q.toMode b r d _ _ s, dstNext_sr ..⟩
  case lit =>
    refine ⟨?_, ((Frame.dstNext q.toMode b d d _ (s.setSr _)).afterSr).thenAdvance 1, dstNext_sr ..⟩
    show (addTo b (s.regRead b w) (k.setWidth 16) q d s).done = _
    rw [addTo_ok hd, Res.done_val]
    rfl

theorem exec_addF {b : Size} {f : BitVec 13} (h : fileOk b (fileAddr f) s) (t : FDest) : exec (.addF b t f) s =
    .next ((fileDestNext b t (fileAddr f) (aluAdd b (memValue b (fileAddr f) s) (s.regRead b 0)).val
      (s.setFlags (aluAdd b (memValue b (fileAddr f) s) (s.regRead b 0)))).advance 1) := by
  show ((readFile b (fileAddr f) s).bind fun v s' => writeFileDest b t (fileAddr f) (aluAdd b v (s.regRead b 0)).val
    (s'.setFlags (aluAdd b v (s.regRead b 0)))).done = _
  rw [readFile_ok h, Res.bind_val, writeFileDest_ok (s := s.setFlags _) fun _ => h, Res.done_val]

/-- Settles O29. -/
theorem addLiteralAndFile : Obligations.AddLiteralAndFile := by
  refine fun b s => ⟨fun k d => ⟨rfl, ?_, regWrite_sr ..⟩,
    fun t f h => ⟨exec_addF h t, srFileDest_frame b t _ _ _ s, fileDestNext_sr ..⟩⟩
  exact ((Frame.regWrite b (s.setSr _) d _).afterSr).thenAdvance 1

/-! ## Extensions -/

/-- A byte source is a byte in the low half of a word (R142). -/
theorem srcValue_byte (m : Mode) (n w : Reg) (s : State) : ∃ x : Byte, srcValue m .byte n w s = zext16 x := by
  rw [srcValue]
  split
  · exact ⟨_, rfl⟩
  · exact ⟨_, rfl⟩

theorem msb_byte (x : Byte) : x.msb = decide (128 ≤ x.toNat) := BitVec.msb_eq_decide x

theorem beq_zero_eq_decide {k : Nat} (x : BitVec k) : (x == 0#k) = decide (x.toNat = 0) := by
  rw [Bool.eq_iff_iff, beq_iff_eq, decide_eq_true_iff, ← BitVec.toNat_inj, BitVec.toNat_ofNat, Nat.zero_mod]

theorem not_msb_byte (x : Byte) : (!x.msb) = decide (x.toNat < 128) := by
  rw [msb_byte, ← decide_not, decide_eq_decide, not_le]

/-- A byte extended by its sign (R210). -/
theorem signExtend_byte (x : Byte) :
    x.signExtend 16 = BitVec.ofNat 16 (if x.toNat < 128 then x.toNat else 65280 + x.toNat) := by
  have hx := x.isLt
  rw [BitVec.signExtend, BitVec.toInt_eq_toNat_cond]
  apply BitVec.eq_of_toNat_eq
  rw [BitVec.toNat_ofInt, BitVec.toNat_ofNat]
  split <;> split <;> omega

/-- SR after `SE` of a byte (R210). -/
theorem setNZC_aluSe (x : Byte) (s : State) : s.setNZC (aluSe (zext16 x)) = s.setSr { s.sr with
    n := decide (128 ≤ x.toNat), z := decide (x.toNat = 0), c := decide (x.toNat < 128) } := by
  rw [State.setNZC, aluSe, loByte_zext16, beq_zero_eq_decide, not_msb_byte, msb_byte]

theorem aluSe_val (x : Byte) :
    (aluSe (zext16 x)).val = BitVec.ofNat 16 (if x.toNat < 128 then x.toNat else 65280 + x.toNat) := by
  rw [aluSe, loByte_zext16, signExtend_byte]

/-- SR after `ZE` of a byte (R211). -/
theorem setNZC_aluZe (x : Byte) (s : State) : s.setNZC (aluZe (zext16 x)) = s.setSr { s.sr with
    n := false, z := decide (x.toNat = 0), c := true } := by
  rw [State.setNZC, aluZe, loByte_zext16, beq_zero_eq_decide]

theorem aluZe_val (x : Byte) : (aluZe (zext16 x)).val = BitVec.ofNat 16 x.toNat := by
  rw [aluZe, loByte_zext16, zext16_ofNat rfl]

/-- Settles O30: the source is a byte, and the flags and the value are those of its number. -/
theorem extendResult : Obligations.ExtendResult := by
  intro d p r s h v
  obtain ⟨x, hx⟩ := srcValue_byte p.toMode r r s
  have hv : v = x.toNat := (congrArg BitVec.toNat hx).trans (zext16_toNat x)
  rw [hv]
  refine ⟨x.isLt, ⟨?se, srcSrReg_frame p.toMode .byte r d _ _ s, State.setW_sr ..⟩,
    ⟨?ze, srcSrReg_frame p.toMode .byte r d _ _ s, State.setW_sr ..⟩⟩
  case se =>
    show ((readSrc p.toMode .byte r r s).bind fun v s => .val () ((s.setNZC (aluSe v)).setW d (aluSe v).val)).done = _
    rw [readSrc_ok h, hx, Res.bind_val, Res.done_val, setNZC_aluSe, aluSe_val, srcNext_sr]
  case ze =>
    show ((readSrc p.toMode .byte r r s).bind fun v s => .val () ((s.setNZC (aluZe v)).setW d (aluZe v).val)).done = _
    rw [readSrc_ok h, hx, Res.bind_val, Res.done_val, setNZC_aluZe, aluZe_val, srcNext_sr]

/-! ## One-bit shifts -/

section
variable {k : Nat} (x : BitVec k)

theorem plainOut_val_toNat (hk : k ≤ 16) (c : Bool) : (plainOut x c).val.toNat = x.toNat := BitVec.toNat_setWidth_of_le hk

theorem plainOut_z_iff (hk : k ≤ 16) (c : Bool) : (plainOut x c).z = true ↔ (plainOut x c).val = 0#16 := by
  rw [← BitVec.toNat_inj, plainOut_val_toNat x hk]
  show (x == 0#k) = true ↔ _
  rw [beq_zero_eq_decide, decide_eq_true_iff]
  rfl

theorem slBits_val_toNat (hk : k ≤ 16) : (slBits x).val.toNat = 2 * x.toNat % 2 ^ k := by
  rw [slBits, plainOut_val_toNat _ hk, BitVec.toNat_shiftLeft, Nat.shiftLeft_eq, Nat.pow_one, Nat.mul_comm]

theorem lsrBits_val_toNat (hk : k ≤ 16) : (lsrBits x).val.toNat = x.toNat / 2 := by
  rw [lsrBits, plainOut_val_toNat _ hk, BitVec.toNat_ushiftRight, Nat.shiftRight_eq_div_pow, Nat.pow_one]

theorem asrBits_val_toNat (hk : k ≤ 16) : (asrBits x).val.toNat = x.toNat / 2 + x.msb.toNat * 2 ^ (k - 1) := by
  have hx := x.isLt
  rw [asrBits, plainOut_val_toNat _ hk, BitVec.toNat_sshiftRight, Nat.shiftRight_eq_div_pow, Nat.shiftRight_eq_div_pow,
    Nat.pow_one]
  cases k with
  | zero => simp [BitVec.of_length_zero]
  | succ j =>
    rw [Nat.pow_succ] at hx ⊢
    rw [Nat.add_sub_cancel]
    cases x.msb
    · simp
    · rw [if_pos rfl, Bool.toNat_true]
      omega

/-- The bit below the top one comes to the top. -/
theorem slBits_n (hk : 2 ≤ k) : (slBits x).n = x.getLsbD (k - 2) := by
  show (x <<< 1).msb = _
  rw [BitVec.msb_shiftLeft, BitVec.getMsbD, decide_eq_true (by omega), Bool.true_and, Nat.sub_sub]

theorem lsrBits_n : (lsrBits x).n = false := by
  show (x >>> 1).msb = false
  rw [BitVec.msb_ushiftRight]
  rfl

theorem asrBits_n : (asrBits x).n = x.msb := BitVec.msb_sshiftRight

end

theorem loByte_getLsbD (x : Word) {i : Nat} (hi : i < 8) : (loByte x).getLsbD i = x.getLsbD i := by
  rw [loByte, BitVec.getLsbD_extractLsb', decide_eq_true hi, Bool.true_and, Nat.zero_add]

theorem loByte_msb (x : Word) : (loByte x).msb = x.getLsbD 7 := by
  rw [BitVec.msb_eq_getLsbD_last]
  exact loByte_getLsbD x (by decide)

/-- Floor division of the signed value (R215). -/
theorem asrBits_val_toInt (x : Word) : (asrBits x).val.toInt = x.toInt / 2 := by
  have hv : (asrBits x).val = x.sshiftRight 1 := BitVec.setWidth_eq _
  rw [hv, BitVec.toInt_sshiftRight, Int.shiftRight_eq_div_pow]
  rfl

/-- The byte `ASR` as arithmetic on the word it is the low half of. -/
theorem asrByte_val_toNat (x : Word) :
    (asrBits (loByte x)).val.toNat = x.toNat % 256 / 2 + x.toNat / 128 % 2 * 128 := by
  rw [asrBits_val_toNat _ (by decide), msb_byte, loByte_toNat]
  have hb : (decide (128 ≤ x.toNat % 256)).toNat = x.toNat / 128 % 2 := by
    by_cases h : 128 ≤ x.toNat % 256
    · rw [decide_eq_true h, Bool.toNat_true]; omega
    · rw [decide_eq_false h, Bool.toNat_false]; omega
  rw [hb]
  rfl

/-- Settles O31: word mode shifts the word, byte mode its low byte. -/
theorem oneBitShiftFlags : Obligations.OneBitShiftFlags := by
  refine fun x => ⟨⟨slBits_val_toNat x le_rfl, rfl, slBits_n x (by decide)⟩, ⟨lsrBits_val_toNat x le_rfl, rfl, lsrBits_n x⟩,
    ⟨asrBits_val_toInt x, rfl, asrBits_n x⟩, ⟨?slByte, loByte_msb x, ?slByteN⟩, ⟨?lsrByte, ?c, lsrBits_n (loByte x)⟩,
    ⟨asrByte_val_toNat x, ?c, (asrBits_n (loByte x)).trans (loByte_msb x)⟩, fun z => ?zero⟩
  case slByte =>
    refine (slBits_val_toNat (loByte x) (by decide)).trans ?_
    rw [loByte_toNat]
    omega
  case slByteN => exact (slBits_n (loByte x) (by decide)).trans (loByte_getLsbD x (by decide))
  case lsrByte => exact (lsrBits_val_toNat (loByte x) (by decide)).trans (by rw [loByte_toNat])
  case c => exact loByte_getLsbD x (by decide)
  case zero =>
    cases z
    · exact ⟨plainOut_z_iff _ le_rfl _, plainOut_z_iff _ le_rfl _, plainOut_z_iff _ le_rfl _⟩
    · exact ⟨plainOut_z_iff _ (by decide) _, plainOut_z_iff _ (by decide) _, plainOut_z_iff _ (by decide) _⟩

theorem shiftTo_ok {b : Size} {q p : Mode6} {d r : Reg} (hs : srcOk p.toMode b r r s)
    (hd : dstOk q.toMode b d d (srcNext p.toMode b r s)) (f : Size → Word → AluOut) : shiftTo f b q d p r s =
      .next ((dstNext q.toMode b d d (f b (srcValue p.toMode b r r s)).val
        ((srcNext p.toMode b r s).setNZC (f b (srcValue p.toMode b r r s)))).advance 1) := by
  rw [shiftTo, readSrc_ok hs, Res.bind_val, State.setNZC, writeDst_ok ((dstOk_setSr _).2 hd), Res.done_val]

theorem shiftFile_ok {b : Size} {a : BitVec 13} (h : fileOk b (fileAddr a) s) (f : Size → Word → AluOut) (t : FDest) :
    shiftFile f b t a s = .next ((fileDestNext b t (fileAddr a) (f b (memValue b (fileAddr a) s)).val
      (s.setNZC (f b (memValue b (fileAddr a) s)))).advance 1) := by
  rw [shiftFile, readFile_ok h, Res.bind_val, writeFileDest_ok (s := s.setNZC _) fun _ => h, Res.done_val]

/-- Settles O32: each row is the shared shift with its own function. -/
theorem shiftResult : Obligations.ShiftResult := by
  refine fun f b s => ⟨fun i q d p r hi hs hd => ?operands, fun i t a hi h => ?file⟩
  case operands =>
    have he : exec i s = shiftTo f b q d p r s := by
      rcases hi with ⟨rfl, rfl⟩ | ⟨rfl, rfl⟩ | ⟨rfl, rfl⟩ <;> rfl
    rw [shiftTo_ok hs hd, State.setNZC, srcNext_sr] at he
    exact ⟨he, srcSrDst_frame p.toMode q.toMode b r d _ _ s, dstNext_sr ..⟩
  case file =>
    have he : exec i s = shiftFile f b t a s := by
      rcases hi with ⟨rfl, rfl⟩ | ⟨rfl, rfl⟩ | ⟨rfl, rfl⟩ <;> rfl
    rw [shiftFile_ok h] at he
    exact ⟨he, srFileDest_frame b t _ _ _ s, fileDestNext_sr ..⟩

/-! ## Multi-bit shifts -/

theorem shiftLeft_eq_ofNat (x : Word) (n : Nat) : x <<< n = BitVec.ofNat 16 (x.toNat * 2 ^ n) := by
  apply BitVec.eq_of_toNat_eq
  rw [BitVec.toNat_shiftLeft, Nat.shiftLeft_eq, BitVec.toNat_ofNat]

theorem ushiftRight_eq_ofNat (x : Word) (n : Nat) : x >>> n = BitVec.ofNat 16 (x.toNat / 2 ^ n) :=
  eq_ofNat (by rw [BitVec.toNat_ushiftRight, Nat.shiftRight_eq_div_pow])

theorem sshiftRight_eq_ofInt (x : Word) (n : Nat) : x.sshiftRight n = BitVec.ofInt 16 (x.toInt / 2 ^ n) := by
  rw [BitVec.sshiftRight, Int.shiftRight_eq_div_pow, Nat.cast_pow, Nat.cast_ofNat]

theorem shiftReg_runs {i : Instr} {v : Word} {d : Reg} (h : exec i s = shiftReg v d s) :
    Runs i s (fun x => x = d) noBytes { s.sr with n := v.msb, z := decide (v = 0#16) }
      (((s.setSr { s.sr with n := v.msb, z := decide (v = 0#16) }).setW d v).advance 1) :=
  ⟨h, ((Frame.setW (s.setSr _) d v).afterSr).thenAdvance 1, State.setW_sr ..⟩

/-- Settles O33: each row is a shift of `Wb` by its count, which is arithmetic. -/
theorem multiBitShift : Obligations.MultiBitShift := by
  rintro i w d n v s (⟨hi, rfl⟩ | ⟨hi, rfl⟩ | ⟨hi, rfl⟩)
  · rw [← shiftLeft_eq_ofNat]
    rcases hi with ⟨r, rfl, rfl⟩ | ⟨k, rfl, rfl⟩ <;> exact shiftReg_runs rfl
  · rw [← ushiftRight_eq_ofNat]
    rcases hi with ⟨r, rfl, rfl⟩ | ⟨k, rfl, rfl⟩ <;> exact shiftReg_runs rfl
  · rw [← sshiftRight_eq_ofInt]
    rcases hi with ⟨r, rfl, rfl⟩ | ⟨k, rfl, rfl⟩ <;> exact shiftReg_runs rfl

/-! ## Bit instructions -/

theorem setBit_eq (k : Nat) (v : Word) : setBit k v = v ||| BitVec.ofNat 16 (2 ^ k) := by
  rw [setBit, shiftLeft_eq_ofNat]
  show v ||| BitVec.ofNat 16 (1 * 2 ^ k) = _
  rw [Nat.one_mul]

/-- The byte that holds the bit, and its address (R220). -/
theorem bitByte_eq (k : BitVec 4) (f : BitVec 12) : bitByte k f = BitVec.ofNat 16 (2 * f.toNat + k.toNat / 8) := by
  apply eq_ofNat
  rw [bitByte, BitVec.toNat_setWidth_of_le (by decide), toNat_append_mul, BitVec.toNat_ofBool, BitVec.msb_eq_decide]
  have hk := k.isLt
  by_cases h : 8 ≤ k.toNat
  · rw [decide_eq_true (by omega), Bool.toNat_true]; omega
  · rw [decide_eq_false (by omega), Bool.toNat_false]; omega

/-- Settles O34. -/
theorem bitSet : Obligations.BitSet := by
  refine fun k s => ⟨fun b p r h => ⟨?operand, (Frame.dstNext p.toMode b r r _ s).thenAdvance 1, dstNext_sr ..⟩,
    fun f => ?file⟩
  case operand =>
    show (modifyOperand p.toMode b r (setBit k.toNat) s).done = _
    rw [modifyOperand_ok h, Res.done_val, setBit_eq]
  case file =>
    intro a h
    refine ⟨?_, (Frame.memStore .byte a _ s).thenAdvance 1, memStore_sr ..⟩
    show ((readFile .byte (bitByte k f) s).bind fun v s => writeFile .byte (bitByte k f) (setBit (bitInByte k) v) s).done = _
    rw [bitByte_eq, readFile_ok h, Res.bind_val, writeFile_ok h, Res.done_val, setBit_eq]
    rfl

/-- The skip passes over one program word when the bit is 0 (R221, R331). -/
theorem skipIf_bit (b : Bool) (s : State) : skipIf (!b) s = s.setPc (if b then s.pc + 2#23 else s.pc + 4#23) := by
  cases b <;> rfl

theorem srcNext_pc (m : Mode) (z : Size) (n : Reg) (s : State) : (srcNext m z n s).pc = s.pc := by
  rcases modifyPtr_eq m n (stepOf z) s with h | ⟨v, h⟩ <;> rw [srcNext, h]
  exact State.setW_pc s n v

/-- Settles O35. -/
theorem bitTestSkip : Obligations.BitTestSkip := by
  refine fun k s => ⟨fun p r h => ⟨?operand, ?frame, srcNext_sr ..⟩, fun f => ?file⟩
  case operand =>
    show ((readSrc p.toMode .word r r s).next fun v s => skipIf (!v.getLsbD k.toNat) s) = _
    rw [readSrc_ok h, Res.next_val, skipIf_bit, srcNext_pc]
  case frame =>
    exact ((Frame.srcNext p.toMode .word r s).trans (Frame.setPc _ _)).mono (fun _ hx => hx.elim id False.elim)
      fun _ ha => ha.elim id id
  case file =>
    intro a h
    refine ⟨?_, Frame.setPc s _, rfl⟩
    show ((readFile .byte (bitByte k f) s).next fun v s => skipIf (!v.getLsbD (bitInByte k)) s) = _
    rw [bitByte_eq, readFile_ok h, Res.next_val, skipIf_bit]
    have hb : (memValue .byte a s).getLsbD (bitInByte k) = (s.mem.read a.toNat).getLsbD (k.toNat % 8) := by
      show ((s.mem.read a.toNat).setWidth 16).getLsbD (k.toNat % 8) = _
      rw [BitVec.getLsbD_setWidth, decide_eq_true (by omega), Bool.true_and]
    rw [hb]

end Sys2Proof.Machine
end

section
/-!
PROOFS. The MCU multiplies (R225 to R229): the exact product by its signedness letters and its bounds, then each row by its operands.
-/

namespace Sys2Proof.Machine

variable {s : State}

/-! ## Products -/

/-- The exact product, the letters as R225 reads them. -/
theorem product_eq (x : MulSign) (a b : Word) : product x a b =
    (if x = .su ∨ x = .ss then a.toInt else (a.toNat : Int)) * (if x = .us ∨ x = .ss then b.toInt else (b.toNat : Int)) := by
  cases x <;> rfl

theorem abs_toInt_le (v : Word) : |v.toInt| ≤ 32768 :=
  abs_le.2 ⟨BitVec.le_toInt v, BitVec.toInt_lt.le.trans (by decide)⟩

theorem abs_toNat_le (v : Word) : |(v.toNat : Int)| ≤ 65535 := by
  have := v.isLt
  rw [Nat.abs_cast]
  omega

theorem abs_mul_lt {p q m n k : Int} (hp : |p| ≤ m) (hq : |q| ≤ n) (h : m * n < k) : |p * q| < k := by
  rw [abs_mul]
  exact (mul_le_mul hp hq (abs_nonneg q) ((abs_nonneg p).trans hp)).trans_lt h

/-- A product with a signed operand fits in 32 bits as a signed number. -/
theorem abs_product_lt {x : MulSign} (hx : x ≠ .uu) (a b : Word) : |product x a b| < 2 ^ 31 := by
  cases x with
  | uu => exact absurd rfl hx
  | us => exact abs_mul_lt (abs_toNat_le a) (abs_toInt_le b) (by norm_num)
  | su => exact abs_mul_lt (abs_toInt_le a) (abs_toNat_le b) (by norm_num)
  | ss => exact abs_mul_lt (abs_toInt_le a) (abs_toInt_le b) (by norm_num)

/-- The 32-bit product holds the exact product of unsigned operands. -/
theorem product_uu_toNat (a b : Word) : ((BitVec.ofInt 32 (product .uu a b)).toNat : Int) = product .uu a b := by
  have h : a.toNat * b.toNat < 2 ^ 32 :=
    (Nat.mul_lt_mul'' a.isLt b.isLt).trans_eq (by norm_num)
  show ((BitVec.ofInt 32 ((a.toNat : Int) * (b.toNat : Int))).toNat : Int) = (a.toNat : Int) * (b.toNat : Int)
  rw [← Nat.cast_mul, BitVec.ofInt_natCast, BitVec.toNat_ofNat, Nat.mod_eq_of_lt h]

/-- The 32-bit product holds the exact product where an operand is signed. -/
theorem product_toInt {x : MulSign} (hx : x ≠ .uu) (a b : Word) :
    (BitVec.ofInt 32 (product x a b)).toInt = product x a b := by
  obtain ⟨hlo, hhi⟩ := abs_lt.1 (abs_product_lt hx a b)
  exact BitVec.toInt_ofInt_eq_self (by decide) hlo.le hhi

/-- The 32-bit product extended to an accumulator is the exact product there (R229). -/
theorem product_extended (x : MulSign) (a b : Word) :
    (if x = .uu then (BitVec.ofInt 32 (product x a b)).setWidth 40 else (BitVec.ofInt 32 (product x a b)).signExtend 40)
      = BitVec.ofInt 40 (product x a b) := by
  split
  · next h =>
    subst h
    conv_rhs => rw [← product_uu_toNat, BitVec.ofInt_natCast]
    exact eq_ofNat (BitVec.toNat_setWidth_of_le (by decide))
  · next h => rw [BitVec.signExtend, product_toInt h]

theorem ofInt_asOperand (b : Bool) (v : Word) : BitVec.ofInt 16 (asOperand b v) = v := by
  cases b with
  | true => exact BitVec.ofInt_toInt
  | false => exact (BitVec.ofInt_natCast 16 v.toNat).trans (eq_ofNat rfl).symm

/-- The low 16 bits of a product do not depend on the letters (R228). -/
theorem product_low (x : MulSign) (a b : Word) : BitVec.ofInt 16 (product x a b) = a * b := by
  rw [product, BitVec.ofInt_mul, ofInt_asOperand, ofInt_asOperand]

theorem lit5_toNat (k : BitVec 5) : (k.setWidth 16 : Word).toNat = k.toNat := BitVec.toNat_setWidth_of_le (by decide)

theorem mul_lit5 (a : Word) (k : BitVec 5) : a * k.setWidth 16 = BitVec.ofNat 16 (a.toNat * k.toNat) := by
  apply BitVec.eq_of_toNat_eq
  rw [BitVec.toNat_mul, lit5_toNat, BitVec.toNat_ofNat]

/-! ## Destinations -/

/-- The low word goes to the lower register (R226). -/
theorem writePair_eq (d : Reg) (q : BitVec 32) (s : State) : writePair d q s =
    (s.setW d (BitVec.ofNat 16 q.toNat)).setW (nextReg d) (BitVec.ofNat 16 (q.toNat / 65536)) := by
  rw [writePair, extract_eq_ofNat]
  rfl

theorem setPair_sr (s : State) (n m : Reg) (v u : Word) : ((s.setW n v).setW m u).sr = s.sr := by
  rw [State.setW_sr, State.setW_sr]

/-- An accumulator and a pointer are written independently. -/
theorem modifyPtr_setAcc (m : Mode) (n : Reg) (k : Word) (a : Acc) (v : Acc40) (s : State) :
    modifyPtr m n k (s.setAcc a v) = (modifyPtr m n k s).setAcc a v := by
  have hw (u : Word) : (s.setAcc a v).setW n u = (s.setW n u).setAcc a v := by
    unfold State.setW
    cases a <;> split <;> rfl
  have hg : (s.setAcc a v).getW n = s.getW n := by
    cases a <;> rfl
  cases m <;> simp only [modifyPtr, hw, hg]

theorem setAcc_sr (a : Acc) (v : Acc40) (s : State) : (s.setAcc a v).sr = s.sr := by
  cases a <;> rfl

/-! ## The instructions -/

theorem mulTo_ok {m : Mode} {r : Reg} (h : srcOk m .word r r s) (x : MulSign) (w d : Reg) : mulTo x w d m r s =
    .next ((writePair d (BitVec.ofInt 32 (product x (s.getW w) (srcValue m .word r r s))) (srcNext m .word r s)).advance 1) := by
  rw [mulTo, readSrc_ok h, Res.bind_val, Res.done_val]

/-- Settles O36: each row is the shared multiply with its own letters. -/
theorem mulResult : Obligations.MulResult := by
  intro i x w d m r s hi h v a b q
  have he : exec i s = mulTo x w d m r s := by
    rcases hi with ⟨p, rfl, rfl, rfl⟩ | ⟨p, rfl, rfl, rfl⟩ | ⟨p, rfl, rfl, rfl⟩ | ⟨p, rfl, rfl, rfl⟩ | ⟨p, rfl, rfl, rfl⟩
      | ⟨p, rfl, rfl, rfl⟩ <;> rfl
  have hp : a * b = product x (s.getW w) v := (product_eq x _ _).symm
  have hq : q = BitVec.ofInt 32 (product x (s.getW w) v) := congrArg (BitVec.ofInt 32) hp
  rw [mulTo_ok h, ← hq, writePair_eq] at he
  refine ⟨?exact, he, ?frame, (setPair_sr ..).trans (srcNext_sr ..)⟩
  case exact =>
    rw [hq, hp]
    split
    · next hx => rw [hx]; exact product_uu_toNat _ _
    · next hx => exact product_toInt hx _ _
  case frame =>
    refine (((Frame.srcNext m .word r s).trans (Frame.setPair _ d _ _)).mono ?_ fun _ ha => ha.elim id id).thenAdvance 1
    rintro n (hn | hn | hn)
    · exact .inr (.inr hn)
    · exact .inl hn
    · exact .inr (.inl hn)

theorem setPair_runs {i : Instr} {d : Reg} {q : BitVec 32} (h : exec i s = .next ((writePair d q s).advance 1)) :
    Runs i s (fun n => n = d ∨ n = nextReg d) noBytes s.sr
      (((s.setW d (BitVec.ofNat 16 q.toNat)).setW (nextReg d) (BitVec.ofNat 16 (q.toNat / 65536))).advance 1) :=
  ⟨by rw [h, writePair_eq], (Frame.setPair s d _ _).thenAdvance 1, setPair_sr ..⟩

/-- A literal operand is unsigned (R226). -/
theorem product_uu_lit5 (a : Word) (k : BitVec 5) :
    BitVec.ofInt 32 (product .uu a (k.setWidth 16)) = BitVec.ofNat 32 (a.toNat * k.toNat) := by
  rw [← BitVec.ofInt_natCast, Nat.cast_mul, ← lit5_toNat k]
  rfl

theorem product_su_lit5 (a : Word) (k : BitVec 5) : product .su a (k.setWidth 16) = a.toInt * k.toNat := by
  rw [← lit5_toNat k]
  rfl

theorem exec_mulF_word {f : BitVec 13} (h : fileOk .word (fileAddr f) s) : exec (.mulF .word f) s =
    .next ((writePair 2 (BitVec.ofNat 32 ((s.getW 0).toNat * (memValue .word (fileAddr f) s).toNat)) s).advance 1) := by
  show execMulF .word f s = _
  rw [execMulF, readFile_ok h]
  rfl

theorem exec_mulF_byte {f : BitVec 13} (h : fileOk .byte (fileAddr f) s) : exec (.mulF .byte f) s =
    .next ((s.setW 2 (BitVec.ofNat 16 ((s.getW 0).toNat % 256 * (memValue .byte (fileAddr f) s).toNat))).advance 1) := by
  show execMulF .byte f s = _
  rw [execMulF, readFile_ok h, Res.bind_val, Res.done_val, BitVec.setWidth_ofNat_of_le (by decide), State.regRead, zext16_toNat,
    loByte_toNat]

/-- Settles O37. -/
theorem mulLiteralAndFile : Obligations.MulLiteralAndFile := by
  refine fun s => ⟨fun w d k => ?literal, fun f h => ?word, fun f h => ?byte⟩
  case literal =>
    refine ⟨setPair_runs ?_, setPair_runs ?_⟩
    · rw [← product_uu_lit5]
      rfl
    · rw [← product_su_lit5]
      rfl
  case word =>
    have hp : (s.getW 0).toNat * (memValue .word (fileAddr f) s).toNat < 2 ^ 32 :=
      (Nat.mul_lt_mul'' (BitVec.isLt _) (BitVec.isLt _)).trans_eq (by norm_num)
    have hr := setPair_runs (exec_mulF_word h)
    rw [BitVec.toNat_ofNat, Nat.mod_eq_of_lt hp] at hr
    exact hr
  case byte => exact ⟨exec_mulF_byte h, (Frame.setW s 2 _).thenAdvance 1, State.setW_sr ..⟩

theorem mulwTo_ok {p : Mode6} {r : Reg} (h : srcOk p.toMode .word r r s) (x : MulSign) (w d : Reg) : mulwTo x w d p r s =
    .next (((srcNext p.toMode .word r s).setW d (s.getW w * srcValue p.toMode .word r r s)).advance 1) := by
  rw [mulwTo, readSrc_ok h, Res.bind_val, Res.done_val, product_low]

theorem mulwLit_eq (x : MulSign) (w d r : Reg) (k : BitVec 5) (s : State) : mulwSrc x w d (.lit k) r s =
    .next ((s.setW d (BitVec.ofNat 16 ((s.getW w).toNat * k.toNat))).advance 1) := by
  rw [mulwSrc, product_low, mul_lit5]

/-- Settles O38: the low word of the product is the same whatever the letters. -/
theorem mulwResult : Obligations.MulwResult := by
  refine fun i w d s => ⟨fun p r hi h => ⟨?operand, ?frame, (State.setW_sr ..).trans (srcNext_sr ..)⟩,
    fun k r hi => ⟨?literal, (Frame.setW s d _).thenAdvance 1, State.setW_sr ..⟩⟩
  case operand =>
    rcases hi with rfl | rfl | rfl | rfl
    · exact mulwTo_ok h .uu w d
    · exact mulwTo_ok h .us w d
    · exact mulwTo_ok h .su w d
    · exact mulwTo_ok h .ss w d
  case frame =>
    exact (((Frame.srcNext p.toMode .word r s).trans (Frame.setW _ d _)).mono (fun _ hx => hx.symm)
      fun _ ha => ha.elim id id).thenAdvance 1
  case literal =>
    rcases hi with rfl | rfl
    · exact mulwLit_eq .uu w d r k s
    · exact mulwLit_eq .su w d r k s

/-- Settles O48: the accumulator and the pointer are written independently, so the frame starts from the accumulator written. -/
theorem mulAccumulator : Obligations.MulAccumulator := by
  intro x w p r a s h v f g t
  have ht : t = ((srcNext p.toMode .word r s).setAcc a (BitVec.ofInt 40 (product x (s.getW w) v))).advance 1 := by
    rw [product_eq]
  refine ⟨?step, ?frame, ?sr⟩
  case step =>
    show execMulAcc x w p r a s = _
    rw [execMulAcc, readSrc_ok h, Res.bind_val, Res.done_val, product_extended, ht]
  case frame =>
    have hf := (Frame.srcNext p.toMode .word r (s.setAcc a (BitVec.ofInt 40 (f * g)))).thenAdvance 1
    rw [srcNext, modifyPtr_setAcc] at hf
    exact hf
  case sr => exact (setAcc_sr ..).trans (srcNext_sr ..)

end Sys2Proof.Machine
end

section
/-!
PROOFS. The values of the DSP engine (R240 to R272): the multiplier's product, the roundings and the stored word, what AccUpdate writes
and leaves.
-/

namespace Sys2Proof.Machine

variable {s : State}

/-! ## The multiplier -/

/-- The multiplier result as a product of integers, the operands signed or not as `operandSigned` says (R242). -/
theorem dspProduct_eq (m n : DReg) (s : State) : dspProduct m n s = (if s.cor.ifm then 1 else 2) *
    (asOperand ((operandSigned s.cor.us m).getD true) (s.getW m.toReg)
      * asOperand ((operandSigned s.cor.us n).getD true) (s.getW n.toReg)) := by
  rw [dspProduct, dspMul]
  split
  · rw [one_mul]
  · rfl

theorem abs_asOperand_le (b : Bool) (v : Word) : |asOperand b v| ≤ 65535 := by
  cases b with
  | true => exact (abs_toInt_le v).trans (by norm_num)
  | false => exact abs_toNat_le v

/-- Doubled or not, a multiplier result is far inside 40 bits. -/
theorem abs_dspProduct_lt (m n : DReg) (s : State) : |dspProduct m n s| < 2 ^ 39 := by
  have hk : |(if s.cor.ifm then 1 else 2 : Int)| ≤ 2 := by split <;> decide
  rw [dspProduct_eq]
  exact abs_mul_lt hk (abs_mul_lt (k := 65535 * 65535 + 1) (abs_asOperand_le _ _) (abs_asOperand_le _ _) (by norm_num)).le (by norm_num)

/-- Under US = 10 the odd registers are signed (R244). -/
theorem operandSigned_mixed (r : DReg) : operandSigned 2#2 r = some (decide (r = .w5 ∨ r = .w7)) := by
  cases r <;> rfl

/-- The multiplier, but for the reserved mode, gives its result and changes nothing. -/
theorem multiply_ok (h : s.cor.us ≠ 3#2) (m n : DReg) : multiply m n s = .val (dspProduct m n s) s := by
  obtain ⟨b, hb⟩ := Option.isSome_iff_exists.1 (operandSigned_isSome s.cor.us m h)
  obtain ⟨c, hc⟩ := Option.isSome_iff_exists.1 (operandSigned_isSome s.cor.us n h)
  simp only [multiply, dspProduct, hb, hc, Option.getD_some]

/-- Settles O44: each mode names the signedness of the operands, and the product of two words doubled stays inside 40 bits. -/
theorem dspProductRule : Obligations.DspProductRule := by
  intro m n s k
  obtain ⟨hlo, hhi⟩ := abs_lt.1 (abs_dspProduct_lt m n s)
  refine ⟨fun h => ?signed, fun h => ?unsigned, fun h => ?mixed, fun h => multiply_ok h m n, multiply_reserved m n, by omega, by omega⟩
  case signed =>
    rw [dspProduct_eq, h]
    rfl
  case unsigned =>
    rw [dspProduct_eq, h]
    rfl
  case mixed =>
    rw [dspProduct_eq, h, operandSigned_mixed, operandSigned_mixed]
    simp only [asOperand, Option.getD_some, decide_eq_true_eq, k]

/-! ## Rounding and storing -/

/-- A store saturates at 16 bits (R268). -/
theorem storeValue_saturated (a : Int) : (storeValue true a).toInt = max (-32768) (min a 32767) := by
  simp only [storeValue, Bool.true_and, decide_eq_true_eq]
  split
  · next h => rw [min_eq_right h.le]; rfl
  · next hhi =>
    split
    · next h => rw [min_eq_left (by omega), max_eq_left (by omega)]; rfl
    · next hlo => rw [BitVec.toInt_ofInt_eq_self (by decide) (by omega) (by omega), min_eq_left (by omega), max_eq_right (by omega)]

/-- Settles O41: each rounding is decided by where the low word lies with respect to one half. -/
theorem roundAndStore : Obligations.RoundAndStore := by
  intro a h l
  refine ⟨rfl, fun hl => if_neg ?_, fun hl => if_pos hl, fun hl => if_neg ?_, fun hl => if_pos (.inl hl), fun hl => ?tie, fun s => rfl,
    storeValue_saturated a, rfl⟩
  · omega
  · omega
  case tie =>
    have hr : roundAcc .convergent a = if h % 2 = 1 then h + 1 else h := by
      simp only [roundAcc, show a % 65536 = 32768 from hl, lt_irrefl, false_or, true_and]
      rfl
    rw [hr]
    split
    · exact ⟨by omega, .inr rfl⟩
    · exact ⟨by omega, .inl rfl⟩

/-! ## AccUpdate -/

theorem ov31_iff (v : Int) : ov31 v = true ↔ v < -2 ^ 31 ∨ 2 ^ 31 - 1 < v := by
  rw [ov31, Bool.or_eq_true, decide_eq_true_iff, decide_eq_true_iff]
  rfl

theorem ov39_iff (v : Int) : ov39 v = true ↔ v < -2 ^ 39 ∨ 2 ^ 39 - 1 < v := by
  rw [ov39, Bool.or_eq_true, decide_eq_true_iff, decide_eq_true_iff]
  rfl

/-- A result that lies outside two bounds is replaced by the bound on its side. -/
theorem saturate_toInt {p q : Acc40} {v : Int} {big : Bool} (hq : q.toInt ≤ 0) (hp : 0 ≤ p.toInt)
    (hbig : big = true ↔ v < q.toInt ∨ p.toInt < v) :
    (if big then if 0 < v then p else q else BitVec.ofInt 40 v).toInt = max q.toInt (min v p.toInt) := by
  simp only [hbig]
  split
  · next h =>
    split
    · rw [min_eq_right (by omega), max_eq_right (by omega)]
    · rw [min_eq_left (by omega), max_eq_left (by omega)]
  · next h =>
    have hlo := BitVec.le_toInt q
    have hhi := BitVec.toInt_lt (x := p)
    rw [BitVec.toInt_ofInt_eq_self (by decide) (by omega) (by omega), min_eq_left (by omega), max_eq_right (by omega)]

/-- Super saturation keeps the result within 40 bits (R253). -/
theorem accStored_super (v : Int) : (accStored true true v).toInt = max (-2 ^ 39) (min v (2 ^ 39 - 1)) :=
  saturate_toInt (p := 0x7FFFFFFFFF#40) (q := 0x8000000000#40) (by decide) (by decide) (ov39_iff v)

/-- Normal saturation keeps it within 32 bits (R253). -/
theorem accStored_normal (v : Int) : (accStored true false v).toInt = max (-2 ^ 31) (min v (2 ^ 31 - 1)) :=
  saturate_toInt (p := 0x007FFFFFFF#40) (q := 0xFF80000000#40) (by decide) (by decide) (ov31_iff v)

/-- AccUpdate requests the overflow trap (R257). -/
def overflowTrap (x : Acc) (v : Int) (s : State) : Bool := accOver (satOf s x) s.cor.accsat v && ovTrapOn s x

/-- AccUpdate requests the catastrophic overflow trap (R257). -/
def catastrophicTrap (x : Acc) (v : Int) (s : State) : Bool := !satOf s x && ov39 v && s.intc.covte

/-- INTCON1 with the traps of an accumulator recorded (R425). -/
def IntCon.recorded (i : IntCon) (x : Acc) (ov cov : Bool) : IntCon :=
  match x with
  | .acca => { i with ovaerr := i.ovaerr || ov, covaerr := i.covaerr || cov }
  | .accb => { i with ovberr := i.ovberr || ov, covberr := i.covberr || cov }

/-- AccUpdate as its four writes: the accumulator, its status bits, the record of its traps, the request. -/
theorem accUpdate_eq (x : Acc) (v : Int) (s : State) : accUpdate x v s =
    (((s.setAcc x (accStored (satOf s x) s.cor.accsat v)).setAccStatus x (accOver (satOf s x) s.cor.accsat v)
      (accSticky (satOf s x) s.cor.accsat v)).setIntc (s.intc.recorded x (overflowTrap x v s) (catastrophicTrap x v s))).setPend
      { s.pend with math := s.pend.math || (overflowTrap x v s || catastrophicTrap x v s) } := by
  show (if catastrophicTrap x v s = true then raiseCatastrophic x (if overflowTrap x v s = true then _ else _)
    else if overflowTrap x v s = true then _ else _) = _
  generalize overflowTrap x v s = o, catastrophicTrap x v s = c
  cases x <;> cases o <;> cases c <;>
    simp only [IntCon.recorded, Bool.or_false, Bool.or_true, Bool.or_self, if_true, if_false, Bool.false_eq_true] <;> rfl

theorem accUpdate_acc_self (x : Acc) (v : Int) (s : State) :
    (accUpdate x v s).acc x = accStored (satOf s x) s.cor.accsat v := by
  rw [accUpdate_eq]
  cases x <;> rfl

theorem accUpdate_pend (x : Acc) (v : Int) (s : State) : (accUpdate x v s).pend =
    { s.pend with math := s.pend.math || (overflowTrap x v s || catastrophicTrap x v s) } := by
  rw [accUpdate_eq]
  rfl

theorem accUpdate_intc (x : Acc) (v : Int) (s : State) :
    (accUpdate x v s).intc = s.intc.recorded x (overflowTrap x v s) (catastrophicTrap x v s) := by
  rw [accUpdate_eq]
  rfl

/-- Ox as AccUpdate writes it. -/
theorem accUpdate_over (x : Acc) (v : Int) (s : State) :
    (if x = .acca then (accUpdate x v s).sr.oa else (accUpdate x v s).sr.ob) = accOver (satOf s x) s.cor.accsat v := by
  rw [accUpdate_eq]
  cases x <;> rfl

/-- Sx is only ever set (R252). -/
theorem accUpdate_sticky (x : Acc) (v : Int) (s : State) :
    (if x = .acca then (accUpdate x v s).sr.sa else (accUpdate x v s).sr.sb)
      = ((if x = .acca then s.sr.sa else s.sr.sb) || accSticky (satOf s x) s.cor.accsat v) := by
  rw [accUpdate_eq]
  cases x <;> rfl

/-- What AccUpdate leaves: all but its accumulator, the status bits of it, and the trap state. -/
theorem DspFrame.accUpdate (x : Acc) (v : Int) (s : State) : DspFrame x noRegs noBytes s (accUpdate x v s) := by
  rw [accUpdate_eq]
  cases x with
  | acca => exact ⟨rfl, rfl, fun _ => ⟨rfl, rfl⟩, nofun, ⟨fun _ _ _ _ => rfl, fun _ => rfl⟩, fun _ _ => rfl⟩
  | accb => exact ⟨rfl, rfl, nofun, fun _ => ⟨rfl, rfl⟩, ⟨fun _ _ _ _ => rfl, fun _ => rfl⟩, fun _ _ => rfl⟩

/-- Settles O39: the three saturation modes, each with its own clamp and status bits. -/
theorem accUpdateRule : Obligations.AccUpdateRule := by
  intro x v s sat super t o st old big huge
  have hacc : t.acc x = accStored sat super v := accUpdate_acc_self x v s
  have ho : o = accOver sat super v := accUpdate_over x v s
  have hst : st = (old || accSticky sat super v) := accUpdate_sticky x v s
  rw [hacc, ho, hst, Bool.or_eq_true]
  refine ⟨fun h h' => ?super, fun h h' => ?normal, fun h => ?wrap, DspFrame.accUpdate x v s⟩
  case super =>
    rw [h, h']
    exact ⟨accStored_super v, ov31_iff v, or_congr_right (ov39_iff v)⟩
  case normal =>
    rw [h, h']
    exact ⟨accStored_normal v, rfl, or_congr_right (ov31_iff v)⟩
  case wrap =>
    rw [h]
    exact ⟨rfl, ov31_iff v, or_congr_right (ov39_iff v)⟩

/-- Settles O40: the two traps, as request and as recorded for either accumulator. -/
theorem accTraps : Obligations.AccTraps := by
  intro x v s t o ovEn cat
  have hov : overflowTrap x v s = true ↔ o = true ∧ ovEn = true := by
    rw [overflowTrap, Bool.and_eq_true, ← accUpdate_over]
    cases x <;> rfl
  have hcat : catastrophicTrap x v s = true ↔ cat := by
    rw [catastrophicTrap, Bool.and_eq_true, Bool.and_eq_true, ov39_iff, Bool.not_eq_true', and_right_comm, and_assoc]
  rw [show t.pend = _ from accUpdate_pend x v s, show t.intc = _ from accUpdate_intc x v s]
  refine ⟨?math, ?_⟩
  case math => simp only [Bool.or_eq_true, hov, hcat]
  cases x <;> simp [IntCon.recorded, hov, hcat]

end Sys2Proof.Machine
end

section
/-!
PROOFS. The instructions of the DSP engine: how their frames compose, the accumulator instructions, then the prefetches, the write-back
and the multiply class.
-/

namespace Sys2Proof.Machine

variable {s : State}

/-! ## Frames of DSP instructions -/

section
variable {x : Acc} {R R' : Reg → Prop} {M M' : Nat → Prop} {t u : State}

theorem DspFrame.cctxi (h : DspFrame x R M s t) : t.cctxi = s.cctxi := by rw [← h.1]

/-- A frame of an ordinary instruction that leaves SR is a frame of a DSP instruction. -/
theorem Frame.toDsp (h : Frame R M s t) (hsr : t.sr = s.sr) : DspFrame x R M s t := by
  obtain ⟨hcore, hregs, hmem⟩ := h
  unfold onlyCore at hcore
  refine ⟨?core, ?other, fun _ => by rw [hsr]; exact ⟨rfl, rfl⟩, fun _ => by rw [hsr]; exact ⟨rfl, rfl⟩, hregs, hmem⟩
  case core => rw [hsr, ← hcore]
  case other =>
    rw [← hcore]
    cases x <;> rfl

/-- Frames of one accumulator compose. -/
theorem DspFrame.trans (h : DspFrame x R M s t) (h' : DspFrame x R' M' t u) :
    DspFrame x (fun n => R n ∨ R' n) (fun a => M a ∨ M' a) s u := by
  have hc := h.cctxi
  obtain ⟨hcore, hother, ha, hb, ⟨hbank, h15⟩, hmem⟩ := h
  obtain ⟨hcore', hother', ha', hb', ⟨hbank', h15'⟩, hmem'⟩ := h'
  refine ⟨?core, hother'.trans hother, fun e => ?a, fun e => ?b, ⟨fun c n hn hx => ?bank, fun hx => ?w15⟩, fun k hk => ?mem⟩
  case core => rw [← hcore, ← hcore']
  case a => exact ⟨(ha' e).1.trans (ha e).1, (ha' e).2.trans (ha e).2⟩
  case b => exact ⟨(hb' e).1.trans (hb e).1, (hb' e).2.trans (hb e).2⟩
  case bank =>
    exact (hbank' c n hn fun q => hx ⟨q.1.trans hc, .inr q.2⟩).trans (hbank c n hn fun q => hx ⟨q.1, .inl q.2⟩)
  case w15 => exact (h15' fun q => hx (.inr q)).trans (h15 fun q => hx (.inl q))
  case mem => exact (hmem' k fun q => hk (.inr q)).trans (hmem k fun q => hk (.inl q))

/-- A frame with more allowed. -/
theorem DspFrame.mono (h : DspFrame x R M s t) (hR : ∀ n, R n → R' n) (hM : ∀ a, M a → M' a) : DspFrame x R' M' s t := by
  obtain ⟨hcore, hother, ha, hb, ⟨hbank, h15⟩, hmem⟩ := h
  exact ⟨hcore, hother, ha, hb, ⟨fun c n hn hx => hbank c n hn fun q => hx ⟨q.1, hR n q.2⟩, fun hx => h15 fun q => hx (hR 15 q)⟩,
    fun a hk => hmem a fun q => hk (hM a q)⟩

theorem DspFrame.thenAdvance (h : DspFrame x R M s t) (k : Nat) : DspFrame x R M s (t.advance k) :=
  (h.trans ((Frame.advance t k).toDsp rfl)).mono (fun _ hn => hn.elim id False.elim) fun _ ha => ha.elim id False.elim

end

/-! ## Accumulator instructions -/

/-- The accumulators do not depend on the working registers. -/
theorem srcNext_acc (m : Mode) (z : Size) (n : Reg) (s : State) (a : Acc) : (srcNext m z n s).acc a = s.acc a := by
  unfold srcNext
  rcases modifyPtr_eq m n (stepOf z) s with h | ⟨v, h⟩
  · rw [h]
  · rw [h]
    cases a
    · exact State.setW_acca s n v
    · exact State.setW_accb s n v

/-- The shift by a four-bit count, as arithmetic (R270). -/
theorem accShift_slit4 (v : Int) (k : BitVec 4) :
    accShift v k.toInt = if 0 ≤ k.toInt then v / 2 ^ k.toNat else v * 2 ^ (16 - k.toNat) := by
  have hk := k.isLt
  have he := BitVec.toInt_eq_toNat_cond k
  unfold accShift
  split
  · rw [show k.toInt.toNat = k.toNat by split at he <;> omega]
  · rw [show (-k.toInt).toNat = 16 - k.toNat by split at he <;> omega]

theorem accUpdate_src_frame (a : Acc) (g : Mode) (r : Reg) (u : Int) (s : State) :
    DspFrame a (srcRegs g r) noBytes s ((accUpdate a u (srcNext g .word r s)).advance 1) :=
  ((((Frame.srcNext g .word r s).toDsp (srcNext_sr ..)).trans (DspFrame.accUpdate a u _)).mono
    (fun _ hn => hn.elim id False.elim) fun _ ha => ha.elim id id).thenAdvance 1

/-- Settles O45. -/
theorem accumulatorLoadAdd : Obligations.AccumulatorLoadAdd := by
  refine fun a s => ⟨?accs, fun w k g r h => ?operand⟩
  case accs =>
    cases a with
    | acca => rfl
    | accb =>
      rw [Int.add_comm]
      rfl
  case operand =>
    intro d v
    have hv : scaledOperand (srcValue g .word r w s) k = v := accShift_slit4 d k
    refine ⟨?lac, ?add, fun u => accUpdate_src_frame a g r u s⟩
    case lac =>
      show execLac a w k g r s = _
      rw [execLac, readSrc_ok h, Res.bind_val, Res.done_val, hv]
    case add =>
      show execAddWsoAcc a w k g r s = _
      rw [execAddWsoAcc, readSrc_ok h, Res.bind_val, Res.done_val, hv, srcNext_acc]

/-- A store of a word to an ordinary destination completes with the destination's frame. -/
theorem store_runs {i : Instr} {h : Mode} {d w : Reg} {v : Word} (hd : dstOk h .word d w s)
    (he : exec i s = (writeDst h .word d w v s).done) :
    Runs i s (dstRegs h d) (dstBytes h .word d w s) s.sr ((dstNext h .word d w v s).advance 1) :=
  ⟨by rw [he, writeDst_ok hd, Res.done_val], (Frame.dstNext h .word d w v s).thenAdvance 1, dstNext_sr ..⟩

/-- Settles O46: both forms store the shifted accumulator, each with its own rounding. -/
theorem accumulatorStore : Obligations.AccumulatorStore := by
  intro a w k h d s hd sh x v vr
  have hsh : accShift (s.acc a).toInt k.toInt = sh := accShift_slit4 _ k
  have hv (m : Rounding) : sacValue a k m s = storeValue s.cor.satdw (roundAcc m x) := by rw [sacValue, hsh]
  refine ⟨store_runs hd ?_, store_runs hd ?_⟩
  · show (writeDst h .word d w (sacValue a k .truncate s) s).done = _
    rw [hv]
    rfl
  · show (writeDst h .word d w (sacValue a k (roundingOf s) s) s).done = _
    rw [hv]
    rfl

/-- Settles O47: both forms are the shared shift by their count. -/
theorem accumulatorShift : Obligations.AccumulatorShift := by
  intro a i k s hi
  have he : exec i s = .next ((shiftAcc a k s).advance 1) := by
    rcases hi with ⟨r, rfl, rfl⟩ | ⟨l, rfl, rfl⟩
    · rw [BitVec.ofNat_toNat]
      rfl
    · rfl
  have hin (h : ¬(k < -16 ∨ 16 < k)) : exec i s = .next ((accUpdate a (accShift (s.acc a).toInt k) s).advance 1) := by
    rw [he, shiftAcc, if_neg h]
  refine ⟨fun h0 h16 => ?right, fun h16 h0 => ?left, fun h => ?out⟩
  case right => rw [hin (by omega), accShift, if_pos h0]
  case left => rw [hin (by omega), accShift, if_neg (by omega)]
  case out =>
    rw [he, shiftAcc, if_pos h]
    rfl

/-! ## Prefetches -/

theorem toReg_inj {x y : DReg} : x.toReg = y.toReg ↔ x = y := by
  cases x <;> cases y <;> decide

theorem getW_loadReg_self (x : DReg) (v : Word) (s : State) : (loadReg x (some v) s).getW x.toReg = v := by
  rw [loadReg, State.getW_setW_self, if_pos (by cases x <;> decide)]

theorem getW_loadReg_of {x z : DReg} {v : Option Word} (h : z ≠ x ∨ v = none) (s : State) :
    (loadReg x v s).getW z.toReg = s.getW z.toReg := by
  cases v with
  | none => rfl
  | some u => exact State.getW_setW_ne _ _ _ _ (toReg_inj.not.2 (h.resolve_right nofun))

/-- With two registers, or one prefetch, the words are loaded one after the other. -/
theorem loadPrefetch_apart {x y : DReg} {vx vy : Option Word} (h : x ≠ y ∨ vx = none ∨ vy = none) (s : State) :
    loadPrefetch x y vx vy s = loadReg y vy (loadReg x vx s) := by
  rcases vx with _ | u
  · rfl
  · rcases vy with _ | w
    · rfl
    · exact if_neg (h.resolve_right (by rintro (e | e) <;> cases e))

/-- With one register for both prefetched words it gets a free value (log 23). -/
theorem loadPrefetch_same (x : DReg) (u w : Word) (s : State) :
    loadPrefetch x x (some u) (some w) s = (loadReg x (some s.freeWord) s).drawn := if_pos rfl

theorem getW_loadPrefetch_of {x y z : DReg} {vx vy : Option Word} (hx : z ≠ x ∨ vx = none) (hy : z ≠ y ∨ vy = none) (s : State) :
    (loadPrefetch x y vx vy s).getW z.toReg = s.getW z.toReg := by
  by_cases h : x ≠ y ∨ vx = none ∨ vy = none
  · rw [loadPrefetch_apart h, getW_loadReg_of hy, getW_loadReg_of hx]
  · obtain ⟨hxy, hvx, hvy⟩ : x = y ∧ vx ≠ none ∧ vy ≠ none := by simpa only [not_or, not_not] using h
    obtain ⟨u, rfl⟩ := Option.ne_none_iff_exists'.1 hvx
    obtain ⟨w, rfl⟩ := Option.ne_none_iff_exists'.1 hvy
    subst hxy
    rw [loadPrefetch_same]
    exact getW_loadReg_of (.inl (hx.resolve_right nofun)) s

/-- Loading prefetched words changes the registers that get one, and draws a value if one register gets two. -/
theorem DspFrame.loadReg (a : Acc) (x : DReg) (v : Option Word) (s : State) :
    DspFrame a (fun n => n = x.toReg ∧ v ≠ none) noBytes s (loadReg x v s) := by
  cases v with
  | none => exact (Frame.refl _ _ s).toDsp rfl
  | some u => exact ((Frame.setW s x.toReg u).mono (fun _ hn => ⟨hn, nofun⟩) fun _ => id).toDsp (State.setW_sr ..)

theorem DspFrame.drawn (a : Acc) (s : State) : DspFrame a noRegs noBytes s s.drawn :=
  ⟨rfl, by cases a <;> rfl, fun _ => ⟨rfl, rfl⟩, fun _ => ⟨rfl, rfl⟩, ⟨fun _ _ _ _ => rfl, fun _ => rfl⟩, fun _ _ => rfl⟩

theorem DspFrame.loadPrefetch (a : Acc) (x y : DReg) (vx vy : Option Word) (s : State) :
    DspFrame a (fun n => (n = x.toReg ∧ vx ≠ none) ∨ (n = y.toReg ∧ vy ≠ none)) noBytes s (loadPrefetch x y vx vy s) := by
  by_cases h : x ≠ y ∨ vx = none ∨ vy = none
  · rw [loadPrefetch_apart h]
    exact ((DspFrame.loadReg a x vx s).trans (DspFrame.loadReg a y vy _)).mono (fun _ => id) fun _ hk => hk.elim id id
  · obtain ⟨hxy, hvx, hvy⟩ : x = y ∧ vx ≠ none ∧ vy ≠ none := by simpa only [not_or, not_not] using h
    obtain ⟨u, rfl⟩ := Option.ne_none_iff_exists'.1 hvx
    obtain ⟨w, rfl⟩ := Option.ne_none_iff_exists'.1 hvy
    subst hxy
    rw [loadPrefetch_same]
    exact ((DspFrame.loadReg a x _ s).trans (DspFrame.drawn a _)).mono
      (fun _ hn => hn.elim (fun q => .inl ⟨q.1, nofun⟩) False.elim) fun _ hk => hk.elim id id

theorem prefetchReg_cases {first n : Reg} {i : Prefetch} (h : prefetchReg first i = some n) : n = first ∨ n = first + 1 := by
  cases i with
  | none => cases h
  | ptr b k => cases b <;> cases h <;> simp
  | offset =>
    cases h
    exact .inr rfl

/-- No prefetch goes through W15. -/
theorem prefetchReg_ne_15 {first n : Reg} {i : Prefetch} (hf : first = 8 ∨ first = 10) (h : prefetchReg first i = some n) :
    n ≠ 15 := by
  rcases hf with rfl | rfl <;> rcases prefetchReg_cases h with rfl | rfl <;> decide

theorem prefetchReg_eq_none {first : Reg} {i : Prefetch} : prefetchReg first i = none ↔ i = .none := by
  cases i <;> simp [prefetchReg]

theorem prefetched_ne_none {first : Reg} {i : Prefetch} {s : State} : prefetched first i s ≠ none ↔ i ≠ .none := by
  rw [prefetched, ne_eq, Option.map_eq_none_iff, prefetchReg_eq_none]

theorem stepPointer_ptr (first : Reg) (b : Bool) {k : PStep} (h : k ≠ .zero) (s : State) :
    stepPointer first (.ptr b k) s =
      s.setW (if b then first + 1 else first) (s.getW (if b then first + 1 else first) + pstep k) := if_neg h

/-- A prefetch changes its pointer, if it steps it. -/
theorem Frame.stepPointer (first : Reg) (i : Prefetch) (s : State) :
    Frame (fun n => prefetchReg first i = some n ∧ moves i) noBytes s (stepPointer first i s) := by
  cases i with
  | none => exact Frame.refl _ _ s
  | offset => exact Frame.refl _ _ s
  | ptr b k =>
    by_cases hk : k = .zero
    · subst hk
      exact Frame.refl _ _ s
    · rw [stepPointer_ptr first b hk]
      exact (Frame.setW s _ _).mono (fun n hn => ⟨congrArg some hn.symm, b, k, rfl, hk⟩) fun _ => id

theorem stepPointer_sr (first : Reg) (i : Prefetch) (s : State) : (stepPointer first i s).sr = s.sr := by
  cases i with
  | none => rfl
  | offset => rfl
  | ptr b k =>
    by_cases hk : k = .zero
    · subst hk
      rfl
    · rw [stepPointer_ptr first b hk, State.setW_sr]

/-- The pointer a prefetch steps. -/
theorem getW_stepPointer_self {first : Reg} (hf : first = 8 ∨ first = 10) (b : Bool) (k : PStep) (s : State) :
    (stepPointer first (.ptr b k) s).getW (if b then first + 1 else first)
      = s.getW (if b then first + 1 else first) + pstep k := by
  by_cases hk : k = .zero
  · subst hk
    exact (BitVec.add_zero _).symm
  · rw [stepPointer_ptr first b hk, State.getW_setW_self, if_pos (lt_15_iff.2 (prefetchReg_ne_15 hf (i := .ptr b k) rfl))]

theorem getW_stepPointer_ne {first x : Reg} {b : Bool} (h : x ≠ if b then first + 1 else first) (k : PStep) (s : State) :
    (stepPointer first (.ptr b k) s).getW x = s.getW x := by
  by_cases hk : k = .zero
  · subst hk
    rfl
  · rw [stepPointer_ptr first b hk, State.getW_setW_ne _ _ _ _ h]

/-! ## The reads of a DSP instruction -/

theorem pointerCheck_free {m : Mode} {n : Reg} (h : pointerFree m n s) : pointerCheck m .word n s = .val () s := by
  obtain ⟨hi, h15, h14, hb⟩ := h
  simp only [pointerCheck, hi, h15, h14, hb, Bool.not_true, Bool.false_eq_true, if_false, Bool.or_false]

theorem prefetchCheck_ok {first : Reg} {i : Prefetch} (h : ∀ n, prefetchReg first i = some n → pointerFree (prefetchMode i) n s) :
    prefetchCheck first i s = .val () s := by
  unfold prefetchCheck
  split
  · rfl
  · next n hn => exact pointerCheck_free (h n hn)

/-- An ordinary X prefetch reads its word and changes nothing. -/
theorem readX_ok {i : Prefetch} (h : xOk i s) : readX i s = .val (prefetched 8 i s) s := by
  rw [readX, prefetched]
  split
  · next hn => rw [hn]; rfl
  · next n hn =>
    obtain ⟨-, hp, hr⟩ := h n hn
    have h15 := prefetchReg_ne_15 (.inl rfl) hn
    rw [readAt_ram hr hp (fun hb => absurd (reg_formedFrom.1 hb) h15) (fun hb => absurd (reg_isThrough.1 hb) h15), hn]
    rfl

/-- An ordinary Y prefetch reads its word and changes nothing. -/
theorem readY_ok {j : Prefetch} (h : yOk j s) : readY j s = .val (prefetched 10 j s) s := by
  rw [readY, prefetched]
  split
  · next hn => rw [hn]; rfl
  · next n hn =>
    obtain ⟨-, hy, he⟩ := h n hn
    simp only [hy, he, hn, Bool.not_true, Bool.false_eq_true, if_false]
    rfl

theorem writeBackCheck_ok {wb : Option WriteBack} (h : writeBackOk wb s) : writeBackCheck wb s = .val () s := by
  unfold writeBackCheck
  split
  · exact pointerCheck_ok ((h rfl).resolve_left nofun).1
  · rfl

/-- With ordinary prefetches and write-back everything is read before anything is written (R243, R262). -/
theorem dspFetch_ok {m n : DReg} {i j : Prefetch} {wb : Option WriteBack} (hus : s.cor.us ≠ 3#2) (hx : xOk i s) (hy : yOk j s)
    (hw : writeBackOk wb s) : dspFetch m n i j wb s = .val ⟨dspProduct m n s, prefetched 8 i s, prefetched 10 j s⟩ s := by
  rw [dspFetch, multiply_ok hus, Res.bind_val, prefetchCheck_ok fun n hn => (hx n hn).1, Res.bind_val,
    prefetchCheck_ok fun n hn => (hy n hn).1, Res.bind_val, writeBackCheck_ok hw, Res.bind_val, readX_ok hx, Res.bind_val, readY_ok hy,
    Res.bind_val]

/-! ## The write-back -/

/-- What AccUpdate writes is no part of what makes a destination ordinary. -/
theorem dstOk_accUpdate {m : Mode} {z : Size} {n w : Reg} (x : Acc) (v : Int) (s : State) :
    dstOk m z n w (accUpdate x v s) ↔ dstOk m z n w s := by
  rw [accUpdate_eq]
  cases x <;> exact Iff.rfl

theorem getW_accUpdate (x : Acc) (v : Int) (s : State) (n : Reg) : (accUpdate x v s).getW n = s.getW n := by
  rw [accUpdate_eq]
  cases x <;> rfl

theorem writeBackOpt_ok {wb : Option WriteBack} (h : writeBackOk wb s) (a : Acc) :
    writeBackOpt wb a s = .val () (writeBackNext wb a s) := by
  match wb with
  | none => rfl
  | some .w13 => rfl
  | some .w13Inc => exact writeDst_ok (h rfl)

theorem writeBackNext_sr (wb : Option WriteBack) (a : Acc) (s : State) : (writeBackNext wb a s).sr = s.sr := by
  match wb with
  | none => rfl
  | some .w13 => exact State.setW_sr ..
  | some .w13Inc => exact dstNext_sr ..

/-- A write-back changes W13, and with the stored form the word at it. -/
theorem Frame.writeBackNext (wb : Option WriteBack) (a : Acc) (s : State) :
    Frame (fun n => n = 13 ∧ wb ≠ none) (writeBackBytes wb s) s (writeBackNext wb a s) := by
  match wb with
  | none => exact Frame.refl _ _ s
  | some .w13 => exact (Frame.setW s 13 _).mono (fun _ hn => ⟨hn, nofun⟩) fun _ hk => hk.elim
  | some .w13Inc => exact (Frame.dstNext .postInc .word 13 13 _ s).mono (fun _ hn => ⟨hn.1, nofun⟩) fun _ hk => ⟨rfl, hk.2⟩

theorem writeBackBytes_accUpdate (wb : Option WriteBack) (x : Acc) (v : Int) (s : State) :
    writeBackBytes wb (accUpdate x v s) = writeBackBytes wb s := by
  unfold writeBackBytes
  rw [getW_accUpdate]

/-! ## The instructions -/

theorem multiplyClass_ok {m n : DReg} {i j : Prefetch} {wb : Option WriteBack} (hus : s.cor.us ≠ 3#2) (hx : xOk i s) (hy : yOk j s)
    (hw : writeBackOk wb s) (a : Acc) (f : Int → Int → Int) (x y : DReg) : multiplyClass m n a f x y i j wb s =
      .next (multiplyNext a (f (s.acc a).toInt (dspProduct m n s)) x y i j wb s) := by
  have hw' (v : Int) : writeBackOk wb (accUpdate a v s) := fun e => (dstOk_accUpdate a v s).2 (hw e)
  rw [multiplyClass, dspFetch_ok hus hx hy hw, Res.bind_val, accumulate, writeBackOpt_ok (hw' _), Res.bind_val, Res.done_val, multiplyNext]

theorem distanceClass_ok {m : DReg} {i j : Prefetch} {vx vy : Word} (hus : s.cor.us ≠ 3#2) (hx : xOk i s) (hy : yOk j s)
    (hvx : prefetched 8 i s = some vx) (hvy : prefetched 10 j s = some vy) (a : Acc) (f : Int → Int → Int) (x : DReg) :
    distanceClass m a f x i j s = .next ((stepPointer 10 j (stepPointer 8 i
      ((accUpdate a (f (s.acc a).toInt (dspProduct m m s)) s).setW x.toReg (vx - vy)))).advance 1) := by
  rw [distanceClass, dspFetch_ok hus hx hy (wb := none) (fun e => nomatch e), Res.bind_val, Res.done_val, accumulate, hvx, hvy]
  rfl

/-- What both pointer steps and the pc add to a frame. -/
theorem DspFrame.thenSteps {a : Acc} {R : Reg → Prop} {M : Nat → Prop} {t : State} (h : DspFrame a R M s t) (i j : Prefetch) :
    DspFrame a (fun n => R n ∨ (prefetchReg 8 i = some n ∧ moves i) ∨ (prefetchReg 10 j = some n ∧ moves j)) M s
      ((Machine.stepPointer 10 j (Machine.stepPointer 8 i t)).advance 1) := by
  have h8 := (Frame.stepPointer 8 i t).toDsp (x := a) (stepPointer_sr ..)
  have h10 := (Frame.stepPointer 10 j (Machine.stepPointer 8 i t)).toDsp (x := a) (stepPointer_sr ..)
  exact ((h.trans (h8.trans h10)).mono (fun _ => id) fun _ hk => hk.elim id fun q => q.elim False.elim False.elim).thenAdvance 1

theorem multiplyNext_frame (a : Acc) (v : Int) (x y : DReg) (i j : Prefetch) (wb : Option WriteBack) (s : State) :
    DspFrame a (multiplyRegs x y i j wb) (writeBackBytes wb s) s (multiplyNext a v x y i j wb s) := by
  have hwb := (Frame.writeBackNext wb a (accUpdate a v s)).toDsp (x := a) (writeBackNext_sr ..)
  rw [writeBackBytes_accUpdate] at hwb
  have hload := DspFrame.loadPrefetch a x y (prefetched 8 i s) (prefetched 10 j s) (writeBackNext wb a (accUpdate a v s))
  simp only [prefetched_ne_none] at hload
  refine ((((DspFrame.accUpdate a v s).trans hwb).trans hload).thenSteps i j).mono ?regs ?bytes
  case regs =>
    rintro n (((hn | hn) | hn | hn) | hn | hn)
    · exact hn.elim
    · exact .inr (.inr (.inr (.inr hn)))
    · exact .inl hn
    · exact .inr (.inl hn)
    · exact .inr (.inr (.inl hn))
    · exact .inr (.inr (.inr (.inl hn)))
  case bytes =>
    rintro k ((hk | hk) | hk)
    · exact hk.elim
    · exact hk
    · exact hk.elim

/-- Settles O42: the eight instructions are the shared one, each with its own operands and its own exact result. -/
theorem multiplyClass' : Obligations.MultiplyClass := by
  refine ⟨fun first x b k s hf => ?pointer, fun x y z vx vy s => ?load, fun a s => ?writeBack, ?instr⟩
  case pointer =>
    intro n d
    have hk : pstep k = BitVec.ofInt 16 d := by cases k <;> rfl
    exact ⟨rfl, rfl, rfl, rfl, rfl, hk ▸ getW_stepPointer_self hf b k s, fun hx => getW_stepPointer_ne hx k s, rfl, rfl⟩
  case load =>
    refine ⟨?none, ?x, ?y, fun hx hy => getW_loadPrefetch_of hx hy s⟩
    case none =>
      rintro rfl rfl
      rfl
    case x =>
      rintro v rfl h
      rw [loadPrefetch_apart (h.imp_right .inr), getW_loadReg_of h, getW_loadReg_self]
    case y =>
      rintro v rfl h
      rw [loadPrefetch_apart (h.imp_right .inl), getW_loadReg_self]
  case writeBack =>
    cases a <;> rfl
  case instr =>
    intro i m n a x y ip jp wb v s hi hus hx hy hw
    obtain ⟨f, he, rfl⟩ : ∃ f : Int → Int → Int,
        exec i s = multiplyClass m n a f x y ip jp wb s ∧ v = f (s.acc a).toInt (dspProduct m n s) := by
      rcases hi with ⟨q, b, rfl, rfl, rfl, rfl, rfl⟩ | ⟨q, rfl, rfl, rfl, rfl, rfl⟩ | ⟨q, b, rfl, rfl, rfl, rfl, rfl⟩
        | ⟨q, rfl, rfl, rfl, rfl, rfl⟩ | ⟨q, rfl, rfl, rfl, rfl, rfl⟩ | ⟨q, rfl, rfl, rfl, rfl, rfl⟩ | ⟨rfl, rfl, rfl, rfl⟩
        | ⟨rfl, rfl, rfl, rfl⟩
      · exact ⟨fun c p => c + p, rfl, rfl⟩
      · exact ⟨fun c p => c + p, rfl, rfl⟩
      · exact ⟨fun c p => c - p, rfl, rfl⟩
      · exact ⟨fun c p => c - p, rfl, rfl⟩
      · exact ⟨fun _ p => p, rfl, rfl⟩
      · exact ⟨fun _ p => -p, rfl, rfl⟩
      · exact ⟨fun c p => c + p, rfl, rfl⟩
      · exact ⟨fun _ p => p, rfl, rfl⟩
    exact ⟨he.trans (multiplyClass_ok hus hx hy hw a f x y), multiplyNext_frame a _ x y ip jp wb s⟩

/-- Settles O43: the difference is one loaded word, the square one product. -/
theorem euclideanDistance : Obligations.EuclideanDistance := by
  intro i m a x ip jp v vx vy s hi hus hx hy hvx hvy t
  refine ⟨?step, ?frame⟩
  case step =>
    rcases hi with ⟨rfl, rfl⟩ | ⟨rfl, rfl⟩
    · exact distanceClass_ok hus hx hy hvx hvy a (fun _ p => p) x
    · exact distanceClass_ok hus hx hy hvx hvy a (fun c p => c + p) x
  case frame =>
    have hip : ip ≠ .none := prefetched_ne_none.1 (Option.ne_none_iff_exists'.2 ⟨vx, hvx⟩)
    have hload := (Frame.setW (accUpdate a v s) x.toReg (vx - vy)).toDsp (x := a) (State.setW_sr ..)
    refine (((DspFrame.accUpdate a v s).trans hload).thenSteps ip jp).mono ?regs fun k hk => hk.elim id id
    rintro n ((hn | hn) | hn | hn)
    · exact hn.elim
    · exact .inl ⟨hn, hip⟩
    · exact .inr (.inr (.inl hn))
    · exact .inr (.inr (.inr (.inl hn)))

end Sys2Proof.Machine
end

section
/-!
PROOFS. A `RETFIE` right after an exception entry: the two words the entry stacked are those popped (R173, R338, R445), and the
interruption that ends is the entry's own (R302, R365).
-/

namespace Sys2Proof.Machine

variable {s : State}

/-! ## The two words an entry stacks -/

/-- A word write at least two bytes away leaves a word. -/
theorem Memory.readWord_writeWord_apart {m : Memory} {a b : Nat} (v : Word) (h : a + 2 ≤ b ∨ b + 2 ≤ a) :
    (m.writeWord b v).readWord a = m.readWord a := by
  unfold Memory.readWord
  rw [Memory.read_writeWord, Memory.read_writeWord, if_neg (by omega), if_neg (by omega), if_neg (by omega), if_neg (by omega)]

theorem add_four_sub_two (v : Word) : v + 4#16 - 2#16 = v + 2#16 := by bv_omega

theorem top1_entryNext (r : Request) (a : PAddr) (s : State) : top1 (entryNext r a s) = stackedHighExc s s.pc := by
  rw [top1, entryNext, add_four_sub_two]
  exact Memory.readWord_writeWord_self _ _ _

theorem top2_entryNext (r : Request) (a : PAddr) (h : (s.w15 + 2#16).toNat = s.w15.toNat + 2) :
    top2 (entryNext r a s) = stackedLow s.pc s.cor.sfa := by
  rw [top2, entryNext, BitVec.add_sub_cancel]
  exact (Memory.readWord_writeWord_apart _ (by omega)).trans (Memory.readWord_writeWord_self _ _ _)

theorem stackedLow_bit0 (a : PAddr) (b : Bool) : (stackedLow a b).getLsbD 0 = b := by
  rw [stackedLow, getLsbD_append_ofBool, if_pos rfl]

/-- The upper byte of the second word is SRL (R445). -/
theorem stackedHighExc_srl (s : State) (a : PAddr) {i : Nat} (hi : i < 8) :
    (stackedHighExc s a).getLsbD (8 + i) = s.srWord.getLsbD i := by
  rw [stackedHighExc, BitVec.getLsbD_append, if_neg (by omega), Nat.add_sub_cancel_left, State.srl]
  simp [hi]

theorem stackedHighExc_ipl3 (s : State) (a : PAddr) : (stackedHighExc s a).getLsbD 7 = s.cor.ipl3 := by
  rw [stackedHighExc, BitVec.getLsbD_append, if_pos (by decide), BitVec.getLsbD_append, if_neg (by decide)]
  simp

theorem srWord_getLsbD (s : State) {i : Nat} (hi : i < 8) : s.srWord.getLsbD i =
    [s.sr.c, s.sr.z, s.sr.ov, s.sr.n, s.sr.ra, s.sr.ipl[0], s.sr.ipl[1], s.sr.ipl[2]].getD i false := by
  rw [State.srWord, word16_getLsbD]
  interval_cases i <;> rfl

theorem stackedHighExc_status (s : State) (a : PAddr) :
    (stackedHighExc s a).getLsbD 12 = s.sr.ra ∧ (stackedHighExc s a).getLsbD 11 = s.sr.n
      ∧ (stackedHighExc s a).getLsbD 10 = s.sr.ov ∧ (stackedHighExc s a).getLsbD 9 = s.sr.z
      ∧ (stackedHighExc s a).getLsbD 8 = s.sr.c := by
  have h : ∀ i < 8, _ := fun i hi => (stackedHighExc_srl s a hi).trans (srWord_getLsbD s hi)
  exact ⟨h 4 (by decide), h 3 (by decide), h 2 (by decide), h 1 (by decide), h 0 (by decide)⟩

theorem stackedHighExc_ipl (s : State) (a : PAddr) : (stackedHighExc s a).extractLsb' 13 3 = s.sr.ipl := by
  apply BitVec.eq_of_getLsbD_eq
  intro i hi
  have hsrl := (stackedHighExc_srl s a (i := 5 + i) (by omega)).trans (srWord_getLsbD s (by omega))
  rw [BitVec.getLsbD_extractLsb', decide_eq_true hi, Bool.true_and, show 13 + i = 8 + (5 + i) by omega, hsrl]
  interval_cases i <;> rfl

theorem poppedLevel_stacked (s : State) (a : PAddr) : poppedLevel (stackedHighExc s a) = s.cpuIpl := by
  rw [poppedLevel, stackedHighExc_ipl3, stackedHighExc_ipl]
  rfl

/-- The two words hold an even address (R173, R445). -/
theorem poppedPc_stacked (s : State) {a : PAddr} (h : a.getLsbD 0 = false) (b : Bool) :
    poppedPc (stackedHighExc s a) (stackedLow a b) = a := by
  have hlow := stackedLow_toNat h b
  have hhigh : (stackedHighExc s a).toNat % 2 ^ 7 = a.toNat / 65536 := by
    rw [stackedHighExc, toNat_append_mul, toNat_append_mul, toNat_extract]
    omega
  have hb := b.toNat_lt
  rw [getLsbD_zero_iff] at h
  apply BitVec.eq_of_toNat_eq
  rw [poppedPc, toNat_append_mul, toNat_append_mul, toNat_extract, toNat_extract, hlow, Nat.pow_zero, Nat.div_one, hhigh,
    BitVec.toNat_ofNat]
  omega

/-! ## `RETFIE` right after an entry -/

theorem pop2Ok_entryNext (r : Request) (a : PAddr) (h : push2Ok s) (hw : s.w15.toNat + 4 < 65536)
    (hp : s.trk.splimPrev = false) : pop2Ok (entryNext r a s) := by
  obtain ⟨⟨h1, h2⟩, h3, h4⟩ := h
  have hwrap : decide ((s.w15 + 4#16).toNat < 2) = false := decide_eq_false (by have := h1.1; bv_omega)
  refine ⟨⟨?_, ?_, hp⟩, ?_, ?_⟩
  · show ramAt s .word (s.w15 + 4#16 - 2#16)
    rwa [add_four_sub_two]
  · show stackOk (s.w15 + 4#16 - 2#16) (decide ((s.w15 + 4#16).toNat < 2)) s
    rwa [add_four_sub_two, hwrap]
  · show ramAt s .word (s.w15 + 4#16 - 4#16)
    rwa [BitVec.add_sub_cancel]
  · show stackOk (s.w15 + 4#16 - 4#16) false s
    rwa [BitVec.add_sub_cancel]

/-- What an entry and its `RETFIE` leave before the interruption ends: all is restored but the running record and what is held
(R338, R456). -/
def entryReturned (r : Request) (a : PAddr) (s : State) : State :=
  { entryNext r a s with
    w15 := s.w15, pc := s.pc, sr := s.sr, cor := s.cor, cctxi := contextOf s.dev s.cpuIpl s.mctxi, active := s.active
    pend := returnPend (some r.source) (entryNext r a s) }

theorem retfieRestored_entryNext (r : Request) (a : PAddr) (h : push2Ok s) (hpc : s.pc.getLsbD 0 = false) :
    retfieRestored (entryNext r a s) = entryReturned r a s := by
  obtain ⟨hra, hn, hov, hz, hc⟩ := stackedHighExc_status s s.pc
  rw [retfieRestored, returnNext, top1_entryNext, top2_entryNext r a (toNat_second h.1.1 h.2.1), poppedPc_stacked s hpc,
    poppedLevel_stacked, stackedHighExc_ipl, stackedHighExc_ipl3, hra, hn, hov, hz, hc, stackedLow_bit0]
  simp only [entryReturned, entryNext, BitVec.add_sub_cancel, List.tail_cons, List.head?_cons]

/-- What an entry holds (R365). -/
def entryHeld (s : State) : Interrupted :=
  { frame := s.w15, target := s.pc, rcount := s.rcount, bank := s.w, since := s.fresh, loop := s.sr.ra
    div := if s.sr.ra then s.div else none }

/-- Where the pc, W15, SR and the working registers are as the newest entry found them, its interruption ends and no other
divide is spoilt (R302). -/
theorem endInterruption_entry {t : State} (hh : t.held = entryHeld s :: s.held) (hpc : t.pc = s.pc) (hw15 : t.w15 = s.w15)
    (hsr : t.sr = s.sr) (hw : t.w = s.w) :
    (endInterruption t).held = s.held
      ∧ (s.sr.ra = false → (endInterruption t).div = t.div)
      ∧ (s.sr.ra = true → goesOnWith (endInterruption t) [] (entryHeld s)) := by
  have here : heldHere t (entryHeld s) := ⟨hw15.symm, hpc.symm, fun h => (congrArg Status.ra hsr).symm.trans h⟩
  have spoilsNone : judgedBy (entryHeld s) (endInterruption t) s.held = s.held := judgedBy_of_kept (fun c n => by
    rw [State.regIn_congr (s := s) (by rw [endInterruption_fields, hw]) (by rw [endInterruption_w15, hw15])]
    rfl) _
  cases ra : s.sr.ra with
  | true =>
    obtain ⟨hheld, hdiv⟩ := (endInterruption_ra_set (by rw [hsr, ra])).1 [] _ _ hh here (by simp)
    exact ⟨hheld.trans spoilsNone, nofun, fun _ => hdiv⟩
  | false =>
    obtain ⟨hdiv, hleaves, -⟩ := endInterruption_ra_clear (t := t) (by rw [hsr, ra])
    have hnone : (entryHeld s).div = none := by rw [entryHeld, ra]; rfl
    obtain ⟨hheld, -⟩ := hleaves [] _ _ hh here (by simp)
    exact ⟨(hheld (by simp [hnone])).trans spoilsNone, fun _ => hdiv, nofun⟩

/-- A `RETFIE` right after an entry. -/
theorem exec_retfie_entryNext (r : Request) (a : PAddr) (h : push2Ok s) (hw : s.w15.toNat + 4 < 65536)
    (hpc : s.pc.getLsbD 0 = false) (hp : s.trk.splimPrev = false) (hc : contextUnique s.dev s.cpuIpl) :
    exec .retfie (entryNext r a s) = .next (endInterruption (entryReturned r a s)) := by
  rw [← retfieRestored_entryNext r a h hpc]
  exact exec_retfie (pop2Ok_entryNext r a h hw hp) (by rw [top1_entryNext, poppedLevel_stacked]; exact hc)

/-- Settles O10: the popped words are those the entry stacked, and the interruption that ends is the entry's own. -/
theorem entryThenRetfie : Obligations.EntryThenRetfie := by
  intro r a s h hw hpc hp _ hc _
  obtain ⟨hheld, halone, hloop⟩ := endInterruption_entry (s := s) (t := entryReturned r a s) rfl rfl rfl rfl rfl
  have hrecord (ra : s.sr.ra = true) : (entryHeld s).div = s.div := if_pos ra
  refine ⟨_, exec_retfie_entryNext r a h hw hpc hp hc, endInterruption_fields _, hheld, fun hkept => ?kept,
    fun x ra hx hspoilt => ?spoilt⟩
  case kept =>
    cases ra : s.sr.ra with
    | false => exact (halone ra).trans (by simp [entryReturned, entryNext, ra])
    | true =>
      obtain ⟨hnone, hsome⟩ := hloop ra
      rw [hrecord ra] at hnone hsome
      cases hx : s.div with
      | none => exact hnone hx
      | some x => exact (hsome x hx).1 ⟨hkept.resolve_left (by simp [ra]) x hx, by simp⟩
  case spoilt =>
    exact ((hloop ra).2 x ((hrecord ra).trans hx)).2 (.inl hspoilt)

end Sys2Proof.Machine
end

section
/-!
PROOFS. The divides in a `REPEAT` loop: how the loop begins (R362, R363), what one iteration may write and what its record holds
(R300 to R302, R305, R307), and the result of the eighteenth (R303 to R306).
-/

namespace Sys2Proof.Machine

/-! ## `REPEAT` -/

/-- `REPEAT` with a count, 0 or not (R362, R363). -/
theorem repeatWith_eq (k : Word) (s : State) : repeatWith k s = .next { s with
    rcount := k, sr := { s.sr with ra := s.sr.ra || decide (k ≠ 0#16) }, pc := s.pc + 2#23
    div := if k = 0#16 then s.div else none } := by
  by_cases h : k = 0#16
  · simp only [repeatWith, h, if_true, ne_eq, not_true_eq_false, decide_false, Bool.or_false]
    rfl
  · simp only [repeatWith, h, if_false, ne_eq, not_false_eq_true, decide_true, Bool.or_true]
    rfl

/-- Settles O54: both forms are `repeatWith` of their count. -/
theorem repeatStarts : Obligations.RepeatStarts := by
  rintro i k s (⟨l, rfl, hk⟩ | ⟨r, rfl, rfl⟩)
  · obtain rfl : k = l.setWidth 16 :=
      BitVec.eq_of_toNat_eq (by rw [hk, BitVec.toNat_setWidth_of_le (by decide)])
    exact repeatWith_eq _ s
  · exact repeatWith_eq _ s

section
variable {s t u : State}

/-! ## What one iteration may write -/

/-- Only W0, W1, N, Z, OV, C and the count of free values differ (R302). -/
structure ResultOnly (s t : State) : Prop where
  rest : { t with w := s.w, sr := s.sr, fresh := s.fresh } = s
  regs : regsKept (fun x => x.val < 2) s t
  flags : t.sr = { s.sr with n := t.sr.n, z := t.sr.z, ov := t.sr.ov, c := t.sr.c }

/-- A register frame goes through a state with the same context. -/
theorem regsKept.trans {P : Reg → Prop} (h : regsKept P s t) (h' : regsKept P t u) (hc : t.cctxi = s.cctxi) :
    regsKept P s u :=
  ⟨fun c n hn hx => (h'.1 c n hn (hc ▸ hx)).trans (h.1 c n hn hx), fun hx => (h'.2 hx).trans (h.2 hx)⟩

theorem ResultOnly.cctxi (h : ResultOnly s t) : t.cctxi = s.cctxi := by rw [← h.rest]
theorem ResultOnly.pend (h : ResultOnly s t) : t.pend = s.pend := by rw [← h.rest]
theorem ResultOnly.intc (h : ResultOnly s t) : t.intc = s.intc := by rw [← h.rest]
theorem ResultOnly.held (h : ResultOnly s t) : t.held = s.held := by rw [← h.rest]
theorem ResultOnly.div (h : ResultOnly s t) : t.div = s.div := by rw [← h.rest]

theorem ResultOnly.dc (h : ResultOnly s t) : t.sr.dc = s.sr.dc := by rw [h.flags]

theorem ResultOnly.trans (h : ResultOnly s t) (h' : ResultOnly t u) : ResultOnly s u where
  rest := by rw [← h.rest, ← h'.rest]
  regs := h.regs.trans h'.regs h.cctxi
  flags := by rw [h'.flags, h.flags]

theorem ResultOnly.drawn (s : State) : ResultOnly s s.drawn := ⟨rfl, ⟨fun _ _ _ _ => rfl, fun _ => rfl⟩, rfl⟩

theorem ResultOnly.setFlags (n z ov c : Bool) (s : State) :
    ResultOnly s (s.setSr { s.sr with n := n, z := z, ov := ov, c := c }) :=
  ⟨rfl, ⟨fun _ _ _ _ => rfl, fun _ => rfl⟩, rfl⟩

theorem ResultOnly.setW {n : Reg} (hn : n.val < 2) (v : Word) (s : State) : ResultOnly s (s.setW n v) where
  rest := by
    rw [State.setW, dif_pos (by omega)]
    rfl
  regs := ((Frame.setW s n v).mono (R' := fun x => x.val < 2) (fun _ hx => hx ▸ hn) fun _ => id).2.1
  flags := by rw [State.setW_sr]

theorem ResultOnly.writeResult (q r : Word) (s : State) : ResultOnly s (writeResult q r s) :=
  (ResultOnly.setW (by decide) q s).trans (ResultOnly.setW (by decide) r _)

theorem ResultOnly.freeResult (s : State) : ResultOnly s (freeResult s) :=
  ((ResultOnly.writeResult _ _ s).trans (.drawn _)).trans (.drawn _)

theorem ResultOnly.freeFlags (s : State) : ResultOnly s (freeFlags s) :=
  ((((ResultOnly.setFlags _ _ _ _ s).trans (.drawn _)).trans (.drawn _)).trans (.drawn _)).trans (.drawn _)

theorem ResultOnly.resultFlags (k : DivKind) (rem : Word) (ov : Bool) (s : State) : ResultOnly s (resultFlags k rem ov s) :=
  (ResultOnly.setFlags _ _ _ _ s).trans (.drawn _)

theorem ResultOnly.divideResult (r : DivRec) (s : State) : ResultOnly s (divideResult r s) := by
  have hfree := ResultOnly.freeResult s
  unfold Machine.divideResult
  simp only
  split
  · exact hfree.trans (.freeFlags _)
  · split
    · exact (hfree.trans (.drawn _)).trans (.resultFlags ..)
    · split
      · exact hfree.trans (.resultFlags ..)
      · exact (ResultOnly.writeResult _ _ s).trans (.resultFlags ..)

/-- The state an iteration leaves, but for the record. -/
def iterationResult (r : DivRec) (s : State) : State :=
  if r.done + 1 < 18 then freeFlags (freeResult s) else divideResult { r with done := r.done + 1 } s

theorem iterate_eq (r : DivRec) (s : State) : iterate r s =
    (iterationResult r s).setDiv (some (recordNow { r with done := r.done + 1 } (iterationResult r s))) := rfl

theorem ResultOnly.iterationResult (r : DivRec) (s : State) : ResultOnly s (iterationResult r s) := by
  unfold Machine.iterationResult
  split
  · exact (ResultOnly.freeResult s).trans (.freeFlags _)
  · exact .divideResult _ s

/-- An iteration records what its result left. -/
theorem iterate_spec (r : DivRec) (s : State) : ∃ x, ResultOnly s x
    ∧ iterate r s = x.setDiv (some (recordNow { r with done := r.done + 1 } x)) :=
  ⟨_, .iterationResult r s, iterate_eq r s⟩

/-! ## What an execution may write -/

/-- Only W0, W1, N, Z, OV, C, the divide records, the count of free values, DIV0ERR and the MathError request differ (R300,
R305). -/
structure DivideFrame (s t : State) : Prop where
  rest : { t with
    w := s.w, sr := s.sr, intc := s.intc, pend := s.pend, div := s.div, held := s.held, fresh := s.fresh } = s
  regs : regsKept (fun x => x.val < 2) s t
  flags : t.sr = { s.sr with n := t.sr.n, z := t.sr.z, ov := t.sr.ov, c := t.sr.c }
  pend : t.pend = { s.pend with math := t.pend.math }
  intc : t.intc = { s.intc with div0err := t.intc.div0err }

theorem DivideFrame.cctxi (h : DivideFrame s t) : t.cctxi = s.cctxi := by rw [← h.rest]
theorem DivideFrame.pc (h : DivideFrame s t) : t.pc = s.pc := by rw [← h.rest]

theorem DivideFrame.trans (h : DivideFrame s t) (h' : DivideFrame t u) : DivideFrame s u where
  rest := by rw [← h.rest, ← h'.rest]
  regs := h.regs.trans h'.regs h.cctxi
  flags := by rw [h'.flags, h.flags]
  pend := by rw [h'.pend, h.pend]
  intc := by rw [h'.intc, h.intc]

theorem ResultOnly.frame (h : ResultOnly s t) : DivideFrame s t where
  rest := by rw [← h.rest]
  regs := h.regs
  flags := h.flags
  pend := by rw [← h.rest]
  intc := by rw [← h.rest]

theorem DivideFrame.setDiv (d : Option DivRec) (s : State) : DivideFrame s (s.setDiv d) :=
  ⟨rfl, ⟨fun _ _ _ _ => rfl, fun _ => rfl⟩, rfl, rfl, rfl⟩

theorem DivideFrame.setHeld (l : List Interrupted) (s : State) : DivideFrame s (s.setHeld l) :=
  ⟨rfl, ⟨fun _ _ _ _ => rfl, fun _ => rfl⟩, rfl, rfl, rfl⟩

/-- A zero divisor adds its status bit and request (R305). -/
theorem checkDivisor_eq (n : Reg) (s : State) : checkDivisor n s =
    (s.setIntc { s.intc with div0err := s.intc.div0err || decide (s.getW n = 0#16) }).setPend
      { s.pend with math := s.pend.math || decide (s.getW n = 0#16) } := by
  by_cases h : s.getW n = 0#16
  · simp only [checkDivisor, h, if_true, decide_true, Bool.or_true]
    rfl
  · simp only [checkDivisor, h, if_false, decide_false, Bool.or_false]
    rfl

theorem DivideFrame.checkDivisor (n : Reg) (s : State) : DivideFrame s (checkDivisor n s) := by
  rw [checkDivisor_eq]
  exact ⟨rfl, ⟨fun _ _ _ _ => rfl, fun _ => rfl⟩, rfl, rfl, rfl⟩

theorem DivideFrame.leaveDiv (s : State) : DivideFrame s (leaveDiv s) := by
  obtain ⟨l, e, -⟩ := leaveDiv_eq s
  rw [e]
  exact .setHeld l s

theorem DivideFrame.iterate (r : DivRec) (s : State) : DivideFrame s (iterate r s) := by
  rw [iterate_eq]
  exact (ResultOnly.iterationResult r s).frame.trans (.setDiv _ _)

theorem DivideFrame.divideStep (k : DivKind) (m n : Reg) (s : State) : DivideFrame s (divideStep k m n s) := by
  unfold Machine.divideStep
  split
  · split
    · exact (DivideFrame.checkDivisor n s).trans (.iterate _ _)
    · split
      · exact .iterate _ s
      · exact ((DivideFrame.leaveDiv s).trans (.checkDivisor n _)).trans (.iterate _ _)
  · exact ((DivideFrame.checkDivisor n s).trans ((ResultOnly.freeResult _).trans (.freeFlags _)).frame).trans (.setHeld _ _)

/-! ## The records by case -/

/-- A zero divisor of `W[n]`, and nothing else, has been recorded and MathError requested (R305). -/
def DivisorChecked (n : Reg) (s t : State) : Prop :=
  (t.pend.math = true ↔ s.pend.math = true ∨ s.getW n = 0#16)
    ∧ (t.intc.div0err = true ↔ s.intc.div0err = true ∨ s.getW n = 0#16)

theorem checkDivisor_checked (n : Reg) (s : State) : DivisorChecked n s (checkDivisor n s) := by
  rw [checkDivisor_eq]
  simp [DivisorChecked]

/-- `DivisorChecked` looks at the requests and the status bits only. -/
theorem DivisorChecked.congr {n : Reg} (h : DivisorChecked n s t) (hp : u.pend = t.pend) (hi : u.intc = t.intc) :
    DivisorChecked n s u := by
  unfold DivisorChecked
  rwa [hp, hi]

/-- The record `r` of `t` has latched the operands of a divide as `s` had them, at its first execution (R302). -/
def Latched (k : DivKind) (m n : Reg) (s : State) (r : DivRec) (t : State) : Prop :=
  r.kind = k ∧ r.m = m ∧ r.n = n ∧ r.born = s.fresh ∧ r.done = 1 ∧ r.divisor = s.getW n ∧ r.last = t.fresh
    ∧ r.ctx = t.cctxi ∧ (k = .sd ∨ k = .ud → r.dividend = s.getW (m + 1) ++ s.getW m)
    ∧ (k ≠ .sd → k ≠ .ud → r.dividend.toNat = (s.getW m).toNat)
    ∧ dutyKept r t

theorem dividendOf_single {k : DivKind} (hsd : k ≠ .sd) (hud : k ≠ .ud) (m : Reg) (s : State) :
    (dividendOf k m s).toNat = (s.getW m).toNat := by
  have h : dividendOf k m s = (s.getW m).setWidth 32 := by cases k <;> trivial
  rw [h, BitVec.toNat_setWidth_of_le (by decide)]

theorem dividendOf_double {k : DivKind} (h : k = .sd ∨ k = .ud) (m : Reg) (s : State) :
    dividendOf k m s = s.getW (m + 1) ++ s.getW m := by
  rcases h with rfl | rfl <;> rfl

/-- A new record that has had one iteration has latched, whatever it is worth. -/
theorem latched_recordNow (k : DivKind) (m n : Reg) (b : Bool) (s t : State) :
    Latched k m n s (recordNow { newRecord k m n s with done := 1, intact := b } t) t :=
  ⟨rfl, rfl, rfl, rfl, rfl, rfl, rfl, rfl, fun h => dividendOf_double h m s, fun h h' => dividendOf_single h h' m s,
    rfl, rfl, rfl, rfl, rfl⟩

theorem continues_iff {r : DivRec} {k : DivKind} {m n : Reg} :
    continues r k m n = true ↔ r.kind = k ∧ r.m = m ∧ r.n = n ∧ r.done < 18 := by
  simp [continues, and_assoc]

section
variable {k : DivKind} {m n : Reg}

/-- Outside a loop nothing is latched, and the divides of the interrupted loops are spoilt (R302). -/
theorem divideStep_alone (ra : s.sr.ra = false) : DivisorChecked n s (divideStep k m n s) ∧ (divideStep k m n s).div = s.div
    ∧ (divideStep k m n s).held = s.held.map Interrupted.spoil := by
  obtain ⟨x, hx, e⟩ : ∃ x, ResultOnly (checkDivisor n s) x
      ∧ divideStep k m n s = x.setHeld (s.held.map Interrupted.spoil) :=
    ⟨_, (ResultOnly.freeResult _).trans (.freeFlags _), if_neg (by simp [ra])⟩
  rw [e]
  exact ⟨(checkDivisor_checked n s).congr hx.pend hx.intc, by rw [State.setHeld_div, hx.div, checkDivisor_eq]; rfl, rfl⟩

/-- The first iteration of a new record, on a state where other records are held. -/
theorem iterate_new (b : Bool) (l : List Interrupted) (t : State)
    (ht : t = iterate { newRecord k m n s with intact := b } (checkDivisor n (s.setHeld l))) :
    DivisorChecked n s t ∧ t.held = l ∧ ∃ q, t.div = some q ∧ Latched k m n s q t ∧ q.intact = b := by
  obtain ⟨x, hx, e⟩ := iterate_spec { newRecord k m n s with intact := b } (checkDivisor n (s.setHeld l))
  subst ht
  rw [e]
  exact ⟨(checkDivisor_checked n (s.setHeld l)).congr hx.pend hx.intc,
    by rw [State.setDiv_held, hx.held, checkDivisor_eq]; rfl, _, rfl, latched_recordNow k m n b s x, rfl⟩

/-- The first execution in a loop latches (R302). -/
theorem divideStep_of_none (ra : s.sr.ra = true) (hd : s.div = none) :
    divideStep k m n s = iterate (newRecord k m n s) (checkDivisor n s) := by
  rw [divideStep, if_pos ra, hd]

/-- One that is no next iteration of the loop's divide latches with an open result. -/
theorem divideStep_of_not_continues {r : DivRec} (ra : s.sr.ra = true) (hd : s.div = some r)
    (h : r.kind ≠ k ∨ r.m ≠ m ∨ r.n ≠ n ∨ 18 ≤ r.done) :
    divideStep k m n s = iterate (newRecord k m n s).spoil (checkDivisor n (leaveDiv s)) := by
  have hc : ¬continues r k m n = true := by
    rw [continues_iff]
    rintro ⟨h1, h2, h3, h4⟩
    rcases h with h | h | h | h
    exacts [h h1, h h2, h h3, h.not_gt h4]
  rw [divideStep, if_pos ra, hd]
  exact if_neg hc

/-- A next iteration. -/
theorem divideStep_of_continues {r : DivRec} (ra : s.sr.ra = true) (hd : s.div = some r) (hk : r.kind = k) (hm : r.m = m)
    (hn : r.n = n) (hdone : r.done < 18) : divideStep k m n s = iterate { r with intact := r.intact && r.kept s } s := by
  rw [divideStep, if_pos ra, hd]
  exact if_pos (continues_iff.2 ⟨hk, hm, hn, hdone⟩)

/-- The records held after the running loop's divide `r` was left. -/
theorem leaveDiv_held {r : DivRec} (hd : s.div = some r) :
    leaveDiv s = s.setHeld (if r.done = 18 then s.held else spoiltSince r.born s.held) := by
  obtain ⟨l, e, hdone, hopen⟩ := leaveDiv_eq s
  rw [e]
  split
  · next h => rw [hdone fun q hq => by rw [hd] at hq; cases hq; exact h]
  · next h => rw [hopen r hd h]

/-- The first execution of a loop checks the divisor and latches the operands (R302, R305). -/
theorem divideStep_first (ra : s.sr.ra = true) (hd : s.div = none) : DivisorChecked n s (divideStep k m n s)
    ∧ (divideStep k m n s).held = s.held
    ∧ ∃ q, (divideStep k m n s).div = some q ∧ Latched k m n s q (divideStep k m n s) ∧ q.intact = true :=
  iterate_new true s.held _ (divideStep_of_none ra hd)

/-- So does one that is no next iteration, with an open result, and it leaves the divide before it. -/
theorem divideStep_anew {r : DivRec} (ra : s.sr.ra = true) (hd : s.div = some r)
    (h : r.kind ≠ k ∨ r.m ≠ m ∨ r.n ≠ n ∨ 18 ≤ r.done) : DivisorChecked n s (divideStep k m n s)
    ∧ (∃ q, (divideStep k m n s).div = some q ∧ Latched k m n s q (divideStep k m n s) ∧ q.intact = false)
    ∧ (divideStep k m n s).held = if r.done = 18 then s.held else spoiltSince r.born s.held := by
  obtain ⟨hchecked, hheld, hlatched⟩ :=
    iterate_new false _ _ (leaveDiv_held hd ▸ divideStep_of_not_continues ra hd h)
  exact ⟨hchecked, hlatched, hheld⟩

/-- A next iteration counts, and its record stays valid exactly if its registers were kept (R302). -/
theorem divideStep_next {r : DivRec} (ra : s.sr.ra = true) (hd : s.div = some r) (hk : r.kind = k) (hm : r.m = m)
    (hn : r.n = n) (hdone : r.done < 18) : ∃ x, ResultOnly s x ∧ divideStep k m n s =
      x.setDiv (some (recordNow { r with done := r.done + 1, intact := r.intact && r.kept s } x)) := by
  rw [divideStep_of_continues ra hd hk hm hn hdone]
  exact iterate_spec _ s

end

/-- The instruction `i` is the divide `k` of `W[m]` by `W[n]` (R300). -/
def IsDivide (i : Instr) (k : DivKind) (m n : Reg) : Prop :=
  (i = .divS false m n ∧ k = .sw) ∨ (i = .divS true m n ∧ k = .sd) ∨ (i = .divU false m n ∧ k = .uw)
    ∨ (i = .divU true m n ∧ k = .ud) ∨ (i = .divF m n ∧ k = .f)

theorem exec_divide {i : Instr} {k : DivKind} {m n : Reg} (h : IsDivide i k m n) (s : State) :
    exec i s = .next ((divideStep k m n s).advance 1) := by
  rcases h with ⟨rfl, rfl⟩ | ⟨rfl, rfl⟩ | ⟨rfl, rfl⟩ | ⟨rfl, rfl⟩ | ⟨rfl, rfl⟩ <;> rfl

/-- Settles O49: what an execution may write, and the record it leaves by the branches of `divideStep`. -/
theorem divideIteration : Obligations.DivideIteration := by
  intro i k m n s hi checked latched
  have hframe := DivideFrame.divideStep k m n s
  refine ⟨_, exec_divide hi s, ?pc, hframe.regs, hframe.flags, ?rest, hframe.pend, hframe.intc, divideStep_alone,
    fun ra => ⟨divideStep_first ra, fun r hd => ⟨fun hk hm hn hdone => ?next, divideStep_anew ra hd⟩⟩⟩
  case pc => rw [State.advance_pc, hframe.pc]
  case rest =>
    have hpc := hframe.pc
    have hrest := hframe.rest
    generalize divideStep k m n s = t at hpc hrest ⊢
    rw [← hpc]
    exact hrest
  case next =>
    obtain ⟨x, hx, e⟩ := divideStep_next ra hd hk hm hn hdone
    rw [e]
    refine ⟨hx.pend, hx.intc, hx.held, _, rfl, rfl, ⟨rfl, rfl, rfl, rfl, rfl⟩, ?_⟩
    exact (Bool.and_eq_true _ _).to_iff.trans (and_congr_right fun _ => r.kept_iff s)

/-! ## The result -/

theorem DivKind.signed_iff {k : DivKind} : k.signed = true ↔ k ≠ .uw ∧ k ≠ .ud := by cases k <;> simp [DivKind.signed]

theorem getW_writeResult (q r : Word) (s : State) : (writeResult q r s).getW 0 = q ∧ (writeResult q r s).getW 1 = r := by
  unfold writeResult
  rw [State.getW_setW_ne _ _ _ _ (by decide)]
  simp

/-- The eighteenth iteration writes W0 and W1, with OV of the quotient and N and Z of W1 (R303 to R306). -/
theorem divideResult_of_intact {r : DivRec} (h : r.intact = true) (s : State) : ∃ ov t,
    divideResult r s = resultFlags r.kind (t.getW 1) ov t ∧ (r.kind = .f ∨ r.divisor ≠ 0#16 → ov = divOverflow r)
      ∧ (r.divisor ≠ 0#16 → divOverflow r = false →
        t.getW 0 = BitVec.ofInt 16 (quotient r) ∧ t.getW 1 = BitVec.ofInt 16 (remainder r)) := by
  have hfree : (freeResult s).getW 1 = s.drawn.freeWord := (getW_writeResult _ _ s).2
  unfold divideResult
  simp only [h, Bool.not_true, Bool.false_eq_true, if_false]
  split
  · next hz =>
    obtain ⟨hk, hz⟩ := hz
    exact ⟨_, (freeResult s).drawn, by rw [State.getW_drawn, hfree], by simp [hk, hz], fun hd => absurd hz hd⟩
  · split
    · next ho => exact ⟨true, freeResult s, by rw [hfree], fun _ => ho.symm, fun _ hf => absurd (ho.symm.trans hf) nofun⟩
    · next ho =>
      have hw := getW_writeResult (BitVec.ofInt 16 (quotient r)) (BitVec.ofInt 16 (remainder r)) s
      exact ⟨false, _, by rw [hw.2], fun _ => (Bool.eq_false_iff.2 ho).symm, fun _ _ => hw⟩

theorem remainder_eq (r : DivRec) : remainder r = (dividendInt r).tmod (divisorInt r) := by
  rw [remainder, quotient, Int.tmod_def, mul_comm]

/-- The iteration after seventeen undisturbed ones writes the result (R301, R302). -/
theorem divideStep_last {r : DivRec} {k : DivKind} {m n : Reg} (ra : s.sr.ra = true) (hd : s.div = some r) (hk : r.kind = k)
    (hm : r.m = m) (hn : r.n = n) (hdone : r.done = 17) (hkept : dutyKept r s) :
    ∃ q, q.done = 18 ∧ divideStep k m n s = (divideResult r s).setDiv (some q) := by
  have hvalid : { r with intact := r.intact && r.kept s } = r := by rw [(r.kept_iff s).2 hkept, Bool.and_true]
  rw [divideStep_of_continues ra hd hk hm hn (by omega), hvalid, iterate_eq, iterationResult, hdone]
  exact ⟨_, rfl, rfl⟩

/-- Settles O50: the eighteenth iteration is `divideResult`, whose integers are those of the statement. (Primed: `divideResult` is
the model's function.) -/
theorem divideResult' : Obligations.DivideResult := by
  intro i k m n r s hi ra hd hk hm hn hdone hintact hkept a b fits
  have ha : dividendInt r = a := by cases k <;> simp only [dividendInt, hk, a]
  have hb : divisorInt r = b := by cases k <;> simp [divisorInt, hk, DivKind.signed, b]
  have hfits : divOverflow r = false ↔ fits := by cases k <;> simp [divOverflow, quotient, hk, ha, hb, fits]
  have honly := ResultOnly.divideResult r s
  obtain ⟨q, hq, hlast⟩ := divideStep_last ra hd hk hm hn hdone hkept
  obtain ⟨ov, x, hx, hov, hw⟩ := divideResult_of_intact hintact s
  rw [hx] at hlast honly
  refine ⟨((resultFlags r.kind (x.getW 1) ov x).setDiv (some q)).advance 1, hlast ▸ exec_divide hi s, ?pc, honly.dc,
    honly.pend, fun h => ?ov, beq_iff_eq, ?n, fun h0 h => ?result, q, rfl, hq⟩
  case pc => exact congrArg (· + 2#23) honly.frame.pc
  case ov =>
    rw [← hfits]
    exact (congrArg (· = false) (hov (hk ▸ h))).to_iff
  case n =>
    show (r.kind.signed && (x.getW 1).msb) = true ↔ k ≠ .uw ∧ k ≠ .ud ∧ (x.getW 1).toInt < 0
    rw [Bool.and_eq_true, DivKind.signed_iff, BitVec.msb_eq_toInt, decide_eq_true_iff, and_assoc, hk]
  case result =>
    obtain ⟨h1, h2⟩ := hw h0 (hfits.2 h)
    rw [← ha, ← hb]
    exact ⟨h1, h2.trans (by rw [remainder_eq])⟩

end

end Sys2Proof.Machine
end

section
/-!
PROOFS. The jumps that write the pc alone: `GOTO` (R320), `NOP` (R340) and the relative branches (R322).
-/

namespace Sys2Proof.Machine

variable {s : State} {i : Instr} {c : Status → Bool} {n : Word}

/-- Each relative branch is the shared one under its own condition (R322); `GT` and `GE` say "N equal to OV" where the condition
says "not different". -/
theorem exec_of_branchOf (h : branchOf i = some (c, n)) (s : State) : exec i s = branchIf (c s.sr) n s := by
  cases i
  case braGT =>
    cases h
    exact congrArg (fun e => branchIf (!s.sr.z && e) n s) (Bool.not_not _).symm
  case braGE =>
    cases h
    exact congrArg (branchIf · n s) (Bool.not_not _).symm
  all_goals cases h
  all_goals rfl

/-- A relative branch from an even address, as one write of the pc (R33, R322). -/
theorem branchIf_eq (h : s.pc.getLsbD 0 = false) (b : Bool) (n : Word) : branchIf b n s =
    .next (s.setPc (if b then s.pc + 2#23 + BitVec.ofInt 23 (2 * n.toInt) else s.pc + 2#23)) := by
  rw [← relTarget_eq h]
  cases b <;> rfl

/-- An instruction that writes the pc alone has the empty frame. -/
theorem setPc_runs {a : PAddr} (h : exec i s = .next (s.setPc a)) : Runs i s noRegs noBytes s.sr (s.setPc a) :=
  ⟨h, Frame.setPc s a, rfl⟩

/-- Settles O51: each of these instructions is one write of the pc, with its target by arithmetic. -/
theorem branches : Obligations.Branches := by
  refine fun s hpc => ⟨fun t => ?goto, setPc_runs rfl, fun i c n hi => ?branch⟩
  case goto =>
    rw [← addrOf_eq]
    exact setPc_runs rfl
  case branch => exact setPc_runs ((exec_of_branchOf hi s).trans (branchIf_eq hpc (c s.sr) n))

end Sys2Proof.Machine
end

section
/-!
PROOFS. What a step does after its instruction: the end of a `REPEAT` target's execution (R364, R366), the end of a `DO` loop (R374,
R376, R380) and the count of DISICNT (R405).
-/

namespace Sys2Proof.Machine

variable {s t u : State} {i : Instr} {a : PAddr}

/-! ## After the instruction -/

/-- Outside `DO` loops no check follows an instruction (R381, R382, R384). -/
theorem checkAfter_outside (h : t.cor.dl = 0#3) : checkAfter i s t = none := if_pos (.inl h)

/-- Where the checks after an instruction find nothing, the step ends in `finishStep`. -/
theorem conclude_next (h : t.cor.dl = 0#3 ∨ checkAfter i s t = none) (hf : finishStep i s t = u) :
    conclude i s (.next t) = .next u := by
  have hc : checkAfter i s t = none := h.elim checkAfter_outside id
  rw [conclude, hc, hf]

/-- While `REPEAT` goes on, or where no `DO` loop ends, the step only counts DISICNT (R364, R376, R405). -/
theorem finishStep_of_noLoopEnd (hr : repeatEnd s t = u) (h : u.sr.ra = true ∨ noLoopEnd i s.pc u) :
    finishStep i s t = { u with disicnt := disiLeft i u } := by
  subst hr
  rw [finishStep, disiCount_eq]
  generalize repeatEnd s t = u at h ⊢
  split
  · rfl
  · next hn =>
    simp only [Bool.or_eq_true, not_or, ← isFlow_iff, ← isReturn_iff] at hn
    obtain ⟨⟨hra, hflow⟩, hret⟩ := hn
    have hend : doEnd s.pc u = u := by
      refine if_neg fun ⟨hdl, hpc⟩ => ?_
      rcases h.resolve_left hra with h | h | h | h
      exacts [hdl h, h hpc, hflow h, hret h]
    rw [hend]

/-- Outside `REPEAT`, an instruction that does not write the pc is followed by `doEnd` (R376). -/
theorem finishStep_of_plain (hr : repeatEnd s t = u) (hra : u.sr.ra = false) (hflow : ¬flowControl i) (hret : ¬returns i) :
    finishStep i s t = { doEnd s.pc u with disicnt := disiLeft i (doEnd s.pc u) } := by
  rw [isFlow_iff] at hflow
  rw [isReturn_iff] at hret
  rw [finishStep, hr, disiCount_eq, if_neg (by simp [hra, hflow, hret])]

/-! ## The end of a `REPEAT` target's execution -/

theorem repeatEnd_of_not_running (h : s.sr.ra = false ∨ t.sr.ra = false) : repeatEnd s t = t :=
  if_neg (by rcases h with h | h <;> simp [h])

/-- The last execution ends the loop and leaves its divide (R302, R364). -/
theorem repeatEnd_ends (hs : s.sr.ra = true) (ht : t.sr.ra = true) (h : s.rcount = 0#16) :
    repeatEnd s t = ((leaveDiv t).setDiv none).setSr { t.sr with ra := false } := by
  rw [repeatEnd, hs, ht, if_pos h]
  rfl

/-- Any other counts RCOUNT and stays (R364, R366). -/
theorem repeatEnd_goes_on (hs : s.sr.ra = true) (ht : t.sr.ra = true) (h : s.rcount ≠ 0#16) :
    repeatEnd s t = (t.setRcount (t.rcount - 1#16)).setPc s.pc := by
  rw [repeatEnd, hs, ht, if_neg h]
  rfl

/-- Settles O7: `repeatEnd` changes nothing and `doEnd` does not act. -/
theorem outsideLoops : Obligations.OutsideLoops := fun _ _ _ hra hend hc =>
  conclude_next hc (finishStep_of_noLoopEnd (repeatEnd_of_not_running hra) hend)

/-- Settles O55: the two cases of `repeatEnd`; what the loop that ends spoils is `leaveDiv`. -/
theorem repeatMechanism : Obligations.RepeatMechanism := by
  refine fun i s t hs ht hc => ⟨fun h hend => ?ends, fun h => ?goes⟩
  case ends =>
    obtain ⟨g, hleave, hdone, hopen⟩ := leaveDiv_eq t
    have hr := repeatEnd_ends hs ht h
    rw [hleave] at hr
    exact ⟨g, conclude_next hc (finishStep_of_noLoopEnd hr (.inr hend)), hdone, hopen⟩
  case goes => exact conclude_next hc (finishStep_of_noLoopEnd (repeatEnd_goes_on hs ht h) (.inl ht))

/-! ## The end of a `DO` loop -/

/-- No outer loop: the registers stay. -/
theorem restoreLoop_outermost (h : t.cor.dl = 1#3) : restoreLoop t = t := by
  rw [restoreLoop, h]
  rfl

/-- The registers of the loop outside level `k + 2` come back (R63, R376). -/
theorem restoreLoop_nested (k : Fin 3) (h : t.cor.dl.toNat = k.val + 2) :
    restoreLoop t = t.setDo t.doStack[k].count t.doStack[k].start t.doStack[k].fin := by
  rw [restoreLoop, h]
  fin_cases k <;> rfl

/-- Another iteration (R374, R380). -/
theorem doEnd_repeats (hdl : t.cor.dl ≠ 0#3) (ha : a = addrOf t.doend) (hedt : t.edtPending = false) (hcount : t.dcount ≠ 0#16) :
    doEnd a t = { t with
      dcount := t.dcount - 1#16, pc := addrOf t.dostart, edtPending := t.edtLate, edtLate := false } := by
  rw [doEnd, if_pos ⟨hdl, ha⟩, if_neg (by simp [hedt, hcount]), hedt, Bool.false_or]

/-- The loop ends, by its count or by EDT (R376, R380). -/
theorem doEnd_terminates (hdl : t.cor.dl ≠ 0#3) (ha : a = addrOf t.doend) (h : t.edtPending = true ∨ t.dcount = 0#16) :
    doEnd a t = ({ restoreLoop t with edtPending := false, edtLate := false }.setCor
      { (restoreLoop t).cor with dl := (restoreLoop t).cor.dl - 1#3 }).setPc (a + 2#23) := by
  rw [doEnd, if_pos ⟨hdl, ha⟩, if_pos h]

/-- Settles O57: `doEnd` acts, and `restoreLoop` tells which registers come back. -/
theorem doEnds : Obligations.DoEnds := by
  intro i s t hs ht hflow hret hdl _ hpc hc
  have hfin := finishStep_of_plain (repeatEnd_of_not_running (.inl hs)) ht hflow hret
  rw [conclude_next (.inr hc) hfin]
  refine ⟨fun hedt hcount => ?repeats, fun h => ?terminates⟩
  case repeats =>
    rw [doEnd_repeats hdl hpc hedt hcount]
    rfl
  case terminates =>
    rw [doEnd_terminates hdl hpc h]
    refine ⟨_, rfl, ?frame, fun h1 => ?outermost, fun k hk => ?nested⟩
    case frame =>
      obtain ⟨c, b, e, he⟩ := restoreLoop_eq t
      rw [he]
      rfl
    case outermost =>
      rw [restoreLoop_outermost h1]
      exact ⟨rfl, rfl, rfl⟩
    case nested =>
      rw [restoreLoop_nested k hk]
      exact ⟨rfl, rfl, rfl⟩

end Sys2Proof.Machine
end

section
/-!
PROOFS. The request taken before an instruction (R428, R440, R441): a request goes before another in a total preorder, and the one
picked goes before every one that can be taken.
-/

namespace Sys2Proof.Machine

variable {s : State} {a b c r q : Request} {l : List Request}

/-! ## The order of the requests -/

theorem goesBefore_iff (a b : Request) : goesBefore a b = true ↔
    b.level < a.level ∨ (b.level = a.level ∧ a.source.entry ≤ b.source.entry) := by
  simp only [goesBefore, Bool.or_eq_true, Bool.and_eq_true, decide_eq_true_eq, eq_comm (a := a.level)]

theorem goesBefore_refl (a : Request) : goesBefore a a = true := (goesBefore_iff a a).2 (.inr ⟨rfl, le_rfl⟩)

theorem goesBefore_trans (hab : goesBefore a b = true) (hbc : goesBefore b c = true) : goesBefore a c = true := by
  rw [goesBefore_iff] at *
  rcases hab with hab | ⟨hab, hplace⟩ <;> rcases hbc with hbc | ⟨hbc, hplace'⟩
  · exact .inl (BitVec.lt_trans hbc hab)
  · exact .inl (hbc ▸ hab)
  · exact .inl (hab ▸ hbc)
  · exact .inr ⟨hbc.trans hab, hplace.trans hplace'⟩

/-- Of two requests one goes before the other. -/
theorem goesBefore_of_not (h : ¬goesBefore a b = true) : goesBefore b a = true := by
  rw [goesBefore_iff] at *
  simp only [BitVec.lt_def, ← BitVec.toNat_inj] at *
  omega

/-! ## The request picked -/

theorem pickRequest_eq_none : pickRequest l = none ↔ l = [] := by
  cases l with
  | nil => simp [pickRequest]
  | cons a t =>
    simp only [pickRequest, reduceCtorEq, iff_false]
    split
    · exact nofun
    · split <;> exact nofun

/-- The request picked is one of the list and goes before each of it. -/
theorem pickRequest_first (h : pickRequest l = some r) : r ∈ l ∧ ∀ q ∈ l, goesBefore r q = true := by
  induction l generalizing r with
  | nil => cases h
  | cons a t ih =>
    rw [pickRequest] at h
    split at h
    next hnone =>
      cases h
      simp [pickRequest_eq_none.1 hnone, goesBefore_refl]
    next b hb =>
      obtain ⟨hmem, hfirst⟩ := ih hb
      split at h
      next hab =>
        cases h
        exact ⟨.head t, List.forall_mem_cons.2 ⟨goesBefore_refl a, fun q hq => goesBefore_trans hab (hfirst q hq)⟩⟩
      next hab =>
        cases h
        exact ⟨.tail a hmem, List.forall_mem_cons.2 ⟨goesBefore_of_not hab, hfirst⟩⟩

/-! ## The request taken -/

theorem eligible_iff (s : State) (q : Request) :
    eligible s q = true ↔ s.cpuIpl < q.level ∧ (q.level ≤ 6#4 → s.disicnt = 0#14) := by
  simp only [eligible, Bool.and_eq_true, Bool.not_eq_true', Bool.and_eq_false_imp, decide_eq_true_eq, decide_eq_false_iff_not,
    not_not, ne_eq]

theorem mem_eligible_requests (s : State) (q : Request) : q ∈ (requests s).filter (eligible s) ↔
    presents s q ∧ s.cpuIpl < q.level ∧ (q.level ≤ 6#4 → s.disicnt = 0#14) := by
  rw [List.mem_filter, mem_requests, eligible_iff]

theorem step_takes (h : nextRequest s = some r) : step s = takeException r s := by rw [step, h]

/-- Settles O8: what is picked is a member of the eligible requests and goes before each of them; nothing is picked only from none. -/
theorem requestChosen : Obligations.RequestChosen := by
  refine fun s => ⟨fun r hr => ?taken, fun hnone q hq hcan => ?untaken⟩
  case taken =>
    obtain ⟨hmem, hfirst⟩ := pickRequest_first hr
    obtain ⟨hpresents, hlevel, hdisi⟩ := (mem_eligible_requests s r).1 hmem
    exact ⟨step_takes hr, hpresents, hlevel, hdisi, fun q hq hl hd =>
      (goesBefore_iff r q).1 (hfirst q ((mem_eligible_requests s q).2 ⟨hq, hl, hd⟩))⟩
  case untaken => exact List.eq_nil_iff_forall_not_mem.1 (pickRequest_eq_none.1 hnone) q ((mem_eligible_requests s q).2 ⟨hq, hcan⟩)

end Sys2Proof.Machine
end
